-- ==== Sys2Proof/Word.lean ====
section
/-! DEFINITION. The words and values of the core: the byte of a stream or buffer, and the carrier `Num` of every
sample-valued quantity (00_scope.md rules R7 and R9). -/

namespace Sys2Proof

/-- One unsigned 8-bit element of a byte stream or of a payload buffer (20_memory.md rule R71). -/
abbrev Byte := BitVec 8

/-- The spec's carrier type `Num` (00_scope.md rule R9). A carrier value is named by the rational number it stands
for; what the carrier's operations do with such values depends on the instance `PAR.NUMERICS` and is written in
Machine/Numeric.lean. (The spec's own name `Num` is a library type of Mathlib, hence the T.) -/
abbrev NumT := Rat

end Sys2Proof
end

