-- ==== Sys2Proof/Machine/Contracts.lean ====
section
/-! DEFINITION. The contracts that Config.lean sets on a carrier's root and arc tangents can be met: a function that meets
each, and why. None of these functions is the model's; they only show that the contracts are not empty. -/

namespace Sys2Proof.Machine

open Sys2Proof

/-! ### A root (00_scope.md rule R9, law N5) -/

/-- The root rounded down to an integer. -/
def floorRoot (x : NumT) : NumT := (Nat.sqrt ⌊x⌋.toNat : NumT)

theorem floorRoot_mono (x y : NumT) (h : x ≤ y) : floorRoot x ≤ floorRoot y := by
  unfold floorRoot
  exact_mod_cast Nat.sqrt_le_sqrt (Int.toNat_le_toNat (Int.floor_mono h))

theorem floorRoot_mul_self (n : ℕ) : floorRoot ((n : NumT) * n) = n := by
  unfold floorRoot
  have e : ⌊(n : NumT) * n⌋.toNat = n * n := by
    rw [← Nat.cast_mul, Int.floor_natCast, Int.toNat_natCast]
  rw [e, Nat.sqrt_eq]

/-! ### An angle (42_demodulator.md rule R192) -/

/-- The point where the direction of re + j·im meets the square |re| + |im| = 1, measured along its edge: −1 at −π/2,
0 at 0, 1 at π/2, 2 at π. -/
def diamondAngle (im re : NumT) : NumT :=
  if 0 ≤ im then 1 - re / (|re| + im) else re / (|re| - im) - 1

/-- The cross product of two directions no more than π apart is not negative. -/
theorem cross_nonneg {z w : ℂ} (h : z.arg ≤ w.arg) (hp : w.arg - z.arg ≤ Real.pi) :
    0 ≤ z.re * w.im - w.re * z.im := by
  have hs := Real.sin_nonneg_of_nonneg_of_le_pi (sub_nonneg.mpr h) hp
  rw [Real.sin_sub] at hs
  have hz1 := Complex.norm_mul_cos_arg z
  have hz2 := Complex.norm_mul_sin_arg z
  have hw1 := Complex.norm_mul_cos_arg w
  have hw2 := Complex.norm_mul_sin_arg w
  rw [← hz1, ← hz2, ← hw1, ← hw2]
  have := mul_nonneg (mul_nonneg (norm_nonneg z) (norm_nonneg w)) hs
  nlinarith

/-- The same for directions with rational components. -/
theorem cross_nonneg_rat {im re im' re' : NumT}
    (h : Complex.arg ⟨(re : ℝ), (im : ℝ)⟩ ≤ Complex.arg ⟨(re' : ℝ), (im' : ℝ)⟩)
    (hp : Complex.arg ⟨(re' : ℝ), (im' : ℝ)⟩ - Complex.arg ⟨(re : ℝ), (im : ℝ)⟩ ≤ Real.pi) :
    0 ≤ re * im' - re' * im := by
  have := cross_nonneg h hp
  simp only at this
  exact_mod_cast this

theorem den_pos_of_upper {im re : NumT} (h : im ≠ 0 ∨ re ≠ 0) (hi : 0 ≤ im) : 0 < |re| + im := by
  rcases h with h | h
  · have := abs_nonneg re
    have : 0 < im := lt_of_le_of_ne hi (Ne.symm h)
    linarith
  · have := abs_pos.mpr h
    linarith

theorem den_pos_of_lower {im re : NumT} (hi : im < 0) : 0 < |re| - im := by
  have := abs_nonneg re
  linarith

theorem diamondAngle_upper {im re : NumT} (h : im ≠ 0 ∨ re ≠ 0) (hi : 0 ≤ im) :
    0 ≤ diamondAngle im re ∧ diamondAngle im re ≤ 2 := by
  have hd := den_pos_of_upper h hi
  have h1 := le_abs_self re
  have h2 := neg_abs_le re
  rw [diamondAngle, if_pos hi]
  have a : re / (|re| + im) ≤ 1 := by rw [div_le_one hd]; linarith
  have b : -1 ≤ re / (|re| + im) := by rw [le_div_iff₀ hd]; linarith
  constructor <;> linarith

theorem diamondAngle_lower {im re : NumT} (hi : im < 0) :
    -2 < diamondAngle im re ∧ diamondAngle im re < 0 := by
  have hd := den_pos_of_lower (re := re) hi
  have h1 := le_abs_self re
  have h2 := neg_abs_le re
  rw [diamondAngle, if_neg (not_le.mpr hi)]
  have a : re / (|re| - im) < 1 := by rw [div_lt_one hd]; linarith
  have b : -1 < re / (|re| - im) := by rw [lt_div_iff₀ hd]; linarith
  constructor <;> linarith

/-- The measure grows with the true angle. -/
theorem diamondAngle_mono {im re im' re' : NumT} (hz : im ≠ 0 ∨ re ≠ 0) (hw : im' ≠ 0 ∨ re' ≠ 0)
    (h : Complex.arg ⟨(re : ℝ), (im : ℝ)⟩ < Complex.arg ⟨(re' : ℝ), (im' : ℝ)⟩) :
    diamondAngle im re ≤ diamondAngle im' re' := by
  by_cases hi : 0 ≤ im
  · have hi' : 0 ≤ im' := by
      have : 0 ≤ Complex.arg ⟨(re' : ℝ), (im' : ℝ)⟩ :=
        le_trans (Complex.arg_nonneg_iff.mpr (by simpa using hi)) h.le
      simpa using Complex.arg_nonneg_iff.mp this
    have c := cross_nonneg_rat h.le (by
      have a := Complex.arg_le_pi ⟨(re' : ℝ), (im' : ℝ)⟩
      have b : 0 ≤ Complex.arg ⟨(re : ℝ), (im : ℝ)⟩ := Complex.arg_nonneg_iff.mpr (by simpa using hi)
      linarith)
    rw [diamondAngle, diamondAngle, if_pos hi, if_pos hi']
    suffices re' / (|re'| + im') ≤ re / (|re| + im) by linarith
    rw [div_le_div_iff₀ (den_pos_of_upper hw hi') (den_pos_of_upper hz hi)]
    rcases le_total 0 re with r | r <;> rcases le_total 0 re' with r' | r'
    · rw [abs_of_nonneg r, abs_of_nonneg r']; nlinarith
    · rw [abs_of_nonneg r, abs_of_nonpos r']; nlinarith [mul_nonneg r hi', mul_nonneg (neg_nonneg.mpr r') hi, mul_nonneg r (neg_nonneg.mpr r')]
    · rw [abs_of_nonpos r, abs_of_nonneg r']
      have p1 := mul_nonneg (neg_nonneg.mpr r) hi'
      have p2 := mul_nonneg r' hi
      rcases eq_or_lt_of_le r' with e | r'
      · subst e; nlinarith
      rcases eq_or_lt_of_le r with e | r
      · subst e; nlinarith
      have e : im = 0 := by nlinarith
      subst e
      exfalso
      have : Complex.arg ⟨(re : ℝ), ((0 : NumT) : ℝ)⟩ = Real.pi :=
        Complex.arg_eq_pi_iff.mpr ⟨by simpa using r, by simp⟩
      rw [this] at h
      exact absurd h (not_lt.mpr (Complex.arg_le_pi _))
    · rw [abs_of_nonpos r, abs_of_nonpos r']; nlinarith
  · have hi := not_le.mp hi
    by_cases hi' : 0 ≤ im'
    · exact le_trans (diamondAngle_lower hi).2.le (diamondAngle_upper hw hi').1
    · have hi' := not_le.mp hi'
      have c := cross_nonneg_rat h.le (by
        have a : Complex.arg ⟨(re' : ℝ), (im' : ℝ)⟩ < 0 := Complex.arg_neg_iff.mpr (by simpa using hi')
        have b := Complex.neg_pi_lt_arg ⟨(re : ℝ), (im : ℝ)⟩
        linarith)
      rw [diamondAngle, diamondAngle, if_neg (not_le.mpr hi), if_neg (not_le.mpr hi')]
      suffices re / (|re| - im) ≤ re' / (|re'| - im') by linarith
      rw [div_le_div_iff₀ (den_pos_of_lower hi) (den_pos_of_lower hi')]
      rcases le_total 0 re with r | r <;> rcases le_total 0 re' with r' | r'
      · rw [abs_of_nonneg r, abs_of_nonneg r']; nlinarith
      · rw [abs_of_nonneg r, abs_of_nonpos r']
        have p1 := mul_nonneg r (neg_nonneg.mpr hi'.le)
        have p2 := mul_nonneg (neg_nonneg.mpr r') (neg_nonneg.mpr hi.le)
        have q1 : re = 0 := by nlinarith
        have q2 : re' = 0 := by nlinarith
        subst q1 q2; simp
      · rw [abs_of_nonpos r, abs_of_nonneg r']; nlinarith [mul_nonneg (neg_nonneg.mpr r) (neg_nonneg.mpr hi'.le), mul_nonneg r' (neg_nonneg.mpr hi.le), mul_nonneg (neg_nonneg.mpr r) r']
      · rw [abs_of_nonpos r, abs_of_nonpos r']; nlinarith

/-- Half the measure, and 0 at the origin: it meets every contract of an arc tangent over π. -/
def diamondArg (im re : NumT) : NumT := if im = 0 ∧ re = 0 then 0 else diamondAngle im re / 2

theorem diamondArg_origin : diamondArg 0 0 = 0 := by simp [diamondArg]

theorem diamondArg_eq {im re : NumT} (h : im ≠ 0 ∨ re ≠ 0) : diamondArg im re = diamondAngle im re / 2 :=
  if_neg fun e => h.elim (fun n => n e.1) fun n => n e.2

/-- Contract A1, without the value −1. -/
theorem diamondArg_range (im re : NumT) : -1 < diamondArg im re ∧ diamondArg im re ≤ 1 := by
  by_cases h : im = 0 ∧ re = 0
  · rw [h.1, h.2, diamondArg_origin]; constructor <;> norm_num
  · have h : im ≠ 0 ∨ re ≠ 0 := by tauto
    rw [diamondArg_eq h]
    by_cases hi : 0 ≤ im
    · have := diamondAngle_upper h hi
      constructor <;> linarith
    · have := diamondAngle_lower (re := re) (not_le.mp hi)
      constructor <;> linarith

/-- Contract A3. -/
theorem diamondArg_mono {im re im' re' : NumT} (hz : im ≠ 0 ∨ re ≠ 0) (hw : im' ≠ 0 ∨ re' ≠ 0)
    (h : Complex.arg ⟨(re : ℝ), (im : ℝ)⟩ < Complex.arg ⟨(re' : ℝ), (im' : ℝ)⟩) :
    diamondArg im re ≤ diamondArg im' re' := by
  have := diamondAngle_mono hz hw h
  rw [diamondArg_eq hz, diamondArg_eq hw]
  linarith

/-- Contract A2, below the real axis. -/
theorem diamondArg_neg_iff (im re : NumT) : diamondArg im re < 0 ↔ im < 0 := by
  by_cases h : im = 0 ∧ re = 0
  · rw [h.1, h.2, diamondArg_origin]
  · have h : im ≠ 0 ∨ re ≠ 0 := by tauto
    rw [diamondArg_eq h]
    constructor
    · intro hn
      by_contra hi
      have := diamondAngle_upper h (not_lt.mp hi)
      linarith
    · intro hi
      have := diamondAngle_lower (re := re) hi
      linarith

/-- Contract A2, above the real axis and on its negative half. -/
theorem diamondArg_pos_iff (im re : NumT) : 0 < diamondArg im re ↔ 0 < im ∨ im = 0 ∧ re < 0 := by
  rcases lt_trichotomy im 0 with hi | hi | hi
  · have := (diamondArg_neg_iff im re).mpr hi
    constructor
    · intro h; linarith
    · rintro (h | ⟨h, -⟩) <;> linarith
  · subst hi
    rcases lt_trichotomy re 0 with r | r | r
    · simp [diamondArg, diamondAngle, r.ne, r, abs_of_neg r]
    · subst r; simp [diamondArg_origin]
    · have : diamondArg 0 re = 0 := by simp [diamondArg, diamondAngle, r.ne', abs_of_pos r]
      simp [this, r.le]
  · have hd : 0 < |re| + im := by have := abs_nonneg re; linarith
    have : re / (|re| + im) < 1 := by rw [div_lt_one hd]; have := le_abs_self re; linarith
    rw [diamondArg_eq (.inl hi.ne'), diamondAngle, if_pos hi.le]
    simp only [hi, true_or, iff_true]
    linarith

/-- The fixed values of 42_demodulator.md rule R191. -/
theorem diamondArg_fixed (a : NumT) (h : 0 < a) :
    diamondArg a 0 = 1 / 2 ∧ diamondArg 0 (-a) = 1 ∧ diamondArg (-a) 0 = -1 / 2 ∧ diamondArg a a = 1 / 4 ∧
      diamondArg a (-a) = 3 / 4 ∧ diamondArg (-a) a = -1 / 4 ∧ diamondArg (-a) (-a) = -3 / 4 := by
  have n := h.ne'
  have n2 : a + a ≠ 0 := by linarith
  simp only [diamondArg, diamondAngle, abs_neg, abs_of_pos h, neg_eq_zero, n, abs_zero, Left.nonneg_neg_iff, h.le,
    not_le.mpr h, if_true, if_false, false_and, and_false, le_refl, sub_neg_eq_add]
  refine ⟨?_, ?_, ?_, ?_, ?_, ?_, ?_⟩ <;> field_simp <;> ring

end Sys2Proof.Machine
end

