-- ==== Sys2Proof/Config.lean ====
section
/-! DEFINITION. What an implementation of the core fixes (the record `PAR` of 00_scope.md rule R6) and the free
values: constants without a body, of which nothing can be proved but the contract that their type states. -/

namespace Sys2Proof

/-- Chain index `c`: `T` is the T1/C1 chain, `S` the S1 chain (00_scope.md section 4). -/
inductive Chain where
  | T
  | S
  deriving DecidableEq, Repr

/-- Synchronizer index `a`: `T2` is time-2, `RL` run-length (10_state.md rule R20). -/
inductive Syn where
  | T2
  | RL
  deriving DecidableEq, Repr

/-- The two channels of a sample pair (10_state.md rule R20). -/
inductive Chan where
  | I
  | Q
  deriving DecidableEq, Repr

/-- One value for each chain: the spec's `X[c]`. -/
structure PerChain (α : Type) where
  t : α
  s : α
  deriving DecidableEq, Repr

/-- `X[c]`. -/
def PerChain.get {α : Type} (p : PerChain α) (c : Chain) : α :=
  match c with
  | .T => p.t
  | .S => p.s

/-- Which instance of the carrier operations is built in (`PAR.NUMERICS`, 00_scope.md rule R9): the reference
instance of exact rationals, or any other one (floating point, saturating fixed point, …), whose rounding is free. -/
inductive Numerics where
  | rational
  | other (id : Nat)
  deriving DecidableEq, Repr

/-- `PAR.DC_OFFSET`: 127 or 127.5 (41_front_end.md rule R170). -/
inductive DcOffset where
  | d127
  | d127half
  deriving DecidableEq, Repr

/-- `PAR.FE_KIND` (41_front_end.md rule R173). -/
inductive FeKind where
  | mavg
  | fir
  | ppf
  deriving DecidableEq, Repr

/-- The constant record `PAR` (00_scope.md rule R6), field by field in the order of the rule's table. The three
`ARG_*` functions are selected by `numerics` (00_scope.md rule R9 counts them with the carrier's operations) and
are the free constants below. No operation writes a field of this record. -/
structure Par where
  /-- `NUMERICS` -/
  numerics : Numerics
  /-- `CHUNK_BYTES` -/
  chunkBytes : Nat
  /-- `DC_OFFSET` -/
  dcOffset : DcOffset
  /-- `FE_KIND` -/
  feKind : FeKind
  /-- `MAVG_LEN` -/
  mavgLen : Nat
  /-- `FE_FIR_B[c]`, of length `FE_FIR_N[c]` -/
  feFirB : PerChain (List NumT)
  /-- `PP_P` -/
  ppP : Nat
  /-- `PP_L[c]` -/
  ppL : PerChain Nat
  /-- `PP_COEF[c][p][k]` -/
  ppCoef : PerChain (List (List NumT))
  /-- `FS_N` -/
  fsN : Nat
  /-- `FS_STEP` -/
  fsStep : Nat
  /-- `FS_COS[k]` -/
  fsCos : List NumT
  /-- `FS_NSIN[k]` -/
  fsNsin : List NumT
  /-- `POST_B[c]`, of length `POST_N[c]` -/
  postB : PerChain (List NumT)
  /-- `DCB_K` -/
  dcbK : NumT
  /-- `POL[c]` -/
  pol : PerChain Bool
  /-- `RSSI_ALPHA` -/
  rssiAlpha : NumT
  /-- `T2_SECT[c]` -/
  t2Sect : PerChain Nat
  /-- `T2_B[c]` -/
  t2B : PerChain (List NumT)
  /-- `T2_A[c]` -/
  t2A : PerChain (List NumT)
  /-- `T2_GAIN[c]` -/
  t2Gain : PerChain NumT
  /-- `T2_CLK_TH` -/
  t2ClkTh : NumT
  /-- `T2_LOCK_N[c]` -/
  t2LockN : PerChain Nat
  /-- `DEGL_W[c]` -/
  deglW : PerChain Nat
  /-- `DEGL_TH[c]` -/
  deglTh : PerChain Nat
  /-- `RL_MIN_RUN[c]` -/
  rlMinRun : PerChain Nat
  /-- `NOM_BITLEN[c]` -/
  nomBitlen : PerChain Int
  /-- `RL_KP` -/
  rlKp : Int
  /-- `RL_KI` -/
  rlKi : Int
  /-- `ACC_CODE[c]` -/
  accCode : PerChain (BitVec 32)
  /-- `ACC_W[c]` -/
  accW : PerChain Nat
  /-- `ACC_TOL[c]` -/
  accTol : PerChain Nat
  /-- `RSSI_TH[c]` -/
  rssiTh : PerChain NumT
  /-- `DEC3OF6[64]`; `none` is the sentinel `INV` -/
  dec3of6 : List (Option (BitVec 4))
  /-- `C1_MODE_A` -/
  c1ModeA : BitVec 12
  /-- `C1_MODE_B` -/
  c1ModeB : BitVec 12
  /-- `C1_TRAILER` -/
  c1Trailer : BitVec 4
  /-- `MANCH[4]`; `none` is the sentinel `INV` -/
  manch : List (Option Bool)
  /-- `SUBST_NIB` -/
  substNib : BitVec 4
  /-- `SUBST_BIT` -/
  substBit : Bool
  /-- `LEN_A[256]` -/
  lenA : List Nat
  /-- `CRC_POLY` -/
  crcPoly : BitVec 16
  /-- `CAP` -/
  cap : Nat
  deriving DecidableEq, Repr

/-! ### Free values

Each is what 00_scope.md rule R9, 42_demodulator.md rule R192 or 46_system_ops.md rule R344 leaves to the
implementation or to the host. Machine/Numeric.lean applies them only where no law of the spec fixes the value. -/

/-- `add` of carrier instance `n` where laws N3 and N4 do not fix it (DESIGN CHOICE, log entry 2). -/
opaque Config.numAdd : Nat → NumT → NumT → NumT

/-- `sub` of carrier instance `n` where laws N3 and N4 do not fix it (DESIGN CHOICE, log entry 2). -/
opaque Config.numSub : Nat → NumT → NumT → NumT

/-- `mul` of carrier instance `n` where laws N3 and N4 do not fix it (DESIGN CHOICE, log entry 2). -/
opaque Config.numMul : Nat → NumT → NumT → NumT

/-- `div` of carrier instance `n` (no law fixes it; DESIGN CHOICE, log entry 2). -/
opaque Config.numDiv : Nat → NumT → NumT → NumT

/-- `neg` of carrier instance `n` (no law fixes it; DESIGN CHOICE, log entry 2). -/
opaque Config.numNeg : Nat → NumT → NumT

/-- `ofInt` of carrier instance `n` outside −32768..32767 (DESIGN CHOICE, log entry 2). -/
opaque Config.numOfInt : Nat → Int → NumT

/-- Which rationals carrier instance `n` can represent (42_demodulator.md rule R191 asks it). -/
opaque Config.numRepresents : Nat → NumT → Bool

/-- Division by zero in any carrier: no rule divides by zero (00_scope.md rule R8), so the value is free. -/
opaque Config.numDivZero : Numerics → NumT → NumT

/-- Whether the carrier represents `v`: all rationals in the reference instance; 0, 1 (law N1 of 00_scope.md rule R9)
and 1/2 (`half`) in every other, and whatever else that instance represents. -/
def numRepresents (k : Numerics) (v : NumT) : Bool :=
  match k with
  | .rational => true
  | .other n => decide (v = 0) || decide (v = 1) || decide (v = mkRat 1 2) || Config.numRepresents n v

/-- Law N5 of 00_scope.md rule R9 for the root of an instance: monotone, and exact on the perfect squares that law N4
covers, 0 among them (181² = 32761 is the last); the reference instance is exact on every perfect square. -/
structure RootLaw (k : Numerics) where
  toFun : NumT → NumT := Machine.floorRoot
  monotone : ∀ x y, x ≤ y → toFun x ≤ toFun y := by exact Machine.floorRoot_mono
  root : ∀ n : ℕ, k = .rational ∨ n ≤ 181 → toFun ((n : NumT) * n) = n := by
    exact fun n _ => Machine.floorRoot_mul_self n
  deriving Inhabited

/-- The true angle of re + j·im is less than that of re' + j·im', both being different from 0
(42_demodulator.md rule R192, contract A3): angles in (−π, π]. -/
def AngleLt (im re im' re' : NumT) : Prop :=
  (im ≠ 0 ∨ re ≠ 0) ∧ (im' ≠ 0 ∨ re' ≠ 0) ∧
    Complex.arg ⟨(re : ℝ), (im : ℝ)⟩ < Complex.arg ⟨(re' : ℝ), (im' : ℝ)⟩

/-- What 42_demodulator.md rules R191 and R192 ask of each `arg()/π` implementation, an approximation included:
contract A1 (range), contract A3 (monotone), and the value at (0, 0), where the angle is undefined. Contract A4 is "not
usable as an unconditional law" and is not asked. -/
structure ArgLaw where
  toFun : NumT → NumT → NumT := Machine.diamondArg
  range : ∀ im re, -1 ≤ toFun im re ∧ toFun im re ≤ 1 := by
    exact fun im re => ⟨(Machine.diamondArg_range im re).1.le, (Machine.diamondArg_range im re).2⟩
  monotone : ∀ im re im' re', AngleLt im re im' re' → toFun im re ≤ toFun im' re' := by
    exact fun _ _ _ _ h => Machine.diamondArg_mono h.1 h.2.1 h.2.2
  origin : toFun 0 0 = 0 := by exact Machine.diamondArg_origin
  deriving Inhabited

/-- What the same rules ask of `ARG_EXACT` beside: contract A2 (sign), the values on the eight directions wherever the
carrier represents them, and that the reference instance never returns −1. -/
structure ArgExactLaw (k : Numerics) where
  toFun : NumT → NumT → NumT := Machine.diamondArg
  range : ∀ im re, -1 ≤ toFun im re ∧ toFun im re ≤ 1 := by
    exact fun im re => ⟨(Machine.diamondArg_range im re).1.le, (Machine.diamondArg_range im re).2⟩
  monotone : ∀ im re im' re', AngleLt im re im' re' → toFun im re ≤ toFun im' re' := by
    exact fun _ _ _ _ h => Machine.diamondArg_mono h.1 h.2.1 h.2.2
  positive : ∀ im re, 0 < toFun im re ↔ 0 < im ∨ im = 0 ∧ re < 0 := by exact Machine.diamondArg_pos_iff
  negative : ∀ im re, toFun im re < 0 ↔ im < 0 := by exact Machine.diamondArg_neg_iff
  neverMinusOne : k = .rational → ∀ im re, toFun im re ≠ -1 := by
    exact fun _ im re => (Machine.diamondArg_range im re).1.ne'
  directions : ∀ a : NumT, 0 < a →
      toFun a 0 = 1 / 2 ∧ toFun 0 (-a) = 1 ∧
      (numRepresents k (-1 / 2) = true → toFun (-a) 0 = -1 / 2) ∧
      (numRepresents k (1 / 4) = true → toFun a a = 1 / 4) ∧
      (numRepresents k (3 / 4) = true → toFun a (-a) = 3 / 4) ∧
      (numRepresents k (-1 / 4) = true → toFun (-a) a = -1 / 4) ∧
      (numRepresents k (-3 / 4) = true → toFun (-a) (-a) = -3 / 4) := by
    exact fun a h => by
      obtain ⟨h1, h2, h3, h4, h5, h6, h7⟩ := Machine.diamondArg_fixed a h
      exact ⟨h1, h2, fun _ => h3, fun _ => h4, fun _ => h5, fun _ => h6, fun _ => h7⟩
  deriving Inhabited

/-- `sqrt` where its exact value is not a value of the carrier: a free function under law N5 (DESIGN CHOICE, log
entry 2). -/
opaque Config.numSqrt : (k : Numerics) → RootLaw k

/-- `ARG_EXACT` where 42_demodulator.md rule R191 fixes no value: a free function under its contract (DESIGN CHOICE,
log entry 2). -/
opaque Config.argExact : (k : Numerics) → ArgExactLaw k

/-- `ARG_FULL` (42_demodulator.md rules R192 and R193): a free function under the contract (DESIGN CHOICE, log
entry 2). -/
opaque Config.argFull : Numerics → ArgLaw

/-- `ARG_RESTR` (42_demodulator.md rules R192 and R194): a free function under the contract (DESIGN CHOICE, log
entry 2). -/
opaque Config.argRestr : Numerics → ArgLaw

/-- The host's answer to the n-th timestamp request since the run began: an oracle of which nothing is assumed
(46_system_ops.md rule R344). -/
opaque Config.hostClock : Nat → Nat

/-- `CRCCHK.B` on fewer than two bytes, where its pseudocode would read before the buffer (the rule's operand
range is 3 ≤ N ≤ 256, 45_crc_framing.md rule R314; DESIGN CHOICE, log entry 14). -/
opaque Config.crcchkBShort : List Byte → Bool

end Sys2Proof
end

