-- ==== Sys2Proof/Machine/Numeric.lean ====
section
/-! DEFINITION. The carrier `Num` and its operations (00_scope.md rule R9), and the three `arg()/π` functions
(42_demodulator.md rule R192).

The operations take the instance `PAR.NUMERICS`. The reference instance computes with exact rationals. Any other
instance gives what laws N1 to N5 and the spec's corner cases fix, and a free value (Config.lean) elsewhere: nothing
more about its rounding can be proved, and every claim holds for every rounding (log entry 2). -/

namespace Sys2Proof.Machine

open Sys2Proof

/-- The integers −32768..32767, on which laws N1 and N4 make every carrier exact. -/
def smallInt (x : NumT) : Bool := decide (x.den = 1) && decide (-32768 ≤ x.num) && decide (x.num ≤ 32767)

/-- `ofInt`, exact on −32768..32767 (law N1). -/
def numOfInt (k : Numerics) (i : Int) : NumT :=
  match k with
  | .rational => (i : Rat)
  | .other n => if smallInt (i : Rat) then (i : Rat) else Config.numOfInt n i

/-- `add`: `x + 0 = x` (law N3), exact on small integers (law N4), else free. That `0 + x = x` too is DEDUCED from
40_filter_library.md rule R142, which calls the impulse response exact on every carrier with law N3 although the
sum starts at 0 (log entry 2). -/
def numAdd (k : Numerics) (x y : NumT) : NumT :=
  match k with
  | .rational => x + y
  | .other n =>
    if y = 0 then x
    else if x = 0 then y
    else if smallInt x && smallInt y && smallInt (x + y) then x + y
    else Config.numAdd n x y

/-- `sub`: `x − x = 0` (law N3), exact on small integers (law N4), else free. That `x − 0 = x` is DEDUCED from the corner
cases of 41_front_end.md rule R171 (outputs equal to the input) and 42_demodulator.md rule R197 (a first output k·c), which
name no carrier (log entry 2). -/
def numSub (k : Numerics) (x y : NumT) : NumT :=
  match k with
  | .rational => x - y
  | .other n =>
    if x = y then 0
    else if y = 0 then x
    else if smallInt x && smallInt y && smallInt (x - y) then x - y
    else Config.numSub n x y

/-- `mul`: `x · 1 = x` and `x · 0 = 0` (law N3), exact on small integers (law N4), else free. That `0 · x = 0` too is
DEDUCED from 42_demodulator.md rules R191 ((im, re) = (0, 0) whenever a sample is exactly zero) and R197 (k = 0 gives 0
always), which name no carrier (log entry 2). -/
def numMul (k : Numerics) (x y : NumT) : NumT :=
  match k with
  | .rational => x * y
  | .other n =>
    if y = 1 then x
    else if x = 0 ∨ y = 0 then 0
    else if smallInt x && smallInt y && smallInt (x * y) then x * y
    else Config.numMul n x y

/-- `div`: exact in the reference instance, free elsewhere; by zero free everywhere, since no rule divides by zero
(00_scope.md rule R8). -/
def numDiv (k : Numerics) (x y : NumT) : NumT :=
  if y = 0 then Config.numDivZero k x
  else
    match k with
    | .rational => x / y
    | .other n => Config.numDiv n x y

/-- `neg`: exact in the reference instance, free elsewhere (no law speaks of it). -/
def numNeg (k : Numerics) (x : NumT) : NumT :=
  match k with
  | .rational => -x
  | .other n => Config.numNeg n x

/-- `half`, the value 1/2 (00_scope.md rule R9). -/
def numHalf : NumT := mkRat 1 2

/-- `lt`. Law N2 makes the order total and consistent with `ofInt`: it is read as the order of the rationals that
the carrier's values stand for (DEDUCED, log entry 2). -/
def numLt (x y : NumT) : Bool := decide (x < y)

/-- `le`: see `numLt`. -/
def numLe (x y : NumT) : Bool := decide (x ≤ y)

/-- Bit by bit from bit `k − 1` down: the largest `r'` ≥ `r` so formed with `r'² ≤ n`. -/
def isqrtFrom (n : Nat) : Nat → Nat → Nat
  | 0, r => r
  | k + 1, r => isqrtFrom n k (if (r + 2 ^ k) * (r + 2 ^ k) ≤ n then r + 2 ^ k else r)

/-- The integer square root. -/
def isqrt (n : Nat) : Nat := isqrtFrom n (n.log2 / 2 + 1) 0

/-- Whether `x` is the square of a rational. -/
def isRatSquare (x : NumT) : Bool :=
  decide (0 ≤ x.num) && decide (isqrt x.num.natAbs * isqrt x.num.natAbs = x.num.natAbs) &&
    decide (isqrt x.den * isqrt x.den = x.den)

/-- `sqrt` (law N5 of 00_scope.md rule R9): the reference instance is exact on the squares of rationals, any other on
the perfect squares that law N4 covers; elsewhere the value is free under law N5 (`RootLaw`). In `other n` the whole is
the function of the law. In the reference instance no total function is both exact there and monotone
(Laws/Numeric.lean), and the spec uses its root only where the result is rational: there law N5 holds between any two
arguments that are perfect squares of integers or no squares at all, and between any two squares (log entry 2). -/
def numSqrt (k : Numerics) (x : NumT) : NumT :=
  match k with
  | .rational => if isRatSquare x then mkRat (isqrt x.num.natAbs) (isqrt x.den) else (Config.numSqrt k).toFun x
  | .other _ =>
    if smallInt x && isRatSquare x then mkRat (isqrt x.num.natAbs) 1 else (Config.numSqrt k).toFun x

/-- `sum k=0..n-1 of f(k)`: the left fold from 0 (00_scope.md rule R10). -/
def numSum (k : Numerics) (n : Nat) (f : Nat → NumT) : NumT :=
  (List.range n).foldl (fun acc j => numAdd k acc (f j)) (numOfInt k 0)

/-- The value of arg(re + j·im)/π on the eight directions and at (0, 0) where 42_demodulator.md rule R191 fixes
it; `none` elsewhere. -/
def argFixed (im re : NumT) : Option NumT :=
  if im = 0 then (if numLt re 0 then some 1 else some 0)
  else if re = 0 then (if numLt 0 im then some (mkRat 1 2) else some (mkRat (-1) 2))
  else if im = re then (if numLt 0 im then some (mkRat 1 4) else some (mkRat (-3) 4))
  else if im = -re then (if numLt 0 im then some (mkRat 3 4) else some (mkRat (-1) 4))
  else none

/-- `ARG_EXACT` (42_demodulator.md rules R191 and R192): the fixed value where the carrier represents it, else a free
value; the whole is the function of the contract `ArgExactLaw`. -/
def argExact (k : Numerics) (im re : NumT) : NumT :=
  match argFixed im re with
  | some v => if numRepresents k v then v else (Config.argExact k).toFun im re
  | none => (Config.argExact k).toFun im re

/-- `ARG_FULL` (42_demodulator.md rules R192 and R193): a free value under the contract `ArgLaw`. -/
def argFull (k : Numerics) (im re : NumT) : NumT :=
  if im = 0 ∧ re = 0 then 0 else (Config.argFull k).toFun im re

/-- `ARG_RESTR` (42_demodulator.md rules R192 and R194): a free value under the contract `ArgLaw`. -/
def argRestr (k : Numerics) (im re : NumT) : NumT :=
  if im = 0 ∧ re = 0 then 0 else (Config.argRestr k).toFun im re

end Sys2Proof.Machine
end

