-- ==== Sys2Proof/Syntax.lean ====
section
/-! DEFINITION. The operations of the core, one constructor per row of spec/opcode_table.json, each with the
instance it acts on and its input token in the written form of 30_encoding.md rule R129
(`MNEMONIC instance, token`). -/

namespace Sys2Proof

/-- A `BIT` token (30_encoding.md rule R105): a decided bit, its access-code flag, and the RSSI beside it. -/
structure BitTok where
  b : Bool
  pre : Bool
  rssi : NumT
  deriving DecidableEq, Repr

/-- A `RAW` token (30_encoding.md rule R104). -/
structure RawTok where
  r : Bool
  d : NumT
  rssi : NumT
  deriving DecidableEq, Repr

/-- The FIR filter instances (10_state.md rule R23): the post-demodulation filter of a chain, a front-end filter,
or sub-filter `p` of a front-end polyphase filter. -/
inductive FirInst where
  | post (c : Chain)
  | fe (c : Chain) (x : Chan)
  | sub (c : Chain) (x : Chan) (p : Nat)
  deriving DecidableEq, Repr

/-- The telegram's mode tag (30_encoding.md rule R121). -/
inductive Mode where
  | T1
  | C1
  | S1
  deriving DecidableEq, Repr

/-- The 52 operations (30_encoding.md rule R127), in the order of their index. -/
inductive Instr where
  /-- 0x00 `RESET` -/
  | reset
  /-- 0x01 `CFG.LOAD w` -/
  | cfgLoad (w : BitVec 32)
  /-- 0x02 `CHUNK`: its bytes stand in the memory space `IN` (20_memory.md rule R71) -/
  | chunk
  /-- 0x03 `END k` -/
  | endStream (k : Nat)
  /-- 0x04 `TS.GET` -/
  | tsGet
  /-- 0x10 `FIR.STEP f, x` -/
  | firStep (f : FirInst) (x : NumT)
  /-- 0x11 `IIR.STEP ch[c].t2.bpf, x` -/
  | iirStep (c : Chain) (x : NumT)
  /-- 0x12 `PPF.STEP ch[c].fe[ch], x` -/
  | ppfStep (c : Chain) (ch : Chan) (x : NumT)
  /-- 0x13 `MAVG.STEP ch[c].fe[ch], x` -/
  | mavgStep (c : Chain) (ch : Chan) (x : NumT)
  /-- 0x20 `DCREM (I, Q)` -/
  | dcrem (i q : Byte)
  /-- 0x21 `FSPLIT fs, (i, q)` -/
  | fsplit (i q : NumT)
  /-- 0x22 `FE.LPF ch[c], (i, q)` -/
  | feLpf (c : Chain) (i q : NumT)
  /-- 0x23 `DECIM` -/
  | decim
  /-- 0x24 `SAMPLE.STEP (I, Q)` -/
  | sampleStep (i q : Byte)
  /-- 0x30 `PDISC.EXACT ch[c].pd, (i, q)` -/
  | pdiscExact (c : Chain) (i q : NumT)
  /-- 0x31 `PDISC.FULL ch[c].pd, (i, q)` -/
  | pdiscFull (c : Chain) (i q : NumT)
  /-- 0x32 `PDISC.RESTR ch[c].pd, (i, q)` -/
  | pdiscRestr (c : Chain) (i q : NumT)
  /-- 0x33 `PDISC.SIGN ch[c].pd, (i, q)` -/
  | pdiscSign (c : Chain) (i q : NumT)
  /-- 0x34 `POSTLPF ch[c], x` -/
  | postlpf (c : Chain) (x : NumT)
  /-- 0x35 `DCBLOCK ch[c].dcb, x` -/
  | dcblock (c : Chain) (x : NumT)
  /-- 0x36 `SLICE c, d` -/
  | slice (c : Chain) (d : NumT)
  /-- 0x37 `RSSI ch[c].rssi, (i, q)` -/
  | rssi (c : Chain) (i q : NumT)
  /-- 0x38 `DEMOD.STEP ch[c], (i, q)` -/
  | demodStep (c : Chain) (i q : NumT)
  /-- 0x40 `ACORR syn, c, b, rssi`, with `syn` = `ch[c].t2` or `ch[c].rl` -/
  | acorr (c : Chain) (a : Syn) (b : Bool) (r : NumT)
  /-- 0x41 `T2.STEP ch[c].t2, tok` -/
  | t2Step (c : Chain) (tok : RawTok)
  /-- 0x42 `DEGLITCH ch[c].rl, c, r` -/
  | deglitch (c : Chain) (r : Bool)
  /-- 0x43 `RL.STEP ch[T].rl, tok` -/
  | rlStep (tok : RawTok)
  /-- 0x44 `RL.RUN ch[T].rl, level, run, rssi` -/
  | rlRun (level : Bool) (run : Nat) (r : NumT)
  /-- 0x45 `RL.RESET ch[c].rl` -/
  | rlReset (c : Chain)
  /-- 0x46 `RLS1.STEP ch[S].rl, tok` -/
  | rls1Step (tok : RawTok)
  /-- 0x47 `RLS1.RUN ch[S].rl, level, run, rssi` -/
  | rls1Run (level : Bool) (run : Nat) (r : NumT)
  /-- 0x50 `T1C1.BIT ch[T].dec[a], bit` -/
  | t1c1Bit (a : Syn) (tok : BitTok)
  /-- 0x51 `T1C1.IDLE ch[T].dec[a], bit` -/
  | t1c1Idle (a : Syn) (tok : BitTok)
  /-- 0x52 `T1C1.LFIELD ch[T].dec[a], bit` -/
  | t1c1Lfield (a : Syn) (tok : BitTok)
  /-- 0x53 `T1C1.C1TRAILER ch[T].dec[a], bit` -/
  | t1c1C1trailer (a : Syn) (tok : BitTok)
  /-- 0x54 `T1C1.C1LEN ch[T].dec[a], bit` -/
  | t1c1C1len (a : Syn) (tok : BitTok)
  /-- 0x55 `T1C1.DATA_T1 ch[T].dec[a], bit` -/
  | t1c1DataT1 (a : Syn) (tok : BitTok)
  /-- 0x56 `T1C1.DATA_C1 ch[T].dec[a], bit` -/
  | t1c1DataC1 (a : Syn) (tok : BitTok)
  /-- 0x57 `T1C1.DONE ch[T].dec[a], bit` -/
  | t1c1Done (a : Syn) (tok : BitTok)
  /-- 0x58 `DEC.RESET ch[c].dec[a]` -/
  | decReset (c : Chain) (a : Syn)
  /-- 0x60 `S1.BIT ch[S].dec[a], bit` -/
  | s1Bit (a : Syn) (tok : BitTok)
  /-- 0x61 `S1.IDLE ch[S].dec[a], bit` -/
  | s1Idle (a : Syn) (tok : BitTok)
  /-- 0x62 `S1.LEN ch[S].dec[a], bit` -/
  | s1Len (a : Syn) (tok : BitTok)
  /-- 0x63 `S1.DATA ch[S].dec[a], bit` -/
  | s1Data (a : Syn) (tok : BitTok)
  /-- 0x64 `S1.DONE ch[S].dec[a], bit` -/
  | s1Done (a : Syn) (tok : BitTok)
  /-- 0x70 `CRC16 bytes` -/
  | crc16 (bytes : List Byte)
  /-- 0x71 `CRCCHK.A T, N`, N the number of bytes of `T` -/
  | crcchkA (t : List Byte)
  /-- 0x72 `CRCCHK.B T, N` -/
  | crcchkB (t : List Byte)
  /-- 0x73 `STRIP.A T, N` -/
  | stripA (t : List Byte)
  /-- 0x74 `STRIP.B T, N` -/
  | stripB (t : List Byte)
  /-- 0x75 `SERIAL P` -/
  | serial (p : List Byte)
  /-- 0x76 `EMIT ch[c].dec[a], mode` -/
  | emit (c : Chain) (a : Syn) (mode : Mode)
  deriving DecidableEq, Repr

end Sys2Proof
end

