-- ==== Sys2Proof/WellFormed.lean ====
section
/-! DEFINITION. Which operations are well formed: the operand ranges that the rules' Operands lines state and that
the types of Syntax.lean do not already enforce. A value that no rule excludes is well formed, such as a mode in `EMIT`
that the chain's own decoders never pass (log entry 21). -/

namespace Sys2Proof

/-- The operand range of the frame type A helpers: 3 ≤ N ≤ 290 (45_crc_framing.md rules R313 and R315). -/
def lengthOkA (t : List Byte) : Bool := decide (3 ≤ t.length) && decide (t.length ≤ 290)

/-- The operand range of the frame type B helpers: 3 ≤ N ≤ 256 (45_crc_framing.md rules R314 and R316). -/
def lengthOkB (t : List Byte) : Bool := decide (3 ≤ t.length) && decide (t.length ≤ 256)

/-- Well-formedness of an operation and its token. -/
def Instr.wellFormed (i : Instr) : Bool :=
  match i with
  | .reset | .cfgLoad _ | .chunk | .endStream _ | .tsGet => true
  | .firStep _ _ | .iirStep _ _ | .ppfStep _ _ _ | .mavgStep _ _ _ => true
  | .dcrem _ _ | .fsplit _ _ | .feLpf _ _ _ | .decim | .sampleStep _ _ => true
  | .pdiscExact _ _ _ | .pdiscFull _ _ _ | .pdiscRestr _ _ _ | .pdiscSign _ _ _ => true
  | .postlpf _ _ | .dcblock _ _ | .slice _ _ | .rssi _ _ _ | .demodStep _ _ _ => true
  | .acorr _ _ _ _ | .t2Step _ _ | .deglitch _ _ | .rlStep _ | .rlRun _ _ _ => true
  | .rlReset _ | .rls1Step _ | .rls1Run _ _ _ => true
  | .t1c1Bit _ _ | .t1c1Idle _ _ | .t1c1Lfield _ _ | .t1c1C1trailer _ _ => true
  | .t1c1C1len _ _ | .t1c1DataT1 _ _ | .t1c1DataC1 _ _ | .t1c1Done _ _ | .decReset _ _ => true
  | .s1Bit _ _ | .s1Idle _ _ | .s1Len _ _ | .s1Data _ _ | .s1Done _ _ => true
  | .crc16 _ => true
  | .crcchkA t => lengthOkA t
  | .crcchkB t => lengthOkB t
  | .stripA t => lengthOkA t
  | .stripB t => lengthOkB t
  | .serial _ => true
  | .emit _ _ _ => true

end Sys2Proof
end

