-- ==== Sys2Proof/Decode.lean ====
section
/-! DEFINITION. Reading an operation from a byte stream, and writing one. The first byte is the operation index of
30_encoding.md rule R127. The spec gives the tokens no bus representation (30_encoding.md rule R100: the layouts of
`SAMPLE`, `BIT` and `CFG` are offered, a `Num` has none), so the bytes after the index are the model's own layout
(DESIGN CHOICE, log entry 4), built on the offered layouts: `SAMPLE` as I then Q, `BIT` as b in bit 0 and pre in
bit 1 (rule R105), `CFG` as its 32-bit word, low byte first (rule R123). Every layout reads zero bytes as a zero
token and gives each operation one encoding only. -/

namespace Sys2Proof

/-- Why bytes are no operation. All are refusals of the host's request: nothing of the core changes. -/
inductive DecodeError where
  /-- there is no byte to read -/
  | noOperation
  /-- an index that 30_encoding.md rule R127 does not list (rule R126: a model refuses it) -/
  | unassignedIndex (b : Byte)
  /-- the bytes end inside an operand -/
  | truncated
  /-- a reserved bit or code of an operand byte is used -/
  | reservedCode
  /-- a number is not written in its shortest form -/
  | notMinimal
  /-- a fraction is not written in lowest terms -/
  | notReduced
  /-- an operand is outside the range its rule states -/
  | operandRange
  deriving DecidableEq, Repr

/-- What reading one item answers: the item and the bytes after it. -/
abbrev Parse (α : Type) := Except DecodeError (α × List Byte)

/-- Go on reading after an item. -/
def andThen {α β : Type} (r : Parse α) (f : α → List Byte → Parse β) : Parse β :=
  match r with
  | .ok (a, rest) => f a rest
  | .error e => .error e

/-! ### Reading operands -/

/-- One byte. -/
def getByte (bs : List Byte) : Parse Byte :=
  match bs with
  | [] => .error .truncated
  | b :: rest => .ok (b, rest)

/-- One bit in a byte of its own: bits 7:1 are reserved and zero. -/
def getBit (bs : List Byte) : Parse Bool :=
  andThen (getByte bs) fun b rest =>
    if b = 0#8 then .ok (false, rest)
    else if b = 1#8 then .ok (true, rest)
    else .error .reservedCode

/-- A chain: 0 is T, 1 is S. -/
def getChain (bs : List Byte) : Parse Chain :=
  andThen (getBit bs) fun b rest => .ok (if b then .S else .T, rest)

/-- A synchronizer: 0 is time-2, 1 is run-length, the codes of the field `alg` (30_encoding.md rule R121). -/
def getSyn (bs : List Byte) : Parse Syn :=
  andThen (getBit bs) fun b rest => .ok (if b then .RL else .T2, rest)

/-- A channel: 0 is I, 1 is Q. -/
def getChan (bs : List Byte) : Parse Chan :=
  andThen (getBit bs) fun b rest => .ok (if b then .Q else .I, rest)

/-- An unbounded natural: seven bits a byte, lowest first, bit 7 says that another byte follows. -/
def getNat : List Byte → Parse Nat
  | [] => .error .truncated
  | b :: rest =>
    if b.toNat < 128 then .ok (b.toNat, rest)
    else
      match getNat rest with
      | .error e => .error e
      | .ok (n, rest') => if n = 0 then .error .notMinimal else .ok (b.toNat - 128 + 128 * n, rest')

/-- An integer from the natural that numbers it: 0, −1, 1, −2, 2, … -/
def intOfCode (n : Nat) : Int := if n % 2 = 0 then (n / 2 : Nat) else -((n / 2 : Nat) : Int) - 1

/-- A carrier value: its numerator, then its denominator less one, in lowest terms. -/
def getNum (bs : List Byte) : Parse NumT :=
  andThen (getNat bs) fun n r1 =>
    andThen (getNat r1) fun d r2 =>
      if Nat.gcd (intOfCode n).natAbs (d + 1) = 1 then .ok (mkRat (intOfCode n) (d + 1), r2)
      else .error .notReduced

/-- `n` bytes. -/
def getBytes : Nat → List Byte → Parse (List Byte)
  | 0, bs => .ok ([], bs)
  | n + 1, bs =>
    match bs with
    | [] => .error .truncated
    | b :: rest =>
      match getBytes n rest with
      | .error e => .error e
      | .ok (t, rest') => .ok (b :: t, rest')

/-- A byte sequence: its length less `low`, then its bytes. -/
def getSeq (low : Nat) (bs : List Byte) : Parse (List Byte) :=
  andThen (getNat bs) fun n rest => getBytes (n + low) rest

/-- A `BIT` token: bit 0 = b, bit 1 = pre, bits 7:2 zero (30_encoding.md rule R105), then the RSSI. -/
def getBitTok (bs : List Byte) : Parse BitTok :=
  andThen (getByte bs) fun x r1 =>
    if x.toNat < 4 then andThen (getNum r1) fun r r2 => .ok (⟨x.getLsbD 0, x.getLsbD 1, r⟩, r2)
    else .error .reservedCode

/-- A `RAW` token: r, then d, then the RSSI (30_encoding.md rule R104). -/
def getRawTok (bs : List Byte) : Parse RawTok :=
  andThen (getBit bs) fun r r1 =>
    andThen (getNum r1) fun d r2 =>
      andThen (getNum r2) fun x r3 => .ok (⟨r, d, x⟩, r3)

/-- A FIR instance: kind 0 post-filter, 1 front-end filter, 2 polyphase sub-filter; then its path. -/
def getFirInst (bs : List Byte) : Parse FirInst :=
  andThen (getByte bs) fun k r1 =>
    andThen (getChain r1) fun c r2 =>
      if k = 0#8 then .ok (.post c, r2)
      else if k = 1#8 then andThen (getChan r2) fun x r3 => .ok (.fe c x, r3)
      else if k = 2#8 then
        andThen (getChan r2) fun x r3 => andThen (getNat r3) fun p r4 => .ok (.sub c x p, r4)
      else .error .reservedCode

/-- A telegram mode: 0 T1, 1 C1, 2 S1; 3 is unused (30_encoding.md rules R121 and R126). -/
def getMode (bs : List Byte) : Parse Mode :=
  andThen (getByte bs) fun m rest =>
    if m = 0#8 then .ok (.T1, rest)
    else if m = 1#8 then .ok (.C1, rest)
    else if m = 2#8 then .ok (.S1, rest)
    else .error .reservedCode

/-- The 32-bit configuration word (30_encoding.md rule R123), low byte first. -/
def getCfgWord (bs : List Byte) : Parse (BitVec 32) :=
  andThen (getByte bs) fun b0 r1 =>
    andThen (getByte r1) fun b1 r2 =>
      andThen (getByte r2) fun b2 r3 =>
        andThen (getByte r3) fun b3 r4 => .ok (b3 ++ b2 ++ b1 ++ b0, r4)

/-- A `SAMPLE` token (30_encoding.md rule R101), I first as in the stream (20_memory.md rule R74). -/
def getSample (f : Byte → Byte → Instr) (bs : List Byte) : Parse Instr :=
  andThen (getByte bs) fun i r1 => andThen (getByte r1) fun q r2 => .ok (f i q, r2)

/-- An `IQ` token (30_encoding.md rule R103). -/
def getIq (f : NumT → NumT → Instr) (bs : List Byte) : Parse Instr :=
  andThen (getNum bs) fun i r1 => andThen (getNum r1) fun q r2 => .ok (f i q, r2)

/-- A chain, then an `IQ` token. -/
def getChainIq (f : Chain → NumT → NumT → Instr) (bs : List Byte) : Parse Instr :=
  andThen (getChain bs) fun c rest => getIq (f c) rest

/-- A chain, then one carrier value. -/
def getChainNum (f : Chain → NumT → Instr) (bs : List Byte) : Parse Instr :=
  andThen (getChain bs) fun c r1 => andThen (getNum r1) fun x r2 => .ok (f c x, r2)

/-- A chain and a channel, then one carrier value. -/
def getFeNum (f : Chain → Chan → NumT → Instr) (bs : List Byte) : Parse Instr :=
  andThen (getChain bs) fun c r1 =>
    andThen (getChan r1) fun x r2 => andThen (getNum r2) fun v r3 => .ok (f c x v, r3)

/-- A run-length run: its level, its length in samples, the RSSI to attach (43_bit_sync.md rule R226). -/
def getRun (f : Bool → Nat → NumT → Instr) (bs : List Byte) : Parse Instr :=
  andThen (getBit bs) fun l r1 =>
    andThen (getNat r1) fun n r2 => andThen (getNum r2) fun x r3 => .ok (f l n x, r3)

/-- A decoder's synchronizer, then a `BIT` token. -/
def getDecBit (f : Syn → BitTok → Instr) (bs : List Byte) : Parse Instr :=
  andThen (getSyn bs) fun a r1 => andThen (getBitTok r1) fun t r2 => .ok (f a t, r2)

/-- One byte sequence. -/
def getSeqInstr (low : Nat) (f : List Byte → Instr) (bs : List Byte) : Parse Instr :=
  andThen (getSeq low bs) fun t rest => .ok (f t, rest)

/-! ### The decoder -/

/-- The operands of the operation whose index is `op` (30_encoding.md rule R127). -/
def decodeOperands (op : Byte) (bs : List Byte) : Parse Instr :=
  match op.toNat with
  | 0x00 => .ok (.reset, bs)
  | 0x01 => andThen (getCfgWord bs) fun w rest => .ok (.cfgLoad w, rest)
  | 0x02 => .ok (.chunk, bs)
  | 0x03 => andThen (getNat bs) fun k rest => .ok (.endStream k, rest)
  | 0x04 => .ok (.tsGet, bs)
  | 0x10 => andThen (getFirInst bs) fun f r1 => andThen (getNum r1) fun x r2 => .ok (.firStep f x, r2)
  | 0x11 => getChainNum .iirStep bs
  | 0x12 => getFeNum .ppfStep bs
  | 0x13 => getFeNum .mavgStep bs
  | 0x20 => getSample .dcrem bs
  | 0x21 => getIq .fsplit bs
  | 0x22 => getChainIq .feLpf bs
  | 0x23 => .ok (.decim, bs)
  | 0x24 => getSample .sampleStep bs
  | 0x30 => getChainIq .pdiscExact bs
  | 0x31 => getChainIq .pdiscFull bs
  | 0x32 => getChainIq .pdiscRestr bs
  | 0x33 => getChainIq .pdiscSign bs
  | 0x34 => getChainNum .postlpf bs
  | 0x35 => getChainNum .dcblock bs
  | 0x36 => getChainNum .slice bs
  | 0x37 => getChainIq .rssi bs
  | 0x38 => getChainIq .demodStep bs
  | 0x40 =>
    andThen (getChain bs) fun c r1 =>
      andThen (getSyn r1) fun a r2 =>
        andThen (getBit r2) fun b r3 => andThen (getNum r3) fun x r4 => .ok (.acorr c a b x, r4)
  | 0x41 => andThen (getChain bs) fun c r1 => andThen (getRawTok r1) fun t r2 => .ok (.t2Step c t, r2)
  | 0x42 => andThen (getChain bs) fun c r1 => andThen (getBit r1) fun r r2 => .ok (.deglitch c r, r2)
  | 0x43 => andThen (getRawTok bs) fun t rest => .ok (.rlStep t, rest)
  | 0x44 => getRun .rlRun bs
  | 0x45 => andThen (getChain bs) fun c rest => .ok (.rlReset c, rest)
  | 0x46 => andThen (getRawTok bs) fun t rest => .ok (.rls1Step t, rest)
  | 0x47 => getRun .rls1Run bs
  | 0x50 => getDecBit .t1c1Bit bs
  | 0x51 => getDecBit .t1c1Idle bs
  | 0x52 => getDecBit .t1c1Lfield bs
  | 0x53 => getDecBit .t1c1C1trailer bs
  | 0x54 => getDecBit .t1c1C1len bs
  | 0x55 => getDecBit .t1c1DataT1 bs
  | 0x56 => getDecBit .t1c1DataC1 bs
  | 0x57 => getDecBit .t1c1Done bs
  | 0x58 => andThen (getChain bs) fun c r1 => andThen (getSyn r1) fun a r2 => .ok (.decReset c a, r2)
  | 0x60 => getDecBit .s1Bit bs
  | 0x61 => getDecBit .s1Idle bs
  | 0x62 => getDecBit .s1Len bs
  | 0x63 => getDecBit .s1Data bs
  | 0x64 => getDecBit .s1Done bs
  | 0x70 => getSeqInstr 0 .crc16 bs
  | 0x71 => getSeqInstr 3 .crcchkA bs
  | 0x72 => getSeqInstr 3 .crcchkB bs
  | 0x73 => getSeqInstr 3 .stripA bs
  | 0x74 => getSeqInstr 3 .stripB bs
  | 0x75 => getSeqInstr 0 .serial bs
  | 0x76 =>
    andThen (getChain bs) fun c r1 =>
      andThen (getSyn r1) fun a r2 => andThen (getMode r2) fun m r3 => .ok (.emit c a m, r3)
  | _ => .error (.unassignedIndex op)

/-- The operation at the head of a byte stream, and the bytes after it; an operand outside its rule's range is
rejected (WellFormed.lean). -/
def decode (bs : List Byte) : Parse Instr :=
  match bs with
  | [] => .error .noOperation
  | op :: rest =>
    andThen (decodeOperands op rest) fun i rest' =>
      if i.wellFormed then .ok (i, rest') else .error .operandRange

/-! ### The encoder -/

/-- The operation index (30_encoding.md rule R127). -/
def Instr.index (i : Instr) : Byte :=
  match i with
  | .reset => 0x00#8
  | .cfgLoad _ => 0x01#8
  | .chunk => 0x02#8
  | .endStream _ => 0x03#8
  | .tsGet => 0x04#8
  | .firStep _ _ => 0x10#8
  | .iirStep _ _ => 0x11#8
  | .ppfStep _ _ _ => 0x12#8
  | .mavgStep _ _ _ => 0x13#8
  | .dcrem _ _ => 0x20#8
  | .fsplit _ _ => 0x21#8
  | .feLpf _ _ _ => 0x22#8
  | .decim => 0x23#8
  | .sampleStep _ _ => 0x24#8
  | .pdiscExact _ _ _ => 0x30#8
  | .pdiscFull _ _ _ => 0x31#8
  | .pdiscRestr _ _ _ => 0x32#8
  | .pdiscSign _ _ _ => 0x33#8
  | .postlpf _ _ => 0x34#8
  | .dcblock _ _ => 0x35#8
  | .slice _ _ => 0x36#8
  | .rssi _ _ _ => 0x37#8
  | .demodStep _ _ _ => 0x38#8
  | .acorr _ _ _ _ => 0x40#8
  | .t2Step _ _ => 0x41#8
  | .deglitch _ _ => 0x42#8
  | .rlStep _ => 0x43#8
  | .rlRun _ _ _ => 0x44#8
  | .rlReset _ => 0x45#8
  | .rls1Step _ => 0x46#8
  | .rls1Run _ _ _ => 0x47#8
  | .t1c1Bit _ _ => 0x50#8
  | .t1c1Idle _ _ => 0x51#8
  | .t1c1Lfield _ _ => 0x52#8
  | .t1c1C1trailer _ _ => 0x53#8
  | .t1c1C1len _ _ => 0x54#8
  | .t1c1DataT1 _ _ => 0x55#8
  | .t1c1DataC1 _ _ => 0x56#8
  | .t1c1Done _ _ => 0x57#8
  | .decReset _ _ => 0x58#8
  | .s1Bit _ _ => 0x60#8
  | .s1Idle _ _ => 0x61#8
  | .s1Len _ _ => 0x62#8
  | .s1Data _ _ => 0x63#8
  | .s1Done _ _ => 0x64#8
  | .crc16 _ => 0x70#8
  | .crcchkA _ => 0x71#8
  | .crcchkB _ => 0x72#8
  | .stripA _ => 0x73#8
  | .stripB _ => 0x74#8
  | .serial _ => 0x75#8
  | .emit _ _ _ => 0x76#8

/-- The byte of a bit. -/
def putBit (b : Bool) : List Byte := [if b then 1#8 else 0#8]

/-- The byte of a chain. -/
def putChain (c : Chain) : List Byte :=
  match c with
  | .T => [0#8]
  | .S => [1#8]

/-- The byte of a synchronizer. -/
def putSyn (a : Syn) : List Byte :=
  match a with
  | .T2 => [0#8]
  | .RL => [1#8]

/-- The byte of a channel. -/
def putChan (x : Chan) : List Byte :=
  match x with
  | .I => [0#8]
  | .Q => [1#8]

/-- `putNat` with fuel for the number of bytes. -/
def putNatFuel : Nat → Nat → List Byte
  | 0, n => [BitVec.ofNat 8 n]
  | f + 1, n =>
    if n < 128 then [BitVec.ofNat 8 n] else BitVec.ofNat 8 (128 + n % 128) :: putNatFuel f (n / 128)

/-- The bytes of a natural: see `getNat`. -/
def putNat (n : Nat) : List Byte := putNatFuel (n.log2 + 1) n

/-- The natural that numbers an integer: see `intOfCode`. -/
def codeOfInt (i : Int) : Nat := if 0 ≤ i then 2 * i.natAbs else 2 * i.natAbs - 1

/-- The bytes of a carrier value: see `getNum`. -/
def putNum (x : NumT) : List Byte := putNat (codeOfInt x.num) ++ putNat (x.den - 1)

/-- The bytes of a byte sequence: see `getSeq`. -/
def putSeq (low : Nat) (t : List Byte) : List Byte := putNat (t.length - low) ++ t

/-- The bytes of a `BIT` token. -/
def putBitTok (t : BitTok) : List Byte :=
  BitVec.ofNat 8 (t.b.toNat + 2 * t.pre.toNat) :: putNum t.rssi

/-- The bytes of a `RAW` token. -/
def putRawTok (t : RawTok) : List Byte := putBit t.r ++ putNum t.d ++ putNum t.rssi

/-- The bytes of a FIR instance. -/
def putFirInst (f : FirInst) : List Byte :=
  match f with
  | .post c => 0#8 :: putChain c
  | .fe c x => 1#8 :: (putChain c ++ putChan x)
  | .sub c x p => 2#8 :: (putChain c ++ putChan x ++ putNat p)

/-- The byte of a mode. -/
def putMode (m : Mode) : List Byte :=
  match m with
  | .T1 => [0#8]
  | .C1 => [1#8]
  | .S1 => [2#8]

/-- The bytes of a configuration word. -/
def putCfgWord (w : BitVec 32) : List Byte :=
  [w.extractLsb' 0 8, w.extractLsb' 8 8, w.extractLsb' 16 8, w.extractLsb' 24 8]

/-- The operand bytes of an operation. -/
def encodeOperands (i : Instr) : List Byte :=
  match i with
  | .reset => []
  | .cfgLoad w => putCfgWord w
  | .chunk => []
  | .endStream k => putNat k
  | .tsGet => []
  | .firStep f x => putFirInst f ++ putNum x
  | .iirStep c x => putChain c ++ putNum x
  | .ppfStep c ch x => putChain c ++ putChan ch ++ putNum x
  | .mavgStep c ch x => putChain c ++ putChan ch ++ putNum x
  | .dcrem i q => [i, q]
  | .fsplit i q => putNum i ++ putNum q
  | .feLpf c i q => putChain c ++ putNum i ++ putNum q
  | .decim => []
  | .sampleStep i q => [i, q]
  | .pdiscExact c i q => putChain c ++ putNum i ++ putNum q
  | .pdiscFull c i q => putChain c ++ putNum i ++ putNum q
  | .pdiscRestr c i q => putChain c ++ putNum i ++ putNum q
  | .pdiscSign c i q => putChain c ++ putNum i ++ putNum q
  | .postlpf c x => putChain c ++ putNum x
  | .dcblock c x => putChain c ++ putNum x
  | .slice c d => putChain c ++ putNum d
  | .rssi c i q => putChain c ++ putNum i ++ putNum q
  | .demodStep c i q => putChain c ++ putNum i ++ putNum q
  | .acorr c a b r => putChain c ++ putSyn a ++ putBit b ++ putNum r
  | .t2Step c t => putChain c ++ putRawTok t
  | .deglitch c r => putChain c ++ putBit r
  | .rlStep t => putRawTok t
  | .rlRun l n r => putBit l ++ putNat n ++ putNum r
  | .rlReset c => putChain c
  | .rls1Step t => putRawTok t
  | .rls1Run l n r => putBit l ++ putNat n ++ putNum r
  | .t1c1Bit a t => putSyn a ++ putBitTok t
  | .t1c1Idle a t => putSyn a ++ putBitTok t
  | .t1c1Lfield a t => putSyn a ++ putBitTok t
  | .t1c1C1trailer a t => putSyn a ++ putBitTok t
  | .t1c1C1len a t => putSyn a ++ putBitTok t
  | .t1c1DataT1 a t => putSyn a ++ putBitTok t
  | .t1c1DataC1 a t => putSyn a ++ putBitTok t
  | .t1c1Done a t => putSyn a ++ putBitTok t
  | .decReset c a => putChain c ++ putSyn a
  | .s1Bit a t => putSyn a ++ putBitTok t
  | .s1Idle a t => putSyn a ++ putBitTok t
  | .s1Len a t => putSyn a ++ putBitTok t
  | .s1Data a t => putSyn a ++ putBitTok t
  | .s1Done a t => putSyn a ++ putBitTok t
  | .crc16 t => putSeq 0 t
  | .crcchkA t => putSeq 3 t
  | .crcchkB t => putSeq 3 t
  | .stripA t => putSeq 3 t
  | .stripB t => putSeq 3 t
  | .serial p => putSeq 0 p
  | .emit c a m => putChain c ++ putSyn a ++ putMode m

/-- The bytes of a well-formed operation: its index, then its operands. -/
def encode (i : Instr) : List Byte := i.index :: encodeOperands i

/-! ### Reading a row of the table -/

/-- The bytes of a word of `n` bytes whose bit 0 is the least significant bit of the first byte. -/
def wordBytes : Nat → Nat → List Byte
  | 0, _ => []
  | n + 1, w => BitVec.ofNat 8 w :: wordBytes n (w / 256)

/-- The bytes of a table word followed by operand bytes of zeros: sixteen are more than any operation whose operand
bytes are all zero can use. -/
def tableBytes (nbits w : Nat) : List Byte := wordBytes (nbits / 8) w ++ List.replicate 16 0#8

/-- The operation the decoder reads from the table word `w` of `nbits` bits, every later bit being 0. -/
def decodeTableWord (nbits w : Nat) : Option Instr :=
  match decode (tableBytes nbits w) with
  | .ok (i, _) => some i
  | .error _ => none

/-- The bytes of `bs` that the operation at its head takes; all of them where there is none. -/
def headBytes (bs : List Byte) : List Byte :=
  match decode bs with
  | .ok (_, rest) => bs.take (bs.length - rest.length)
  | .error _ => bs

end Sys2Proof
end

