-- ==== Sys2Proof/Machine/Regs.lean ====
section
/-! DEFINITION. The registers of each block instance (10_state.md rules R20 to R37), the tokens an operation hands
out (30_encoding.md section 1) and the events of a trace (60_exceptions.md rule R351). Plain data. -/

namespace Sys2Proof.Machine

open Sys2Proof

/-- A byte memory: (address, byte) pairs, addresses strictly rising, no listed byte 0. An unlisted address reads as
0, the reset value of every `buf[i]` (10_state.md rule R36). -/
abbrev Memory := List Host.Cell

/-- FIR state (10_state.md rule R23). -/
structure Fir where
  hist : List NumT
  w : Nat
  deriving DecidableEq, Repr

/-- IIR state: three taps a section (10_state.md rule R24). -/
structure Iir where
  h : List NumT
  deriving DecidableEq, Repr

/-- Polyphase state (10_state.md rule R25). -/
structure Ppf where
  ph : Nat
  acc : NumT
  sub : List Fir
  deriving DecidableEq, Repr

/-- Moving-average state (10_state.md rule R26). -/
structure Mavg where
  hist : List NumT
  w : Nat
  sum : NumT
  deriving DecidableEq, Repr

/-- A front-end filter instance `ch[c].fe[x]`: the state of each kind. `FE.LPF` steps only the kind `PAR.FE_KIND`
names; the other two keep their reset value (10_state.md rule R20; log entry 5). -/
structure Fe where
  mavg : Mavg
  fir : Fir
  ppf : Ppf
  deriving DecidableEq, Repr

/-- Polar discriminator state (10_state.md rule R29). -/
structure Pdisc where
  ip : NumT
  qp : NumT
  deriving DecidableEq, Repr

/-- Demodulated-signal DC-removal state (10_state.md rule R30). -/
structure Dcb where
  x1 : NumT
  y1 : NumT
  deriving DecidableEq, Repr

/-- RSSI smoother state (10_state.md rule R31). -/
structure RssiReg where
  y : NumT
  deriving DecidableEq, Repr

/-- What one chain holds from its front-end filters to its slicer (10_state.md rule R20). -/
structure Front where
  feI : Fe
  feQ : Fe
  pd : Pdisc
  post : Fir
  dcb : Dcb
  rssi : RssiReg
  deriving DecidableEq, Repr

/-- Time-2 synchronizer state (10_state.md rule R32). -/
structure T2Reg where
  bpf : Iir
  clkPrev : Bool
  lock : Nat
  sr : BitVec 32
  deriving DecidableEq, Repr

/-- Run-length synchronizer state, T1/C1 form (10_state.md rule R33). `acc` is a word of `DEGL_W[T]` bits, newest bit in
bit 0 (43_bit_sync.md rule R224; 7 bits at the default width, log entry 9). -/
structure RlT where
  acc : Nat
  lvlPrev : Bool
  run : Nat
  bitlen : Int
  esum : Int
  sr : BitVec 32
  deriving DecidableEq, Repr

/-- Run-length synchronizer state, S1 form (10_state.md rule R34). `acc` is a word of `DEGL_W[S]` bits (43_bit_sync.md
rule R224; 6 bits at the default width, log entry 9). -/
structure RlS where
  acc : Nat
  lvlPrev : Bool
  run : Nat
  spb0 : Int
  spb1 : Int
  sr : BitVec 32
  deriving DecidableEq, Repr

/-- A completion timestamp: the null timestamp, used only as a reset value, or a value of the host's
(10_state.md rule R48). -/
inductive Timestamp where
  | null
  | host (v : Nat)
  deriving DecidableEq, Repr

/-- State index of a T1/C1 decoder (10_state.md rule R38). Code 7 is never produced and has no constructor. -/
inductive StT where
  | idle
  | lfield
  | c1Trailer
  | c1Len
  | dataT1
  | dataC1
  | done
  deriving DecidableEq, Repr

/-- State index of an S1 decoder (10_state.md rule R38). -/
inductive StS where
  | idle
  | len
  | data
  | done
  deriving DecidableEq, Repr

/-- T1/C1 decoder state (10_state.md rule R36). -/
structure DecT where
  st : StT
  cnt : BitVec 4
  reg : BitVec 12
  L : Byte
  total : Nat
  len : Nat
  buf : Memory
  ts : Timestamp
  rssiPre : NumT
  rssiEnd : NumT
  symErr : Bool
  crcOk : Bool
  isC1 : Bool
  isB : Bool
  deriving DecidableEq, Repr

/-- S1 decoder state (10_state.md rule R37). -/
structure DecS where
  st : StS
  cnt : BitVec 4
  half : Bool
  reg : BitVec 8
  L : Byte
  total : Nat
  len : Nat
  buf : Memory
  ts : Timestamp
  rssiPre : NumT
  rssiEnd : NumT
  symErr : Bool
  crcOk : Bool
  deriving DecidableEq, Repr

/-- The T1/C1 chain `ch[T]` (10_state.md rule R20). -/
structure ChainT where
  fr : Front
  t2 : T2Reg
  rl : RlT
  decT2 : DecT
  decRl : DecT
  deriving DecidableEq, Repr

/-- The S1 chain `ch[S]` (10_state.md rule R20). -/
structure ChainS where
  fr : Front
  t2 : T2Reg
  rl : RlS
  decT2 : DecS
  decRl : DecS
  deriving DecidableEq, Repr

/-! ### Tokens -/

/-- A `TELEGRAM` record (30_encoding.md rule R121). `alg` is 1 (true) for run-length. -/
structure Telegram where
  mode : Mode
  frameB : Bool
  alg : Bool
  crcOk : Bool
  symErr : Bool
  ts : Timestamp
  rssiPre : NumT
  rssiEnd : NumT
  serial : BitVec 32
  plen : Nat
  payload : List Byte
  deriving DecidableEq, Repr

/-- What an operation returns or emits: one constructor per kind of output in the table's formats. -/
inductive Token where
  /-- `CFG.LOAD`: accepted (true) or refused -/
  | status (accepted : Bool)
  | timestamp (t : Timestamp)
  | num (x : NumT)
  | iq (i q : NumT)
  /-- a bit or Boolean: `DECIM`, `SLICE`, `DEGLITCH`, `CRCCHK.*` -/
  | bit (b : Bool)
  | bitTok (t : BitTok)
  | telegram (t : Telegram)
  | u16 (w : BitVec 16)
  | u32 (w : BitVec 32)
  | bytes (bs : List Byte)
  deriving DecidableEq, Repr

/-! ### Events -/

/-- The nine events (60_exceptions.md rule R351). -/
inductive Event where
  | symbol
  | crc
  | lfield
  | trailer
  | rssi
  | sync
  | cap
  | cfg
  | trunc
  deriving DecidableEq, Repr

/-- One entry of a model's trace (60_exceptions.md rule R351): the event, and for codes 1 to 7 the chain, the
synchronizer and the decoder's (`st`, `cnt`, `len`) at that moment. -/
structure EventRec where
  ev : Event
  src : Option (Chain × Syn)
  st : Nat
  cnt : Nat
  len : Nat
  deriving DecidableEq, Repr

/-- What passes between the core and the host while an operation runs: the records handed out, the trace of events
(the model's own; the hardware stores none, 60_exceptions.md rule R367), and the number of timestamps asked for. -/
structure Io where
  out : List Telegram
  events : List EventRec
  tsCount : Nat
  deriving DecidableEq, Repr

/-- The host's phase (46_system_ops.md rule R345), kept outside the core's own registers. -/
inductive Phase where
  | configuring
  | running
  | ended
  deriving DecidableEq, Repr

end Sys2Proof.Machine
end

