-- ==== Sys2Proof/Machine/Tables.lean ====
section
/-! DEFINITION. The code tables and constants of 30_encoding.md section 3: the defaults of the `PAR` fields that
have one, and the two tables derived from `PAR` fields. -/

namespace Sys2Proof.Machine

open Sys2Proof

/-- The default `DEC3OF6` (30_encoding.md rule R110): eight rows for codeword bits 5:3, eight columns for 2:0. -/
def dec3of6Default : List (Option (BitVec 4)) :=
  [none, none, none, none, none, none, none, none] ++
  [none, none, none, some 0x3, none, some 0x1, some 0x2, none] ++
  [none, none, none, some 0x7, none, none, some 0x0, none] ++
  [none, some 0x5, some 0x6, none, some 0x4, none, none, none] ++
  [none, none, none, some 0xB, none, some 0x9, some 0xA, none] ++
  [none, some 0xF, none, none, some 0x8, none, none, none] ++
  [none, some 0xD, some 0xE, none, some 0xC, none, none, none] ++
  [none, none, none, none, none, none, none, none]

/-- The default `MANCH` (30_encoding.md rule R113). -/
def manchDefault : List (Option Bool) := [none, some true, some false, none]

/-- The number of blocks of a frame type A telegram (30_encoding.md rule R116): 1 for L ≤ 9, else
1 + ceil((L − 9) / 16). -/
def blockCount (l : Nat) : Nat := if l ≤ 9 then 1 else 1 + (l - 9 + 15) / 16

/-- The formula of the default `LEN_A` (30_encoding.md rule R116). -/
def lenAFormula (l : Nat) : Nat := l + 1 + 2 * blockCount l

/-- The default `LEN_A`. -/
def lenADefault : List Nat := (List.range 256).map lenAFormula

/-- A quarter wave of the cosine, 2^15 · cos(2πk/64) rounded to an integer, k = 0..16 (DESIGN CHOICE, log entry 3). -/
def cosQuarter : List Int :=
  [32768, 32610, 32138, 31357, 30274, 28899, 27246, 25330, 23170, 20788, 18205, 15447, 12540, 9512, 6393, 3212, 0]

/-- 2^15 · cos(2πk/64) for every k, by the symmetries of the cosine. -/
def cosEntry (k : Nat) : Int :=
  let j := k % 64
  if j ≤ 16 then cosQuarter.getD j 0
  else if j ≤ 32 then -cosQuarter.getD (32 - j) 0
  else if j ≤ 48 then -cosQuarter.getD (j - 32) 0
  else cosQuarter.getD (64 - j) 0

/-- `FS_COS` at reset: the intended cosine (41_front_end.md rule R171) to 15 binary places. -/
def fsCosDefault : List NumT := (List.range 64).map fun k => mkRat (cosEntry k) 32768

/-- `FS_NSIN` at reset: the intended −sin, a cosine a quarter turn on. -/
def fsNsinDefault : List NumT := (List.range 64).map fun k => mkRat (cosEntry (k + 16)) 32768

/-- One of the eight steps that make an entry of `CRCTAB` (30_encoding.md rule R119). -/
def crcShift (poly c : BitVec 16) : BitVec 16 :=
  if c.getLsbD 15 then (c <<< 1) ^^^ poly else c <<< 1

/-- `CRCTAB[i]`, derived from `CRC_POLY` (30_encoding.md rule R119). -/
def crcTab (poly : BitVec 16) (i : Byte) : BitVec 16 :=
  let c := i ++ 0#8
  crcShift poly (crcShift poly (crcShift poly (crcShift poly
    (crcShift poly (crcShift poly (crcShift poly (crcShift poly c)))))))

/-- The population count of a word (00_scope.md rule R7). -/
def popcount {n : Nat} (w : BitVec n) : Nat := (List.range n).countP fun i => w.getLsbD i

/-- `DEGLITCH[c][w]` for a window `w` of `width` = `DEGL_W[c]` bits, derived from `th` = `DEGL_TH[c]`
(30_encoding.md rule R118). -/
def deglitchTab (width th w : Nat) : Bool := decide (th ≤ (List.range width).countP fun i => w.testBit i)

end Sys2Proof.Machine
end

