-- ==== Sys2Proof/Machine/Reset.lean ====
section
/-! DEFINITION. The values `RESET` gives every register (10_state.md rule R49), and the instance of `PAR` that the
machine is built with. -/

namespace Sys2Proof.Machine

open Sys2Proof

/-- The `PAR` instance of `State.reset`: every default of 00_scope.md rule R6, and for the OPEN fields the values of
instance I0 and of the vectors of 95_test_vectors.md (DESIGN CHOICE, log entry 3). No statement rests on it: a
statement about every state holds for every `PAR`. -/
def parInitial : Par where
  numerics := .rational
  chunkBytes := 4096
  dcOffset := .d127
  feKind := .mavg
  mavgLen := 2
  feFirB := ⟨[2, 3, 5], [2, 3, 5]⟩
  ppP := 2
  ppL := ⟨2, 2⟩
  ppCoef := ⟨[[3, 1], [4, 2]], [[3, 1], [4, 2]]⟩
  fsN := 64
  fsStep := 13
  fsCos := fsCosDefault
  fsNsin := fsNsinDefault
  postB := ⟨[mkRat 1 2, mkRat 1 2], [mkRat 1 2, mkRat 1 2]⟩
  dcbK := mkRat 1 2
  pol := ⟨false, false⟩
  rssiAlpha := mkRat 1 2
  t2Sect := ⟨1, 1⟩
  t2B := ⟨[1, 0, -1], [1, 0, -1]⟩
  t2A := ⟨[1, 0, 0], [1, 0, 0]⟩
  t2Gain := ⟨1, 1⟩
  t2ClkTh := 0
  t2LockN := ⟨2, 2⟩
  deglW := ⟨7, 6⟩
  deglTh := ⟨3, 3⟩
  rlMinRun := ⟨5, 5⟩
  nomBitlen := ⟨2048, 6250⟩
  rlKp := 32
  rlKi := 16
  accCode := ⟨0x543D#32, 0x547696#32⟩
  accW := ⟨16, 24⟩
  accTol := ⟨0, 0⟩
  rssiTh := ⟨0, 0⟩
  dec3of6 := dec3of6Default
  c1ModeA := 0x54C#12
  c1ModeB := 0x543#12
  c1Trailer := 0xD#4
  manch := manchDefault
  substNib := 0xF#4
  substBit := false
  lenA := lenADefault
  crcPoly := 0x3D65#16
  cap := 290

/-- The configuration word after `RESET`: the defaults of 10_state.md rule R44. -/
def cfgDefault : BitVec 32 := 0x00000F02#32

/-- FIR state at reset: `n` zeros (10_state.md rule R23). -/
def firReset (n : Nat) : Fir where
  hist := List.replicate n 0
  w := 0

/-- IIR state at reset, `s` sections (10_state.md rule R24). -/
def iirReset (s : Nat) : Iir where
  h := List.replicate (3 * s) 0

/-- Polyphase state at reset, `p` sub-filters of length `l` (10_state.md rule R25). -/
def ppfReset (p l : Nat) : Ppf where
  ph := 0
  acc := 0
  sub := List.replicate p (firReset l)

/-- Moving-average state at reset, window `w` (10_state.md rule R26). -/
def mavgReset (w : Nat) : Mavg where
  hist := List.replicate w 0
  w := 0
  sum := 0

/-- A front-end filter at reset, in each of its kinds. -/
def feReset (par : Par) (c : Chain) : Fe where
  mavg := mavgReset par.mavgLen
  fir := firReset (par.feFirB.get c).length
  ppf := ppfReset par.ppP (par.ppL.get c)

/-- The front part of a chain at reset. -/
def frontReset (par : Par) (c : Chain) : Front where
  feI := feReset par c
  feQ := feReset par c
  pd := ⟨0, 0⟩
  post := firReset (par.postB.get c).length
  dcb := ⟨0, 0⟩
  rssi := ⟨0⟩

/-- The time-2 synchronizer at reset (10_state.md rule R32). -/
def t2Reset (par : Par) (c : Chain) : T2Reg where
  bpf := iirReset (par.t2Sect.get c)
  clkPrev := false
  lock := 0
  sr := 0

/-- The T1/C1 run-length synchronizer at reset (10_state.md rule R33). -/
def rlTReset (par : Par) : RlT where
  acc := 0
  lvlPrev := false
  run := 0
  bitlen := par.nomBitlen.t
  esum := 0
  sr := 0

/-- The S1 run-length synchronizer at reset (10_state.md rule R34). -/
def rlSReset (par : Par) : RlS where
  acc := 0
  lvlPrev := false
  run := 0
  spb0 := par.nomBitlen.s
  spb1 := par.nomBitlen.s
  sr := 0

/-- A T1/C1 decoder at reset (10_state.md rule R36), the one value of an idle decoder. -/
def decTReset : DecT where
  st := .idle
  cnt := 0
  reg := 0
  L := 0
  total := 0
  len := 0
  buf := []
  ts := .null
  rssiPre := 0
  rssiEnd := 0
  symErr := false
  crcOk := false
  isC1 := false
  isB := false

/-- An S1 decoder at reset (10_state.md rule R37). -/
def decSReset : DecS where
  st := .idle
  cnt := 0
  half := false
  reg := 0
  L := 0
  total := 0
  len := 0
  buf := []
  ts := .null
  rssiPre := 0
  rssiEnd := 0
  symErr := false
  crcOk := false

/-- The T1/C1 chain at reset. -/
def chainTReset (par : Par) : ChainT where
  fr := frontReset par .T
  t2 := t2Reset par .T
  rl := rlTReset par
  decT2 := decTReset
  decRl := decTReset

/-- The S1 chain at reset. -/
def chainSReset (par : Par) : ChainS where
  fr := frontReset par .S
  t2 := t2Reset par .S
  rl := rlSReset par
  decT2 := decSReset
  decRl := decSReset

end Sys2Proof.Machine
end

