-- ==== Sys2Proof/Machine/State.lean ====
section
/-! DEFINITION. The machine's state, the reasons a step can stop, and the state right after reset. -/

namespace Sys2Proof.Machine

open Sys2Proof

/-- Faults: there are none, so the type has no constructor and no step can answer one. "There is no out-of-range
access and so no access fault" (20_memory.md rule R72), and "no behaviour of the core is stuck"
(93_implementation_defined.md part 1): what the spec calls an event takes a next state. Safe: a step that cannot
fault hides no fault the spec describes. -/
inductive Fault where
  deriving DecidableEq, Repr

/-- Refusals: the model has no transition because the request is outside what the spec gives meaning to
(93_implementation_defined.md part 1, treatment `refuse`). Each is safe: nothing is claimed of what would follow. -/
inductive Refusal where
  /-- raised by `exec` for an operation without a meaning yet; safe -/
  | notModelled (mnemonic : String)
  /-- raised by `step` when the next bytes of the operation stream are no operation: an index that is none
  (30_encoding.md rule R126: "a model refuses it"), bytes in none of the model's layouts (log entry 4), or a byte count
  outside the range that 45_crc_framing.md rules R313 to R316 state; safe -/
  | noSuchOperation (why : DecodeError)
  /-- raised by a handler run while the decoder's `st` selects another one: a handler is "selected by the decoder's
  `st` code, not by a token" (30_encoding.md rule R127); safe -/
  | handlerNotSelected
  /-- raised by `FIR.STEP` on a polyphase sub-filter whose number is not below `PP_P`: the unit does not exist
  (10_state.md rule R25); safe -/
  | noSuchInstance
  /-- raised by `CFG.LOAD`, `CHUNK` and `END` in a host phase that does not allow them
  (46_system_ops.md rule R345, 93_implementation_defined.md U10); safe -/
  | hostProtocol
  /-- raised by `CHUNK` when `IN` holds fewer than `CHUNK_BYTES` bytes: a chunk of the wrong size
  (93_implementation_defined.md U10, 30_encoding.md rule R102); safe -/
  | wrongChunkSize
  /-- raised by `RESET` when `PAR` violates its constraints: refused at construction
  (93_implementation_defined.md U11); safe -/
  | parInvalid
  deriving DecidableEq, Repr

/-- The state of the machine.

`cfg` to `chS` are the core's registers (10_state.md rule R20). `par` is the constant record `PAR`, carried here
because a step takes no other argument; no operation writes it (10_state.md rule R46; log entry 1). `inp` is the
memory space `IN` (20_memory.md rule R71). The other fields are the model's own (log entries 4, 6, 7, 8). -/
structure State where
  /-- `PAR` (00_scope.md rule R6) -/
  par : Par
  /-- the configuration register, as its 32-bit word (10_state.md rules R43, R44; 30_encoding.md rule R123) -/
  cfg : BitVec 32
  /-- decimation gate counter (10_state.md rule R28) -/
  dcnt : Nat
  /-- `fs.n`, the frequency-shift table index (10_state.md rule R27) -/
  fsIdx : Nat
  /-- `ch[T]` -/
  chT : ChainT
  /-- `ch[S]` -/
  chS : ChainS
  /-- `IN`: the bytes of the stream the host has ready, next byte first -/
  inp : List Byte
  /-- the records handed to the host, the trace of events, the count of timestamps -/
  io : Io
  /-- whether the latest `FE.LPF` returned a value: the answer that `DECIM` reads when `FE_KIND = PPF`
  (41_front_end.md rule R174) -/
  feValue : Bool
  /-- the tokens the latest operation returned -/
  ret : List Token
  /-- the host's phase (46_system_ops.md rule R345) -/
  phase : Phase
  /-- the operations the host has asked for, as bytes (Decode.lean), next one first -/
  ops : List Byte
  deriving DecidableEq, Repr

/-- The machine right after reset: every register at the value of 10_state.md rule R49, no operation pending, no
input delivered, nothing handed out. -/
def State.reset : State where
  par := parInitial
  cfg := cfgDefault
  dcnt := 0
  fsIdx := 0
  chT := chainTReset parInitial
  chS := chainSReset parInitial
  inp := []
  io := ⟨[], [], 0⟩
  feValue := false
  ret := []
  phase := .configuring
  ops := []

end Sys2Proof.Machine
end

