-- ==== Sys2Proof/Machine/Ops.lean ====
section
/-! DEFINITION. The named operations over memory and registers: the byte memories, reading and writing one block
instance, the trace and the output, and taking an event. -/

namespace Sys2Proof.Machine

open Sys2Proof

/-! ### Byte memories (`BUF`, 20_memory.md rule R71) -/

/-- The canonical form: addresses rise strictly from `lo` on, and no listed byte is 0. -/
def memWfFrom : Nat → Memory → Bool
  | _, [] => true
  | lo, (a, v) :: m => decide (lo ≤ a) && !decide (v = 0#8) && memWfFrom (a + 1) m

/-- The canonical form of a byte memory. -/
def Memory.wf (m : Memory) : Bool := memWfFrom 0 m

/-- `MemRead`: the byte at an address, 0 where none is listed (10_state.md rule R36). -/
def memRead : Memory → Nat → Byte
  | [], _ => 0#8
  | (b, v) :: m, a => if a = b then v else memRead m a

/-- `MemWrite`, keeping the canonical form. -/
def memWrite : Memory → Nat → Byte → Memory
  | [], a, v => if v = 0#8 then [] else [(a, v)]
  | (b, w) :: m, a, v =>
    if a < b then (if v = 0#8 then (b, w) :: m else (a, v) :: (b, w) :: m)
    else if a = b then (if v = 0#8 then m else (a, v) :: m)
    else (b, w) :: memWrite m a v

/-- The bytes `buf[0 .. n−1]` (45_crc_framing.md rule R312). -/
def memBytes (m : Memory) (n : Nat) : List Byte := (List.range n).map (memRead m)

/-! ### Reading and writing one instance (10_state.md rule R20) -/

/-- The front part of chain `c`. -/
def State.front (s : State) (c : Chain) : Front :=
  match c with
  | .T => s.chT.fr
  | .S => s.chS.fr

/-- Write the front part of chain `c`. -/
def State.setFront (s : State) (c : Chain) (f : Front) : State :=
  match c with
  | .T => { s with chT := { s.chT with fr := f } }
  | .S => { s with chS := { s.chS with fr := f } }

/-- `ch[c].t2`. -/
def State.t2 (s : State) (c : Chain) : T2Reg :=
  match c with
  | .T => s.chT.t2
  | .S => s.chS.t2

/-- Write `ch[c].t2`. -/
def State.setT2 (s : State) (c : Chain) (r : T2Reg) : State :=
  match c with
  | .T => { s with chT := { s.chT with t2 := r } }
  | .S => { s with chS := { s.chS with t2 := r } }

/-- `ch[T].dec[a]`. -/
def ChainT.dec (ch : ChainT) (a : Syn) : DecT :=
  match a with
  | .T2 => ch.decT2
  | .RL => ch.decRl

/-- Write `ch[T].dec[a]`. -/
def ChainT.setDec (ch : ChainT) (a : Syn) (d : DecT) : ChainT :=
  match a with
  | .T2 => { ch with decT2 := d }
  | .RL => { ch with decRl := d }

/-- `ch[S].dec[a]`. -/
def ChainS.dec (ch : ChainS) (a : Syn) : DecS :=
  match a with
  | .T2 => ch.decT2
  | .RL => ch.decRl

/-- Write `ch[S].dec[a]`. -/
def ChainS.setDec (ch : ChainS) (a : Syn) (d : DecS) : ChainS :=
  match a with
  | .T2 => { ch with decT2 := d }
  | .RL => { ch with decRl := d }

/-- Write the chain `ch[T]`. -/
def State.setChT (s : State) (ch : ChainT) : State := { s with chT := ch }

/-- Write the chain `ch[S]`. -/
def State.setChS (s : State) (ch : ChainS) : State := { s with chS := ch }

/-- Write what passed to the host. -/
def State.setIo (s : State) (io : Io) : State := { s with io := io }

/-- `ch[c].fe[x]`. -/
def Front.fe (f : Front) (x : Chan) : Fe :=
  match x with
  | .I => f.feI
  | .Q => f.feQ

/-- Write `ch[c].fe[x]`. -/
def Front.setFe (f : Front) (x : Chan) (e : Fe) : Front :=
  match x with
  | .I => { f with feI := e }
  | .Q => { f with feQ := e }

/-! ### Handing tokens out -/

/-- The host's phase once an operation of the core has run: such an operation runs only inside a `CHUNK`
(20_memory.md rule R70), so the phase is `running` from then on (46_system_ops.md rule R345; log entry 7). -/
def Phase.touch (p : Phase) : Phase :=
  match p with
  | .configuring => .running
  | .running => .running
  | .ended => .ended

/-- End an operation of the core with the tokens it returns. -/
def State.reply (s : State) (toks : List Token) : State := { s with ret := toks, phase := s.phase.touch }

/-- The telegrams handed out between two moments, as tokens: the output `TELEGRAM*` of an operation. -/
def newTelegrams (before after : Io) : List Token :=
  (after.out.drop before.out.length).map Token.telegram

/-- `emit TELEGRAM`: append a record to the host's output sequence (45_crc_framing.md rule R318). -/
def Io.emit (io : Io) (t : Telegram) : Io := { io with out := io.out ++ [t] }

/-- `TS.GET`: the value the host supplies at this moment (46_system_ops.md rule R344). -/
def Io.timestamp (io : Io) : Timestamp := .host (Config.hostClock io.tsCount)

/-- One more timestamp has been asked for. -/
def Io.tick (io : Io) : Io := { io with tsCount := io.tsCount + 1 }

/-! ### Taking an event (60_exceptions.md rule R350 onward) -/

/-- The event's code (60_exceptions.md rule R351). -/
def Event.code (e : Event) : Nat :=
  match e with
  | .symbol => 1
  | .crc => 2
  | .lfield => 3
  | .trailer => 4
  | .rssi => 5
  | .sync => 6
  | .cap => 7
  | .cfg => 8
  | .trunc => 9

/-- Put an event in the trace. Recorded events (`EV_SYMBOL`, `EV_CRC`), `EV_CFG` and `EV_TRUNC` have no other shared
effect; what a flag or the host sees of them is written by the operation that raises them. -/
def Io.note (io : Io) (e : EventRec) : Io := { io with events := io.events ++ [e] }

/-- TAKING A DISCARD EVENT (codes 3, 4, 5 and 7; 60_exceptions.md rules R352 and R368): the event is traced and the
decoder that raised it executes `DEC.RESET` on itself. Nothing is saved, nothing is emitted, nothing outside that
decoder changes. The return (rule R364) restores nothing: the decoder goes on in `IDLE` with the next bit. -/
def takeDiscard {δ : Type} (idle : δ) (e : EventRec) (io : Io) : δ × Io := (idle, io.note e)

/-- TAKING `EV_SYNC` (code 6; 60_exceptions.md rule R358): the event is traced, the synchronizer takes its cleared
value and the decoder it feeds executes `DEC.RESET` (43_bit_sync.md rule R227). -/
def takeSync {ρ δ : Type} (cleared : ρ) (idle : δ) (e : EventRec) (io : Io) : ρ × δ × Io :=
  (cleared, idle, io.note e)

end Sys2Proof.Machine
end

