-- ==== Sys2Proof/Machine/Operands.lean ====
section
/-! DEFINITION. Operand forms: the fields of the configuration word, the assembly of fields from decided bits, the
code-table look-ups, the state codes, and the constraints on `PAR`. -/

namespace Sys2Proof.Machine

open Sys2Proof

/-! ### The configuration word (30_encoding.md rule R123, 10_state.md rule R44) -/

/-- `decim`, bits 7:0. -/
def cfgDecim (w : BitVec 32) : Nat := (w.extractLsb' 0 8).toNat

/-- `rl_en`, bit 8. -/
def cfgRlEn (w : BitVec 32) : Bool := w.getLsbD 8

/-- `t2_en`, bit 9. -/
def cfgT2En (w : BitVec 32) : Bool := w.getLsbD 9

/-- `t1c1_en`, bit 10. -/
def cfgT1c1En (w : BitVec 32) : Bool := w.getLsbD 10

/-- `s1_en`, bit 11. -/
def cfgS1En (w : BitVec 32) : Bool := w.getLsbD 11

/-- `dual`, bit 12. -/
def cfgDual (w : BitVec 32) : Bool := w.getLsbD 12

/-- `atan_sel`, bits 14:13. -/
def cfgAtanSel (w : BitVec 32) : BitVec 2 := w.extractLsb' 13 2

/-- `dcblock_en`, bit 15. -/
def cfgDcblockEn (w : BitVec 32) : Bool := w.getLsbD 15

/-- `verbose`, bit 16: stored, read by no operation (46_system_ops.md rule R346). -/
def cfgVerbose (w : BitVec 32) : Bool := w.getLsbD 16

/-- `watchdog_en`, bit 17: stored, read by no operation (46_system_ops.md rule R346). -/
def cfgWatchdogEn (w : BitVec 32) : Bool := w.getLsbD 17

/-- The reserved bits 31:18. -/
def cfgReserved (w : BitVec 32) : BitVec 14 := w.extractLsb' 18 14

/-- The configuration words `CFG.LOAD` accepts (46_system_ops.md rule R341). -/
def cfgLegal (par : Par) (w : BitVec 32) : Bool :=
  decide (cfgReserved w = 0) &&
  !decide (cfgDecim w = 0) && decide (par.chunkBytes / 2 % cfgDecim w = 0) &&
  (cfgRlEn w || cfgT2En w) &&
  (cfgT1c1En w || cfgS1En w) &&
  (!cfgDual w || (cfgT1c1En w && cfgS1En w)) &&
  !(decide (cfgAtanSel w = 3) && cfgT2En w) &&
  (!decide (par.feKind = .ppf) || decide (cfgDecim w = par.ppP))

/-! ### Fields from decided bits -/

/-- MSB-first assembly: `(reg << 1) | b` truncated to the register's width (30_encoding.md rule R106). -/
def shiftIn {n : Nat} (reg : BitVec n) (b : Bool) : BitVec n := (reg <<< 1) ||| (BitVec.ofBool b).setWidth n

/-- `ROM(DEC3OF6, v)`; `none` is `INV` (30_encoding.md rule R110). -/
def dec3of6 (par : Par) (v : BitVec 6) : Option (BitVec 4) := (par.dec3of6.getD v.toNat none)

/-- The codeword in bits 11:6 of a 12-bit field: the high nibble's (30_encoding.md rule R107). -/
def hiCode (v : BitVec 12) : BitVec 6 := v.extractLsb' 6 6

/-- The codeword in bits 5:0: the low nibble's. -/
def loCode (v : BitVec 12) : BitVec 6 := v.extractLsb' 0 6

/-- `ROM(MANCH, (first << 1) | second)`; `none` is `INV` (30_encoding.md rule R109). -/
def manch (par : Par) (first second : Bool) : Option Bool :=
  par.manch.getD (2 * first.toNat + second.toNat) none

/-- `ROM(LEN_A, L)` (30_encoding.md rule R116). -/
def lenA (par : Par) (l : Byte) : Nat := par.lenA.getD l.toNat 0

/-- `len_b(L) = L + 1` (30_encoding.md rule R117). -/
def lenB (l : Byte) : Nat := l.toNat + 1

/-- Whether a mapped telegram length raises `EV_CAP`: it is outside 3..`CAP` (60_exceptions.md rule R360). -/
def lengthRefused (par : Par) (t : Nat) : Bool := decide (t < 3) || decide (par.cap < t)

/-! ### Codes -/

/-- The code of a T1/C1 state (10_state.md rule R38). -/
def StT.code (s : StT) : BitVec 3 :=
  match s with
  | .idle => 0
  | .lfield => 1
  | .c1Trailer => 2
  | .c1Len => 3
  | .dataT1 => 4
  | .dataC1 => 5
  | .done => 6

/-- The code of an S1 state (10_state.md rule R38). -/
def StS.code (s : StS) : BitVec 2 :=
  match s with
  | .idle => 0
  | .len => 1
  | .data => 2
  | .done => 3

/-- The code of a telegram mode (30_encoding.md rule R121). -/
def Mode.code (m : Mode) : BitVec 2 :=
  match m with
  | .T1 => 0
  | .C1 => 1
  | .S1 => 2

/-- The field `alg` of a synchronizer's telegrams: 0 time-2, 1 run-length (30_encoding.md rule R121). -/
def algOf (a : Syn) : Bool :=
  match a with
  | .T2 => false
  | .RL => true

/-- The trace entry of an event in a T1/C1 decoder (60_exceptions.md rule R351). -/
def eventT (e : Event) (a : Syn) (d : DecT) : EventRec :=
  ⟨e, some (.T, a), d.st.code.toNat, d.cnt.toNat, d.len⟩

/-- The trace entry of an event in an S1 decoder. -/
def eventS (e : Event) (a : Syn) (d : DecS) : EventRec :=
  ⟨e, some (.S, a), d.st.code.toNat, d.cnt.toNat, d.len⟩

/-- The trace entry of an event that belongs to no decoder (codes 8 and 9). -/
def eventCore (e : Event) : EventRec := ⟨e, none, 0, 0, 0⟩

/-! ### The constraints on `PAR` (00_scope.md rule R6, 70_reset_and_hazards.md rule R391) -/

/-- `b` and `a` of an IIR cascade of `s` sections: 3·s coefficients each, a0 = 1 in each section. -/
def iirOk (s : Nat) (b a : List NumT) : Bool :=
  decide (b.length = 3 * s) && decide (a.length = 3 * s) &&
    (List.range s).all fun j => decide (a.getD (3 * j) 0 = 1)

/-- The constraint of 30_encoding.md rule R111 on `DEC3OF6`: valid codewords have three set bits, and each nibble
has exactly one codeword. -/
def dec3of6Ok (t : List (Option (BitVec 4))) : Bool :=
  decide (t.length = 64) &&
    ((List.range 64).all fun i => (t.getD i none).isNone || decide (popcount (BitVec.ofNat 6 i) = 3)) &&
    (List.range 16).all fun n => decide (t.count (some (BitVec.ofNat 4 n)) = 1)

/-- The constraint of 30_encoding.md rule R113 on `MANCH`: the pairs without a transition are invalid, the two with
one are valid and mean different bits. -/
def manchOk (t : List (Option Bool)) : Bool :=
  decide (t = [none, some true, some false, none]) || decide (t = [none, some false, some true, none])

/-- `PAR` satisfies its constraints. Those on the carrier and on the `ARG_*` functions are in the types of Config.lean.
`ACC_TOL` has no bound: of the two ways that 43_bit_sync.md rule R221 leaves to a model, this one accepts a tolerance at
which the all-zero window matches (DESIGN CHOICE, log entry 22). -/
def parOk (p : Par) : Bool :=
  decide (0 < p.chunkBytes) && decide (p.chunkBytes % 2 = 0) &&
  decide (1 ≤ p.mavgLen) &&
  decide (1 ≤ p.feFirB.t.length) && decide (1 ≤ p.feFirB.s.length) &&
  decide (1 ≤ p.ppP) && decide (1 ≤ p.ppL.t) && decide (1 ≤ p.ppL.s) &&
  decide (p.ppCoef.t.length = p.ppP) && decide (p.ppCoef.s.length = p.ppP) &&
  (p.ppCoef.t.all fun b => decide (b.length = p.ppL.t)) &&
  (p.ppCoef.s.all fun b => decide (b.length = p.ppL.s)) &&
  decide (1 ≤ p.fsN) && decide (p.fsStep < p.fsN) &&
  decide (p.fsCos.length = p.fsN) && decide (p.fsNsin.length = p.fsN) &&
  decide (1 ≤ p.postB.t.length) && decide (1 ≤ p.postB.s.length) &&
  numLt 0 p.rssiAlpha && numLe p.rssiAlpha 1 &&
  iirOk p.t2Sect.t p.t2B.t p.t2A.t && iirOk p.t2Sect.s p.t2B.s p.t2A.s &&
  decide (2 ≤ p.t2LockN.t) && decide (2 ≤ p.t2LockN.s) &&
  decide (1 ≤ p.rlMinRun.t) && decide (1 ≤ p.rlMinRun.s) &&
  decide (0 < p.nomBitlen.t) && decide (0 < p.nomBitlen.s) &&
  decide (1 ≤ p.rlKp) && decide (1 ≤ p.rlKi) &&
  decide (p.accW.t = 16) && decide (p.accW.s = 24) &&
  dec3of6Ok p.dec3of6 && manchOk p.manch &&
  decide (p.lenA.length = 256) && (p.lenA.all fun t => decide (3 ≤ t) && decide (t ≤ 290))

end Sys2Proof.Machine
end

