-- ==== Sys2Proof/Machine/Flags.lean ====
section
/-! DEFINITION. The flags: `pre` of a decided-bit token (10_state.md rule R41), and the decoder flags `sym_err`,
`crc_ok`, `is_c1`, `is_b` (10_state.md rule R40). -/

namespace Sys2Proof.Machine

open Sys2Proof

/-- The low `w` bits of a 32-bit register. -/
def lowBits (w : Nat) (x : BitVec 32) : BitVec 32 := x &&& BitVec.ofNat 32 (2 ^ w - 1)

/-- The Hamming distance of the window to the access code. -/
def accDistance (par : Par) (c : Chain) (sr : BitVec 32) : Nat :=
  popcount (lowBits (par.accW.get c) sr ^^^ par.accCode.get c)

/-- `acc_match(c, sr)` (30_encoding.md rule R115): the value of the flag `pre`, at any `ACC_TOL` (log entry 22). -/
def accMatch (par : Par) (c : Chain) (sr : BitVec 32) : Bool :=
  decide (accDistance par c sr ≤ par.accTol.get c)

/-- The sticky flag `sym_err` after a data codeword: set by an invalid one, else kept (10_state.md rule R40). -/
def symErrAfter (old : Bool) (invalid : Bool) : Bool := old || invalid

/-- `is_c1` after the mode/length field: set by either C1 mode word (44_frame_decoders.md rule R263). -/
def isC1Word (par : Par) (v : BitVec 12) : Bool := decide (v = par.c1ModeA) || decide (v = par.c1ModeB)

/-- `is_b` after a C1 mode word: set by the mode-B word, the mode-A word being compared first. -/
def isBWord (par : Par) (v : BitVec 12) : Bool := !decide (v = par.c1ModeA) && decide (v = par.c1ModeB)

end Sys2Proof.Machine
end

