-- ==== Sys2Proof/Machine/Framing.lean ====
section
/-! DEFINITION. Framing and CRC helpers (45_crc_framing.md): CRC-16, the block partitions, stripping, the serial
number, and the telegram record. -/

namespace Sys2Proof.Machine

open Sys2Proof

/-- One byte of `CRC16` (45_crc_framing.md rule R310). -/
def crcByte (poly c : BitVec 16) (x : Byte) : BitVec 16 :=
  (c <<< 8) ^^^ crcTab poly (c.extractLsb' 8 8 ^^^ x)

/-- `CRC16 bytes` (45_crc_framing.md rule R310). -/
def crc16 (poly : BitVec 16) (bytes : List Byte) : BitVec 16 := bytes.foldl (crcByte poly) 0#16 ^^^ 0xFFFF#16

/-- One block of a telegram: its data bytes and the CRC field after them (45_crc_framing.md rule R312). -/
structure Block where
  data : List Byte
  field : BitVec 16
  deriving DecidableEq, Repr

/-- The two bytes at `pos`, high byte first (30_encoding.md rule R120). -/
def crcField (t : List Byte) (pos : Nat) : BitVec 16 := t.getD pos 0 ++ t.getD (pos + 1) 0

/-- The walk of 45_crc_framing.md rule R313 over the bytes still to come, with at most `blk` data bytes in the next
block: the blocks met, and whether the walk ended without meeting a remainder too short for a CRC field. `fuel` is
at least the number of bytes left; each block takes two bytes or more. -/
def blocksA : Nat → Nat → List Byte → List Block × Bool
  | 0, _, _ => ([], true)
  | fuel + 1, blk, t =>
    if t.length = 0 then ([], true)
    else if t.length < 2 then ([], false)
    else
      let dlen := min blk (t.length - 2)
      let rest := blocksA fuel 16 (t.drop (dlen + 2))
      (⟨t.take dlen, crcField t dlen⟩ :: rest.1, rest.2)

/-- The blocks of a frame type A telegram: up to 10 data bytes, then up to 16 (45_crc_framing.md rule R313). -/
def frameBlocksA (t : List Byte) : List Block × Bool := blocksA t.length 10 t

/-- A block's CRC matches its field. -/
def blockOk (poly : BitVec 16) (b : Block) : Bool := decide (crc16 poly b.data = b.field)

/-- `CRCCHK.A T, N`, N the length of `t` (45_crc_framing.md rule R313). -/
def crcchkA (poly : BitVec 16) (t : List Byte) : Bool :=
  (frameBlocksA t).2 && (frameBlocksA t).1.all (blockOk poly)

/-- `CRCCHK.B T, N`, N the length of `t` (45_crc_framing.md rule R314). Below two bytes the rule's pseudocode reads
before the buffer: free (log entry 14). -/
def crcchkB (poly : BitVec 16) (t : List Byte) : Bool :=
  let n := t.length
  if n < 2 then Config.crcchkBShort t
  else if n ≤ 128 then decide (crc16 poly (t.take (n - 2)) = crcField t (n - 2))
  else if n - 128 < 2 then false
  else
    decide (crc16 poly (t.take 126) = crcField t 126) &&
      decide (crc16 poly ((t.drop 128).take (n - 130)) = crcField t (n - 2))

/-- `STRIP.A T, N` (45_crc_framing.md rule R315). -/
def stripA (t : List Byte) : List Byte := (frameBlocksA t).1.flatMap Block.data

/-- `STRIP.B T, N` (45_crc_framing.md rule R316). -/
def stripB (t : List Byte) : List Byte :=
  let n := t.length
  if n ≤ 128 then t.take (n - 2)
  else if n - 128 < 2 then t.take 126
  else t.take 126 ++ (t.drop 128).take (n - 130)

/-- `SERIAL P` (45_crc_framing.md rule R317): bytes 4..7, least significant first, missing bytes 0. -/
def serialOf (p : List Byte) : BitVec 32 := p.getD 7 0 ++ p.getD 6 0 ++ p.getD 5 0 ++ p.getD 4 0

/-- The record of a T1/C1 decoder (45_crc_framing.md rule R318). -/
def telegramT (a : Syn) (d : DecT) (mode : Mode) : Telegram :=
  let t := memBytes d.buf d.total
  let p := if d.isB then stripB t else stripA t
  { mode := mode, frameB := d.isB, alg := algOf a, crcOk := d.crcOk, symErr := d.symErr, ts := d.ts,
    rssiPre := d.rssiPre, rssiEnd := d.rssiEnd, serial := serialOf p, plen := p.length, payload := p }

/-- The record of an S1 decoder: frame type A only (45_crc_framing.md rule R318). -/
def telegramS (a : Syn) (d : DecS) (mode : Mode) : Telegram :=
  let p := stripA (memBytes d.buf d.total)
  { mode := mode, frameB := false, alg := algOf a, crcOk := d.crcOk, symErr := d.symErr, ts := d.ts,
    rssiPre := d.rssiPre, rssiEnd := d.rssiEnd, serial := serialOf p, plen := p.length, payload := p }

/-- `symbol_ok = 1 − sym_err` of the text line (30_encoding.md rule R122). -/
def Telegram.symbolOk (t : Telegram) : Bool := !t.symErr

/-- `EMIT ch[c].dec[a], mode`: the record handed out. -/
def telegramOf (s : State) (c : Chain) (a : Syn) (mode : Mode) : Telegram :=
  match c with
  | .T => telegramT a (s.chT.dec a) mode
  | .S => telegramS a (s.chS.dec a) mode

/-! ### Meanings -/

/-- 0x70 `CRC16` (45_crc_framing.md rule R310). -/
def execCrc16 (bytes : List Byte) (s : State) : Host.Outcome State Fault Refusal :=
  .next (s.reply [.u16 (crc16 s.par.crcPoly bytes)])

/-- 0x71 `CRCCHK.A` (45_crc_framing.md rule R313). -/
def execCrcchkA (t : List Byte) (s : State) : Host.Outcome State Fault Refusal :=
  .next (s.reply [.bit (crcchkA s.par.crcPoly t)])

/-- 0x72 `CRCCHK.B` (45_crc_framing.md rule R314). -/
def execCrcchkB (t : List Byte) (s : State) : Host.Outcome State Fault Refusal :=
  .next (s.reply [.bit (crcchkB s.par.crcPoly t)])

/-- 0x73 `STRIP.A` (45_crc_framing.md rule R315). -/
def execStripA (t : List Byte) (s : State) : Host.Outcome State Fault Refusal :=
  .next (s.reply [.bytes (stripA t)])

/-- 0x74 `STRIP.B` (45_crc_framing.md rule R316). -/
def execStripB (t : List Byte) (s : State) : Host.Outcome State Fault Refusal :=
  .next (s.reply [.bytes (stripB t)])

/-- 0x75 `SERIAL` (45_crc_framing.md rule R317). -/
def execSerial (p : List Byte) (s : State) : Host.Outcome State Fault Refusal :=
  .next (s.reply [.u32 (serialOf p)])

/-- 0x76 `EMIT` (45_crc_framing.md rule R318): the record goes to the host; no register changes. "`EMIT` is executed only
from `*.DONE`" is a condition on its invocation (`t1c1Done`, `s1Done`); an `EMIT` that is asked for on its own hands out the
record that the rule builds from the decoder's registers as they stand, whatever its `st` and `is_c1`, with the mode of
its token, the other chain's included (DESIGN CHOICE, log entry 21). -/
def execEmit (c : Chain) (a : Syn) (mode : Mode) (s : State) : Host.Outcome State Fault Refusal :=
  .next ((s.setIo (s.io.emit (telegramOf s c a mode))).reply [.telegram (telegramOf s c a mode)])

end Sys2Proof.Machine
end

