-- ==== Sys2Proof/Machine/DecoderT.lean ====
section
/-! DEFINITION. The T1/C1 frame decoder (44_frame_decoders.md rules R260 to R269). A handler takes the decoder's
state, the decided bit and what passes to the host, and answers the two that change. -/

namespace Sys2Proof.Machine

open Sys2Proof

/-- Stores one payload byte at `len` (`MemWrite(BUF, len, v)`). -/
def storeT (d : DecT) (v : Byte) : DecT := { d with buf := memWrite d.buf d.len v, len := d.len + 1 }

/-- The field collected so far is complete: `cnt <- 0 ; reg <- 0`. -/
def endFieldT (d : DecT) : DecT := { d with cnt := 0, reg := 0 }

/-- One more bit of a field that is not complete: `reg <- v ; cnt <- cnt + 1`. -/
def collectT (d : DecT) (v : BitVec 12) : DecT := { d with reg := v, cnt := d.cnt + 1 }

/-- `T1C1.IDLE` (44_frame_decoders.md rule R262). -/
def t1c1Idle (d : DecT) (bit : BitTok) : DecT :=
  if bit.pre then { d with rssiPre := bit.rssi, cnt := 0, reg := 0, st := .lfield } else d

/-- The L-field has been received: its value, the mapped length and byte 0 of the payload are stored. -/
def beginDataT (d : DecT) (l : Byte) (total : Nat) (st : StT) : DecT :=
  { d with L := l, total := total, buf := memWrite d.buf 0 l, len := 1, st := st }

/-- `T1C1.LFIELD` (44_frame_decoders.md rule R263). -/
def t1c1Lfield (par : Par) (a : Syn) (d : DecT) (bit : BitTok) (io : Io) : DecT × Io :=
  let v := shiftIn d.reg bit.b
  if d.cnt < 11 then (collectT d v, io)
  else if isC1Word par v then
    ({ endFieldT d with isC1 := true, isB := isBWord par v, st := .c1Trailer }, io)
  else
    match dec3of6 par (hiCode v), dec3of6 par (loCode v) with
    | some hi, some lo =>
      let l : Byte := hi ++ lo
      if lengthRefused par (lenA par l) then takeDiscard decTReset (eventT .cap a d) io
      else (beginDataT (endFieldT d) l (lenA par l) .dataT1, io)
    | _, _ => takeDiscard decTReset (eventT .lfield a d) io

/-- `T1C1.C1TRAILER` (44_frame_decoders.md rule R264); the field is the low four bits. -/
def t1c1C1trailer (par : Par) (a : Syn) (d : DecT) (bit : BitTok) (io : Io) : DecT × Io :=
  let v : BitVec 4 := shiftIn (d.reg.setWidth 4) bit.b
  if d.cnt < 3 then (collectT d (v.setWidth 12), io)
  else if v = par.c1Trailer then ({ endFieldT d with st := .c1Len }, io)
  else takeDiscard decTReset (eventT .trailer a d) io

/-- The length a C1 L-field maps to: `len_b` for frame type B, `LEN_A` else (44_frame_decoders.md rule R265). -/
def c1Total (par : Par) (isB : Bool) (l : Byte) : Nat := if isB then lenB l else lenA par l

/-- `T1C1.C1LEN` (44_frame_decoders.md rule R265); the field is the low eight bits. -/
def t1c1C1len (par : Par) (a : Syn) (d : DecT) (bit : BitTok) (io : Io) : DecT × Io :=
  let v : BitVec 8 := shiftIn (d.reg.setWidth 8) bit.b
  if d.cnt < 7 then (collectT d (v.setWidth 12), io)
  else if lengthRefused par (c1Total par d.isB v) then takeDiscard decTReset (eventT .cap a d) io
  else (beginDataT (endFieldT d) v (c1Total par d.isB v) .dataC1, io)

/-- The CRC check at completion: frame type B or A (44_frame_decoders.md rule R268). -/
def doneCrcT (par : Par) (d : DecT) : Bool :=
  if d.isB then crcchkB par.crcPoly (memBytes d.buf d.total) else crcchkA par.crcPoly (memBytes d.buf d.total)

/-- The mode tag at completion (44_frame_decoders.md rule R268). -/
def doneModeT (d : DecT) : Mode := if d.isC1 then .C1 else .T1

/-- The decoder in `DONE`, CRC checked, completion stamped, just before `EMIT` (44_frame_decoders.md rule R268). -/
def stampT (par : Par) (d : DecT) (rssi : NumT) (io : Io) : DecT :=
  { d with st := .done, crcOk := doneCrcT par d, rssiEnd := rssi, ts := io.timestamp }

/-- `T1C1.DONE` (44_frame_decoders.md rule R268): `EV_CRC` is traced when the check fails (60_exceptions.md rule
R354), the record goes to the host, the decoder returns to idle. -/
def t1c1Done (par : Par) (a : Syn) (d : DecT) (bit : BitTok) (io : Io) : DecT × Io :=
  let d' := stampT par d bit.rssi io
  let io' := if d'.crcOk then io.tick else io.tick.note (eventT .crc a d')
  (decTReset, io'.emit (telegramT a d' (doneModeT d')))

/-- A payload byte has been received: it is stored, and the last one completes the telegram. A position at or past
`CAP` is the capacity violation whose defined failure is reset without emission (20_memory.md rule R72; DEDUCED,
log entry 10; no run from reset reaches it). -/
def payloadT (par : Par) (a : Syn) (d : DecT) (v : Byte) (bit : BitTok) (io : Io) : DecT × Io :=
  if par.cap ≤ d.len then takeDiscard decTReset (eventT .cap a d) io
  else if d.len + 1 = d.total then t1c1Done par a (storeT d v) bit io
  else (storeT d v, io)

/-- The nibbles of a T1 data byte, `SUBST_NIB` in place of an invalid one (44_frame_decoders.md rule R266). -/
def t1Byte (par : Par) (v : BitVec 12) : Byte :=
  (dec3of6 par (hiCode v)).getD par.substNib ++ (dec3of6 par (loCode v)).getD par.substNib

/-- Whether a T1 data byte has an invalid codeword. -/
def t1Invalid (par : Par) (v : BitVec 12) : Bool :=
  (dec3of6 par (hiCode v)).isNone || (dec3of6 par (loCode v)).isNone

/-- `T1C1.DATA_T1` (44_frame_decoders.md rule R266); an invalid codeword is the recorded event `EV_SYMBOL`
(60_exceptions.md rule R353). -/
def t1c1DataT1 (par : Par) (a : Syn) (d : DecT) (bit : BitTok) (io : Io) : DecT × Io :=
  let v := shiftIn d.reg bit.b
  if d.cnt < 11 then (collectT d v, io)
  else
    payloadT par a { endFieldT d with symErr := symErrAfter d.symErr (t1Invalid par v) } (t1Byte par v) bit
      (if t1Invalid par v then io.note (eventT .symbol a d) else io)

/-- `T1C1.DATA_C1` (44_frame_decoders.md rule R267); the field is the low eight bits. -/
def t1c1DataC1 (par : Par) (a : Syn) (d : DecT) (bit : BitTok) (io : Io) : DecT × Io :=
  let v : BitVec 8 := shiftIn (d.reg.setWidth 8) bit.b
  if d.cnt < 7 then (collectT d (v.setWidth 12), io)
  else payloadT par a (endFieldT d) v bit io

/-- The RSSI pre-check (44_frame_decoders.md rule R261), on a decoder that is not idle. -/
def rssiLow (par : Par) (c : Chain) (bit : BitTok) : Bool := numLt bit.rssi (par.rssiTh.get c)

/-- The handler that `st` selects (44_frame_decoders.md rule R260). `DONE` is entered and left inside `payloadT`, so
no bit is delivered in it; a decoder that stands in `DONE` all the same completes its telegram (DEDUCED, log
entry 11). -/
def t1c1Handler (par : Par) (a : Syn) (d : DecT) (bit : BitTok) (io : Io) : DecT × Io :=
  match d.st with
  | .idle => (t1c1Idle d bit, io)
  | .lfield => t1c1Lfield par a d bit io
  | .c1Trailer => t1c1C1trailer par a d bit io
  | .c1Len => t1c1C1len par a d bit io
  | .dataT1 => t1c1DataT1 par a d bit io
  | .dataC1 => t1c1DataC1 par a d bit io
  | .done => t1c1Done par a d bit io

/-- `T1C1.BIT` (44_frame_decoders.md rule R260): the RSSI pre-check, then one handler. -/
def t1c1Bit (par : Par) (a : Syn) (d : DecT) (bit : BitTok) (io : Io) : DecT × Io :=
  if !decide (d.st = .idle) && rssiLow par .T bit then takeDiscard decTReset (eventT .rssi a d) io
  else t1c1Handler par a d bit io

/-! ### Meanings -/

/-- Write back one T1/C1 decoder and what passed to the host; the operation returns the telegrams emitted. -/
def finishT (s : State) (a : Syn) (r : DecT × Io) : State :=
  ((s.setChT (s.chT.setDec a r.1)).setIo r.2).reply (newTelegrams s.io r.2)

/-- Run a handler on `ch[T].dec[a]` where its `st` selects it (30_encoding.md rule R127). -/
def runHandlerT (s : State) (a : Syn) (st : StT) (r : DecT × Io) : Host.Outcome State Fault Refusal :=
  if (s.chT.dec a).st = st then .next (finishT s a r) else .refused .handlerNotSelected

/-- 0x50 `T1C1.BIT` (44_frame_decoders.md rule R260). -/
def execT1c1Bit (a : Syn) (tok : BitTok) (s : State) : Host.Outcome State Fault Refusal :=
  .next (finishT s a (t1c1Bit s.par a (s.chT.dec a) tok s.io))

/-- 0x51 `T1C1.IDLE` (44_frame_decoders.md rule R262). -/
def execT1c1Idle (a : Syn) (tok : BitTok) (s : State) : Host.Outcome State Fault Refusal :=
  runHandlerT s a .idle (t1c1Idle (s.chT.dec a) tok, s.io)

/-- 0x52 `T1C1.LFIELD` (44_frame_decoders.md rule R263). -/
def execT1c1Lfield (a : Syn) (tok : BitTok) (s : State) : Host.Outcome State Fault Refusal :=
  runHandlerT s a .lfield (t1c1Lfield s.par a (s.chT.dec a) tok s.io)

/-- 0x53 `T1C1.C1TRAILER` (44_frame_decoders.md rule R264). -/
def execT1c1C1trailer (a : Syn) (tok : BitTok) (s : State) : Host.Outcome State Fault Refusal :=
  runHandlerT s a .c1Trailer (t1c1C1trailer s.par a (s.chT.dec a) tok s.io)

/-- 0x54 `T1C1.C1LEN` (44_frame_decoders.md rule R265). -/
def execT1c1C1len (a : Syn) (tok : BitTok) (s : State) : Host.Outcome State Fault Refusal :=
  runHandlerT s a .c1Len (t1c1C1len s.par a (s.chT.dec a) tok s.io)

/-- 0x55 `T1C1.DATA_T1` (44_frame_decoders.md rule R266). -/
def execT1c1DataT1 (a : Syn) (tok : BitTok) (s : State) : Host.Outcome State Fault Refusal :=
  runHandlerT s a .dataT1 (t1c1DataT1 s.par a (s.chT.dec a) tok s.io)

/-- 0x56 `T1C1.DATA_C1` (44_frame_decoders.md rule R267). -/
def execT1c1DataC1 (a : Syn) (tok : BitTok) (s : State) : Host.Outcome State Fault Refusal :=
  runHandlerT s a .dataC1 (t1c1DataC1 s.par a (s.chT.dec a) tok s.io)

/-- 0x57 `T1C1.DONE` (44_frame_decoders.md rule R268). -/
def execT1c1Done (a : Syn) (tok : BitTok) (s : State) : Host.Outcome State Fault Refusal :=
  runHandlerT s a .done (t1c1Done s.par a (s.chT.dec a) tok s.io)

end Sys2Proof.Machine
end

