-- ==== Sys2Proof/Machine/DecoderS.lean ====
section
/-! DEFINITION. The S1 frame decoder (44_frame_decoders.md rules R270 to R274), and `DEC.RESET` (rule R269), which
serves both decoder kinds. -/

namespace Sys2Proof.Machine

open Sys2Proof

/-- Stores one payload byte at `len`. -/
def storeS (d : DecS) (v : Byte) : DecS := { d with buf := memWrite d.buf d.len v, len := d.len + 1 }

/-- The field collected so far is complete: `cnt <- 0 ; reg <- 0`. -/
def endFieldS (d : DecS) : DecS := { d with cnt := 0, reg := 0 }

/-- One more logical bit of a byte that is not complete. -/
def collectS (d : DecS) (v : BitVec 8) : DecS := { d with reg := v, cnt := d.cnt + 1 }

/-- Whether the next bit is the first of a Manchester pair: `cnt` is even (44_frame_decoders.md rule R270). -/
def pairOpens (d : DecS) : Bool := !d.cnt.getLsbD 0

/-- The first bit of a pair: `half <- b ; cnt <- cnt + 1`. -/
def openPair (d : DecS) (b : Bool) : DecS := { d with half := b, cnt := d.cnt + 1 }

/-- `S1.IDLE` (44_frame_decoders.md rule R271). -/
def s1Idle (d : DecS) (bit : BitTok) : DecS :=
  if bit.pre then { d with rssiPre := bit.rssi, cnt := 0, reg := 0, half := false, st := .len } else d

/-- `S1.LEN` (44_frame_decoders.md rule R272). -/
def s1Len (par : Par) (a : Syn) (d : DecS) (bit : BitTok) (io : Io) : DecS × Io :=
  if pairOpens d then (openPair d bit.b, io)
  else
    match manch par d.half bit.b with
    | none => takeDiscard decSReset (eventS .lfield a d) io
    | some m =>
      let v := shiftIn d.reg m
      if d.cnt < 15 then (collectS d v, io)
      else if lengthRefused par (lenA par v) then takeDiscard decSReset (eventS .cap a d) io
      else
        ({ endFieldS d with L := v, total := lenA par v, buf := memWrite d.buf 0 v, len := 1, st := .data }, io)

/-- The decoder in `DONE`, CRC checked, completion stamped, just before `EMIT` (44_frame_decoders.md rule R274). -/
def stampS (par : Par) (d : DecS) (rssi : NumT) (io : Io) : DecS :=
  { d with st := .done, crcOk := crcchkA par.crcPoly (memBytes d.buf d.total), rssiEnd := rssi, ts := io.timestamp }

/-- `S1.DONE` (44_frame_decoders.md rule R274). -/
def s1Done (par : Par) (a : Syn) (d : DecS) (bit : BitTok) (io : Io) : DecS × Io :=
  let d' := stampS par d bit.rssi io
  let io' := if d'.crcOk then io.tick else io.tick.note (eventS .crc a d')
  (decSReset, io'.emit (telegramS a d' .S1))

/-- A payload byte has been received: see `payloadT`. -/
def payloadS (par : Par) (a : Syn) (d : DecS) (v : Byte) (bit : BitTok) (io : Io) : DecS × Io :=
  if par.cap ≤ d.len then takeDiscard decSReset (eventS .cap a d) io
  else if d.len + 1 = d.total then s1Done par a (storeS d v) bit io
  else (storeS d v, io)

/-- `S1.DATA` (44_frame_decoders.md rule R273). -/
def s1Data (par : Par) (a : Syn) (d : DecS) (bit : BitTok) (io : Io) : DecS × Io :=
  if pairOpens d then (openPair d bit.b, io)
  else
    let m := manch par d.half bit.b
    let v := shiftIn d.reg (m.getD par.substBit)
    let d' := { d with symErr := symErrAfter d.symErr m.isNone }
    let io' := if m.isNone then io.note (eventS .symbol a d) else io
    if d.cnt < 15 then (collectS d' v, io') else payloadS par a (endFieldS d') v bit io'

/-- The handler that `st` selects (44_frame_decoders.md rule R270); a decoder that stands in `DONE` completes its
telegram (DEDUCED, log entry 11). -/
def s1Handler (par : Par) (a : Syn) (d : DecS) (bit : BitTok) (io : Io) : DecS × Io :=
  match d.st with
  | .idle => (s1Idle d bit, io)
  | .len => s1Len par a d bit io
  | .data => s1Data par a d bit io
  | .done => s1Done par a d bit io

/-- `S1.BIT` (44_frame_decoders.md rule R270): the RSSI pre-check, then one handler. -/
def s1Bit (par : Par) (a : Syn) (d : DecS) (bit : BitTok) (io : Io) : DecS × Io :=
  if !decide (d.st = .idle) && rssiLow par .S bit then takeDiscard decSReset (eventS .rssi a d) io
  else s1Handler par a d bit io

/-! ### Meanings -/

/-- Write back one S1 decoder and what passed to the host; the operation returns the telegrams emitted. -/
def finishS (s : State) (a : Syn) (r : DecS × Io) : State :=
  ((s.setChS (s.chS.setDec a r.1)).setIo r.2).reply (newTelegrams s.io r.2)

/-- Run a handler on `ch[S].dec[a]` where its `st` selects it (30_encoding.md rule R127). -/
def runHandlerS (s : State) (a : Syn) (st : StS) (r : DecS × Io) : Host.Outcome State Fault Refusal :=
  if (s.chS.dec a).st = st then .next (finishS s a r) else .refused .handlerNotSelected

/-- Return one decoder to idle, nothing else changed. -/
def resetDec (s : State) (c : Chain) (a : Syn) : State :=
  match c with
  | .T => s.setChT (s.chT.setDec a decTReset)
  | .S => s.setChS (s.chS.setDec a decSReset)

/-- 0x58 `DEC.RESET` (44_frame_decoders.md rule R269). -/
def execDecReset (c : Chain) (a : Syn) (s : State) : Host.Outcome State Fault Refusal :=
  .next ((resetDec s c a).reply [])

/-- 0x60 `S1.BIT` (44_frame_decoders.md rule R270). -/
def execS1Bit (a : Syn) (tok : BitTok) (s : State) : Host.Outcome State Fault Refusal :=
  .next (finishS s a (s1Bit s.par a (s.chS.dec a) tok s.io))

/-- 0x61 `S1.IDLE` (44_frame_decoders.md rule R271). -/
def execS1Idle (a : Syn) (tok : BitTok) (s : State) : Host.Outcome State Fault Refusal :=
  runHandlerS s a .idle (s1Idle (s.chS.dec a) tok, s.io)

/-- 0x62 `S1.LEN` (44_frame_decoders.md rule R272). -/
def execS1Len (a : Syn) (tok : BitTok) (s : State) : Host.Outcome State Fault Refusal :=
  runHandlerS s a .len (s1Len s.par a (s.chS.dec a) tok s.io)

/-- 0x63 `S1.DATA` (44_frame_decoders.md rule R273). -/
def execS1Data (a : Syn) (tok : BitTok) (s : State) : Host.Outcome State Fault Refusal :=
  runHandlerS s a .data (s1Data s.par a (s.chS.dec a) tok s.io)

/-- 0x64 `S1.DONE` (44_frame_decoders.md rule R274). -/
def execS1Done (a : Syn) (tok : BitTok) (s : State) : Host.Outcome State Fault Refusal :=
  runHandlerS s a .done (s1Done s.par a (s.chS.dec a) tok s.io)

end Sys2Proof.Machine
end

