-- ==== Sys2Proof/Machine/Filter.lean ====
section
/-! DEFINITION. The filter library (40_filter_library.md): each filter is a pure function of its state and input on
the carrier `k`, with the order of operations the pseudocode fixes. -/

namespace Sys2Proof.Machine

open Sys2Proof

/-- The sample pushed `k` steps ago, the newest being in slot `w` (20_memory.md rule R73). -/
def tapAgo (hist : List NumT) (n w k : Nat) : NumT := hist.getD ((w + n - k) % n) 0

/-- `FIR.STEP f, x` with coefficients `b` (40_filter_library.md rule R141). -/
def firStep (k : Numerics) (b : List NumT) (f : Fir) (x : NumT) : NumT × Fir :=
  let hist := f.hist.set f.w x
  (numSum k b.length fun j => numMul k (b.getD j 0) (tapAgo hist b.length f.w j),
    { hist := hist, w := (f.w + 1) % b.length })

/-- One section of `IIR.STEP` (40_filter_library.md rule R143): the value handed to the next section, and the taps. -/
def iirSection (k : Numerics) (b a : List NumT) (vh : NumT × List NumT) (s : Nat) : NumT × List NumT :=
  let h1 := vh.2.getD (3 * s + 1) 0
  let h2 := vh.2.getD (3 * s + 2) 0
  let t0 := numSub k (numSub k vh.1 (numMul k (a.getD (3 * s + 1) 0) h1)) (numMul k (a.getD (3 * s + 2) 0) h2)
  let v := numAdd k (numAdd k (numMul k (b.getD (3 * s) 0) t0) (numMul k (b.getD (3 * s + 1) 0) h1))
    (numMul k (b.getD (3 * s + 2) 0) h2)
  (v, ((vh.2.set (3 * s + 2) h1).set (3 * s + 1) t0).set (3 * s) t0)

/-- `IIR.STEP g, x`: `n` sections in order, then the gain (40_filter_library.md rule R143). -/
def iirStep (k : Numerics) (n : Nat) (b a : List NumT) (gain : NumT) (g : Iir) (x : NumT) : NumT × Iir :=
  let r := (List.range n).foldl (iirSection k b a) (x, g.h)
  (numMul k r.1 gain, { h := r.2 })

/-- `PPF.STEP p, x` with `n` phases and coefficients `coef` (40_filter_library.md rule R145); no value except at the
end of a phase cycle. -/
def ppfStep (k : Numerics) (n : Nat) (coef : List (List NumT)) (p : Ppf) (x : NumT) : Option NumT × Ppf :=
  let j := p.ph
  let r := firStep k (coef.getD j []) (p.sub.getD j (firReset 0)) x
  let s := numAdd k p.acc r.1
  if j + 1 = n then (some s, { ph := 0, acc := 0, sub := p.sub.set j r.2 })
  else (none, { ph := j + 1, acc := s, sub := p.sub.set j r.2 })

/-- `MAVG.STEP m, x` with window `n` (40_filter_library.md rule R147). -/
def mavgStep (k : Numerics) (n : Nat) (m : Mavg) (x : NumT) : NumT × Mavg :=
  let old := m.hist.getD m.w 0
  let sum := numAdd k (numSub k m.sum old) x
  (sum, { hist := m.hist.set m.w x, w := (m.w + 1) % n, sum := sum })

/-! ### Instances (10_state.md rule R20) -/

/-- The coefficients of a FIR instance (40_filter_library.md rule R141). -/
def firCoef (par : Par) (f : FirInst) : List NumT :=
  match f with
  | .post c => par.postB.get c
  | .fe c _ => par.feFirB.get c
  | .sub c _ p => (par.ppCoef.get c).getD p []

/-- The state of a FIR instance; `none` for a sub-filter that does not exist. -/
def firState (s : State) (f : FirInst) : Option Fir :=
  match f with
  | .post c => some (s.front c).post
  | .fe c x => some ((s.front c).fe x).fir
  | .sub c x p => if p < s.par.ppP then some (((s.front c).fe x).ppf.sub.getD p (firReset 0)) else none

/-- Write the state of a FIR instance. -/
def setFirState (s : State) (f : FirInst) (v : Fir) : State :=
  match f with
  | .post c => s.setFront c { s.front c with post := v }
  | .fe c x => s.setFront c ((s.front c).setFe x { (s.front c).fe x with fir := v })
  | .sub c x p =>
    s.setFront c ((s.front c).setFe x
      { (s.front c).fe x with ppf := { ((s.front c).fe x).ppf with sub := ((s.front c).fe x).ppf.sub.set p v } })

/-- `IIR.STEP` with the constants of `ch[c].t2.bpf` (40_filter_library.md rule R143). -/
def bpfStep (par : Par) (c : Chain) (g : Iir) (x : NumT) : NumT × Iir :=
  iirStep par.numerics (par.t2Sect.get c) (par.t2B.get c) (par.t2A.get c) (par.t2Gain.get c) g x

/-! ### Meanings -/

/-- 0x10 `FIR.STEP` (40_filter_library.md rule R141). -/
def execFirStep (f : FirInst) (x : NumT) (s : State) : Host.Outcome State Fault Refusal :=
  match firState s f with
  | none => .refused .noSuchInstance
  | some v =>
    let r := firStep s.par.numerics (firCoef s.par f) v x
    .next ((setFirState s f r.2).reply [.num r.1])

/-- 0x11 `IIR.STEP` (40_filter_library.md rule R143). -/
def execIirStep (c : Chain) (x : NumT) (s : State) : Host.Outcome State Fault Refusal :=
  let r := bpfStep s.par c (s.t2 c).bpf x
  .next ((s.setT2 c { s.t2 c with bpf := r.2 }).reply [.num r.1])

/-- 0x12 `PPF.STEP` (40_filter_library.md rule R145). -/
def execPpfStep (c : Chain) (ch : Chan) (x : NumT) (s : State) : Host.Outcome State Fault Refusal :=
  let r := ppfStep s.par.numerics s.par.ppP (s.par.ppCoef.get c) ((s.front c).fe ch).ppf x
  .next ((s.setFront c ((s.front c).setFe ch { (s.front c).fe ch with ppf := r.2 })).reply
    (r.1.toList.map Token.num))

/-- 0x13 `MAVG.STEP` (40_filter_library.md rule R147). -/
def execMavgStep (c : Chain) (ch : Chan) (x : NumT) (s : State) : Host.Outcome State Fault Refusal :=
  let r := mavgStep s.par.numerics s.par.mavgLen ((s.front c).fe ch).mavg x
  .next ((s.setFront c ((s.front c).setFe ch { (s.front c).fe ch with mavg := r.2 })).reply [.num r.1])

end Sys2Proof.Machine
end

