-- ==== Sys2Proof/Machine/Sync.lean ====
section
/-! DEFINITION. The bit synchronizers (43_bit_sync.md): the access-code correlator, time-2 recovery, the deglitch
filter, and run-length recovery in its T1/C1 and S1 forms. -/

namespace Sys2Proof.Machine

open Sys2Proof

/-- `ACORR` (43_bit_sync.md rule R221): the `BIT` token and the window. -/
def acorr (par : Par) (c : Chain) (sr : BitVec 32) (b : Bool) (rssi : NumT) : BitTok × BitVec 32 :=
  (⟨b, accMatch par c (shiftIn sr b), rssi⟩, shiftIn sr b)

/-! ### Time-2 -/

/-- The two-level clock: high iff the band-pass output reaches the threshold (43_bit_sync.md rule R222). -/
def t2Clock (par : Par) (u : NumT) : Bool := numLe par.t2ClkTh u

/-- The lock counter after a sample with clock `clk` (43_bit_sync.md rule R222). -/
def t2Lock (n : Nat) (clk prev : Bool) (lock : Nat) : Nat :=
  if clk && !prev then 1 else if clk && decide (lock < n) then lock + 1 else lock

/-- Whether this sample is the one at which the data bit is taken (43_bit_sync.md rule R222). -/
def t2Samples (n : Nat) (clk prev : Bool) (lock : Nat) : Bool :=
  clk && prev && decide (lock < n) && decide (lock + 1 = n)

/-- The time-2 synchronizer of `T2.STEP`, without the delivery: its state, and the `BIT` it emits, if any. -/
def t2Advance (par : Par) (c : Chain) (t : T2Reg) (tok : RawTok) : T2Reg × Option BitTok :=
  let r := bpfStep par c t.bpf (numMul par.numerics tok.d tok.d)
  let clk := t2Clock par r.1
  let lock := t2Lock (par.t2LockN.get c) clk t.clkPrev t.lock
  if t2Samples (par.t2LockN.get c) clk t.clkPrev t.lock then
    let w := acorr par c t.sr tok.r tok.rssi
    ({ bpf := r.2, clkPrev := clk, lock := lock, sr := w.2 }, some w.1)
  else ({ bpf := r.2, clkPrev := clk, lock := lock, sr := t.sr }, none)

/-- `deliver` of zero or one bit to a decoder (43_bit_sync.md rule R230). -/
def deliverOne {δ : Type} (dlv : δ → BitTok → Io → δ × Io) (bit : Option BitTok) (d : δ) (io : Io) : δ × Io :=
  match bit with
  | none => (d, io)
  | some b => dlv d b io

/-- `T2.STEP ch[T].t2, tok`: the chain, what passed to the host, the bit emitted. -/
def t2StepT (par : Par) (ch : ChainT) (io : Io) (tok : RawTok) : ChainT × Io × Option BitTok :=
  let r := t2Advance par .T ch.t2 tok
  let q := deliverOne (t1c1Bit par .T2) r.2 ch.decT2 io
  ({ ch with t2 := r.1, decT2 := q.1 }, q.2, r.2)

/-- `T2.STEP ch[S].t2, tok`. -/
def t2StepS (par : Par) (ch : ChainS) (io : Io) (tok : RawTok) : ChainS × Io × Option BitTok :=
  let r := t2Advance par .S ch.t2 tok
  let q := deliverOne (s1Bit par .T2) r.2 ch.decT2 io
  ({ ch with t2 := r.1, decT2 := q.1 }, q.2, r.2)

/-! ### Run-length -/

/-- The deglitch window after one raw bit: `((acc << 1) | r) & (2^DEGL_W − 1)` (43_bit_sync.md rule R224). -/
def deglitchAcc (w acc : Nat) (r : Bool) : Nat := ((acc <<< 1) ||| r.toNat) &&& (2 ^ w - 1)

/-- `DEGLITCH ch[T].rl`: the window and the level (43_bit_sync.md rule R224). -/
def deglitchT (par : Par) (rl : RlT) (r : Bool) : RlT × Bool :=
  let acc := deglitchAcc par.deglW.t rl.acc r
  ({ rl with acc := acc }, deglitchTab par.deglW.t par.deglTh.t acc)

/-- `DEGLITCH ch[S].rl`. -/
def deglitchS (par : Par) (rl : RlS) (r : Bool) : RlS × Bool :=
  let acc := deglitchAcc par.deglW.s rl.acc r
  ({ rl with acc := acc }, deglitchTab par.deglW.s par.deglTh.s acc)

/-- What a run's bits leave: the window, the decoder, what passed to the host, and the bits emitted. -/
structure RunOut (δ : Type) where
  sr : BitVec 32
  dec : δ
  io : Io
  bits : List BitTok

/-- `repeat n times: deliver(c, RL, ACORR rl, c, level, rssi)`: each delivery completes before the next
(43_bit_sync.md rules R226 and R230). -/
def runBits {δ : Type} (par : Par) (c : Chain) (dlv : δ → BitTok → Io → δ × Io) (level : Bool) (rssi : NumT) :
    Nat → BitVec 32 → δ → Io → RunOut δ
  | 0, sr, d, io => ⟨sr, d, io, []⟩
  | n + 1, sr, d, io =>
    let w := acorr par c sr level rssi
    let q := dlv d w.1 io
    let r := runBits par c dlv level rssi n w.2 q.1 q.2
    { r with bits := w.1 :: r.bits }

/-- The run test of 43_bit_sync.md rule R226: too short, or at most half the estimated bit length. -/
def runImplausible (minRun : Nat) (est : Int) (run : Nat) : Bool :=
  decide (run < minRun) || decide (2 * ((run : Int) * 256) ≤ est)

/-- The symbol periods in a run, rounded to nearest (43_bit_sync.md rule R226). -/
def runPeriods (est : Int) (run : Nat) : Int := ((run : Int) * 256 + est.tdiv 2).tdiv est

/-- The T1/C1 run-length synchronizer as `RL.RESET` leaves it (43_bit_sync.md rule R227). -/
def rlTCleared (par : Par) (rl : RlT) : RlT :=
  { rl with run := 0, sr := 0, bitlen := par.nomBitlen.t, esum := 0 }

/-- The S1 run-length synchronizer as `RL.RESET` leaves it (43_bit_sync.md rule R227). -/
def rlSCleared (par : Par) (rl : RlS) : RlS :=
  { rl with run := 0, sr := 0, spb0 := par.nomBitlen.s, spb1 := par.nomBitlen.s }

/-- The residual error of a run, ×256 (43_bit_sync.md rule R226). -/
def runResidual (bitlen : Int) (run : Nat) : Int := (run : Int) * 256 - runPeriods bitlen run * bitlen

/-- The adaptive estimate after a run, `esum` being the updated sum (43_bit_sync.md rule R226). -/
def piBitlen (par : Par) (bitlen e esum n : Int) : Int := bitlen + (e + esum.tdiv par.rlKi).tdiv (par.rlKp * n)

/-- `RL.RUN ch[T].rl, level, run, rssi` (43_bit_sync.md rule R226): the synchronizer, its decoder, what passed to the
host, the bits emitted. -/
def rlRun (par : Par) (rl : RlT) (d : DecT) (io : Io) (level : Bool) (run : Nat) (rssi : NumT) :
    RlT × DecT × Io × List BitTok :=
  if runImplausible par.rlMinRun.t rl.bitlen run then
    let x := takeSync (rlTCleared par rl) decTReset (eventT .sync .RL d) io
    (x.1, x.2.1, x.2.2, [])
  else
    let n := runPeriods rl.bitlen run
    let e := runResidual rl.bitlen run
    let q := runBits par .T (t1c1Bit par .RL) level rssi n.toNat rl.sr d io
    let bitlen := piBitlen par rl.bitlen e (rl.esum + e) n
    if bitlen ≤ 0 then
      let x := takeSync (rlTCleared par rl) decTReset (eventT .sync .RL q.dec) q.io
      (x.1, x.2.1, x.2.2, q.bits)
    else ({ rl with sr := q.sr, esum := rl.esum + e, bitlen := bitlen }, q.dec, q.io, q.bits)

/-- `RL.STEP ch[T].rl, tok` (43_bit_sync.md rule R225): the chain, what passed to the host, the bits emitted. -/
def rlStep (par : Par) (ch : ChainT) (io : Io) (tok : RawTok) : ChainT × Io × List BitTok :=
  let g := deglitchT par ch.rl tok.r
  if g.2 = ch.rl.lvlPrev then ({ ch with rl := { g.1 with run := ch.rl.run + 1 } }, io, [])
  else
    let x := rlRun par g.1 ch.decRl io ch.rl.lvlPrev ch.rl.run tok.rssi
    ({ ch with rl := { x.1 with lvlPrev := g.2, run := 1 }, decRl := x.2.1 }, x.2.2.1, x.2.2.2)

/-- `rl.spb[level]` (10_state.md rule R34). -/
def spbOf (rl : RlS) (level : Bool) : Int := if level then rl.spb1 else rl.spb0

/-- Write `rl.spb[level]`. -/
def setSpb (rl : RlS) (level : Bool) (v : Int) : RlS :=
  if level then { rl with spb1 := v } else { rl with spb0 := v }

/-- The average of the old estimate and this run's (43_bit_sync.md rule R229). -/
def spbAverage (s : Int) (run : Nat) : Int := (s + ((run : Int) * 256).tdiv (runPeriods s run)).tdiv 2

/-- Whether an S1 estimate is outside [0.5, 1.5] of nominal (43_bit_sync.md rule R229). -/
def spbOutside (nom v : Int) : Bool := decide (2 * v < nom) || decide (3 * nom < 2 * v)

/-- `RLS1.RUN ch[S].rl, level, run, rssi` (43_bit_sync.md rule R229). -/
def rls1Run (par : Par) (rl : RlS) (d : DecS) (io : Io) (level : Bool) (run : Nat) (rssi : NumT) :
    RlS × DecS × Io × List BitTok :=
  let s := spbOf rl level
  if runImplausible par.rlMinRun.s s run then
    let x := takeSync (rlSCleared par rl) decSReset (eventS .sync .RL d) io
    (x.1, x.2.1, x.2.2, [])
  else
    let q := runBits par .S (s1Bit par .RL) level rssi (runPeriods s run).toNat rl.sr d io
    let v := spbAverage s run
    if spbOutside par.nomBitlen.s v then
      let x := takeSync (rlSCleared par rl) decSReset (eventS .sync .RL q.dec) q.io
      (x.1, x.2.1, x.2.2, q.bits)
    else ({ setSpb rl level v with sr := q.sr }, q.dec, q.io, q.bits)

/-- `RLS1.STEP ch[S].rl, tok` (43_bit_sync.md rule R228). -/
def rls1Step (par : Par) (ch : ChainS) (io : Io) (tok : RawTok) : ChainS × Io × List BitTok :=
  let g := deglitchS par ch.rl tok.r
  if g.2 = ch.rl.lvlPrev then ({ ch with rl := { g.1 with run := ch.rl.run + 1 } }, io, [])
  else
    let x := rls1Run par g.1 ch.decRl io ch.rl.lvlPrev ch.rl.run tok.rssi
    ({ ch with rl := { x.1 with lvlPrev := g.2, run := 1 }, decRl := x.2.1 }, x.2.2.1, x.2.2.2)

/-! ### Meanings -/

/-- The window of synchronizer `a` of chain `c`. -/
def syncSr (s : State) (c : Chain) (a : Syn) : BitVec 32 :=
  match c, a with
  | .T, .T2 => s.chT.t2.sr
  | .T, .RL => s.chT.rl.sr
  | .S, .T2 => s.chS.t2.sr
  | .S, .RL => s.chS.rl.sr

/-- Write the window of synchronizer `a` of chain `c`. -/
def setSyncSr (s : State) (c : Chain) (a : Syn) (sr : BitVec 32) : State :=
  match c, a with
  | .T, .T2 => s.setChT { s.chT with t2 := { s.chT.t2 with sr := sr } }
  | .T, .RL => s.setChT { s.chT with rl := { s.chT.rl with sr := sr } }
  | .S, .T2 => s.setChS { s.chS with t2 := { s.chS.t2 with sr := sr } }
  | .S, .RL => s.setChS { s.chS with rl := { s.chS.rl with sr := sr } }

/-- 0x40 `ACORR` (43_bit_sync.md rule R221). -/
def execAcorr (c : Chain) (a : Syn) (b : Bool) (r : NumT) (s : State) : Host.Outcome State Fault Refusal :=
  let w := acorr s.par c (syncSr s c a) b r
  .next ((setSyncSr s c a w.2).reply [.bitTok w.1])

/-- 0x41 `T2.STEP` (43_bit_sync.md rule R222). -/
def execT2Step (c : Chain) (tok : RawTok) (s : State) : Host.Outcome State Fault Refusal :=
  match c with
  | .T =>
    let r := t2StepT s.par s.chT s.io tok
    .next (((s.setChT r.1).setIo r.2.1).reply (r.2.2.toList.map Token.bitTok))
  | .S =>
    let r := t2StepS s.par s.chS s.io tok
    .next (((s.setChS r.1).setIo r.2.1).reply (r.2.2.toList.map Token.bitTok))

/-- 0x42 `DEGLITCH` (43_bit_sync.md rule R224). -/
def execDeglitch (c : Chain) (r : Bool) (s : State) : Host.Outcome State Fault Refusal :=
  match c with
  | .T =>
    let g := deglitchT s.par s.chT.rl r
    .next ((s.setChT { s.chT with rl := g.1 }).reply [.bit g.2])
  | .S =>
    let g := deglitchS s.par s.chS.rl r
    .next ((s.setChS { s.chS with rl := g.1 }).reply [.bit g.2])

/-- 0x43 `RL.STEP` (43_bit_sync.md rule R225). -/
def execRlStep (tok : RawTok) (s : State) : Host.Outcome State Fault Refusal :=
  let r := rlStep s.par s.chT s.io tok
  .next (((s.setChT r.1).setIo r.2.1).reply (r.2.2.map Token.bitTok))

/-- 0x44 `RL.RUN` (43_bit_sync.md rule R226). -/
def execRlRun (level : Bool) (run : Nat) (r : NumT) (s : State) : Host.Outcome State Fault Refusal :=
  let x := rlRun s.par s.chT.rl s.chT.decRl s.io level run r
  .next (((s.setChT { s.chT with rl := x.1, decRl := x.2.1 }).setIo x.2.2.1).reply (x.2.2.2.map Token.bitTok))

/-- 0x45 `RL.RESET` (43_bit_sync.md rule R227). -/
def execRlReset (c : Chain) (s : State) : Host.Outcome State Fault Refusal :=
  match c with
  | .T => .next ((s.setChT { s.chT with rl := rlTCleared s.par s.chT.rl, decRl := decTReset }).reply [])
  | .S => .next ((s.setChS { s.chS with rl := rlSCleared s.par s.chS.rl, decRl := decSReset }).reply [])

/-- 0x46 `RLS1.STEP` (43_bit_sync.md rule R228). -/
def execRls1Step (tok : RawTok) (s : State) : Host.Outcome State Fault Refusal :=
  let r := rls1Step s.par s.chS s.io tok
  .next (((s.setChS r.1).setIo r.2.1).reply (r.2.2.map Token.bitTok))

/-- 0x47 `RLS1.RUN` (43_bit_sync.md rule R229). -/
def execRls1Run (level : Bool) (run : Nat) (r : NumT) (s : State) : Host.Outcome State Fault Refusal :=
  let x := rls1Run s.par s.chS.rl s.chS.decRl s.io level run r
  .next (((s.setChS { s.chS with rl := x.1, decRl := x.2.1 }).setIo x.2.2.1).reply (x.2.2.2.map Token.bitTok))

end Sys2Proof.Machine
end

