-- ==== Sys2Proof/Machine/Demod.lean ====
section
/-! DEFINITION. The demodulator (42_demodulator.md): the polar discriminator in its four variants, the post-filter,
the DC removal, the slicer, the RSSI estimate, and `DEMOD.STEP`. -/

namespace Sys2Proof.Machine

open Sys2Proof

/-- The four variants of `PDISC.*`, selected by `cfg.atan_sel` (10_state.md rule R44). -/
inductive Atan where
  | exact
  | full
  | restr
  | sign
  deriving DecidableEq, Repr

/-- The real part of the new sample times the conjugate of the previous one (42_demodulator.md rule R190). -/
def discRe (k : Numerics) (pd : Pdisc) (i q : NumT) : NumT := numAdd k (numMul k i pd.ip) (numMul k q pd.qp)

/-- The imaginary part (42_demodulator.md rule R190). -/
def discIm (k : Numerics) (pd : Pdisc) (i q : NumT) : NumT := numSub k (numMul k q pd.ip) (numMul k i pd.qp)

/-- The variant's result from (im, re) (42_demodulator.md rules R191, R193, R194, R195). -/
def atanResult (k : Numerics) (v : Atan) (im re : NumT) : NumT :=
  match v with
  | .exact => argExact k im re
  | .full => argFull k im re
  | .restr => argRestr k im re
  | .sign => im

/-- `PDISC.<v> pd, (i, q)` (42_demodulator.md rule R190): Δφ, and the new previous sample. -/
def pdisc (k : Numerics) (v : Atan) (pd : Pdisc) (i q : NumT) : NumT × Pdisc :=
  (atanResult k v (discIm k pd i q) (discRe k pd i q), ⟨i, q⟩)

/-- The variant `cfg.atan_sel` selects (42_demodulator.md rule R200). -/
def atanOf (sel : BitVec 2) : Atan :=
  if sel = 0 then .exact else if sel = 1 then .full else if sel = 2 then .restr else .sign

/-- `POSTLPF` (42_demodulator.md rule R196). -/
def postlpf (par : Par) (c : Chain) (f : Fir) (x : NumT) : NumT × Fir := firStep par.numerics (par.postB.get c) f x

/-- `DCBLOCK` (42_demodulator.md rule R197). -/
def dcblock (par : Par) (r : Dcb) (x : NumT) : NumT × Dcb :=
  let k := par.numerics
  let y := numAdd k (numMul k par.dcbK (numSub k x r.x1)) (numMul k par.dcbK r.y1)
  (y, ⟨x, y⟩)

/-- `SLICE` (42_demodulator.md rule R198). -/
def slice (par : Par) (c : Chain) (d : NumT) : Bool := xor (numLe (numOfInt par.numerics 0) d) (par.pol.get c)

/-- `RSSI` (42_demodulator.md rule R199): the value returned, and the smoother's state. -/
def rssiStep (par : Par) (cfg : BitVec 32) (r : RssiReg) (i q : NumT) : NumT × RssiReg :=
  let k := par.numerics
  let m := numSqrt k (numAdd k (numMul k i i) (numMul k q q))
  let y := numAdd k r.y (numMul k par.rssiAlpha (numSub k m r.y))
  (if par.feKind = .mavg then numDiv k y (numOfInt k (cfgDecim cfg)) else y, ⟨y⟩)

/-- The part of `DEMOD.STEP` before the synchronizers (42_demodulator.md rule R200): the `RAW` token, and the front. -/
def demodFront (par : Par) (cfg : BitVec 32) (c : Chain) (f : Front) (i q : NumT) : RawTok × Front :=
  let p := pdisc par.numerics (atanOf (cfgAtanSel cfg)) f.pd i q
  let l := postlpf par c f.post p.1
  let b := if cfgDcblockEn cfg then dcblock par f.dcb l.1 else (l.1, f.dcb)
  let r := rssiStep par cfg f.rssi i q
  (⟨slice par c b.1, b.1, r.1⟩, { f with pd := p.2, post := l.2, dcb := b.2, rssi := r.2 })

/-- `DEMOD.STEP ch[T], (i, q)` (42_demodulator.md rule R200): time-2 before run-length. -/
def demodStepT (par : Par) (cfg : BitVec 32) (ch : ChainT) (io : Io) (i q : NumT) : ChainT × Io :=
  let f := demodFront par cfg .T ch.fr i q
  let ch1 := { ch with fr := f.2 }
  let x := if cfgT2En cfg then t2StepT par ch1 io f.1 else (ch1, io, none)
  let y := if cfgRlEn cfg then rlStep par x.1 x.2.1 f.1 else (x.1, x.2.1, [])
  (y.1, y.2.1)

/-- `DEMOD.STEP ch[S], (i, q)` (42_demodulator.md rule R200). -/
def demodStepS (par : Par) (cfg : BitVec 32) (ch : ChainS) (io : Io) (i q : NumT) : ChainS × Io :=
  let f := demodFront par cfg .S ch.fr i q
  let ch1 := { ch with fr := f.2 }
  let x := if cfgT2En cfg then t2StepS par ch1 io f.1 else (ch1, io, none)
  let y := if cfgRlEn cfg then rls1Step par x.1 x.2.1 f.1 else (x.1, x.2.1, [])
  (y.1, y.2.1)

/-- `DEMOD.STEP ch[c], (i, q)`. -/
def demodStep (s : State) (c : Chain) (i q : NumT) : State :=
  match c with
  | .T =>
    let r := demodStepT s.par s.cfg s.chT s.io i q
    (s.setChT r.1).setIo r.2
  | .S =>
    let r := demodStepS s.par s.cfg s.chS s.io i q
    (s.setChS r.1).setIo r.2

/-! ### Meanings -/

/-- Run one variant of `PDISC.*` on `ch[c].pd`. -/
def runPdisc (v : Atan) (c : Chain) (i q : NumT) (s : State) : State :=
  let r := pdisc s.par.numerics v (s.front c).pd i q
  (s.setFront c { s.front c with pd := r.2 }).reply [.num r.1]

/-- 0x30 `PDISC.EXACT` (42_demodulator.md rule R191). -/
def execPdiscExact (c : Chain) (i q : NumT) (s : State) : Host.Outcome State Fault Refusal :=
  .next (runPdisc .exact c i q s)

/-- 0x31 `PDISC.FULL` (42_demodulator.md rule R193). -/
def execPdiscFull (c : Chain) (i q : NumT) (s : State) : Host.Outcome State Fault Refusal :=
  .next (runPdisc .full c i q s)

/-- 0x32 `PDISC.RESTR` (42_demodulator.md rule R194). -/
def execPdiscRestr (c : Chain) (i q : NumT) (s : State) : Host.Outcome State Fault Refusal :=
  .next (runPdisc .restr c i q s)

/-- 0x33 `PDISC.SIGN` (42_demodulator.md rule R195). -/
def execPdiscSign (c : Chain) (i q : NumT) (s : State) : Host.Outcome State Fault Refusal :=
  .next (runPdisc .sign c i q s)

/-- 0x34 `POSTLPF` (42_demodulator.md rule R196). -/
def execPostlpf (c : Chain) (x : NumT) (s : State) : Host.Outcome State Fault Refusal :=
  let r := postlpf s.par c (s.front c).post x
  .next ((s.setFront c { s.front c with post := r.2 }).reply [.num r.1])

/-- 0x35 `DCBLOCK` (42_demodulator.md rule R197). "Executed only when `cfg.dcblock_en = 1`" is a condition on the invoking
`DEMOD.STEP` (`demodFront`); a `DCBLOCK` that is asked for on its own has its effect whatever `cfg` holds, as the rule's
example shows it from reset (DESIGN CHOICE, log entry 21). -/
def execDcblock (c : Chain) (x : NumT) (s : State) : Host.Outcome State Fault Refusal :=
  let r := dcblock s.par (s.front c).dcb x
  .next ((s.setFront c { s.front c with dcb := r.2 }).reply [.num r.1])

/-- 0x36 `SLICE` (42_demodulator.md rule R198). -/
def execSlice (c : Chain) (d : NumT) (s : State) : Host.Outcome State Fault Refusal :=
  .next (s.reply [.bit (slice s.par c d)])

/-- 0x37 `RSSI` (42_demodulator.md rule R199). -/
def execRssi (c : Chain) (i q : NumT) (s : State) : Host.Outcome State Fault Refusal :=
  let r := rssiStep s.par s.cfg (s.front c).rssi i q
  .next ((s.setFront c { s.front c with rssi := r.2 }).reply [.num r.1])

/-- 0x38 `DEMOD.STEP` (42_demodulator.md rule R200). -/
def execDemodStep (c : Chain) (i q : NumT) (s : State) : Host.Outcome State Fault Refusal :=
  .next ((demodStep s c i q).reply (newTelegrams s.io (demodStep s c i q).io))

end Sys2Proof.Machine
end

