-- ==== Sys2Proof/Machine/FrontEnd.lean ====
section
/-! DEFINITION. Front-end conditioning (41_front_end.md): DC-offset removal, the frequency-shift split, the
decimating low-pass filter, the decimation gate, and `SAMPLE.STEP`. -/

namespace Sys2Proof.Machine

open Sys2Proof

/-- The offset `dc` (41_front_end.md rule R170). -/
def dcOffset (par : Par) : NumT :=
  match par.dcOffset with
  | .d127 => numOfInt par.numerics 127
  | .d127half => numAdd par.numerics (numOfInt par.numerics 127) numHalf

/-- `DCREM` on one channel (41_front_end.md rule R170). -/
def dcrem (par : Par) (x : Byte) : NumT := numSub par.numerics (numOfInt par.numerics x.toNat) (dcOffset par)

/-- An `IQ` token (30_encoding.md rule R103). -/
abbrev Iq := NumT × NumT

/-- The two basebands of `FSPLIT` at table entry `n` (41_front_end.md rule R171): U, then L. -/
def fsplitOut (par : Par) (n : Nat) (p : Iq) : Iq × Iq :=
  let k := par.numerics
  let x := par.fsCos.getD n 0
  let z := par.fsNsin.getD n 0
  let ix := numMul k p.1 x
  let qx := numMul k p.2 x
  let iz := numMul k p.1 z
  let qz := numMul k p.2 z
  ((numSub k ix qz, numAdd k qx iz), (numAdd k ix qz, numSub k qx iz))

/-- `fs.n` after one sample (41_front_end.md rule R171). -/
def fsNext (par : Par) (n : Nat) : Nat := (n + par.fsStep) % par.fsN

/-- One channel of `FE.LPF` (41_front_end.md rule R173). -/
def feStep (par : Par) (c : Chain) (e : Fe) (x : NumT) : Option NumT × Fe :=
  match par.feKind with
  | .mavg =>
    let r := mavgStep par.numerics par.mavgLen e.mavg x
    (some r.1, { e with mavg := r.2 })
  | .fir =>
    let r := firStep par.numerics (par.feFirB.get c) e.fir x
    (some r.1, { e with fir := r.2 })
  | .ppf =>
    let r := ppfStep par.numerics par.ppP (par.ppCoef.get c) e.ppf x
    (r.1, { e with ppf := r.2 })

/-- An `IQ` token if both channels returned a value, else nothing (41_front_end.md rule R173). -/
def bothIq (a b : Option NumT) : Option Iq :=
  match a, b with
  | some i, some q => some (i, q)
  | _, _ => none

/-- `FE.LPF` on a chain's front (41_front_end.md rule R173). -/
def feLpf (par : Par) (c : Chain) (f : Front) (p : Iq) : Option Iq × Front :=
  let a := feStep par c f.feI p.1
  let b := feStep par c f.feQ p.2
  (bothIq a.1 b.1, { f with feI := a.2, feQ := b.2 })

/-- `FE.LPF ch[c], p` on the machine: its value, and the state, which keeps whether there was one for `DECIM`. -/
def runFeLpf (s : State) (c : Chain) (p : Iq) : Option Iq × State :=
  let r := feLpf s.par c (s.front c) p
  (r.1, { s.setFront c r.2 with feValue := r.1.isSome })

/-- `DECIM` (41_front_end.md rule R174): whether to forward, and the counter. -/
def decimGate (par : Par) (cfg : BitVec 32) (feValue : Bool) (dcnt : Nat) : Bool × Nat :=
  if par.feKind = .ppf then (feValue, dcnt)
  else if dcnt + 1 = cfgDecim cfg then (true, 0)
  else (false, dcnt + 1)

/-- `DECIM` on the machine. -/
def runDecim (s : State) : Bool × State :=
  let r := decimGate s.par s.cfg s.feValue s.dcnt
  (r.1, { s with dcnt := r.2 })

/-- `FSPLIT` on the machine, where `cfg.dual = 1`; else both chains take the input (41_front_end.md rule R172): the
inputs of chain T and chain S. -/
def routeInput (s : State) (p : Iq) : (Iq × Iq) × State :=
  if cfgDual s.cfg then (fsplitOut s.par s.fsIdx p, { s with fsIdx := fsNext s.par s.fsIdx }) else ((p, p), s)

/-- A chain's enable bit (41_front_end.md rule R175). -/
def chainEnabled (cfg : BitVec 32) (c : Chain) : Bool :=
  match c with
  | .T => cfgT1c1En cfg
  | .S => cfgS1En cfg

/-- `FE.LPF` where the chain is enabled. -/
def feIfEnabled (s : State) (c : Chain) (p : Iq) : Option Iq × State :=
  if chainEnabled s.cfg c then runFeLpf s c p else (none, s)

/-- `DEMOD.STEP` where the chain is enabled and its filter returned a value. -/
def demodIfEnabled (s : State) (c : Chain) (v : Option Iq) : State :=
  match v with
  | none => s
  | some p => if chainEnabled s.cfg c then demodStep s c p.1 p.2 else s

/-- `SAMPLE.STEP (I, Q)` (41_front_end.md rule R175). -/
def sampleStep (s : State) (i q : Byte) : State :=
  let r := routeInput s (dcrem s.par i, dcrem s.par q)
  let t := feIfEnabled r.2 .T r.1.1
  let u := feIfEnabled t.2 .S r.1.2
  let g := runDecim u.2
  if g.1 then demodIfEnabled (demodIfEnabled g.2 .T t.1) .S u.1 else g.2

/-! ### Meanings -/

/-- 0x20 `DCREM` (41_front_end.md rule R170). -/
def execDcrem (i q : Byte) (s : State) : Host.Outcome State Fault Refusal :=
  .next (s.reply [.iq (dcrem s.par i) (dcrem s.par q)])

/-- 0x21 `FSPLIT` (41_front_end.md rule R171): U, then L. "Not executed, and `fs.n` not advanced, when `cfg.dual = 0`" is a
condition on the invoking `SAMPLE.STEP` (`routeInput`); an `FSPLIT` that is asked for on its own has its effect whatever
`cfg.dual` is (DESIGN CHOICE, log entry 21). -/
def execFsplit (i q : NumT) (s : State) : Host.Outcome State Fault Refusal :=
  let r := fsplitOut s.par s.fsIdx (i, q)
  .next ({ s with fsIdx := fsNext s.par s.fsIdx }.reply [.iq r.1.1 r.1.2, .iq r.2.1 r.2.2])

/-- 0x22 `FE.LPF` (41_front_end.md rule R173). -/
def execFeLpf (c : Chain) (i q : NumT) (s : State) : Host.Outcome State Fault Refusal :=
  let r := runFeLpf s c (i, q)
  .next (r.2.reply (r.1.toList.map fun p => Token.iq p.1 p.2))

/-- 0x23 `DECIM` (41_front_end.md rule R174). -/
def execDecim (s : State) : Host.Outcome State Fault Refusal :=
  .next ((runDecim s).2.reply [.bit (runDecim s).1])

/-- 0x24 `SAMPLE.STEP` (41_front_end.md rule R175). -/
def execSampleStep (i q : Byte) (s : State) : Host.Outcome State Fault Refusal :=
  .next ((sampleStep s i q).reply (newTelegrams s.io (sampleStep s i q).io))

end Sys2Proof.Machine
end

