-- ==== Sys2Proof/Machine/System.lean ====
section
/-! DEFINITION. The system operations (46_system_ops.md): reset, configuration load, chunk delivery, end of stream,
timestamp. -/

namespace Sys2Proof.Machine

open Sys2Proof

/-- `RESET` on the core's registers (46_system_ops.md rule R340, 10_state.md rule R49). `PAR`, the host's stream,
the records already handed out and the trace are not the core's to reset. -/
def resetCore (s : State) : State :=
  { s with
    cfg := cfgDefault
    dcnt := 0
    fsIdx := 0
    chT := chainTReset s.par
    chS := chainSReset s.par
    feValue := false
    ret := []
    phase := .configuring }

/-- The samples of a chunk in stream order, I then Q of each pair (46_system_ops.md rule R342, 20_memory.md rule R74). -/
def runSamples (s : State) (bytes : List Byte) : State :=
  match bytes with
  | i :: q :: rest => runSamples (sampleStep s i q) rest
  | _ => s

/-- One full chunk (46_system_ops.md rule R342): the first `CHUNK_BYTES` bytes of `IN` are consumed, and the
telegrams completed are returned. -/
def runChunk (s : State) : State :=
  let r := runSamples { s with inp := s.inp.drop s.par.chunkBytes } (s.inp.take s.par.chunkBytes)
  { r with ret := newTelegrams s.io r.io, phase := .running }

/-- 0x00 `RESET` (46_system_ops.md rule R340); a `PAR` outside its constraints is refused at construction
(93_implementation_defined.md U11). -/
def execReset (s : State) : Host.Outcome State Fault Refusal :=
  if parOk s.par then .next (resetCore s) else .refused .parInvalid

/-- 0x01 `CFG.LOAD w` (46_system_ops.md rule R341): an illegal word is the event `EV_CFG` (60_exceptions.md rule
R359) and the answer `refused`; after the first `CHUNK` the request has no meaning (70_reset_and_hazards.md rule
R392). -/
def execCfgLoad (w : BitVec 32) (s : State) : Host.Outcome State Fault Refusal :=
  match s.phase with
  | .configuring =>
    if cfgLegal s.par w then .next { s with cfg := w, ret := [.status true] }
    else .next { s with io := s.io.note (eventCore .cfg), ret := [.status false] }
  | .running => .refused .hostProtocol
  | .ended => .refused .hostProtocol

/-- 0x02 `CHUNK` (46_system_ops.md rule R342). -/
def execChunk (s : State) : Host.Outcome State Fault Refusal :=
  if s.phase = .ended then .refused .hostProtocol
  else if s.inp.length < s.par.chunkBytes then .refused .wrongChunkSize
  else .next (runChunk s)

/-- 0x03 `END k` (46_system_ops.md rule R343): the event `EV_TRUNC` (60_exceptions.md rule R362); the `k` bytes are
discarded unprocessed, no register changes, nothing is emitted. The operand is a "count k ≥ 0"; for k ≥ `CHUNK_BYTES`, which
the rule's heading does not name, the effect is the same (DESIGN CHOICE, log entry 15). -/
def execEndStream (k : Nat) (s : State) : Host.Outcome State Fault Refusal :=
  if s.phase = .ended then .refused .hostProtocol
  else .next { s with inp := s.inp.drop k, io := s.io.note (eventCore .trunc), ret := [], phase := .ended }

/-- 0x04 `TS.GET` (46_system_ops.md rule R344). -/
def execTsGet (s : State) : Host.Outcome State Fault Refusal :=
  .next ((s.setIo s.io.tick).reply [.timestamp s.io.timestamp])

end Sys2Proof.Machine
end

