-- ==== Sys2Proof/Machine/Dispatch.lean ====
section
/-! DEFINITION. The meaning of every operation: one arm per constructor, in the table's order. -/

namespace Sys2Proof.Machine

open Sys2Proof

def exec (i : Instr) (s : State) : Host.Outcome State Fault Refusal :=
  match i with
  | .reset => Sys2Proof.Machine.execReset s
  | .cfgLoad w => Sys2Proof.Machine.execCfgLoad w s
  | .chunk => Sys2Proof.Machine.execChunk s
  | .endStream k => Sys2Proof.Machine.execEndStream k s
  | .tsGet => Sys2Proof.Machine.execTsGet s
  | .firStep f x => Sys2Proof.Machine.execFirStep f x s
  | .iirStep c x => Sys2Proof.Machine.execIirStep c x s
  | .ppfStep c ch x => Sys2Proof.Machine.execPpfStep c ch x s
  | .mavgStep c ch x => Sys2Proof.Machine.execMavgStep c ch x s
  | .dcrem vi vq => Sys2Proof.Machine.execDcrem vi vq s
  | .fsplit vi vq => Sys2Proof.Machine.execFsplit vi vq s
  | .feLpf c vi vq => Sys2Proof.Machine.execFeLpf c vi vq s
  | .decim => Sys2Proof.Machine.execDecim s
  | .sampleStep vi vq => Sys2Proof.Machine.execSampleStep vi vq s
  | .pdiscExact c vi vq => Sys2Proof.Machine.execPdiscExact c vi vq s
  | .pdiscFull c vi vq => Sys2Proof.Machine.execPdiscFull c vi vq s
  | .pdiscRestr c vi vq => Sys2Proof.Machine.execPdiscRestr c vi vq s
  | .pdiscSign c vi vq => Sys2Proof.Machine.execPdiscSign c vi vq s
  | .postlpf c x => Sys2Proof.Machine.execPostlpf c x s
  | .dcblock c x => Sys2Proof.Machine.execDcblock c x s
  | .slice c d => Sys2Proof.Machine.execSlice c d s
  | .rssi c vi vq => Sys2Proof.Machine.execRssi c vi vq s
  | .demodStep c vi vq => Sys2Proof.Machine.execDemodStep c vi vq s
  | .acorr c a b r => Sys2Proof.Machine.execAcorr c a b r s
  | .t2Step c tok => Sys2Proof.Machine.execT2Step c tok s
  | .deglitch c r => Sys2Proof.Machine.execDeglitch c r s
  | .rlStep tok => Sys2Proof.Machine.execRlStep tok s
  | .rlRun level run r => Sys2Proof.Machine.execRlRun level run r s
  | .rlReset c => Sys2Proof.Machine.execRlReset c s
  | .rls1Step tok => Sys2Proof.Machine.execRls1Step tok s
  | .rls1Run level run r => Sys2Proof.Machine.execRls1Run level run r s
  | .t1c1Bit a tok => Sys2Proof.Machine.execT1c1Bit a tok s
  | .t1c1Idle a tok => Sys2Proof.Machine.execT1c1Idle a tok s
  | .t1c1Lfield a tok => Sys2Proof.Machine.execT1c1Lfield a tok s
  | .t1c1C1trailer a tok => Sys2Proof.Machine.execT1c1C1trailer a tok s
  | .t1c1C1len a tok => Sys2Proof.Machine.execT1c1C1len a tok s
  | .t1c1DataT1 a tok => Sys2Proof.Machine.execT1c1DataT1 a tok s
  | .t1c1DataC1 a tok => Sys2Proof.Machine.execT1c1DataC1 a tok s
  | .t1c1Done a tok => Sys2Proof.Machine.execT1c1Done a tok s
  | .decReset c a => Sys2Proof.Machine.execDecReset c a s
  | .s1Bit a tok => Sys2Proof.Machine.execS1Bit a tok s
  | .s1Idle a tok => Sys2Proof.Machine.execS1Idle a tok s
  | .s1Len a tok => Sys2Proof.Machine.execS1Len a tok s
  | .s1Data a tok => Sys2Proof.Machine.execS1Data a tok s
  | .s1Done a tok => Sys2Proof.Machine.execS1Done a tok s
  | .crc16 bytes => Sys2Proof.Machine.execCrc16 bytes s
  | .crcchkA t => Sys2Proof.Machine.execCrcchkA t s
  | .crcchkB t => Sys2Proof.Machine.execCrcchkB t s
  | .stripA t => Sys2Proof.Machine.execStripA t s
  | .stripB t => Sys2Proof.Machine.execStripB t s
  | .serial p => Sys2Proof.Machine.execSerial p s
  | .emit c a mode => Sys2Proof.Machine.execEmit c a mode s

end Sys2Proof.Machine
end

