-- ==== Sys2Proof/Machine/Fetch.lean ====
section
/-! DEFINITION. Where the machine finds its next operation, and how a table word is put there.

The core has no program counter and no instruction fetch (10_state.md rule R38): an operation runs because the host
asks for it, or because another operation invokes it. The requests stand in the model's own field `ops`, as bytes
(log entry 6). -/

namespace Sys2Proof.Machine

open Sys2Proof

/-- The operation asked for next, and the requests after it. -/
def fetch (s : State) : Parse Instr := decode s.ops

/-- Let the decoder `ch[T].dec[a]` stand in state `st`. -/
def selectT (s : State) (a : Syn) (st : StT) : State :=
  s.setChT (s.chT.setDec a { s.chT.dec a with st := st })

/-- Let the decoder `ch[S].dec[a]` stand in state `st`. -/
def selectS (s : State) (a : Syn) (st : StS) : State :=
  s.setChS (s.chS.setDec a { s.chS.dec a with st := st })

/-- A chunk is delivered: `IN` holds at least `CHUNK_BYTES` bytes, zeros in place of those missing. -/
def deliverChunk (s : State) : State :=
  { s with inp := s.inp ++ List.replicate (s.par.chunkBytes - s.inp.length) 0#8 }

/-- What an operation needs beside its bytes to be the one that runs: a handler is selected by its decoder's `st`
(30_encoding.md rule R127, 10_state.md rule R38), and a `CHUNK` token stands in `IN` (20_memory.md rule R71). -/
def selectFor (i : Instr) (s : State) : State :=
  match i with
  | .chunk => deliverChunk s
  | .t1c1Idle a _ => selectT s a .idle
  | .t1c1Lfield a _ => selectT s a .lfield
  | .t1c1C1trailer a _ => selectT s a .c1Trailer
  | .t1c1C1len a _ => selectT s a .c1Len
  | .t1c1DataT1 a _ => selectT s a .dataT1
  | .t1c1DataC1 a _ => selectT s a .dataC1
  | .t1c1Done a _ => selectT s a .done
  | .s1Idle a _ => selectS s a .idle
  | .s1Len a _ => selectS s a .len
  | .s1Data a _ => selectS s a .data
  | .s1Done a _ => selectS s a .done
  | .reset | .cfgLoad _ | .endStream _ | .tsGet => s
  | .firStep _ _ | .iirStep _ _ | .ppfStep _ _ _ | .mavgStep _ _ _ => s
  | .dcrem _ _ | .fsplit _ _ | .feLpf _ _ _ | .decim | .sampleStep _ _ => s
  | .pdiscExact _ _ _ | .pdiscFull _ _ _ | .pdiscRestr _ _ _ | .pdiscSign _ _ _ => s
  | .postlpf _ _ | .dcblock _ _ | .slice _ _ | .rssi _ _ _ | .demodStep _ _ _ => s
  | .acorr _ _ _ _ | .t2Step _ _ | .deglitch _ _ | .rlStep _ | .rlRun _ _ _ => s
  | .rlReset _ | .rls1Step _ | .rls1Run _ _ _ => s
  | .t1c1Bit _ _ | .decReset _ _ | .s1Bit _ _ => s
  | .crc16 _ | .crcchkA _ | .crcchkB _ | .stripA _ | .stripB _ | .serial _ | .emit _ _ _ => s

/-- Ask for the operation whose bytes stand at the head of `bs`, as the only one. -/
def placeOperation (s : State) (bs : List Byte) : State :=
  match decode bs with
  | .ok (i, _) => { selectFor i s with ops := headBytes bs }
  | .error _ => { s with ops := bs }

end Sys2Proof.Machine
end

