-- ==== Sys2Proof/Machine/Step.lean ====
section
/-! DEFINITION. One step: the operation the host asks for next is read and run. -/

namespace Sys2Proof.Machine

open Sys2Proof

/-- One step. The request is taken from `ops` before the operation runs; bytes that are no operation are refused
(30_encoding.md rule R126). -/
def step (s : State) : Host.Outcome State Fault Refusal :=
  match fetch s with
  | .ok (i, rest) => exec i { s with ops := rest }
  | .error e => .refused (.noSuchOperation e)

/-- `s` with the table word `w` of `nbits` bits, every later bit 0, as its next and only request. -/
def State.withFetchWord (s : State) (nbits w : Nat) : State := placeOperation s (tableBytes nbits w)

end Sys2Proof.Machine
end

