-- ==== Sys2Proof/Safety.lean ====
section
/-! DEFINITION. What claims about the core are stated in: the invariants of its registers, and the composites
written out as the sequences of operations that the spec says they are. -/

namespace Sys2Proof.Machine

open Sys2Proof

/-! ### Filters (40_filter_library.md rule R149) -/

/-- A FIR state of order `n`: the history keeps its length and the index stays inside it. -/
structure FirOk (n : Nat) (f : Fir) : Prop where
  length : f.hist.length = n
  index : f.w < n

/-- A polyphase state of `p` phases with sub-filters of length `l`; the sum is 0 at the start of a cycle. -/
structure PpfOk (p l : Nat) (q : Ppf) : Prop where
  phase : q.ph < p
  count : q.sub.length = p
  subs : ∀ f ∈ q.sub, FirOk l f
  start : q.ph = 0 → q.acc = 0

/-- A moving-average state of window `n`. -/
structure MavgOk (n : Nat) (m : Mavg) : Prop where
  length : m.hist.length = n
  index : m.w < n

/-- A front-end filter of chain `c`, in each of its kinds. -/
structure FeOk (par : Par) (c : Chain) (e : Fe) : Prop where
  mavg : MavgOk par.mavgLen e.mavg
  fir : FirOk (par.feFirB.get c).length e.fir
  ppf : PpfOk par.ppP (par.ppL.get c) e.ppf

/-- The front part of chain `c`. -/
structure FrontOk (par : Par) (c : Chain) (f : Front) : Prop where
  feI : FeOk par c f.feI
  feQ : FeOk par c f.feQ
  post : FirOk (par.postB.get c).length f.post

/-- The time-2 synchronizer of chain `c`: three taps a section; the lock counter stops at its threshold. -/
structure T2Ok (par : Par) (c : Chain) (t : T2Reg) : Prop where
  taps : t.bpf.h.length = 3 * par.t2Sect.get c
  lock : t.lock ≤ par.t2LockN.get c

/-- The shapes of every array and the ranges of every index, for a `PAR` inside its constraints. -/
structure ShapesOk (s : State) : Prop where
  par : parOk s.par = true
  frontT : FrontOk s.par .T s.chT.fr
  frontS : FrontOk s.par .S s.chS.fr
  t2T : T2Ok s.par .T s.chT.t2
  t2S : T2Ok s.par .S s.chS.t2
  fs : s.fsIdx < s.par.fsN
  windowT : s.chT.rl.acc < 2 ^ s.par.deglW.t
  windowS : s.chS.rl.acc < 2 ^ s.par.deglW.s

/-- The moving-average invariant of 10_state.md rule R26: the running sum is the sum of the history. -/
def SumOk (m : Mavg) : Prop := m.sum = m.hist.sum

/-- The four moving sums of the machine keep their window and their sum. -/
structure SumsOk (s : State) : Prop where
  window : ∀ c x, MavgOk s.par.mavgLen ((s.front c).fe x).mavg
  sum : ∀ c x, SumOk ((s.front c).fe x).mavg

/-! ### Run-length estimates (43_bit_sync.md rule R231) -/

/-- The estimates stay positive, the S1 ones within half and three halves of nominal. -/
structure EstimatesOk (s : State) : Prop where
  nomT : 0 < s.par.nomBitlen.t
  nomS : 0 < s.par.nomBitlen.s
  bitlen : 0 < s.chT.rl.bitlen
  spb : ∀ level, s.par.nomBitlen.s ≤ 2 * spbOf s.chS.rl level ∧ 2 * spbOf s.chS.rl level ≤ 3 * s.par.nomBitlen.s

/-! ### Decoders (44_frame_decoders.md rule R275) -/

/-- How many decided bits a T1/C1 state collects before it acts (30_encoding.md rule R128). -/
def fieldBitsT (st : StT) : Nat :=
  match st with
  | .idle => 1
  | .lfield => 12
  | .c1Trailer => 4
  | .c1Len => 8
  | .dataT1 => 12
  | .dataC1 => 8
  | .done => 1

/-- A T1/C1 decoder between two operations. -/
structure DecTOk (par : Par) (d : DecT) : Prop where
  notDone : d.st ≠ .done
  idle : d.st = .idle → d = decTReset
  field : d.cnt.toNat < fieldBitsT d.st
  header : d.st = .lfield ∨ d.st = .c1Trailer ∨ d.st = .c1Len → d.len = 0 ∧ d.total = 0 ∧ d.L = 0 ∧ d.buf = []
  data : d.st = .dataT1 ∨ d.st = .dataC1 →
    1 ≤ d.len ∧ d.len < d.total ∧ d.total ≤ par.cap ∧ d.total ≤ 290 ∧ memRead d.buf 0 = d.L
  beyond : ∀ a, d.len ≤ a → memRead d.buf a = 0#8
  c1 : d.isC1 = true ↔ d.st = .c1Trailer ∨ d.st = .c1Len ∨ d.st = .dataC1
  frameB : d.isB = true → d.isC1 = true
  symErr : d.symErr = true → d.st = .dataT1
  pending : d.crcOk = false ∧ d.ts = .null ∧ d.rssiEnd = 0
  canonical : Memory.wf d.buf = true

/-- An S1 decoder between two operations. -/
structure DecSOk (par : Par) (d : DecS) : Prop where
  notDone : d.st ≠ .done
  idle : d.st = .idle → d = decSReset
  header : d.st = .len → d.len = 0 ∧ d.total = 0 ∧ d.L = 0 ∧ d.buf = []
  data : d.st = .data →
    1 ≤ d.len ∧ d.len < d.total ∧ d.total ≤ par.cap ∧ d.total ≤ 290 ∧ memRead d.buf 0 = d.L
  beyond : ∀ a, d.len ≤ a → memRead d.buf a = 0#8
  symErr : d.symErr = true → d.st = .data
  pending : d.crcOk = false ∧ d.ts = .null ∧ d.rssiEnd = 0
  canonical : Memory.wf d.buf = true

/-- Every decoder of the machine is as it is between two operations; the length table is validated
(70_reset_and_hazards.md rule R396). -/
structure DecodersOk (s : State) : Prop where
  lengths : ∀ l, lenA s.par l ≤ 290
  t : ∀ a, DecTOk s.par (s.chT.dec a)
  s : ∀ a, DecSOk s.par (s.chS.dec a)

/-! ### Configuration and decimation gate (10_state.md rules R28 and R44) -/

/-- The configuration is the default or a word that passed validation, and the gate's counter stays below the rate;
before the first `CHUNK`, and always with a polyphase front end, it is 0. -/
structure GateOk (s : State) : Prop where
  cfg : s.cfg = cfgDefault ∨ cfgLegal s.par s.cfg = true
  fresh : s.phase = .configuring → s.dcnt = 0
  range : s.par.feKind ≠ .ppf → s.dcnt < cfgDecim s.cfg
  unused : s.par.feKind = .ppf → s.dcnt = 0

/-! ### Sequences of operations -/

/-- Go on from a next state. -/
def thenDo (o : Host.Outcome State Fault Refusal) (f : State → Host.Outcome State Fault Refusal) :
    Host.Outcome State Fault Refusal :=
  match o with
  | .next s => f s
  | .fault e => .fault e
  | .refused e => .refused e

/-- Run operations one after another. -/
def runOps : List Instr → State → Host.Outcome State Fault Refusal
  | [], s => .next s
  | i :: is, s => thenDo (exec i s) (runOps is)

/-- Run operations one after another and keep the tokens each returned. -/
def runOutputs : List Instr → State → List (List Token) × Host.Outcome State Fault Refusal
  | [], s => ([], .next s)
  | i :: is, s =>
    match exec i s with
    | .next t => (t.ret :: (runOutputs is t).1, (runOutputs is t).2)
    | .fault e => ([], .fault e)
    | .refused e => ([], .refused e)

/-- The carrier value the latest operation returned. -/
def retNum (s : State) : NumT :=
  match s.ret with
  | [.num x] => x
  | _ => 0

/-- The bit the latest operation returned. -/
def retBit (s : State) : Bool :=
  match s.ret with
  | [.bit b] => b
  | _ => false

/-- The `BIT` token the latest operation returned. -/
def retBitTok (s : State) : BitTok :=
  match s.ret with
  | [.bitTok t] => t
  | _ => ⟨false, false, 0⟩

/-- The first `IQ` token the latest operation returned, if any. -/
def retIq (s : State) : Option Iq :=
  match s.ret with
  | .iq i q :: _ => some (i, q)
  | _ => none

/-- The second `IQ` token the latest operation returned. -/
def retIq2 (s : State) : Iq :=
  match s.ret with
  | [_, .iq i q] => (i, q)
  | _ => (0, 0)

/-- The discriminator that `cfg.atan_sel` names (42_demodulator.md rule R200). -/
def pdiscOp (sel : BitVec 2) (c : Chain) (i q : NumT) : Instr :=
  if sel = 0 then .pdiscExact c i q
  else if sel = 1 then .pdiscFull c i q
  else if sel = 2 then .pdiscRestr c i q
  else .pdiscSign c i q

/-- The run-length step of a chain (42_demodulator.md rule R200). -/
def rlOp (c : Chain) (tok : RawTok) : Instr :=
  match c with
  | .T => .rlStep tok
  | .S => .rls1Step tok

/-- An operation, where it is enabled. -/
def execIf (b : Bool) (i : Instr) (s : State) : Host.Outcome State Fault Refusal :=
  if b then exec i s else .next s

/-- `DEMOD.STEP ch[c], (i, q)` as 42_demodulator.md rule R200 writes it out. -/
def expandDemod (c : Chain) (i q : NumT) (s : State) : Host.Outcome State Fault Refusal :=
  thenDo (exec (pdiscOp (cfgAtanSel s.cfg) c i q) s) fun s1 =>
  thenDo (exec (.postlpf c (retNum s1)) s1) fun s2 =>
  thenDo (execIf (cfgDcblockEn s.cfg) (.dcblock c (retNum s2)) s2) fun s3 =>
  thenDo (exec (.rssi c i q) s3) fun s4 =>
  thenDo (exec (.slice c (retNum s3)) s4) fun s5 =>
  thenDo (execIf (cfgT2En s.cfg) (.t2Step c ⟨retBit s5, retNum s3, retNum s4⟩) s5) fun s6 =>
    execIf (cfgRlEn s.cfg) (rlOp c ⟨retBit s5, retNum s3, retNum s4⟩) s6

/-- `FE.LPF` where the chain is enabled; a disabled chain returns nothing. -/
def expandFe (c : Chain) (p : Iq) (s : State) : Host.Outcome State Fault Refusal :=
  if chainEnabled s.cfg c then exec (.feLpf c p.1 p.2) s else .next { s with ret := [] }

/-- `DEMOD.STEP` where the chain is enabled and its filter returned a value. -/
def expandForward (c : Chain) (v : Option Iq) (s : State) : Host.Outcome State Fault Refusal :=
  match v with
  | none => .next s
  | some p => if chainEnabled s.cfg c then exec (.demodStep c p.1 p.2) s else .next s

/-- The inputs of the two chains (41_front_end.md rule R172), from the tokens of `DCREM` or of `FSPLIT`. -/
def chainInputs (dual : Bool) (s : State) : Iq × Iq :=
  if dual then ((retIq s).getD (0, 0), retIq2 s) else ((retIq s).getD (0, 0), (retIq s).getD (0, 0))

/-- `SAMPLE.STEP (I, Q)` as 41_front_end.md rule R175 writes it out. -/
def expandSample (i q : Byte) (s : State) : Host.Outcome State Fault Refusal :=
  thenDo (exec (.dcrem i q) s) fun s1 =>
  thenDo (execIf (cfgDual s.cfg) (.fsplit ((retIq s1).getD (0, 0)).1 ((retIq s1).getD (0, 0)).2) s1) fun s2 =>
  thenDo (expandFe .T (chainInputs (cfgDual s.cfg) s2).1 s2) fun s3 =>
  thenDo (expandFe .S (chainInputs (cfgDual s.cfg) s2).2 s3) fun s4 =>
  thenDo (exec .decim s4) fun s5 =>
    if retBit s5 then thenDo (expandForward .T (retIq s3) s5) (expandForward .S (retIq s4)) else .next s5

/-- The `SAMPLE.STEP` operations of a chunk's bytes (46_system_ops.md rule R342). -/
def sampleOps : List Byte → List Instr
  | i :: q :: rest => .sampleStep i q :: sampleOps rest
  | _ => []

/-- The decoder operation of a chain (43_bit_sync.md rule R230). -/
def bitOp (c : Chain) (a : Syn) (tok : BitTok) : Instr :=
  match c with
  | .T => .t1c1Bit a tok
  | .S => .s1Bit a tok

/-- `deliver(c, a, ACORR syn, c, b, rssi)` (43_bit_sync.md rules R221 and R230). -/
def deliver (c : Chain) (a : Syn) (b : Bool) (rssi : NumT) (s : State) : Host.Outcome State Fault Refusal :=
  thenDo (exec (.acorr c a b rssi) s) fun s1 => exec (bitOp c a (retBitTok s1)) s1

/-- The delivery of a list of bits, one after another. -/
def deliverBits (c : Chain) (a : Syn) (rssi : NumT) : List Bool → State → Host.Outcome State Fault Refusal
  | [], s => .next s
  | b :: bs, s => thenDo (deliver c a b rssi s) (deliverBits c a rssi bs)

/-- The decoding of `BIT` tokens, one `*.BIT` operation each. -/
def bitOps (c : Chain) (a : Syn) (toks : List BitTok) : List Instr := toks.map (bitOp c a)

/-- The tokens carry the decided bits `bits`, none with an RSSI below the capture threshold `th`, the last one with RSSI
`r`. Their access-code flags are arbitrary: a flagged bit inside a capture is an ordinary data bit
(44_frame_decoders.md rule R262). -/
structure Carries (th r : NumT) (bits : List Bool) (toks : List BitTok) : Prop where
  bits : toks.map BitTok.b = bits
  strong : ∀ x ∈ toks, ¬ x.rssi < th
  last : toks.getLast?.map BitTok.rssi = some r

/-- The handler that a T1/C1 state selects (44_frame_decoders.md rule R260). -/
def handlerT (st : StT) (a : Syn) (tok : BitTok) : Instr :=
  match st with
  | .idle => .t1c1Idle a tok
  | .lfield => .t1c1Lfield a tok
  | .c1Trailer => .t1c1C1trailer a tok
  | .c1Len => .t1c1C1len a tok
  | .dataT1 => .t1c1DataT1 a tok
  | .dataC1 => .t1c1DataC1 a tok
  | .done => .t1c1Done a tok

/-- The handler that an S1 state selects (44_frame_decoders.md rule R270). -/
def handlerS (st : StS) (a : Syn) (tok : BitTok) : Instr :=
  match st with
  | .idle => .s1Idle a tok
  | .len => .s1Len a tok
  | .data => .s1Data a tok
  | .done => .s1Done a tok

/-! ### Frames on the air (30_encoding.md rule R131) -/

/-- The bits of a word, most significant first (30_encoding.md rule R106). -/
def bitsMsb {n : Nat} (w : BitVec n) : List Bool := (List.range n).map fun i => w.getLsbD (n - 1 - i)

/-- A raw C1 byte. -/
def rawByte (x : Byte) : List Bool := bitsMsb x

/-- A Manchester byte under a code that gives each bit a pair (30_encoding.md rules R109 and R113). -/
def manchByte (code : Bool → Bool × Bool) (x : Byte) : List Bool :=
  (bitsMsb x).flatMap fun b => [(code b).1, (code b).2]

/-- The 3-out-of-6 byte under a code that gives each nibble a codeword (30_encoding.md rule R107). -/
def codedByte (code : BitVec 4 → BitVec 6) (x : Byte) : List Bool :=
  bitsMsb (code (x.extractLsb' 4 4)) ++ bitsMsb (code (x.extractLsb' 0 4))

/-- The data bytes cut into blocks of at most `first`, then of at most 16, each followed by its CRC, high byte first
(45_crc_framing.md rules R313 and R319). `fuel` is at least the number of bytes. -/
def withCrcA (poly : BitVec 16) : Nat → Nat → List Byte → List Byte
  | 0, _, _ => []
  | fuel + 1, first, d =>
    if d = [] then []
    else
      d.take first ++ [(crc16 poly (d.take first)).extractLsb' 8 8, (crc16 poly (d.take first)).extractLsb' 0 8] ++
        withCrcA poly fuel 16 (d.drop first)

/-- A frame type A telegram of data bytes `d`. -/
def frameA (poly : BitVec 16) (d : List Byte) : List Byte := withCrcA poly d.length 10 d

/-- A data sequence and its CRC, high byte first. -/
def withCrc (poly : BitVec 16) (d : List Byte) : List Byte :=
  d ++ [(crc16 poly d).extractLsb' 8 8, (crc16 poly d).extractLsb' 0 8]

/-- A frame type B telegram of data bytes `d` (45_crc_framing.md rule R314). -/
def frameB (poly : BitVec 16) (d : List Byte) : List Byte :=
  if d.length ≤ 126 then withCrc poly d else withCrc poly (d.take 126) ++ withCrc poly (d.drop 126)

/-- One bit of one byte inverted: bit `j` of byte `i`. -/
def flipBit (t : List Byte) (i j : Nat) : List Byte := t.set i (t.getD i 0 ^^^ (1#8 <<< j))

/-- A circular history as a delay line: the last `n` samples, newest first, between two steps, when the index `w`
stands one past the newest sample (20_memory.md rule R73). -/
def delayLine (n : Nat) (hist : List NumT) (w : Nat) : List NumT :=
  (List.range n).map fun k => hist.getD ((w + n - 1 - k) % n) 0

/-- The delay line after one more sample. -/
def pushed (x : NumT) (line : List NumT) : List NumT := x :: line.take (line.length - 1)

/-- The weighted sum of a FIR filter over its delay line, in the order of 00_scope.md rule R10. -/
def convolve (k : Numerics) (b line : List NumT) : NumT :=
  numSum k b.length fun j => numMul k (b.getD j 0) (line.getD j 0)

/-! ### Bit-serial CRC (45_crc_framing.md rule R310) -/

/-- One bit of the bit-serial form. -/
def crcSerialBit (poly c : BitVec 16) (b : Bool) : BitVec 16 :=
  if c.getLsbD 15 != b then (c <<< 1) ^^^ poly else c <<< 1

/-- The bit-serial form of `CRC16`. -/
def crcSerial (poly : BitVec 16) (bytes : List Byte) : BitVec 16 :=
  ((bytes.flatMap bitsMsb).foldl (crcSerialBit poly) 0#16) ^^^ 0xFFFF#16

end Sys2Proof.Machine
end

