-- ==== Sys2Proof/Certificates/Slice0/Obligations.lean ====
section
/-! DEFINITION. The statements for the provers. Each docstring names the rules of spec/ it formalises. A statement of
the form "answers `.next`" of a whole state says the operation's frame as well: every field it does not write is the
old one. -/

open Sys2Proof Sys2Proof.Machine

/-! ### Encoding and the step -/

/-- A step runs the operation whose bytes stand first in the request stream, with those bytes taken away, and refuses
bytes that are no operation (30_encoding.md rule R126: "a model refuses it"). The request stream is the model's
(log entries 4 and 6). -/
def Obligations.StepRunsDecoded : Prop :=
  ∀ s : State,
    (∀ i rest, decode s.ops = .ok (i, rest) → i.wellFormed = true ∧ step s = exec i { s with ops := rest }) ∧
    (∀ e, decode s.ops = .error e → step s = .refused (.noSuchOperation e))

/-- Written-out words decode to the operations they stand for (index: 30_encoding.md rule R127; token layouts of rules
R101, R105 and R123; the rest of the operand bytes are the model's layout, log entry 4). -/
def Obligations.DecodesWrittenWords : Prop :=
  decode [0x00] = .ok (.reset, []) ∧
  decode [0x01, 0x02, 0x0F, 0x00, 0x00] = .ok (.cfgLoad 0x00000F02#32, []) ∧
  decode [0x24, 0x82, 0x7F] = .ok (.sampleStep 0x82#8 0x7F#8, []) ∧
  decode [0x36, 0x01, 0x01, 0x03] = .ok (.slice .S (mkRat (-1) 4), []) ∧
  decode [0x44, 0x01, 0x11, 0x50, 0x00] = .ok (.rlRun true 17 40, []) ∧
  decode [0x50, 0x01, 0x03, 0x50, 0x00] = .ok (.t1c1Bit .RL ⟨true, true, 40⟩, []) ∧
  decode [0x71, 0x03, 0x03, 0x44, 0xAE, 0x0C, 0x3B, 0x65] =
    .ok (.crcchkA [0x03#8, 0x44#8, 0xAE#8, 0x0C#8, 0x3B#8, 0x65#8], []) ∧
  decode [0x76, 0x00, 0x01, 0x01] = .ok (.emit .T .RL .C1, []) ∧
  decode [0x05] = .error (.unassignedIndex 0x05#8)

/-- Decode and encode agree, for every well-formed operation and whatever bytes follow. -/
def Obligations.DecodeEncode : Prop :=
  ∀ (i : Instr) (rest : List Byte), i.wellFormed = true → decode (encode i ++ rest) = .ok (i, rest)

/-- The other direction: bytes that decode are the encoding of what they decode to, so every operation has one
encoding, and a first byte that no operation has as its index never decodes (30_encoding.md rules R126 and R127). -/
def Obligations.EncodeDecode : Prop :=
  ∀ (bs : List Byte) (i : Instr) (rest : List Byte),
    decode bs = .ok (i, rest) → i.wellFormed = true ∧ bs = encode i ++ rest

/-! ### System operations -/

/-- `RESET` gives every register the value of 10_state.md rule R49, for a `PAR` inside its constraints
(70_reset_and_hazards.md rule R391 takes them as hypotheses). That `IN`, the records handed out, the trace and the
requests are left alone, being the host's, is the model's choice (log entries 6 and 17), not R49's. -/
def Obligations.ResetValues : Prop :=
  ∀ s : State, parOk s.par = true → ∃ t, exec .reset s = .next t ∧
    t.cfg = 0x00000F02#32 ∧ t.dcnt = 0 ∧ t.fsIdx = 0 ∧
    (∀ c x, ((t.front c).fe x).mavg = ⟨List.replicate s.par.mavgLen 0, 0, 0⟩ ∧
      ((t.front c).fe x).fir = ⟨List.replicate (s.par.feFirB.get c).length 0, 0⟩ ∧
      ((t.front c).fe x).ppf.ph = 0 ∧ ((t.front c).fe x).ppf.acc = 0 ∧
      ((t.front c).fe x).ppf.sub = List.replicate s.par.ppP ⟨List.replicate (s.par.ppL.get c) 0, 0⟩) ∧
    (∀ c, (t.front c).pd = ⟨0, 0⟩ ∧ (t.front c).post = ⟨List.replicate (s.par.postB.get c).length 0, 0⟩ ∧
      (t.front c).dcb = ⟨0, 0⟩ ∧ (t.front c).rssi = ⟨0⟩ ∧
      t.t2 c = ⟨⟨List.replicate (3 * s.par.t2Sect.get c) 0⟩, false, 0, 0⟩) ∧
    t.chT.rl = ⟨0, false, 0, s.par.nomBitlen.t, 0, 0⟩ ∧
    t.chS.rl = ⟨0, false, 0, s.par.nomBitlen.s, s.par.nomBitlen.s, 0⟩ ∧
    (∀ a, t.chT.dec a = ⟨.idle, 0, 0, 0, 0, 0, [], .null, 0, 0, false, false, false, false⟩) ∧
    (∀ a, t.chS.dec a = ⟨.idle, 0, false, 0, 0, 0, 0, [], .null, 0, 0, false, false⟩) ∧
    t.par = s.par ∧ t.inp = s.inp ∧ t.io = s.io ∧ t.ops = s.ops

/-- Reset is reproducible: whatever two cores held before, after `RESET` with the same `PAR`, and the same host side,
the same operations give the same outcome (10_state.md rule R50). -/
def Obligations.ResetReproducible : Prop :=
  ∀ (s u : State) (is : List Instr), s.par = u.par → s.inp = u.inp → s.io = u.io → s.ops = u.ops →
    runOps (.reset :: is) s = runOps (.reset :: is) u

/-- Requests to which the spec gives no meaning are refused by name, and nothing changes: a `PAR` outside its
constraints (93_implementation_defined.md U11), a move outside the protocol and a chunk of the wrong size (U10,
46_system_ops.md rule R345, 70_reset_and_hazards.md rule R392), a handler that the decoder's state does not select
(30_encoding.md rule R127, log entry 12), and `FIR.STEP` on a polyphase sub-filter with a number past the last
(10_state.md rule R25, log entry 16). That these are refusals is the model's reading. -/
def Obligations.RequestsRefused : Prop :=
  ∀ s : State,
    (parOk s.par = false → exec .reset s = .refused .parInvalid) ∧
    (s.phase ≠ .configuring → ∀ w, exec (.cfgLoad w) s = .refused .hostProtocol) ∧
    (s.phase = .ended → exec .chunk s = .refused .hostProtocol ∧
      ∀ k, exec (.endStream k) s = .refused .hostProtocol) ∧
    (s.phase ≠ .ended → s.inp.length < s.par.chunkBytes → exec .chunk s = .refused .wrongChunkSize) ∧
    (∀ a tok st, (s.chT.dec a).st ≠ st → exec (handlerT st a tok) s = .refused .handlerNotSelected) ∧
    (∀ a tok st, (s.chS.dec a).st ≠ st → exec (handlerS st a tok) s = .refused .handlerNotSelected) ∧
    (∀ c ch p x, s.par.ppP ≤ p → exec (.firStep (.sub c ch p) x) s = .refused .noSuchInstance)

/-- `CFG.LOAD w` between `RESET` and the first `CHUNK`: the tests of 46_system_ops.md rule R341 on the fields of
30_encoding.md rule R123, read from the number the word is; a refused word leaves `cfg` alone and is the event
`EV_CFG`, an accepted one becomes `cfg`. -/
def Obligations.CfgLoadValidates : Prop :=
  ∀ (s : State) (w : BitVec 32), s.phase = .configuring →
    (if w.toNat / 2 ^ 18 ≠ 0 ∨
        w.toNat % 256 = 0 ∨ (s.par.chunkBytes / 2) % (w.toNat % 256) ≠ 0 ∨
        (w.toNat.testBit 8 = false ∧ w.toNat.testBit 9 = false) ∨
        (w.toNat.testBit 10 = false ∧ w.toNat.testBit 11 = false) ∨
        (w.toNat.testBit 12 = true ∧ (w.toNat.testBit 10 = false ∨ w.toNat.testBit 11 = false)) ∨
        (w.toNat / 2 ^ 13 % 4 = 3 ∧ w.toNat.testBit 9 = true) ∨
        (s.par.feKind = .ppf ∧ w.toNat % 256 ≠ s.par.ppP)
      then exec (.cfgLoad w) s =
        .next { s with io := s.io.note ⟨.cfg, none, 0, 0, 0⟩, ret := [.status false] }
      else exec (.cfgLoad w) s = .next { s with cfg := w, ret := [.status true] })

/-- `CHUNK` is `SAMPLE.STEP` on each pair of its bytes in stream order, I first (46_system_ops.md rule R342,
20_memory.md rule R74, 30_encoding.md rule R130); it consumes exactly `CHUNK_BYTES` bytes and returns the telegrams
completed. -/
def Obligations.ChunkRunsSamples : Prop :=
  ∀ s : State, s.phase ≠ .ended → s.par.chunkBytes ≤ s.inp.length →
    ∃ u, runOps (sampleOps (s.inp.take s.par.chunkBytes)) { s with inp := s.inp.drop s.par.chunkBytes } = .next u ∧
      exec .chunk s = .next { u with ret := newTelegrams s.io u.io, phase := .running }

/-- Chunk boundaries have no effect: two chunks leave what the same bytes leave as one chunk of twice the size, the
tokens the last operation returned aside (46_system_ops.md rule R342). -/
def Obligations.ChunkSplit : Prop :=
  ∀ s : State, s.phase ≠ .ended → s.par.chunkBytes % 2 = 0 → 2 * s.par.chunkBytes ≤ s.inp.length →
    ∃ t u v, exec .chunk s = .next t ∧ exec .chunk t = .next u ∧
      exec .chunk { s with par := { s.par with chunkBytes := 2 * s.par.chunkBytes } } = .next v ∧
      { v with par := s.par, ret := [] } = { u with ret := [] }

/-- `END k` discards the `k` bytes unprocessed, changes no register and emits nothing; it is the event `EV_TRUNC`
(46_system_ops.md rule R343, 60_exceptions.md rule R362). That it does so for k ≥ `CHUNK_BYTES` too is the model's choice
(log entry 15). -/
def Obligations.EndDiscards : Prop :=
  ∀ (s : State) (k : Nat), s.phase ≠ .ended →
    exec (.endStream k) s =
      .next { s with inp := s.inp.drop k, io := s.io.note ⟨.trunc, none, 0, 0, 0⟩, ret := [], phase := .ended }

/-- `TS.GET` returns what the host supplies at this moment and changes no register of the core (46_system_ops.md rule
R344); the requests are counted by the model's own field (log entry 8). -/
def Obligations.TsGetAsksHost : Prop :=
  ∀ s : State, exec .tsGet s =
    .next ({ s with io := { s.io with tsCount := s.io.tsCount + 1 } }.reply
      [.timestamp (.host (Config.hostClock s.io.tsCount))])

/-! ### Filter library -/

/-- `FIR.STEP` on any FIR filter of the machine whose history has its order: the new sample overwrites the oldest
slot, the output is Σ b[k] · (the sample pushed k steps ago), the index advances modulo N (40_filter_library.md rule
R141, 20_memory.md rule R73). `POSTLPF` is `FIR.STEP` on the post-filter (42_demodulator.md rule R196). -/
def Obligations.FirStepConvolves : Prop :=
  (∀ (s : State) (f : FirInst) (x : NumT) (v : Fir), firState s f = some v → FirOk (firCoef s.par f).length v →
    ∃ v', FirOk (firCoef s.par f).length v' ∧ v'.hist = v.hist.set v.w x ∧
      v'.w = (v.w + 1) % (firCoef s.par f).length ∧
      delayLine (firCoef s.par f).length v'.hist v'.w = pushed x (delayLine (firCoef s.par f).length v.hist v.w) ∧
      exec (.firStep f x) s = .next ((setFirState s f v').reply
        [.num (convolve s.par.numerics (firCoef s.par f)
          (pushed x (delayLine (firCoef s.par f).length v.hist v.w)))])) ∧
  (∀ (s : State) (c : Chain) (x : NumT),
    ∃ t, exec (.postlpf c x) s = .next t ∧ exec (.firStep (.post c) x) s = .next t)

/-- The FIR impulse property, on every carrier: from the reset state, inputs 1, 0, …, 0 give the coefficients in
order (40_filter_library.md rule R142). -/
def Obligations.FirImpulse : Prop :=
  ∀ (s : State) (f : FirInst) (b : NumT) (bs : List NumT), firCoef s.par f = b :: bs →
    firState s f = some ⟨List.replicate (bs.length + 1) 0, 0⟩ →
    (runOutputs (.firStep f 1 :: List.replicate bs.length (.firStep f 0)) s).1 =
      (b :: bs).map (fun c => [Token.num c])

/-- `IIR.STEP`: each section consumes the previous section's output and keeps three taps, the gain is applied once at
the end (40_filter_library.md rule R143). -/
def Obligations.IirStepCascade : Prop :=
  ∀ (s : State) (c : Chain) (x : NumT), (s.t2 c).bpf.h.length = 3 * s.par.t2Sect.get c →
    ∃ (v t0 : Nat → NumT) (h' : List NumT), v 0 = x ∧ h'.length = 3 * s.par.t2Sect.get c ∧
      (∀ j, j < s.par.t2Sect.get c →
        t0 j = numSub s.par.numerics
          (numSub s.par.numerics (v j)
            (numMul s.par.numerics ((s.par.t2A.get c).getD (3 * j + 1) 0) ((s.t2 c).bpf.h.getD (3 * j + 1) 0)))
          (numMul s.par.numerics ((s.par.t2A.get c).getD (3 * j + 2) 0) ((s.t2 c).bpf.h.getD (3 * j + 2) 0)) ∧
        v (j + 1) = numAdd s.par.numerics
          (numAdd s.par.numerics (numMul s.par.numerics ((s.par.t2B.get c).getD (3 * j) 0) (t0 j))
            (numMul s.par.numerics ((s.par.t2B.get c).getD (3 * j + 1) 0) ((s.t2 c).bpf.h.getD (3 * j + 1) 0)))
          (numMul s.par.numerics ((s.par.t2B.get c).getD (3 * j + 2) 0) ((s.t2 c).bpf.h.getD (3 * j + 2) 0)) ∧
        h'.getD (3 * j) 0 = t0 j ∧ h'.getD (3 * j + 1) 0 = t0 j ∧
        h'.getD (3 * j + 2) 0 = (s.t2 c).bpf.h.getD (3 * j + 1) 0) ∧
      exec (.iirStep c x) s = .next ((s.setT2 c { s.t2 c with bpf := ⟨h'⟩ }).reply
        [.num (numMul s.par.numerics (v (s.par.t2Sect.get c)) (s.par.t2Gain.get c))])

/-- `PPF.STEP`: the sample goes through the sub-filter of the current phase; at the last phase the running sum comes
out and is cleared, at any other nothing comes out (40_filter_library.md rule R145). -/
def Obligations.PpfStepAccumulates : Prop :=
  ∀ (s : State) (c : Chain) (ch : Chan) (x : NumT), ((s.front c).fe ch).ppf.ph < s.par.ppP →
    ∃ y u, exec (.firStep (.sub c ch ((s.front c).fe ch).ppf.ph) x) s = .next u ∧ u.ret = [.num y] ∧
      (if ((s.front c).fe ch).ppf.ph = s.par.ppP - 1 then
        exec (.ppfStep c ch x) s = .next
          ((u.setFront c ((u.front c).setFe ch
            { (u.front c).fe ch with ppf := { ((u.front c).fe ch).ppf with ph := 0, acc := 0 } })).reply
            [.num (numAdd s.par.numerics ((s.front c).fe ch).ppf.acc y)])
      else
        exec (.ppfStep c ch x) s = .next
          ((u.setFront c ((u.front c).setFe ch
            { (u.front c).fe ch with ppf :=
              { ((u.front c).fe ch).ppf with
                ph := ((s.front c).fe ch).ppf.ph + 1
                acc := numAdd s.par.numerics ((s.front c).fe ch).ppf.acc y } })).reply []))

/-- `MAVG.STEP`: the oldest sample is taken from the running sum, the new one added, and the sum returned
(40_filter_library.md rule R147); where the carrier is exact and the sum was that of the window, what is returned is
the sum of the last W samples (10_state.md rule R26). -/
def Obligations.MavgStepSums : Prop :=
  ∀ (s : State) (c : Chain) (ch : Chan) (x : NumT) (m : Mavg), m = ((s.front c).fe ch).mavg →
    MavgOk s.par.mavgLen m →
    ∃ m', MavgOk s.par.mavgLen m' ∧ m'.hist = m.hist.set m.w x ∧ m'.w = (m.w + 1) % s.par.mavgLen ∧
      delayLine s.par.mavgLen m'.hist m'.w = pushed x (delayLine s.par.mavgLen m.hist m.w) ∧
      m'.sum = numAdd s.par.numerics
        (numSub s.par.numerics m.sum ((delayLine s.par.mavgLen m.hist m.w).getD (s.par.mavgLen - 1) 0)) x ∧
      (s.par.numerics = .rational → m.sum = m.hist.sum →
        m'.sum = (pushed x (delayLine s.par.mavgLen m.hist m.w)).sum) ∧
      exec (.mavgStep c ch x) s = .next
        ((s.setFront c ((s.front c).setFe ch { (s.front c).fe ch with mavg := m' })).reply [.num m'.sum])

/-! ### Front end -/

/-- `DCREM` subtracts the offset from both components: in the carrier's own operations for either offset, which is
exact integer subtraction for the offset 127 on every carrier, and exact for 127.5 on the rationals
(41_front_end.md rule R170, 00_scope.md rule R9). -/
def Obligations.DcremOffsets : Prop :=
  ∀ (s : State) (i q : Byte),
    (∀ dc, dc = (match s.par.dcOffset with
        | .d127 => numOfInt s.par.numerics 127
        | .d127half => numAdd s.par.numerics (numOfInt s.par.numerics 127) (mkRat 1 2)) →
      exec (.dcrem i q) s = .next (s.reply [.iq (numSub s.par.numerics (numOfInt s.par.numerics i.toNat) dc)
        (numSub s.par.numerics (numOfInt s.par.numerics q.toNat) dc)])) ∧
    (s.par.dcOffset = .d127 → exec (.dcrem i q) s =
      .next (s.reply [.iq (((i.toNat : Int) - 127 : Int) : Rat) (((q.toNat : Int) - 127 : Int) : Rat)])) ∧
    (s.par.dcOffset = .d127half → s.par.numerics = .rational → exec (.dcrem i q) s =
      .next (s.reply [.iq (mkRat (2 * (i.toNat : Int) - 255) 2) (mkRat (2 * (q.toNat : Int) - 255) 2)]))

/-- `FSPLIT`: the four shared products combined with opposite signs, at the table entry of the current index, which
then advances (41_front_end.md rule R171); at an entry with cosine 1 and sine 0 both outputs are the input, on every
carrier (the rule's corner case). That it runs whatever `cfg.dual` is, when asked for on its own, is the model's choice
(log entry 21). -/
def Obligations.FsplitMixes : Prop :=
  ∀ (s : State) (i q x z : NumT), x = s.par.fsCos.getD s.fsIdx 0 → z = s.par.fsNsin.getD s.fsIdx 0 →
    exec (.fsplit i q) s = .next ({ s with fsIdx := (s.fsIdx + s.par.fsStep) % s.par.fsN }.reply
      [.iq (numSub s.par.numerics (numMul s.par.numerics i x) (numMul s.par.numerics q z))
          (numAdd s.par.numerics (numMul s.par.numerics q x) (numMul s.par.numerics i z)),
        .iq (numAdd s.par.numerics (numMul s.par.numerics i x) (numMul s.par.numerics q z))
          (numSub s.par.numerics (numMul s.par.numerics q x) (numMul s.par.numerics i z))]) ∧
    (x = 1 → z = 0 → exec (.fsplit i q) s =
      .next ({ s with fsIdx := (s.fsIdx + s.par.fsStep) % s.par.fsN }.reply [.iq i q, .iq i q]))

/-- `FE.LPF` runs the filter of kind `FE_KIND` on the I channel and then on the Q channel; a polyphase pair comes out
only when both returned a value (41_front_end.md rule R173). `feValue` is the model's record of whether one did. -/
def Obligations.FeLpfByKind : Prop :=
  ∀ (s : State) (c : Chain) (i q : NumT),
    (s.par.feKind = .mavg → ∃ a b u v,
      exec (.mavgStep c .I i) s = .next u ∧ u.ret = [.num a] ∧
      exec (.mavgStep c .Q q) u = .next v ∧ v.ret = [.num b] ∧
      exec (.feLpf c i q) s = .next { v with ret := [.iq a b], feValue := true }) ∧
    (s.par.feKind = .fir → ∃ a b u v,
      exec (.firStep (.fe c .I) i) s = .next u ∧ u.ret = [.num a] ∧
      exec (.firStep (.fe c .Q) q) u = .next v ∧ v.ret = [.num b] ∧
      exec (.feLpf c i q) s = .next { v with ret := [.iq a b], feValue := true }) ∧
    (s.par.feKind = .ppf → ∃ u v,
      exec (.ppfStep c .I i) s = .next u ∧ exec (.ppfStep c .Q q) u = .next v ∧
      ((∃ a b, u.ret = [.num a] ∧ v.ret = [.num b] ∧
          exec (.feLpf c i q) s = .next { v with ret := [.iq a b], feValue := true }) ∨
        ((u.ret = [] ∨ v.ret = []) ∧ exec (.feLpf c i q) s = .next { v with ret := [], feValue := false })))

/-- `DECIM`: with a polyphase front end it forwards when the filter returned a value and leaves the counter alone;
else the counter advances and every `decim`-th call forwards (41_front_end.md rule R174). -/
def Obligations.DecimCounts : Prop :=
  ∀ s : State,
    (s.par.feKind = .ppf → exec .decim s = .next (s.reply [.bit s.feValue])) ∧
    (s.par.feKind ≠ .ppf → s.dcnt + 1 = s.cfg.toNat % 256 →
      exec .decim s = .next ({ s with dcnt := 0 }.reply [.bit true])) ∧
    (s.par.feKind ≠ .ppf → s.dcnt + 1 ≠ s.cfg.toNat % 256 →
      exec .decim s = .next ({ s with dcnt := s.dcnt + 1 }.reply [.bit false]))

/-- `SAMPLE.STEP` is the sequence of primitive operations its rule lists, and adds no semantics of its own
(41_front_end.md rules R172 and R175, 30_encoding.md rule R130); it returns the telegrams completed on the way. -/
def Obligations.SampleStepExpands : Prop :=
  ∀ (s : State) (i q : Byte), ∃ t, expandSample i q s = .next t ∧
    exec (.sampleStep i q) s = .next { t with ret := newTelegrams s.io t.io }

/-! ### Demodulator -/

/-- `PDISC.EXACT`: the new sample becomes the previous one, and the result has the range and the sign of the angle of
re + j·im, with the fixed values of the rule wherever the carrier represents them, 0 at a sample that is exactly zero,
and never −1 on the rationals (42_demodulator.md rules R190 and R191, contracts A1 and A2 of rule R192); a larger true
angle never gives a smaller result (contract A3). -/
def Obligations.PdiscExactContract : Prop :=
  (∀ (s : State) (c : Chain) (i q re im : NumT),
    re = numAdd s.par.numerics (numMul s.par.numerics i (s.front c).pd.ip)
      (numMul s.par.numerics q (s.front c).pd.qp) →
    im = numSub s.par.numerics (numMul s.par.numerics q (s.front c).pd.ip)
      (numMul s.par.numerics i (s.front c).pd.qp) →
    ∃ v, exec (.pdiscExact c i q) s =
        .next ((s.setFront c { s.front c with pd := ⟨i, q⟩ }).reply [.num v]) ∧
      -1 ≤ v ∧ v ≤ 1 ∧ (0 < v ↔ 0 < im ∨ im = 0 ∧ re < 0) ∧ (v < 0 ↔ im < 0) ∧
      (s.par.numerics = .rational → v ≠ -1) ∧
      (im = 0 → 0 ≤ re → v = 0) ∧ (im = 0 → re < 0 → v = 1) ∧
      (re = 0 → 0 < im → v = mkRat 1 2) ∧
      (re = 0 → im < 0 → numRepresents s.par.numerics (mkRat (-1) 2) = true → v = mkRat (-1) 2) ∧
      (im = re → 0 < im → numRepresents s.par.numerics (mkRat 1 4) = true → v = mkRat 1 4) ∧
      (im = re → im < 0 → numRepresents s.par.numerics (mkRat (-3) 4) = true → v = mkRat (-3) 4) ∧
      (im = -re → 0 < im → numRepresents s.par.numerics (mkRat 3 4) = true → v = mkRat 3 4) ∧
      (im = -re → im < 0 → numRepresents s.par.numerics (mkRat (-1) 4) = true → v = mkRat (-1) 4) ∧
      (i = 0 → q = 0 → v = 0)) ∧
  (∀ (s u t w : State) (c : Chain) (i q i' q' v v' : NumT), s.par.numerics = u.par.numerics →
    AngleLt (discIm s.par.numerics (s.front c).pd i q) (discRe s.par.numerics (s.front c).pd i q)
      (discIm u.par.numerics (u.front c).pd i' q') (discRe u.par.numerics (u.front c).pd i' q') →
    exec (.pdiscExact c i q) s = .next t → t.ret = [.num v] →
    exec (.pdiscExact c i' q') u = .next w → w.ret = [.num v'] → v ≤ v')

/-- `PDISC.FULL`, `PDISC.RESTR` and `PDISC.SIGN`: the first two return a function of (im, re) alone that stays in
[−1, 1], is monotone in the true angle and is 0 at (0, 0) (42_demodulator.md rules R192 to R194, contracts A1 and A3);
the last returns the cross term im itself (rule R195). Each leaves the new sample as the previous one (rule R190). -/
def Obligations.PdiscOtherVariants : Prop :=
  (∀ k : Numerics, ∃ full restr : NumT → NumT → NumT,
    (∀ im re, -1 ≤ full im re ∧ full im re ≤ 1 ∧ -1 ≤ restr im re ∧ restr im re ≤ 1) ∧
    full 0 0 = 0 ∧ restr 0 0 = 0 ∧
    (∀ im re im' re', AngleLt im re im' re' → full im re ≤ full im' re' ∧ restr im re ≤ restr im' re') ∧
    ∀ (s : State) (c : Chain) (i q re im : NumT), s.par.numerics = k →
      re = numAdd k (numMul k i (s.front c).pd.ip) (numMul k q (s.front c).pd.qp) →
      im = numSub k (numMul k q (s.front c).pd.ip) (numMul k i (s.front c).pd.qp) →
      exec (.pdiscFull c i q) s =
        .next ((s.setFront c { s.front c with pd := ⟨i, q⟩ }).reply [.num (full im re)]) ∧
      exec (.pdiscRestr c i q) s =
        .next ((s.setFront c { s.front c with pd := ⟨i, q⟩ }).reply [.num (restr im re)])) ∧
  (∀ (s : State) (c : Chain) (i q : NumT),
    exec (.pdiscSign c i q) s =
      .next ((s.setFront c { s.front c with pd := ⟨i, q⟩ }).reply
        [.num (numSub s.par.numerics (numMul s.par.numerics q (s.front c).pd.ip)
          (numMul s.par.numerics i (s.front c).pd.qp))]))

/-- `DCBLOCK`: y[n] = k·(x[n] − x[n−1]) + k·y[n−1]; a constant input c from rest gives k·c first, and k·c, k²·c, … on an
exact carrier; k = 0 gives 0 always (42_demodulator.md rule R197). That it runs whatever `cfg` holds, when asked for on
its own, is the model's choice (log entry 21). -/
def Obligations.DcblockDecays : Prop :=
  (∀ (s : State) (c : Chain) (x y : NumT),
    y = numAdd s.par.numerics
      (numMul s.par.numerics s.par.dcbK (numSub s.par.numerics x (s.front c).dcb.x1))
      (numMul s.par.numerics s.par.dcbK (s.front c).dcb.y1) →
    exec (.dcblock c x) s = .next ((s.setFront c { s.front c with dcb := ⟨x, y⟩ }).reply [.num y])) ∧
  (∀ (s : State) (c : Chain) (x : NumT) (n : Nat), s.par.numerics = .rational → (s.front c).dcb = ⟨0, 0⟩ →
    (runOutputs (List.replicate n (.dcblock c x)) s).1 =
      (List.range n).map fun j => [Token.num (s.par.dcbK ^ (j + 1) * x)]) ∧
  (∀ (s : State) (c : Chain) (x y : NumT), y = numMul s.par.numerics s.par.dcbK x → (s.front c).dcb = ⟨0, 0⟩ →
    exec (.dcblock c x) s = .next ((s.setFront c { s.front c with dcb := ⟨x, y⟩ }).reply [.num y])) ∧
  (∀ (s : State) (c : Chain) (x : NumT), s.par.dcbK = 0 →
    exec (.dcblock c x) s = .next ((s.setFront c { s.front c with dcb := ⟨x, 0⟩ }).reply [.num 0]))

/-- `SLICE`: 1 for a value that is not negative, exclusive-or the chain's polarity; no state (42_demodulator.md rule
R198). -/
def Obligations.SliceSign : Prop :=
  ∀ (s : State) (c : Chain) (d : NumT), exec (.slice c d) s =
    .next (s.reply [.bit (xor (decide (0 ≤ d)) (match c with | .T => s.par.pol.t | .S => s.par.pol.s))])

/-- `RSSI`: the magnitude, smoothed by a single pole; the returned value, not the state, is divided by the decimation
rate when the front end is a moving average (42_demodulator.md rule R199). Where i² + q² is the square of a rational
and the carrier is the rationals, the magnitude is its root; on every other carrier the root is monotone and exact on the
perfect squares up to 32767 (00_scope.md rule R9, law N5). -/
def Obligations.RssiSmooths : Prop :=
  (∀ (s : State) (c : Chain) (i q : NumT),
    ∃ m y, exec (.rssi c i q) s =
        .next ((s.setFront c { s.front c with rssi := ⟨y⟩ }).reply
          [.num (if s.par.feKind = .mavg
            then numDiv s.par.numerics y (numOfInt s.par.numerics ((s.cfg.toNat % 256 : Nat) : Int)) else y)]) ∧
      y = numAdd s.par.numerics (s.front c).rssi.y
        (numMul s.par.numerics s.par.rssiAlpha (numSub s.par.numerics m (s.front c).rssi.y)) ∧
      m = numSqrt s.par.numerics
        (numAdd s.par.numerics (numMul s.par.numerics i i) (numMul s.par.numerics q q)) ∧
      (s.par.numerics = .rational → ∀ r : NumT, 0 ≤ r → r * r = i * i + q * q →
        m = r ∧ y = (s.front c).rssi.y + s.par.rssiAlpha * (r - (s.front c).rssi.y) ∧
        (s.cfg.toNat % 256 ≠ 0 → numDiv s.par.numerics y (numOfInt s.par.numerics ((s.cfg.toNat % 256 : Nat) : Int)) =
          y / (((s.cfg.toNat % 256 : Nat) : Int) : Rat)))) ∧
  (∀ (n : Nat) (x y : NumT), x ≤ y → numSqrt (.other n) x ≤ numSqrt (.other n) y) ∧
  (∀ (k : Numerics) (r : Nat), r * r ≤ 32767 → numSqrt k ((r : NumT) * r) = r)

/-- `DEMOD.STEP` is the sequence of primitive operations its rule lists, time-2 before run-length, each under its
enable (42_demodulator.md rule R200, 30_encoding.md rule R130); it returns the telegrams completed on the way. -/
def Obligations.DemodStepExpands : Prop :=
  ∀ (s : State) (c : Chain) (i q : NumT), ∃ t, expandDemod c i q s = .next t ∧
    exec (.demodStep c i q) s = .next { t with ret := newTelegrams s.io t.io }

/-! ### Synchronizers -/

/-- `ACORR`: the bit is shifted into the 32-bit window of the synchronizer named, and `pre` says whether at most
`ACC_TOL` of the bits compared differ from the access code (43_bit_sync.md rule R221, 30_encoding.md rule R115). With
the default T1/C1 code a window at distance 1 does not set the flag at tolerance 0 and does at tolerance 1 or more. -/
def Obligations.AcorrWindow : Prop :=
  (∀ (s : State) (c : Chain) (a : Syn) (b : Bool) (r : NumT), ∃ sr : BitVec 32,
    sr.toNat = (2 * (syncSr s c a).toNat + b.toNat) % 2 ^ 32 ∧
    exec (.acorr c a b r) s = .next ((setSyncSr s c a sr).reply [.bitTok ⟨b,
      decide ((List.range 32).countP (fun k =>
        xor (decide (k < s.par.accW.get c) && sr.getLsbD k) ((s.par.accCode.get c).getLsbD k)) ≤ s.par.accTol.get c),
      r⟩])) ∧
  (∀ (par : Par) (sr : BitVec 32) (k : Nat), par.accCode.t = 0x543D#32 → par.accW.t = 16 → k < 16 →
    sr.toNat % 2 ^ 16 = Nat.xor 0x543D (2 ^ k) → (accMatch par .T sr = true ↔ 1 ≤ par.accTol.t))

/-- `T2.STEP`: the squared value goes through the band-pass filter; a rising clock edge sets the lock counter to 1,
while the clock stays high it counts up to N, and reaching N samples the bit: `ACORR`, then the delivery to the
chain's time-2 decoder (43_bit_sync.md rules R222 and R230). -/
def Obligations.T2StepLocks : Prop :=
  ∀ (s : State) (c : Chain) (tok : RawTok), ∃ u0 x,
    exec (.iirStep c (numMul s.par.numerics tok.d tok.d)) s = .next u0 ∧ u0.ret = [.num x] ∧
    ∀ u, u = u0.setT2 c { u0.t2 c with clkPrev := decide (s.par.t2ClkTh ≤ x) } →
      (s.par.t2ClkTh ≤ x → (s.t2 c).clkPrev = false →
        exec (.t2Step c tok) s = .next ((u.setT2 c { u.t2 c with lock := 1 }).reply [])) ∧
      (s.par.t2ClkTh ≤ x → (s.t2 c).clkPrev = true → (s.t2 c).lock < s.par.t2LockN.get c →
        (s.t2 c).lock + 1 ≠ s.par.t2LockN.get c →
        exec (.t2Step c tok) s = .next ((u.setT2 c { u.t2 c with lock := (s.t2 c).lock + 1 }).reply [])) ∧
      (s.par.t2ClkTh ≤ x → (s.t2 c).clkPrev = true → (s.t2 c).lock < s.par.t2LockN.get c →
        (s.t2 c).lock + 1 = s.par.t2LockN.get c →
        ∃ w t, exec (.acorr c .T2 tok.r tok.rssi) (u.setT2 c { u.t2 c with lock := (s.t2 c).lock + 1 }) = .next w ∧
          exec (bitOp c .T2 (retBitTok w)) w = .next t ∧
          exec (.t2Step c tok) s = .next { t with ret := w.ret }) ∧
      (x < s.par.t2ClkTh ∨ (s.t2 c).clkPrev = true ∧ s.par.t2LockN.get c ≤ (s.t2 c).lock →
        exec (.t2Step c tok) s = .next (u.reply []))

/-- `DEGLITCH`: the raw bit enters the window of the last `DEGL_W` raw bits, and the level is 1 iff at least `DEGL_TH`
of them are 1 (43_bit_sync.md rule R224, 30_encoding.md rule R118). -/
def Obligations.DeglitchCounts : Prop :=
  ∀ (s : State) (r : Bool),
    (∃ acc : Nat,
      (∀ k, acc.testBit k = (decide (k < s.par.deglW.t) && (if k = 0 then r else s.chT.rl.acc.testBit (k - 1)))) ∧
      exec (.deglitch .T r) s = .next ((s.setChT { s.chT with rl := { s.chT.rl with acc := acc } }).reply
        [.bit (decide (s.par.deglTh.t ≤ (List.range s.par.deglW.t).countP fun k => acc.testBit k))])) ∧
    (∃ acc : Nat,
      (∀ k, acc.testBit k = (decide (k < s.par.deglW.s) && (if k = 0 then r else s.chS.rl.acc.testBit (k - 1)))) ∧
      exec (.deglitch .S r) s = .next ((s.setChS { s.chS with rl := { s.chS.rl with acc := acc } }).reply
        [.bit (decide (s.par.deglTh.s ≤ (List.range s.par.deglW.s).countP fun k => acc.testBit k))]))

/-- `RL.STEP` and `RLS1.STEP`: deglitch; at an unchanged level the run grows, at a changed one the ended run is closed
by `RL.RUN` (`RLS1.RUN`) and this sample is the first of a new run (43_bit_sync.md rules R225 and R228). -/
def Obligations.RunLengthSteps : Prop :=
  (∀ (s : State) (tok : RawTok), ∃ u lvl, exec (.deglitch .T tok.r) s = .next u ∧ u.ret = [.bit lvl] ∧
    (lvl = s.chT.rl.lvlPrev → exec (.rlStep tok) s =
      .next ((u.setChT { u.chT with rl := { u.chT.rl with run := s.chT.rl.run + 1 } }).reply [])) ∧
    (lvl ≠ s.chT.rl.lvlPrev →
      ∃ v, exec (.rlRun s.chT.rl.lvlPrev s.chT.rl.run tok.rssi) u = .next v ∧ exec (.rlStep tok) s =
        .next (v.setChT { v.chT with rl := { v.chT.rl with lvlPrev := lvl, run := 1 } }))) ∧
  (∀ (s : State) (tok : RawTok), ∃ u lvl, exec (.deglitch .S tok.r) s = .next u ∧ u.ret = [.bit lvl] ∧
    (lvl = s.chS.rl.lvlPrev → exec (.rls1Step tok) s =
      .next ((u.setChS { u.chS with rl := { u.chS.rl with run := s.chS.rl.run + 1 } }).reply [])) ∧
    (lvl ≠ s.chS.rl.lvlPrev →
      ∃ v, exec (.rls1Run s.chS.rl.lvlPrev s.chS.rl.run tok.rssi) u = .next v ∧ exec (.rls1Step tok) s =
        .next (v.setChS { v.chS with rl := { v.chS.rl with lvlPrev := lvl, run := 1 } })))

/-- `RL.RUN`: an implausible run is `EV_SYNC` and emits nothing; else it is divided into n symbol periods, n bits of
its level are delivered one at a time, and the PI controller updates the estimate, a non-positive estimate being
`EV_SYNC` again (43_bit_sync.md rule R226, 60_exceptions.md rule R358). The division is truncating (`Int.tdiv`,
00_scope.md rule R8); the estimate is positive as between any two operations. -/
def Obligations.RlRunCloses : Prop :=
  ∀ (s : State) (level : Bool) (run : Nat) (r : NumT) (bl : Int), bl = s.chT.rl.bitlen → 0 < bl →
    ((run < s.par.rlMinRun.t ∨ 2 * ((run : Int) * 256) ≤ bl) →
      ∃ t, exec (.rlReset .T) s = .next t ∧ exec (.rlRun level run r) s =
        .next { t with io := s.io.note (eventT .sync .RL (s.chT.dec .RL)) }) ∧
    (s.par.rlMinRun.t ≤ run → bl < 2 * ((run : Int) * 256) →
      ∀ (n e es : Int), n = ((run : Int) * 256 + bl.tdiv 2).tdiv bl → e = (run : Int) * 256 - n * bl →
        es = s.chT.rl.esum + e →
        1 ≤ n ∧ ∃ u bits, deliverBits .T .RL r (List.replicate n.toNat level) s = .next u ∧
          ∀ bl', bl' = bl + (e + es.tdiv s.par.rlKi).tdiv (s.par.rlKp * n) →
            (0 < bl' → exec (.rlRun level run r) s = .next { u with
              chT := { u.chT with rl := { u.chT.rl with esum := es, bitlen := bl' } }, ret := bits }) ∧
            (bl' ≤ 0 → ∃ w, exec (.rlReset .T) u = .next w ∧ exec (.rlRun level run r) s =
              .next { w with io := u.io.note (eventT .sync .RL (u.chT.dec .RL)), ret := bits }))

/-- `RLS1.RUN`: as `RL.RUN`, but the estimate of the run's level becomes the average of the old one and this run's,
and one outside [0.5, 1.5] of nominal is `EV_SYNC` (43_bit_sync.md rule R229). -/
def Obligations.Rls1RunCloses : Prop :=
  ∀ (s : State) (level : Bool) (run : Nat) (r : NumT) (sp : Int), sp = spbOf s.chS.rl level → 0 < sp →
    ((run < s.par.rlMinRun.s ∨ 2 * ((run : Int) * 256) ≤ sp) →
      ∃ t, exec (.rlReset .S) s = .next t ∧ exec (.rls1Run level run r) s =
        .next { t with io := s.io.note (eventS .sync .RL (s.chS.dec .RL)) }) ∧
    (s.par.rlMinRun.s ≤ run → sp < 2 * ((run : Int) * 256) →
      ∀ (n : Int), n = ((run : Int) * 256 + sp.tdiv 2).tdiv sp →
        1 ≤ n ∧ ∃ u bits, deliverBits .S .RL r (List.replicate n.toNat level) s = .next u ∧
          ∀ v, v = (sp + ((run : Int) * 256).tdiv n).tdiv 2 →
            (s.par.nomBitlen.s ≤ 2 * v ∧ 2 * v ≤ 3 * s.par.nomBitlen.s →
              exec (.rls1Run level run r) s =
                .next { u with chS := { u.chS with rl := setSpb u.chS.rl level v }, ret := bits }) ∧
            (2 * v < s.par.nomBitlen.s ∨ 3 * s.par.nomBitlen.s < 2 * v →
              ∃ w, exec (.rlReset .S) u = .next w ∧ exec (.rls1Run level run r) s =
                .next { w with io := u.io.note (eventS .sync .RL (u.chS.dec .RL)), ret := bits }))

/-- What a closed run emits (43_bit_sync.md rule R231, clauses 1 to 3, and rule R226): a run shorter than the minimum
emits nothing and leaves run, estimate, integrator and decoder at their reset values; any other plausible run emits
as many bits as symbol periods, a number that its length and the estimate alone decide, every one of them the run's
level; and a run of exactly k bit periods emits k bits and leaves the estimate where the integrator adds nothing. -/
def Obligations.RunEmissions : Prop :=
  (∀ (s : State) (level : Bool) (run : Nat) (r : NumT), run < s.par.rlMinRun.t →
    ∃ t, exec (.rlRun level run r) s = .next t ∧ t.ret = [] ∧ t.chT.rl.run = 0 ∧
      t.chT.rl.bitlen = s.par.nomBitlen.t ∧ t.chT.rl.esum = 0 ∧ t.chT.dec .RL = decTReset) ∧
  (∀ (s : State) (level : Bool) (run : Nat) (r : NumT), 0 < s.chT.rl.bitlen → s.par.rlMinRun.t ≤ run →
    s.chT.rl.bitlen < 2 * ((run : Int) * 256) →
    ∃ (t : State) (bits : List BitTok), exec (.rlRun level run r) s = .next t ∧ t.ret = bits.map Token.bitTok ∧
      (bits.length : Int) = ((run : Int) * 256 + s.chT.rl.bitlen.tdiv 2).tdiv s.chT.rl.bitlen ∧
      ∀ b ∈ bits, b.b = level ∧ b.rssi = r) ∧
  (∀ (s : State) (level : Bool) (run : Nat) (r : NumT), 0 < spbOf s.chS.rl level → s.par.rlMinRun.s ≤ run →
    spbOf s.chS.rl level < 2 * ((run : Int) * 256) →
    ∃ (t : State) (bits : List BitTok), exec (.rls1Run level run r) s = .next t ∧ t.ret = bits.map Token.bitTok ∧
      (bits.length : Int) = ((run : Int) * 256 + (spbOf s.chS.rl level).tdiv 2).tdiv (spbOf s.chS.rl level) ∧
      ∀ b ∈ bits, b.b = level ∧ b.rssi = r) ∧
  (∀ (s : State) (level : Bool) (run k : Nat) (r : NumT), 0 < s.chT.rl.bitlen → s.par.rlMinRun.t ≤ run →
    1 ≤ k → (run : Int) * 256 = k * s.chT.rl.bitlen → s.chT.rl.esum.tdiv s.par.rlKi = 0 →
    ∃ t, exec (.rlRun level run r) s = .next t ∧ t.ret.length = k ∧ t.chT.rl.bitlen = s.chT.rl.bitlen ∧
      t.chT.rl.esum = s.chT.rl.esum)

/-- `RL.RESET`: run, window, estimate and integrator return to their reset values and the synchronizer's own decoder
to idle; the deglitch window, the previous level, the time-2 side and the other chain are untouched (43_bit_sync.md
rule R227). -/
def Obligations.RlResetClears : Prop :=
  ∀ s : State,
    exec (.rlReset .T) s = .next ({ s with chT := { s.chT with
      rl := ⟨s.chT.rl.acc, s.chT.rl.lvlPrev, 0, s.par.nomBitlen.t, 0, 0⟩, decRl := decTReset } }.reply []) ∧
    exec (.rlReset .S) s = .next ({ s with chS := { s.chS with
      rl := ⟨s.chS.rl.acc, s.chS.rl.lvlPrev, 0, s.par.nomBitlen.s, s.par.nomBitlen.s, 0⟩,
      decRl := decSReset } }.reply [])

/-! ### Frame decoders -/

/-- `T1C1.BIT` and `S1.BIT`: outside `IDLE` a bit whose RSSI is below the capture threshold discards the telegram in
progress, silently; otherwise exactly one handler runs, the one the state selects (44_frame_decoders.md rules R260,
R261 and R270, 60_exceptions.md rules R352 and R357). A decoder is never in `DONE` between operations (10_state.md
rule R39). -/
def Obligations.BitDispatch : Prop :=
  (∀ (s : State) (a : Syn) (tok : BitTok), (s.chT.dec a).st ≠ .done →
    (if (s.chT.dec a).st ≠ .idle ∧ tok.rssi < s.par.rssiTh.t then
      exec (.t1c1Bit a tok) s = .next ({ s with
        chT := s.chT.setDec a decTReset, io := s.io.note (eventT .rssi a (s.chT.dec a)) }.reply [])
    else ∃ t, exec (.t1c1Bit a tok) s = .next t ∧ exec (handlerT (s.chT.dec a).st a tok) s = .next t)) ∧
  (∀ (s : State) (a : Syn) (tok : BitTok), (s.chS.dec a).st ≠ .done →
    (if (s.chS.dec a).st ≠ .idle ∧ tok.rssi < s.par.rssiTh.s then
      exec (.s1Bit a tok) s = .next ({ s with
        chS := s.chS.setDec a decSReset, io := s.io.note (eventS .rssi a (s.chS.dec a)) }.reply [])
    else ∃ t, exec (.s1Bit a tok) s = .next t ∧ exec (handlerS (s.chS.dec a).st a tok) s = .next t))

/-- The `IDLE` handlers: a flagged bit starts a capture and its RSSI is kept, any other bit changes nothing; the data
value is not used (44_frame_decoders.md rules R262 and R271). -/
def Obligations.IdleHandlers : Prop :=
  (∀ (s : State) (a : Syn) (tok : BitTok), (s.chT.dec a).st = .idle → exec (.t1c1Idle a tok) s =
    .next ((if tok.pre then { s with chT := s.chT.setDec a { s.chT.dec a with
      rssiPre := tok.rssi, cnt := 0, reg := 0, st := .lfield } } else s).reply [])) ∧
  (∀ (s : State) (a : Syn) (tok : BitTok), (s.chS.dec a).st = .idle → exec (.s1Idle a tok) s =
    .next ((if tok.pre then { s with chS := s.chS.setDec a { s.chS.dec a with
      rssiPre := tok.rssi, cnt := 0, reg := 0, half := false, st := .len } } else s).reply []))

/-- `T1C1.LFIELD`: eleven bits are collected most significant first; the twelfth makes the field a C1 mode word (A
compared before B), or two valid codewords whose length is in range, or an event that discards the capture
(44_frame_decoders.md rule R263, 30_encoding.md rules R106 to R108, 60_exceptions.md rules R355 and R360). -/
def Obligations.LfieldHandler : Prop :=
  ∀ (s : State) (a : Syn) (tok : BitTok) (d : DecT) (v : BitVec 12), d = s.chT.dec a → d.st = .lfield →
    v = BitVec.ofNat 12 (2 * d.reg.toNat + tok.b.toNat) →
    ∃ d' io', exec (.t1c1Lfield a tok) s = .next ({ s with chT := s.chT.setDec a d', io := io' }.reply []) ∧
      (d.cnt.toNat < 11 → d' = { d with reg := v, cnt := d.cnt + 1 } ∧ io' = s.io) ∧
      (11 ≤ d.cnt.toNat → v = s.par.c1ModeA →
        d' = { d with cnt := 0, reg := 0, isC1 := true, isB := false, st := .c1Trailer } ∧ io' = s.io) ∧
      (11 ≤ d.cnt.toNat → v ≠ s.par.c1ModeA → v = s.par.c1ModeB →
        d' = { d with cnt := 0, reg := 0, isC1 := true, isB := true, st := .c1Trailer } ∧ io' = s.io) ∧
      (11 ≤ d.cnt.toNat → v ≠ s.par.c1ModeA → v ≠ s.par.c1ModeB →
        (s.par.dec3of6.getD (v.toNat / 64) none = none ∨ s.par.dec3of6.getD (v.toNat % 64) none = none) →
        d' = decTReset ∧ io' = s.io.note (eventT .lfield a d)) ∧
      (11 ≤ d.cnt.toNat → v ≠ s.par.c1ModeA → v ≠ s.par.c1ModeB →
        ∀ (hi lo : BitVec 4) (l : Byte) (t : Nat), s.par.dec3of6.getD (v.toNat / 64) none = some hi →
          s.par.dec3of6.getD (v.toNat % 64) none = some lo → l = BitVec.ofNat 8 (16 * hi.toNat + lo.toNat) →
          t = s.par.lenA.getD l.toNat 0 →
          (t < 3 ∨ s.par.cap < t → d' = decTReset ∧ io' = s.io.note (eventT .cap a d)) ∧
          (3 ≤ t → t ≤ s.par.cap →
            d' = { d with cnt := 0, reg := 0, L := l, total := t, buf := memWrite d.buf 0 l, len := 1, st := .dataT1 } ∧
            io' = s.io))

/-- `T1C1.C1TRAILER` and `T1C1.C1LEN`: four bits must equal the trailer constant; eight bits are the length field,
mapped by L + 1 for frame type B and by the table for A (44_frame_decoders.md rules R264 and R265, 30_encoding.md rule
R117, 60_exceptions.md rules R356 and R360). -/
def Obligations.C1HeaderHandlers : Prop :=
  (∀ (s : State) (a : Syn) (tok : BitTok) (d : DecT) (v : BitVec 4), d = s.chT.dec a → d.st = .c1Trailer →
    v = BitVec.ofNat 4 (2 * d.reg.toNat + tok.b.toNat) →
    ∃ d' io', exec (.t1c1C1trailer a tok) s = .next ({ s with chT := s.chT.setDec a d', io := io' }.reply []) ∧
      (d.cnt.toNat < 3 → d' = { d with reg := v.setWidth 12, cnt := d.cnt + 1 } ∧ io' = s.io) ∧
      (3 ≤ d.cnt.toNat → v = s.par.c1Trailer → d' = { d with cnt := 0, reg := 0, st := .c1Len } ∧ io' = s.io) ∧
      (3 ≤ d.cnt.toNat → v ≠ s.par.c1Trailer → d' = decTReset ∧ io' = s.io.note (eventT .trailer a d))) ∧
  (∀ (s : State) (a : Syn) (tok : BitTok) (d : DecT) (v : Byte) (t : Nat), d = s.chT.dec a → d.st = .c1Len →
    v = BitVec.ofNat 8 (2 * d.reg.toNat + tok.b.toNat) →
    t = (if d.isB then v.toNat + 1 else s.par.lenA.getD v.toNat 0) →
    ∃ d' io', exec (.t1c1C1len a tok) s = .next ({ s with chT := s.chT.setDec a d', io := io' }.reply []) ∧
      (d.cnt.toNat < 7 → d' = { d with reg := v.setWidth 12, cnt := d.cnt + 1 } ∧ io' = s.io) ∧
      (7 ≤ d.cnt.toNat → t < 3 ∨ s.par.cap < t → d' = decTReset ∧ io' = s.io.note (eventT .cap a d)) ∧
      (7 ≤ d.cnt.toNat → 3 ≤ t → t ≤ s.par.cap →
        d' = { d with cnt := 0, reg := 0, L := v, total := t, buf := memWrite d.buf 0 v, len := 1, st := .dataC1 } ∧
        io' = s.io))

/-- `T1C1.DATA_T1` and `T1C1.DATA_C1`: a field of 12 (8) bits gives one payload byte, stored at `len`; an invalid
codeword sets the sticky flag, is replaced by `SUBST_NIB` and does not stop the capture; the byte that makes `len`
reach `total` runs `T1C1.DONE` in the same operation (44_frame_decoders.md rules R266 and R267, 60_exceptions.md rule
R353). `len` is below the capacity, as in every capture (20_memory.md rule R72). -/
def Obligations.DataHandlersT : Prop :=
  (∀ (s : State) (a : Syn) (tok : BitTok) (d d1 : DecT) (v : BitVec 12) (hi lo : Option (BitVec 4)) (byte : Byte)
      (io1 : Io), d = s.chT.dec a → d.st = .dataT1 → d.len < s.par.cap →
    v = BitVec.ofNat 12 (2 * d.reg.toNat + tok.b.toNat) →
    hi = s.par.dec3of6.getD (v.toNat / 64) none → lo = s.par.dec3of6.getD (v.toNat % 64) none →
    byte = BitVec.ofNat 8 (16 * (hi.getD s.par.substNib).toNat + (lo.getD s.par.substNib).toNat) →
    d1 = { d with cnt := 0, reg := 0, symErr := (d.symErr || hi.isNone || lo.isNone),
                  buf := memWrite d.buf d.len byte, len := d.len + 1 } →
    io1 = (if hi.isNone || lo.isNone then s.io.note (eventT .symbol a d) else s.io) →
    (d.cnt.toNat < 11 → exec (.t1c1DataT1 a tok) s =
      .next ({ s with chT := s.chT.setDec a { d with reg := v, cnt := d.cnt + 1 } }.reply [])) ∧
    (11 ≤ d.cnt.toNat → d.len + 1 ≠ d.total → exec (.t1c1DataT1 a tok) s =
      .next ({ s with chT := s.chT.setDec a d1, io := io1 }.reply [])) ∧
    (11 ≤ d.cnt.toNat → d.len + 1 = d.total → ∃ t,
      exec (.t1c1Done a tok) { s with chT := s.chT.setDec a { d1 with st := .done }, io := io1 } = .next t ∧
      exec (.t1c1DataT1 a tok) s = .next t)) ∧
  (∀ (s : State) (a : Syn) (tok : BitTok) (d d1 : DecT) (v : Byte), d = s.chT.dec a → d.st = .dataC1 →
    d.len < s.par.cap → v = BitVec.ofNat 8 (2 * d.reg.toNat + tok.b.toNat) →
    d1 = { d with cnt := 0, reg := 0, buf := memWrite d.buf d.len v, len := d.len + 1 } →
    (d.cnt.toNat < 7 → exec (.t1c1DataC1 a tok) s =
      .next ({ s with chT := s.chT.setDec a { d with reg := v.setWidth 12, cnt := d.cnt + 1 } }.reply [])) ∧
    (7 ≤ d.cnt.toNat → d.len + 1 ≠ d.total → exec (.t1c1DataC1 a tok) s =
      .next ({ s with chT := s.chT.setDec a d1 }.reply [])) ∧
    (7 ≤ d.cnt.toNat → d.len + 1 = d.total → ∃ t,
      exec (.t1c1Done a tok) { s with chT := s.chT.setDec a { d1 with st := .done } } = .next t ∧
      exec (.t1c1DataC1 a tok) s = .next t))

/-- `S1.LEN`: the bits are collected in pairs from the first after the access code; an invalid pair discards the
capture at its second bit, the eighth pair completes the length field (44_frame_decoders.md rule R272, 30_encoding.md
rule R109). -/
def Obligations.S1LenHandler : Prop :=
  ∀ (s : State) (a : Syn) (tok : BitTok) (d : DecS), d = s.chS.dec a → d.st = .len →
    ∃ d' io', exec (.s1Len a tok) s = .next ({ s with chS := s.chS.setDec a d', io := io' }.reply []) ∧
      (d.cnt.toNat % 2 = 0 → d' = { d with half := tok.b, cnt := d.cnt + 1 } ∧ io' = s.io) ∧
      (d.cnt.toNat % 2 = 1 → s.par.manch.getD (2 * d.half.toNat + tok.b.toNat) none = none →
        d' = decSReset ∧ io' = s.io.note (eventS .lfield a d)) ∧
      (∀ (m : Bool) (v : Byte) (t : Nat), d.cnt.toNat % 2 = 1 →
        s.par.manch.getD (2 * d.half.toNat + tok.b.toNat) none = some m →
        v = BitVec.ofNat 8 (2 * d.reg.toNat + m.toNat) → t = s.par.lenA.getD v.toNat 0 →
        (d.cnt.toNat < 15 → d' = { d with reg := v, cnt := d.cnt + 1 } ∧ io' = s.io) ∧
        (d.cnt.toNat = 15 → t < 3 ∨ s.par.cap < t → d' = decSReset ∧ io' = s.io.note (eventS .cap a d)) ∧
        (d.cnt.toNat = 15 → 3 ≤ t → t ≤ s.par.cap →
          d' = { d with cnt := 0, reg := 0, L := v, total := t, buf := memWrite d.buf 0 v, len := 1, st := .data } ∧
          io' = s.io))

/-- `S1.DATA`: one payload byte from 8 pairs; an invalid pair sets the sticky flag, counts as `SUBST_BIT` and does not
stop the capture; the last byte runs `S1.DONE` in the same operation (44_frame_decoders.md rule R273, 60_exceptions.md
rule R353). -/
def Obligations.S1DataHandler : Prop :=
  ∀ (s : State) (a : Syn) (tok : BitTok) (d d1 : DecS) (m : Option Bool) (v : Byte) (io1 : Io),
    d = s.chS.dec a → d.st = .data → d.len < s.par.cap →
    m = s.par.manch.getD (2 * d.half.toNat + tok.b.toNat) none →
    v = BitVec.ofNat 8 (2 * d.reg.toNat + (m.getD s.par.substBit).toNat) →
    d1 = { d with symErr := (d.symErr || m.isNone) } →
    io1 = (if m.isNone then s.io.note (eventS .symbol a d) else s.io) →
    (d.cnt.toNat % 2 = 0 → exec (.s1Data a tok) s =
      .next ({ s with chS := s.chS.setDec a { d with half := tok.b, cnt := d.cnt + 1 } }.reply [])) ∧
    (d.cnt.toNat % 2 = 1 → d.cnt.toNat < 15 → exec (.s1Data a tok) s =
      .next ({ s with chS := s.chS.setDec a { d1 with reg := v, cnt := d.cnt + 1 }, io := io1 }.reply [])) ∧
    (d.cnt.toNat = 15 → d.len + 1 ≠ d.total → exec (.s1Data a tok) s =
      .next ({ s with
        chS := s.chS.setDec a { d1 with cnt := 0, reg := 0, buf := memWrite d.buf d.len v, len := d.len + 1 },
        io := io1 }.reply [])) ∧
    (d.cnt.toNat = 15 → d.len + 1 = d.total → ∃ t,
      exec (.s1Done a tok) { s with
        chS := s.chS.setDec a
          { d1 with cnt := 0, reg := 0, buf := memWrite d.buf d.len v, len := d.len + 1, st := .done },
        io := io1 } = .next t ∧
      exec (.s1Data a tok) s = .next t)

/-- The `DONE` handlers: the CRC is checked over the stored telegram, by frame type, the RSSI and the host's timestamp
are taken, one record is emitted, and the decoder returns to idle; a failed check is the recorded event `EV_CRC` and
the record is emitted all the same (44_frame_decoders.md rules R268 and R274, 60_exceptions.md rule R354). -/
def Obligations.DoneHandlers : Prop :=
  (∀ (s : State) (a : Syn) (tok : BitTok) (d : DecT), d = s.chT.dec a → d.st = .done →
    ∃ ok tel,
      exec (if d.isB then .crcchkB (memBytes d.buf d.total) else .crcchkA (memBytes d.buf d.total)) s =
        .next (s.reply [.bit ok]) ∧
      (∀ u, u = { s with
          chT := s.chT.setDec a
            { d with crcOk := ok, rssiEnd := tok.rssi, ts := .host (Config.hostClock s.io.tsCount) } } →
        exec (.emit .T a (if d.isC1 then .C1 else .T1)) u =
          .next ({ u with io := { u.io with out := u.io.out ++ [tel] } }.reply [.telegram tel])) ∧
      exec (.t1c1Done a tok) s = .next ({ s with chT := s.chT.setDec a decTReset, io :=
        { out := s.io.out ++ [tel], tsCount := s.io.tsCount + 1,
          events := if ok then s.io.events else s.io.events ++ [eventT .crc a d] } }.reply [.telegram tel])) ∧
  (∀ (s : State) (a : Syn) (tok : BitTok) (d : DecS), d = s.chS.dec a → d.st = .done →
    ∃ ok tel,
      exec (.crcchkA (memBytes d.buf d.total)) s = .next (s.reply [.bit ok]) ∧
      (∀ u, u = { s with
          chS := s.chS.setDec a
            { d with crcOk := ok, rssiEnd := tok.rssi, ts := .host (Config.hostClock s.io.tsCount) } } →
        exec (.emit .S a .S1) u =
          .next ({ u with io := { u.io with out := u.io.out ++ [tel] } }.reply [.telegram tel])) ∧
      exec (.s1Done a tok) s = .next ({ s with chS := s.chS.setDec a decSReset, io :=
        { out := s.io.out ++ [tel], tsCount := s.io.tsCount + 1,
          events := if ok then s.io.events else s.io.events ++ [eventS .crc a d] } }.reply [.telegram tel]))

/-- `DEC.RESET`: the decoder returns to exactly its `RESET` value, and nothing else changes (44_frame_decoders.md rule
R269). -/
def Obligations.DecResetIdles : Prop :=
  ∀ (s : State) (a : Syn),
    exec (.decReset .T a) s = .next ({ s with
      chT := s.chT.setDec a
        ⟨.idle, 0, 0, 0, 0, 0, [], .null, 0, 0, false, false, false, false⟩ }.reply []) ∧
    exec (.decReset .S a) s = .next ({ s with
      chS := s.chS.setDec a
        ⟨.idle, 0, false, 0, 0, 0, 0, [], .null, 0, 0, false, false⟩ }.reply [])

/-- Every transition of a decoder's state that one bit can make is one the table of 44_frame_decoders.md rule R275
lists, and a record is emitted exactly by the bit that stores the last byte, after which the decoder is idle
(10_state.md rule R39). -/
def Obligations.ForwardTransitions : Prop :=
  (∀ (s t : State) (a : Syn) (tok : BitTok) (d : DecT), d = s.chT.dec a → DecTOk s.par d →
    exec (.t1c1Bit a tok) s = .next t →
    ((t.chT.dec a).st = .idle ∨ ((t.chT.dec a).st = d.st ∧ d.st ≠ .idle) ∨
      (d.st, (t.chT.dec a).st) ∈ [(StT.idle, StT.lfield), (.lfield, .c1Trailer), (.lfield, .dataT1),
        (.c1Trailer, .c1Len), (.c1Len, .dataC1)]) ∧
    (d.st = .idle → ((t.chT.dec a).st = .lfield ↔ tok.pre = true)) ∧
    (t.io.out = s.io.out ∨ ∃ x, t.io.out = s.io.out ++ [x]) ∧
    (t.io.out ≠ s.io.out ↔ ¬ tok.rssi < s.par.rssiTh.t ∧ d.len + 1 = d.total ∧
      (d.st = .dataT1 ∧ d.cnt.toNat = 11 ∨ d.st = .dataC1 ∧ d.cnt.toNat = 7)) ∧
    (t.io.out ≠ s.io.out → t.chT.dec a = decTReset)) ∧
  (∀ (s t : State) (a : Syn) (tok : BitTok) (d : DecS), d = s.chS.dec a → DecSOk s.par d →
    exec (.s1Bit a tok) s = .next t →
    ((t.chS.dec a).st = .idle ∨ ((t.chS.dec a).st = d.st ∧ d.st ≠ .idle) ∨
      (d.st, (t.chS.dec a).st) ∈ [(StS.idle, StS.len), (.len, .data)]) ∧
    (d.st = .idle → ((t.chS.dec a).st = .len ↔ tok.pre = true)) ∧
    (t.io.out = s.io.out ∨ ∃ x, t.io.out = s.io.out ++ [x]) ∧
    (t.io.out ≠ s.io.out ↔ ¬ tok.rssi < s.par.rssiTh.s ∧ d.len + 1 = d.total ∧
      d.st = .data ∧ d.cnt.toNat = 15) ∧
    (t.io.out ≠ s.io.out → t.chS.dec a = decSReset))

/-! ### Framing -/

/-- `CRC16` agrees with its bit-serial form, for every generator (45_crc_framing.md rule R310, 30_encoding.md rule
R119). -/
def Obligations.Crc16BitSerial : Prop :=
  ∀ (s : State) (bytes : List Byte),
    exec (.crc16 bytes) s = .next (s.reply [.u16 (crcSerial s.par.crcPoly bytes)])

/-- The partitions of the CRC checks and of the stripping, in closed form: in frame type A block 0 starts at 0 with up
to 10 data bytes and block j ≥ 1 at 12 + 18·(j − 1) with up to 16, each followed by its CRC; in frame type B one CRC
closes the first 128 bytes and a second one the rest (45_crc_framing.md rules R313 to R316). -/
def Obligations.CrcPartition : Prop :=
  (∀ (s : State) (t : List Byte) (start dlen : Nat → Nat),
    (∀ j, start j = if j = 0 then 0 else 12 + 18 * (j - 1)) →
    (∀ j, dlen j = min (if j = 0 then 10 else 16) (t.length - start j - 2)) →
    (∃ ok, exec (.crcchkA t) s = .next (s.reply [.bit ok]) ∧
      (ok = true ↔ ∀ j, start j < t.length → start j + 2 ≤ t.length ∧
        (crc16 s.par.crcPoly ((t.drop (start j)).take (dlen j))).toNat =
          256 * (t.getD (start j + dlen j) 0).toNat + (t.getD (start j + dlen j + 1) 0).toNat)) ∧
    exec (.stripA t) s = .next (s.reply [.bytes ((List.range t.length).flatMap fun j =>
      if start j + 2 ≤ t.length then (t.drop (start j)).take (dlen j) else [])])) ∧
  (∀ (s : State) (t : List Byte), 2 ≤ t.length →
    (∃ ok, exec (.crcchkB t) s = .next (s.reply [.bit ok]) ∧
      (t.length ≤ 128 → (ok = true ↔ (crc16 s.par.crcPoly (t.take (t.length - 2))).toNat =
        256 * (t.getD (t.length - 2) 0).toNat + (t.getD (t.length - 1) 0).toNat)) ∧
      (t.length = 129 → ok = false) ∧
      (130 ≤ t.length → (ok = true ↔
        (crc16 s.par.crcPoly (t.take 126)).toNat = 256 * (t.getD 126 0).toNat + (t.getD 127 0).toNat ∧
        (crc16 s.par.crcPoly ((t.drop 128).take (t.length - 130))).toNat =
          256 * (t.getD (t.length - 2) 0).toNat + (t.getD (t.length - 1) 0).toNat))) ∧
    exec (.stripB t) s = .next (s.reply [.bytes
      (if t.length ≤ 128 then t.take (t.length - 2)
        else if t.length = 129 then t.take 126
        else t.take 126 ++ (t.drop 128).take (t.length - 130))]))

/-- The CRC round trip: a telegram built by cutting data into blocks and appending to each its CRC passes the check
and strips to the data, in both frame types, and with any one bit inverted it fails, for a generator of more than one
term, that is, where `CRC_POLY` is not 0 (45_crc_framing.md rule R319). -/
def Obligations.CrcRoundTrip : Prop :=
  ∀ (s : State) (d : List Byte),
    exec (.crcchkA (frameA s.par.crcPoly d)) s = .next (s.reply [.bit true]) ∧
    exec (.stripA (frameA s.par.crcPoly d)) s = .next (s.reply [.bytes d]) ∧
    exec (.crcchkB (frameB s.par.crcPoly d)) s = .next (s.reply [.bit true]) ∧
    exec (.stripB (frameB s.par.crcPoly d)) s = .next (s.reply [.bytes d]) ∧
    (s.par.crcPoly ≠ 0#16 →
      (∀ i j, i < (frameA s.par.crcPoly d).length → j < 8 →
        exec (.crcchkA (flipBit (frameA s.par.crcPoly d) i j)) s = .next (s.reply [.bit false])) ∧
      (∀ i j, i < (frameB s.par.crcPoly d).length → j < 8 →
        exec (.crcchkB (flipBit (frameB s.par.crcPoly d) i j)) s = .next (s.reply [.bit false])))

/-- `SERIAL`: bytes 4 to 7 of the payload, least significant first, a missing byte counting as 0 (45_crc_framing.md
rule R317). -/
def Obligations.SerialLittleEndian : Prop :=
  ∀ (s : State) (p : List Byte), ∃ w : BitVec 32,
    w.toNat = (p.getD 4 0).toNat + 256 * (p.getD 5 0).toNat + 65536 * (p.getD 6 0).toNat +
      16777216 * (p.getD 7 0).toNat ∧
    exec (.serial p) s = .next (s.reply [.u32 w])

/-- `EMIT`: the record's fields are the decoder's, its payload the stripped telegram by frame type (always A for S1),
its serial that of the payload; it is appended to the host's output and no register changes (45_crc_framing.md rule
R318, 30_encoding.md rule R121). That it does so whatever the decoder's state and the token's mode, when asked for on its
own, is the model's choice (log entry 21). -/
def Obligations.EmitRecord : Prop :=
  (∀ (s : State) (a : Syn) (mode : Mode) (d : DecT), d = s.chT.dec a →
    ∃ p w, exec (if d.isB then .stripB (memBytes d.buf d.total) else .stripA (memBytes d.buf d.total)) s =
        .next (s.reply [.bytes p]) ∧
      exec (.serial p) s = .next (s.reply [.u32 w]) ∧
      ∀ tel, tel = Telegram.mk mode d.isB (match a with | .T2 => false | .RL => true) d.crcOk d.symErr d.ts
          d.rssiPre d.rssiEnd w p.length p →
        exec (.emit .T a mode) s =
          .next ({ s with io := { s.io with out := s.io.out ++ [tel] } }.reply [.telegram tel])) ∧
  (∀ (s : State) (a : Syn) (mode : Mode) (d : DecS), d = s.chS.dec a →
    ∃ p w, exec (.stripA (memBytes d.buf d.total)) s = .next (s.reply [.bytes p]) ∧
      exec (.serial p) s = .next (s.reply [.u32 w]) ∧
      ∀ tel, tel = Telegram.mk mode false (match a with | .T2 => false | .RL => true) d.crcOk d.symErr d.ts
          d.rssiPre d.rssiEnd w p.length p →
        exec (.emit .S a mode) s =
          .next ({ s with io := { s.io with out := s.io.out ++ [tel] } }.reply [.telegram tel]))

/-! ### The whole machine -/

/-- The state right after reset meets every invariant stated below. (That the invariants of the registers hold there
rests on the `PAR` instance of log entry 3.) -/
def Obligations.ResetMeetsInvariants : Prop :=
  ShapesOk State.reset ∧ SumsOk State.reset ∧ DecodersOk State.reset ∧ EstimatesOk State.reset ∧ GateOk State.reset

/-- Every step keeps every history at its order, every index inside its range, the polyphase sum 0 at the start of a
cycle, the lock counter at or below its threshold, the deglitch windows within their width, and, on the rationals, every moving sum the sum of its window
(40_filter_library.md rule R149, 10_state.md rule R26). -/
def Obligations.ShapesKept : Prop :=
  ∀ s t : State, ShapesOk s → (s.par.numerics = .rational → SumsOk s) → step s = .next t →
    ShapesOk t ∧ (t.par.numerics = .rational → SumsOk t)

/-- Every step keeps the decoders' invariants: no decoder is in `DONE`, an idle one has its reset value, in the data
phase 1 ≤ len < total ≤ 290 and buf[0] = L, and every payload buffer is in canonical form (44_frame_decoders.md rule
R275, 20_memory.md rule R72), where every `LEN_A` entry is at most 290. -/
def Obligations.DecodersKept : Prop :=
  ∀ s t : State, DecodersOk s → step s = .next t → DecodersOk t

/-- Every step keeps the run-length estimates positive, the S1 ones within half and three halves of nominal
(43_bit_sync.md rule R231, clause 4). -/
def Obligations.EstimatesKept : Prop :=
  ∀ s t : State, EstimatesOk s → step s = .next t → EstimatesOk t

/-- Every step keeps the configuration one that validation accepts (or the default) and the decimation counter below
the rate (10_state.md rules R28, R43 and R44); that the counter is 0 before the first `CHUNK` is the model's phase
(log entry 7). -/
def Obligations.GateKept : Prop :=
  ∀ s t : State, GateOk s → step s = .next t → GateOk t

/-- What no step does: change `PAR` (10_state.md rule R46), take back a record or an entry of the trace, or change the
configuration other than by `RESET` or an accepted `CFG.LOAD` (rule R43). -/
def Obligations.WholeMachineFrame : Prop :=
  ∀ s t : State, step s = .next t →
    t.par = s.par ∧ (∃ l, t.io.out = s.io.out ++ l) ∧ (∃ l, t.io.events = s.io.events ++ l) ∧
    s.io.tsCount ≤ t.io.tsCount ∧
    (t.cfg = s.cfg ∨
      (∃ rest, decode s.ops = .ok (.reset, rest) ∧ t.cfg = 0x00000F02#32) ∨
      (∃ w rest, decode s.ops = .ok (.cfgLoad w, rest) ∧ s.phase = .configuring ∧ cfgLegal s.par w = true ∧
        t.cfg = w))

/-- The chains are independent: two cores that agree on everything but one chain (and on what they handed out) still
agree on the other chain, and emit the same records of it, timestamps aside, after the same sample (20_memory.md rule
R81). With a polyphase front end the gate asks the filters of the enabled chains, which are all at one phase (a disabled
chain's stay at phase 0). -/
def Obligations.ChainIndependence : Prop :=
  ∀ (s u s' u' : State) (i q : Byte), s.par = u.par → s.cfg = u.cfg → s.dcnt = u.dcnt → s.fsIdx = u.fsIdx →
    (s.par.feKind = .ppf →
      ∃ p, ∀ c x, chainEnabled s.cfg c = true → ((s.front c).fe x).ppf.ph = p ∧ ((u.front c).fe x).ppf.ph = p) →
    exec (.sampleStep i q) s = .next s' → exec (.sampleStep i q) u = .next u' →
    s'.dcnt = u'.dcnt ∧ s'.fsIdx = u'.fsIdx ∧
    (s.chT = u.chT → s'.chT = u'.chT ∧
      ((s'.io.out.drop s.io.out.length).filter fun t => decide (t.mode ≠ .S1)).map
          (fun t => { t with ts := .null }) =
        ((u'.io.out.drop u.io.out.length).filter fun t => decide (t.mode ≠ .S1)).map
          (fun t => { t with ts := .null })) ∧
    (s.chS = u.chS → s'.chS = u'.chS ∧
      ((s'.io.out.drop s.io.out.length).filter fun t => decide (t.mode = .S1)).map
          (fun t => { t with ts := .null }) =
        ((u'.io.out.drop u.io.out.length).filter fun t => decide (t.mode = .S1)).map
          (fun t => { t with ts := .null }))

/-- A whole T1 or C1 frame, delivered bit by bit after an access code to an idle decoder at sufficient RSSI, whatever
the access-code flags of its bits, is received: exactly one record with the stripped bytes, their serial and the result
of the CRC check, and the decoder is idle again (30_encoding.md rule R131, 44_frame_decoders.md rules R262 to R268). -/
def Obligations.FrameReceivedT : Prop :=
  ∀ (s : State) (a : Syn) (b0 : Bool) (r0 r : NumT) (l : Byte) (data t : List Byte) (toks : List BitTok), t = l :: data →
    s.chT.dec a = decTReset → 3 ≤ t.length → t.length ≤ s.par.cap →
    (∀ code : BitVec 4 → BitVec 6, (∀ n, s.par.dec3of6.getD (code n).toNat none = some n) →
      codedByte code l ≠ bitsMsb s.par.c1ModeA → codedByte code l ≠ bitsMsb s.par.c1ModeB →
      t.length = s.par.lenA.getD l.toNat 0 → Carries s.par.rssiTh.t r (t.flatMap (codedByte code)) toks →
      ∃ u ts, runOps (.t1c1Bit a ⟨b0, true, r0⟩ :: bitOps .T a toks) s = .next u ∧
        u.chT = s.chT ∧ u.io.out = s.io.out ++ [Telegram.mk .T1 false (algOf a) (crcchkA s.par.crcPoly t) false
          (.host ts) r0 r (serialOf (stripA t)) (stripA t).length (stripA t)]) ∧
    (t.length = s.par.lenA.getD l.toNat 0 →
      Carries s.par.rssiTh.t r (bitsMsb s.par.c1ModeA ++ bitsMsb s.par.c1Trailer ++ t.flatMap rawByte) toks →
      ∃ u ts, runOps (.t1c1Bit a ⟨b0, true, r0⟩ :: bitOps .T a toks) s = .next u ∧
        u.chT = s.chT ∧ u.io.out = s.io.out ++ [Telegram.mk .C1 false (algOf a) (crcchkA s.par.crcPoly t) false
          (.host ts) r0 r (serialOf (stripA t)) (stripA t).length (stripA t)]) ∧
    (s.par.c1ModeA ≠ s.par.c1ModeB → t.length = l.toNat + 1 →
      Carries s.par.rssiTh.t r (bitsMsb s.par.c1ModeB ++ bitsMsb s.par.c1Trailer ++ t.flatMap rawByte) toks →
      ∃ u ts, runOps (.t1c1Bit a ⟨b0, true, r0⟩ :: bitOps .T a toks) s = .next u ∧
        u.chT = s.chT ∧ u.io.out = s.io.out ++ [Telegram.mk .C1 true (algOf a) (crcchkB s.par.crcPoly t) false
          (.host ts) r0 r (serialOf (stripB t)) (stripB t).length (stripB t)])

/-- A whole S1 frame is received likewise, under any Manchester code that the table decodes
(30_encoding.md rules R113 and R131, 44_frame_decoders.md rules R271 to R274). -/
def Obligations.FrameReceivedS : Prop :=
  ∀ (s : State) (a : Syn) (b0 : Bool) (r0 r : NumT) (l : Byte) (data t : List Byte) (toks : List BitTok)
    (code : Bool → Bool × Bool), t = l :: data →
    s.chS.dec a = decSReset → 3 ≤ t.length → t.length ≤ s.par.cap →
    (∀ m, s.par.manch.getD (2 * (code m).1.toNat + (code m).2.toNat) none = some m) →
    t.length = s.par.lenA.getD l.toNat 0 → Carries s.par.rssiTh.s r (t.flatMap (manchByte code)) toks →
    ∃ u ts, runOps (.s1Bit a ⟨b0, true, r0⟩ :: bitOps .S a toks) s = .next u ∧
      u.chS = s.chS ∧ u.io.out = s.io.out ++ [Telegram.mk .S1 false (algOf a) (crcchkA s.par.crcPoly t) false
        (.host ts) r0 r (serialOf (stripA t)) (stripA t).length (stripA t)]
end

