-- ==== Sys2Proof/Laws/State.lean ====
section
/-! SUPPORT. The small lemmas of the state's updates: one per field per update, so that no later proof unfolds a
record update. -/

namespace Sys2Proof.Machine

open Sys2Proof

/-! ### `reply` -/

@[simp] theorem State.reply_par (s : State) (toks : List Token) : (s.reply toks).par = s.par := rfl
@[simp] theorem State.reply_cfg (s : State) (toks : List Token) : (s.reply toks).cfg = s.cfg := rfl
@[simp] theorem State.reply_dcnt (s : State) (toks : List Token) : (s.reply toks).dcnt = s.dcnt := rfl
@[simp] theorem State.reply_fsIdx (s : State) (toks : List Token) : (s.reply toks).fsIdx = s.fsIdx := rfl
@[simp] theorem State.reply_chT (s : State) (toks : List Token) : (s.reply toks).chT = s.chT := rfl
@[simp] theorem State.reply_chS (s : State) (toks : List Token) : (s.reply toks).chS = s.chS := rfl
@[simp] theorem State.reply_inp (s : State) (toks : List Token) : (s.reply toks).inp = s.inp := rfl
@[simp] theorem State.reply_io (s : State) (toks : List Token) : (s.reply toks).io = s.io := rfl
@[simp] theorem State.reply_feValue (s : State) (toks : List Token) : (s.reply toks).feValue = s.feValue := rfl
@[simp] theorem State.reply_ret (s : State) (toks : List Token) : (s.reply toks).ret = toks := rfl
@[simp] theorem State.reply_phase (s : State) (toks : List Token) : (s.reply toks).phase = s.phase.touch := rfl
@[simp] theorem State.reply_ops (s : State) (toks : List Token) : (s.reply toks).ops = s.ops := rfl

/-! ### `setIo` -/

@[simp] theorem State.setIo_par (s : State) (io : Io) : (s.setIo io).par = s.par := rfl
@[simp] theorem State.setIo_cfg (s : State) (io : Io) : (s.setIo io).cfg = s.cfg := rfl
@[simp] theorem State.setIo_dcnt (s : State) (io : Io) : (s.setIo io).dcnt = s.dcnt := rfl
@[simp] theorem State.setIo_fsIdx (s : State) (io : Io) : (s.setIo io).fsIdx = s.fsIdx := rfl
@[simp] theorem State.setIo_chT (s : State) (io : Io) : (s.setIo io).chT = s.chT := rfl
@[simp] theorem State.setIo_chS (s : State) (io : Io) : (s.setIo io).chS = s.chS := rfl
@[simp] theorem State.setIo_inp (s : State) (io : Io) : (s.setIo io).inp = s.inp := rfl
@[simp] theorem State.setIo_io (s : State) (io : Io) : (s.setIo io).io = io := rfl
@[simp] theorem State.setIo_feValue (s : State) (io : Io) : (s.setIo io).feValue = s.feValue := rfl
@[simp] theorem State.setIo_ret (s : State) (io : Io) : (s.setIo io).ret = s.ret := rfl
@[simp] theorem State.setIo_phase (s : State) (io : Io) : (s.setIo io).phase = s.phase := rfl
@[simp] theorem State.setIo_ops (s : State) (io : Io) : (s.setIo io).ops = s.ops := rfl

/-! ### `setChT` -/

@[simp] theorem State.setChT_par (s : State) (ch : ChainT) : (s.setChT ch).par = s.par := rfl
@[simp] theorem State.setChT_cfg (s : State) (ch : ChainT) : (s.setChT ch).cfg = s.cfg := rfl
@[simp] theorem State.setChT_dcnt (s : State) (ch : ChainT) : (s.setChT ch).dcnt = s.dcnt := rfl
@[simp] theorem State.setChT_fsIdx (s : State) (ch : ChainT) : (s.setChT ch).fsIdx = s.fsIdx := rfl
@[simp] theorem State.setChT_chT (s : State) (ch : ChainT) : (s.setChT ch).chT = ch := rfl
@[simp] theorem State.setChT_chS (s : State) (ch : ChainT) : (s.setChT ch).chS = s.chS := rfl
@[simp] theorem State.setChT_inp (s : State) (ch : ChainT) : (s.setChT ch).inp = s.inp := rfl
@[simp] theorem State.setChT_io (s : State) (ch : ChainT) : (s.setChT ch).io = s.io := rfl
@[simp] theorem State.setChT_feValue (s : State) (ch : ChainT) : (s.setChT ch).feValue = s.feValue := rfl
@[simp] theorem State.setChT_ret (s : State) (ch : ChainT) : (s.setChT ch).ret = s.ret := rfl
@[simp] theorem State.setChT_phase (s : State) (ch : ChainT) : (s.setChT ch).phase = s.phase := rfl
@[simp] theorem State.setChT_ops (s : State) (ch : ChainT) : (s.setChT ch).ops = s.ops := rfl

/-! ### `setChS` -/

@[simp] theorem State.setChS_par (s : State) (ch : ChainS) : (s.setChS ch).par = s.par := rfl
@[simp] theorem State.setChS_cfg (s : State) (ch : ChainS) : (s.setChS ch).cfg = s.cfg := rfl
@[simp] theorem State.setChS_dcnt (s : State) (ch : ChainS) : (s.setChS ch).dcnt = s.dcnt := rfl
@[simp] theorem State.setChS_fsIdx (s : State) (ch : ChainS) : (s.setChS ch).fsIdx = s.fsIdx := rfl
@[simp] theorem State.setChS_chT (s : State) (ch : ChainS) : (s.setChS ch).chT = s.chT := rfl
@[simp] theorem State.setChS_chS (s : State) (ch : ChainS) : (s.setChS ch).chS = ch := rfl
@[simp] theorem State.setChS_inp (s : State) (ch : ChainS) : (s.setChS ch).inp = s.inp := rfl
@[simp] theorem State.setChS_io (s : State) (ch : ChainS) : (s.setChS ch).io = s.io := rfl
@[simp] theorem State.setChS_feValue (s : State) (ch : ChainS) : (s.setChS ch).feValue = s.feValue := rfl
@[simp] theorem State.setChS_ret (s : State) (ch : ChainS) : (s.setChS ch).ret = s.ret := rfl
@[simp] theorem State.setChS_phase (s : State) (ch : ChainS) : (s.setChS ch).phase = s.phase := rfl
@[simp] theorem State.setChS_ops (s : State) (ch : ChainS) : (s.setChS ch).ops = s.ops := rfl

/-! ### `setFront`, `setT2` on chain T -/

@[simp] theorem State.setFrontT_chT (s : State) (f : Front) : (s.setFront .T f).chT = { s.chT with fr := f } := rfl
@[simp] theorem State.setFrontT_chS (s : State) (f : Front) : (s.setFront .T f).chS = s.chS := rfl
@[simp] theorem State.setT2T_chT (s : State) (f : T2Reg) : (s.setT2 .T f).chT = { s.chT with t2 := f } := rfl
@[simp] theorem State.setT2T_chS (s : State) (f : T2Reg) : (s.setT2 .T f).chS = s.chS := rfl

/-! ### `setFront`, `setT2` on chain S -/

@[simp] theorem State.setFrontS_chS (s : State) (f : Front) : (s.setFront .S f).chS = { s.chS with fr := f } := rfl
@[simp] theorem State.setFrontS_chT (s : State) (f : Front) : (s.setFront .S f).chT = s.chT := rfl
@[simp] theorem State.setT2S_chS (s : State) (f : T2Reg) : (s.setT2 .S f).chS = { s.chS with t2 := f } := rfl
@[simp] theorem State.setT2S_chT (s : State) (f : T2Reg) : (s.setT2 .S f).chT = s.chT := rfl

/-! ### `setFront` -/

@[simp] theorem State.setFront_par (s : State) (c : Chain) (f : Front) :
    (s.setFront c f).par = s.par := by cases c <;> rfl
@[simp] theorem State.setFront_cfg (s : State) (c : Chain) (f : Front) :
    (s.setFront c f).cfg = s.cfg := by cases c <;> rfl
@[simp] theorem State.setFront_dcnt (s : State) (c : Chain) (f : Front) :
    (s.setFront c f).dcnt = s.dcnt := by cases c <;> rfl
@[simp] theorem State.setFront_fsIdx (s : State) (c : Chain) (f : Front) :
    (s.setFront c f).fsIdx = s.fsIdx := by cases c <;> rfl
@[simp] theorem State.setFront_inp (s : State) (c : Chain) (f : Front) :
    (s.setFront c f).inp = s.inp := by cases c <;> rfl
@[simp] theorem State.setFront_io (s : State) (c : Chain) (f : Front) :
    (s.setFront c f).io = s.io := by cases c <;> rfl
@[simp] theorem State.setFront_feValue (s : State) (c : Chain) (f : Front) :
    (s.setFront c f).feValue = s.feValue := by cases c <;> rfl
@[simp] theorem State.setFront_ret (s : State) (c : Chain) (f : Front) :
    (s.setFront c f).ret = s.ret := by cases c <;> rfl
@[simp] theorem State.setFront_phase (s : State) (c : Chain) (f : Front) :
    (s.setFront c f).phase = s.phase := by cases c <;> rfl
@[simp] theorem State.setFront_ops (s : State) (c : Chain) (f : Front) :
    (s.setFront c f).ops = s.ops := by cases c <;> rfl

/-! ### `setT2` -/

@[simp] theorem State.setT2_par (s : State) (c : Chain) (f : T2Reg) : (s.setT2 c f).par = s.par := by cases c <;> rfl
@[simp] theorem State.setT2_cfg (s : State) (c : Chain) (f : T2Reg) : (s.setT2 c f).cfg = s.cfg := by cases c <;> rfl
@[simp] theorem State.setT2_dcnt (s : State) (c : Chain) (f : T2Reg) :
    (s.setT2 c f).dcnt = s.dcnt := by cases c <;> rfl
@[simp] theorem State.setT2_fsIdx (s : State) (c : Chain) (f : T2Reg) :
    (s.setT2 c f).fsIdx = s.fsIdx := by cases c <;> rfl
@[simp] theorem State.setT2_inp (s : State) (c : Chain) (f : T2Reg) : (s.setT2 c f).inp = s.inp := by cases c <;> rfl
@[simp] theorem State.setT2_io (s : State) (c : Chain) (f : T2Reg) : (s.setT2 c f).io = s.io := by cases c <;> rfl
@[simp] theorem State.setT2_feValue (s : State) (c : Chain) (f : T2Reg) :
    (s.setT2 c f).feValue = s.feValue := by cases c <;> rfl
@[simp] theorem State.setT2_ret (s : State) (c : Chain) (f : T2Reg) : (s.setT2 c f).ret = s.ret := by cases c <;> rfl
@[simp] theorem State.setT2_phase (s : State) (c : Chain) (f : T2Reg) :
    (s.setT2 c f).phase = s.phase := by cases c <;> rfl
@[simp] theorem State.setT2_ops (s : State) (c : Chain) (f : T2Reg) : (s.setT2 c f).ops = s.ops := by cases c <;> rfl

@[simp] theorem State.front_T (s : State) : s.front .T = s.chT.fr := rfl
@[simp] theorem State.front_S (s : State) : s.front .S = s.chS.fr := rfl
@[simp] theorem State.t2_T (s : State) : s.t2 .T = s.chT.t2 := rfl
@[simp] theorem State.t2_S (s : State) : s.t2 .S = s.chS.t2 := rfl

@[simp] theorem State.setFront_front (s : State) (c : Chain) (f : Front) : (s.setFront c f).front c = f := by
  cases c <;> rfl

theorem State.setFront_front_of_ne (s : State) (c c' : Chain) (f : Front) (h : c' ≠ c) :
    (s.setFront c f).front c' = s.front c' := by
  cases c <;> cases c' <;> first | rfl | exact absurd rfl h

@[simp] theorem State.setFront_t2 (s : State) (c c' : Chain) (f : Front) : (s.setFront c f).t2 c' = s.t2 c' := by
  cases c <;> cases c' <;> rfl

@[simp] theorem State.setFront_decT (s : State) (c : Chain) (f : Front) (a : Syn) :
    (s.setFront c f).chT.dec a = s.chT.dec a := by
  cases c <;> cases a <;> rfl

@[simp] theorem State.setFront_decS (s : State) (c : Chain) (f : Front) (a : Syn) :
    (s.setFront c f).chS.dec a = s.chS.dec a := by
  cases c <;> cases a <;> rfl

@[simp] theorem State.setFront_rlT (s : State) (c : Chain) (f : Front) : (s.setFront c f).chT.rl = s.chT.rl := by
  cases c <;> rfl

@[simp] theorem State.setFront_rlS (s : State) (c : Chain) (f : Front) : (s.setFront c f).chS.rl = s.chS.rl := by
  cases c <;> rfl

@[simp] theorem State.setT2_t2 (s : State) (c : Chain) (r : T2Reg) : (s.setT2 c r).t2 c = r := by
  cases c <;> rfl

theorem State.setT2_t2_of_ne (s : State) (c c' : Chain) (r : T2Reg) (h : c' ≠ c) :
    (s.setT2 c r).t2 c' = s.t2 c' := by
  cases c <;> cases c' <;> first | rfl | exact absurd rfl h

@[simp] theorem State.setT2_front (s : State) (c c' : Chain) (r : T2Reg) : (s.setT2 c r).front c' = s.front c' := by
  cases c <;> cases c' <;> rfl

@[simp] theorem State.setT2_decT (s : State) (c : Chain) (r : T2Reg) (a : Syn) :
    (s.setT2 c r).chT.dec a = s.chT.dec a := by
  cases c <;> cases a <;> rfl

@[simp] theorem State.setT2_decS (s : State) (c : Chain) (r : T2Reg) (a : Syn) :
    (s.setT2 c r).chS.dec a = s.chS.dec a := by
  cases c <;> cases a <;> rfl

@[simp] theorem State.setT2_rlT (s : State) (c : Chain) (r : T2Reg) : (s.setT2 c r).chT.rl = s.chT.rl := by
  cases c <;> rfl

@[simp] theorem State.setT2_rlS (s : State) (c : Chain) (r : T2Reg) : (s.setT2 c r).chS.rl = s.chS.rl := by
  cases c <;> rfl

/-! ### Reading one block after an update elsewhere -/

@[simp] theorem State.reply_front (s : State) (toks : List Token) (c : Chain) : (s.reply toks).front c = s.front c := by
  cases c <;> rfl

@[simp] theorem State.reply_t2 (s : State) (toks : List Token) (c : Chain) : (s.reply toks).t2 c = s.t2 c := by
  cases c <;> rfl

@[simp] theorem State.setIo_front (s : State) (io : Io) (c : Chain) : (s.setIo io).front c = s.front c := by
  cases c <;> rfl

@[simp] theorem State.setIo_t2 (s : State) (io : Io) (c : Chain) : (s.setIo io).t2 c = s.t2 c := by
  cases c <;> rfl

@[simp] theorem Phase.touch_touch (p : Phase) : p.touch.touch = p.touch := by cases p <;> rfl

@[simp] theorem State.reply_reply (s : State) (xs ys : List Token) : (s.reply xs).reply ys = s.reply ys := by
  simp [State.reply]

/-! ### `setFe` -/

@[simp] theorem Front.setFe_fe (f : Front) (x : Chan) (e : Fe) : (f.setFe x e).fe x = e := by cases x <;> rfl

theorem Front.setFe_fe_of_ne (f : Front) (x y : Chan) (e : Fe) (h : y ≠ x) : (f.setFe x e).fe y = f.fe y := by
  cases x <;> cases y <;> first | rfl | exact absurd rfl h

@[simp] theorem Front.setFe_pd (f : Front) (x : Chan) (e : Fe) : (f.setFe x e).pd = f.pd := by cases x <;> rfl
@[simp] theorem Front.setFe_post (f : Front) (x : Chan) (e : Fe) : (f.setFe x e).post = f.post := by cases x <;> rfl
@[simp] theorem Front.setFe_dcb (f : Front) (x : Chan) (e : Fe) : (f.setFe x e).dcb = f.dcb := by cases x <;> rfl
@[simp] theorem Front.setFe_rssi (f : Front) (x : Chan) (e : Fe) : (f.setFe x e).rssi = f.rssi := by cases x <;> rfl

/-! ### `ChainT.setDec` -/

@[simp] theorem ChainT.setDec_dec (ch : ChainT) (a : Syn) (d : DecT) : (ch.setDec a d).dec a = d := by
  cases a <;> rfl

theorem ChainT.setDec_dec_of_ne (ch : ChainT) (a b : Syn) (d : DecT) (h : b ≠ a) :
    (ch.setDec a d).dec b = ch.dec b := by
  cases a <;> cases b <;> first | rfl | exact absurd rfl h

@[simp] theorem ChainT.setDec_fr (ch : ChainT) (a : Syn) (d : DecT) : (ch.setDec a d).fr = ch.fr := by cases a <;> rfl
@[simp] theorem ChainT.setDec_t2 (ch : ChainT) (a : Syn) (d : DecT) : (ch.setDec a d).t2 = ch.t2 := by cases a <;> rfl
@[simp] theorem ChainT.setDec_rl (ch : ChainT) (a : Syn) (d : DecT) : (ch.setDec a d).rl = ch.rl := by cases a <;> rfl
@[simp] theorem ChainT.dec_T2 (ch : ChainT) : ch.dec .T2 = ch.decT2 := rfl
@[simp] theorem ChainT.dec_RL (ch : ChainT) : ch.dec .RL = ch.decRl := rfl
@[simp] theorem ChainT.setDec_self (ch : ChainT) (a : Syn) : ch.setDec a (ch.dec a) = ch := by cases a <;> rfl

/-! ### `ChainS.setDec` -/

@[simp] theorem ChainS.setDec_dec (ch : ChainS) (a : Syn) (d : DecS) : (ch.setDec a d).dec a = d := by
  cases a <;> rfl

theorem ChainS.setDec_dec_of_ne (ch : ChainS) (a b : Syn) (d : DecS) (h : b ≠ a) :
    (ch.setDec a d).dec b = ch.dec b := by
  cases a <;> cases b <;> first | rfl | exact absurd rfl h

@[simp] theorem ChainS.setDec_fr (ch : ChainS) (a : Syn) (d : DecS) : (ch.setDec a d).fr = ch.fr := by cases a <;> rfl
@[simp] theorem ChainS.setDec_t2 (ch : ChainS) (a : Syn) (d : DecS) : (ch.setDec a d).t2 = ch.t2 := by cases a <;> rfl
@[simp] theorem ChainS.setDec_rl (ch : ChainS) (a : Syn) (d : DecS) : (ch.setDec a d).rl = ch.rl := by cases a <;> rfl
@[simp] theorem ChainS.dec_T2 (ch : ChainS) : ch.dec .T2 = ch.decT2 := rfl
@[simp] theorem ChainS.dec_RL (ch : ChainS) : ch.dec .RL = ch.decRl := rfl
@[simp] theorem ChainS.setDec_self (ch : ChainS) (a : Syn) : ch.setDec a (ch.dec a) = ch := by cases a <;> rfl

/-! ### `finishT`, `finishS`, `resetDec` -/

@[simp] theorem finishT_par (s : State) (a : Syn) (r : DecT × Io) : (finishT s a r).par = s.par := rfl
@[simp] theorem finishT_cfg (s : State) (a : Syn) (r : DecT × Io) : (finishT s a r).cfg = s.cfg := rfl
@[simp] theorem finishT_dcnt (s : State) (a : Syn) (r : DecT × Io) : (finishT s a r).dcnt = s.dcnt := rfl
@[simp] theorem finishT_fsIdx (s : State) (a : Syn) (r : DecT × Io) : (finishT s a r).fsIdx = s.fsIdx := rfl
@[simp] theorem finishT_chT (s : State) (a : Syn) (r : DecT × Io) : (finishT s a r).chT = s.chT.setDec a r.1 := rfl
@[simp] theorem finishT_chS (s : State) (a : Syn) (r : DecT × Io) : (finishT s a r).chS = s.chS := rfl
@[simp] theorem finishT_inp (s : State) (a : Syn) (r : DecT × Io) : (finishT s a r).inp = s.inp := rfl
@[simp] theorem finishT_io (s : State) (a : Syn) (r : DecT × Io) : (finishT s a r).io = r.2 := rfl
@[simp] theorem finishT_feValue (s : State) (a : Syn) (r : DecT × Io) : (finishT s a r).feValue = s.feValue := rfl
@[simp] theorem finishT_ret (s : State) (a : Syn) (r : DecT × Io) : (finishT s a r).ret = newTelegrams s.io r.2 := rfl
@[simp] theorem finishT_phase (s : State) (a : Syn) (r : DecT × Io) : (finishT s a r).phase = s.phase.touch := rfl
@[simp] theorem finishT_ops (s : State) (a : Syn) (r : DecT × Io) : (finishT s a r).ops = s.ops := rfl

@[simp] theorem finishS_par (s : State) (a : Syn) (r : DecS × Io) : (finishS s a r).par = s.par := rfl
@[simp] theorem finishS_cfg (s : State) (a : Syn) (r : DecS × Io) : (finishS s a r).cfg = s.cfg := rfl
@[simp] theorem finishS_dcnt (s : State) (a : Syn) (r : DecS × Io) : (finishS s a r).dcnt = s.dcnt := rfl
@[simp] theorem finishS_fsIdx (s : State) (a : Syn) (r : DecS × Io) : (finishS s a r).fsIdx = s.fsIdx := rfl
@[simp] theorem finishS_chT (s : State) (a : Syn) (r : DecS × Io) : (finishS s a r).chT = s.chT := rfl
@[simp] theorem finishS_chS (s : State) (a : Syn) (r : DecS × Io) : (finishS s a r).chS = s.chS.setDec a r.1 := rfl
@[simp] theorem finishS_inp (s : State) (a : Syn) (r : DecS × Io) : (finishS s a r).inp = s.inp := rfl
@[simp] theorem finishS_io (s : State) (a : Syn) (r : DecS × Io) : (finishS s a r).io = r.2 := rfl
@[simp] theorem finishS_feValue (s : State) (a : Syn) (r : DecS × Io) : (finishS s a r).feValue = s.feValue := rfl
@[simp] theorem finishS_ret (s : State) (a : Syn) (r : DecS × Io) : (finishS s a r).ret = newTelegrams s.io r.2 := rfl
@[simp] theorem finishS_phase (s : State) (a : Syn) (r : DecS × Io) : (finishS s a r).phase = s.phase.touch := rfl
@[simp] theorem finishS_ops (s : State) (a : Syn) (r : DecS × Io) : (finishS s a r).ops = s.ops := rfl

@[simp] theorem resetDec_par (s : State) (c : Chain) (a : Syn) : (resetDec s c a).par = s.par := by cases c <;> rfl
@[simp] theorem resetDec_cfg (s : State) (c : Chain) (a : Syn) : (resetDec s c a).cfg = s.cfg := by cases c <;> rfl
@[simp] theorem resetDec_dcnt (s : State) (c : Chain) (a : Syn) : (resetDec s c a).dcnt = s.dcnt := by cases c <;> rfl
@[simp] theorem resetDec_fsIdx (s : State) (c : Chain) (a : Syn) :
    (resetDec s c a).fsIdx = s.fsIdx := by cases c <;> rfl
@[simp] theorem resetDec_inp (s : State) (c : Chain) (a : Syn) : (resetDec s c a).inp = s.inp := by cases c <;> rfl
@[simp] theorem resetDec_io (s : State) (c : Chain) (a : Syn) : (resetDec s c a).io = s.io := by cases c <;> rfl
@[simp] theorem resetDec_feValue (s : State) (c : Chain) (a : Syn) :
    (resetDec s c a).feValue = s.feValue := by cases c <;> rfl
@[simp] theorem resetDec_ret (s : State) (c : Chain) (a : Syn) : (resetDec s c a).ret = s.ret := by cases c <;> rfl
@[simp] theorem resetDec_phase (s : State) (c : Chain) (a : Syn) :
    (resetDec s c a).phase = s.phase := by cases c <;> rfl
@[simp] theorem resetDec_ops (s : State) (c : Chain) (a : Syn) : (resetDec s c a).ops = s.ops := by cases c <;> rfl

/-! ### `Io` -/

@[simp] theorem Io.emit_out (io : Io) (t : Telegram) : (io.emit t).out = io.out ++ [t] := rfl
@[simp] theorem Io.emit_events (io : Io) (t : Telegram) : (io.emit t).events = io.events := rfl
@[simp] theorem Io.emit_tsCount (io : Io) (t : Telegram) : (io.emit t).tsCount = io.tsCount := rfl
@[simp] theorem Io.tick_out (io : Io) : (io.tick).out = io.out := rfl
@[simp] theorem Io.tick_events (io : Io) : (io.tick).events = io.events := rfl
@[simp] theorem Io.tick_tsCount (io : Io) : (io.tick).tsCount = io.tsCount + 1 := rfl
@[simp] theorem Io.note_out (io : Io) (e : EventRec) : (io.note e).out = io.out := rfl
@[simp] theorem Io.note_events (io : Io) (e : EventRec) : (io.note e).events = io.events ++ [e] := rfl
@[simp] theorem Io.note_tsCount (io : Io) (e : EventRec) : (io.note e).tsCount = io.tsCount := rfl

/-! ### Decoder updates -/

@[simp] theorem storeT_st (d : DecT) (v : Byte) : (storeT d v).st = d.st := rfl
@[simp] theorem storeT_cnt (d : DecT) (v : Byte) : (storeT d v).cnt = d.cnt := rfl
@[simp] theorem storeT_reg (d : DecT) (v : Byte) : (storeT d v).reg = d.reg := rfl
@[simp] theorem storeT_L (d : DecT) (v : Byte) : (storeT d v).L = d.L := rfl
@[simp] theorem storeT_total (d : DecT) (v : Byte) : (storeT d v).total = d.total := rfl
@[simp] theorem storeT_len (d : DecT) (v : Byte) : (storeT d v).len = d.len + 1 := rfl
@[simp] theorem storeT_buf (d : DecT) (v : Byte) : (storeT d v).buf = memWrite d.buf d.len v := rfl
@[simp] theorem storeT_ts (d : DecT) (v : Byte) : (storeT d v).ts = d.ts := rfl
@[simp] theorem storeT_rssiPre (d : DecT) (v : Byte) : (storeT d v).rssiPre = d.rssiPre := rfl
@[simp] theorem storeT_rssiEnd (d : DecT) (v : Byte) : (storeT d v).rssiEnd = d.rssiEnd := rfl
@[simp] theorem storeT_symErr (d : DecT) (v : Byte) : (storeT d v).symErr = d.symErr := rfl
@[simp] theorem storeT_crcOk (d : DecT) (v : Byte) : (storeT d v).crcOk = d.crcOk := rfl
@[simp] theorem storeT_isC1 (d : DecT) (v : Byte) : (storeT d v).isC1 = d.isC1 := rfl
@[simp] theorem storeT_isB (d : DecT) (v : Byte) : (storeT d v).isB = d.isB := rfl

@[simp] theorem endFieldT_st (d : DecT) : (endFieldT d).st = d.st := rfl
@[simp] theorem endFieldT_cnt (d : DecT) : (endFieldT d).cnt = 0 := rfl
@[simp] theorem endFieldT_reg (d : DecT) : (endFieldT d).reg = 0 := rfl
@[simp] theorem endFieldT_L (d : DecT) : (endFieldT d).L = d.L := rfl
@[simp] theorem endFieldT_total (d : DecT) : (endFieldT d).total = d.total := rfl
@[simp] theorem endFieldT_len (d : DecT) : (endFieldT d).len = d.len := rfl
@[simp] theorem endFieldT_buf (d : DecT) : (endFieldT d).buf = d.buf := rfl
@[simp] theorem endFieldT_ts (d : DecT) : (endFieldT d).ts = d.ts := rfl
@[simp] theorem endFieldT_rssiPre (d : DecT) : (endFieldT d).rssiPre = d.rssiPre := rfl
@[simp] theorem endFieldT_rssiEnd (d : DecT) : (endFieldT d).rssiEnd = d.rssiEnd := rfl
@[simp] theorem endFieldT_symErr (d : DecT) : (endFieldT d).symErr = d.symErr := rfl
@[simp] theorem endFieldT_crcOk (d : DecT) : (endFieldT d).crcOk = d.crcOk := rfl
@[simp] theorem endFieldT_isC1 (d : DecT) : (endFieldT d).isC1 = d.isC1 := rfl
@[simp] theorem endFieldT_isB (d : DecT) : (endFieldT d).isB = d.isB := rfl

@[simp] theorem collectT_st (d : DecT) (v : BitVec 12) : (collectT d v).st = d.st := rfl
@[simp] theorem collectT_cnt (d : DecT) (v : BitVec 12) : (collectT d v).cnt = d.cnt + 1 := rfl
@[simp] theorem collectT_reg (d : DecT) (v : BitVec 12) : (collectT d v).reg = v := rfl
@[simp] theorem collectT_L (d : DecT) (v : BitVec 12) : (collectT d v).L = d.L := rfl
@[simp] theorem collectT_total (d : DecT) (v : BitVec 12) : (collectT d v).total = d.total := rfl
@[simp] theorem collectT_len (d : DecT) (v : BitVec 12) : (collectT d v).len = d.len := rfl
@[simp] theorem collectT_buf (d : DecT) (v : BitVec 12) : (collectT d v).buf = d.buf := rfl
@[simp] theorem collectT_ts (d : DecT) (v : BitVec 12) : (collectT d v).ts = d.ts := rfl
@[simp] theorem collectT_rssiPre (d : DecT) (v : BitVec 12) : (collectT d v).rssiPre = d.rssiPre := rfl
@[simp] theorem collectT_rssiEnd (d : DecT) (v : BitVec 12) : (collectT d v).rssiEnd = d.rssiEnd := rfl
@[simp] theorem collectT_symErr (d : DecT) (v : BitVec 12) : (collectT d v).symErr = d.symErr := rfl
@[simp] theorem collectT_crcOk (d : DecT) (v : BitVec 12) : (collectT d v).crcOk = d.crcOk := rfl
@[simp] theorem collectT_isC1 (d : DecT) (v : BitVec 12) : (collectT d v).isC1 = d.isC1 := rfl
@[simp] theorem collectT_isB (d : DecT) (v : BitVec 12) : (collectT d v).isB = d.isB := rfl

@[simp] theorem storeS_st (d : DecS) (v : Byte) : (storeS d v).st = d.st := rfl
@[simp] theorem storeS_cnt (d : DecS) (v : Byte) : (storeS d v).cnt = d.cnt := rfl
@[simp] theorem storeS_half (d : DecS) (v : Byte) : (storeS d v).half = d.half := rfl
@[simp] theorem storeS_reg (d : DecS) (v : Byte) : (storeS d v).reg = d.reg := rfl
@[simp] theorem storeS_L (d : DecS) (v : Byte) : (storeS d v).L = d.L := rfl
@[simp] theorem storeS_total (d : DecS) (v : Byte) : (storeS d v).total = d.total := rfl
@[simp] theorem storeS_len (d : DecS) (v : Byte) : (storeS d v).len = d.len + 1 := rfl
@[simp] theorem storeS_buf (d : DecS) (v : Byte) : (storeS d v).buf = memWrite d.buf d.len v := rfl
@[simp] theorem storeS_ts (d : DecS) (v : Byte) : (storeS d v).ts = d.ts := rfl
@[simp] theorem storeS_rssiPre (d : DecS) (v : Byte) : (storeS d v).rssiPre = d.rssiPre := rfl
@[simp] theorem storeS_rssiEnd (d : DecS) (v : Byte) : (storeS d v).rssiEnd = d.rssiEnd := rfl
@[simp] theorem storeS_symErr (d : DecS) (v : Byte) : (storeS d v).symErr = d.symErr := rfl
@[simp] theorem storeS_crcOk (d : DecS) (v : Byte) : (storeS d v).crcOk = d.crcOk := rfl

@[simp] theorem endFieldS_st (d : DecS) : (endFieldS d).st = d.st := rfl
@[simp] theorem endFieldS_cnt (d : DecS) : (endFieldS d).cnt = 0 := rfl
@[simp] theorem endFieldS_half (d : DecS) : (endFieldS d).half = d.half := rfl
@[simp] theorem endFieldS_reg (d : DecS) : (endFieldS d).reg = 0 := rfl
@[simp] theorem endFieldS_L (d : DecS) : (endFieldS d).L = d.L := rfl
@[simp] theorem endFieldS_total (d : DecS) : (endFieldS d).total = d.total := rfl
@[simp] theorem endFieldS_len (d : DecS) : (endFieldS d).len = d.len := rfl
@[simp] theorem endFieldS_buf (d : DecS) : (endFieldS d).buf = d.buf := rfl
@[simp] theorem endFieldS_ts (d : DecS) : (endFieldS d).ts = d.ts := rfl
@[simp] theorem endFieldS_rssiPre (d : DecS) : (endFieldS d).rssiPre = d.rssiPre := rfl
@[simp] theorem endFieldS_rssiEnd (d : DecS) : (endFieldS d).rssiEnd = d.rssiEnd := rfl
@[simp] theorem endFieldS_symErr (d : DecS) : (endFieldS d).symErr = d.symErr := rfl
@[simp] theorem endFieldS_crcOk (d : DecS) : (endFieldS d).crcOk = d.crcOk := rfl

@[simp] theorem collectS_st (d : DecS) (v : BitVec 8) : (collectS d v).st = d.st := rfl
@[simp] theorem collectS_cnt (d : DecS) (v : BitVec 8) : (collectS d v).cnt = d.cnt + 1 := rfl
@[simp] theorem collectS_half (d : DecS) (v : BitVec 8) : (collectS d v).half = d.half := rfl
@[simp] theorem collectS_reg (d : DecS) (v : BitVec 8) : (collectS d v).reg = v := rfl
@[simp] theorem collectS_L (d : DecS) (v : BitVec 8) : (collectS d v).L = d.L := rfl
@[simp] theorem collectS_total (d : DecS) (v : BitVec 8) : (collectS d v).total = d.total := rfl
@[simp] theorem collectS_len (d : DecS) (v : BitVec 8) : (collectS d v).len = d.len := rfl
@[simp] theorem collectS_buf (d : DecS) (v : BitVec 8) : (collectS d v).buf = d.buf := rfl
@[simp] theorem collectS_ts (d : DecS) (v : BitVec 8) : (collectS d v).ts = d.ts := rfl
@[simp] theorem collectS_rssiPre (d : DecS) (v : BitVec 8) : (collectS d v).rssiPre = d.rssiPre := rfl
@[simp] theorem collectS_rssiEnd (d : DecS) (v : BitVec 8) : (collectS d v).rssiEnd = d.rssiEnd := rfl
@[simp] theorem collectS_symErr (d : DecS) (v : BitVec 8) : (collectS d v).symErr = d.symErr := rfl
@[simp] theorem collectS_crcOk (d : DecS) (v : BitVec 8) : (collectS d v).crcOk = d.crcOk := rfl

/-! ### Sequences -/

@[simp] theorem thenDo_next (s : State) (f : State → Host.Outcome State Fault Refusal) :
    thenDo (.next s) f = f s := rfl

@[simp] theorem runOps_nil (s : State) : runOps [] s = .next s := rfl

theorem runOps_cons (i : Instr) (is : List Instr) (s : State) :
    runOps (i :: is) s = thenDo (exec i s) (runOps is) := rfl

/-- A sequence answers a next state when its first operation and the rest do. -/
theorem runOps_cons_next {i : Instr} {is : List Instr} {s t : State} (h : exec i s = .next t) :
    runOps (i :: is) s = runOps is t := by
  simp [runOps, h]

/-- Sequences join. -/
theorem runOps_append (xs ys : List Instr) (s : State) :
    runOps (xs ++ ys) s = thenDo (runOps xs s) (runOps ys) := by
  induction xs generalizing s with
  | nil => rfl
  | cons i is ih =>
    simp only [List.cons_append, runOps]
    cases exec i s with
    | next t => exact ih t
    | fault e => rfl
    | refused e => rfl

end Sys2Proof.Machine
end

