-- ==== Sys2Proof/Laws/Memory.lean ====
section
/-! SUPPORT. The byte memories: every operation keeps the canonical form, and a read after a write. -/

namespace Sys2Proof.Machine

open Sys2Proof

@[simp] theorem memRead_nil (a : Nat) : memRead [] a = 0#8 := rfl

@[simp] theorem memWfFrom_nil (lo : Nat) : memWfFrom lo [] = true := rfl

theorem memWfFrom_cons (lo a : Nat) (v : Byte) (m : Memory) :
    memWfFrom lo ((a, v) :: m) = true ↔ lo ≤ a ∧ v ≠ 0#8 ∧ memWfFrom (a + 1) m = true := by
  simp [memWfFrom, and_assoc]

/-- A canonical memory is canonical from any lower bound. -/
theorem memWfFrom_mono {lo lo' : Nat} (h : lo' ≤ lo) {m : Memory} (hm : memWfFrom lo m = true) :
    memWfFrom lo' m = true := by
  cases m with
  | nil => rfl
  | cons c m =>
    rw [memWfFrom_cons] at hm ⊢
    exact ⟨by omega, hm.2⟩

/-- Below the bound of a canonical memory nothing is listed. -/
theorem memRead_of_lt {m : Memory} : ∀ {lo a : Nat}, memWfFrom lo m = true → a < lo → memRead m a = 0#8 := by
  induction m with
  | nil => intros; rfl
  | cons c m ih =>
    obtain ⟨b, v⟩ := c
    intro lo a h ha
    rw [memWfFrom_cons] at h
    have : a ≠ b := by omega
    simp only [memRead, if_neg this]
    exact ih h.2.2 (by omega)

/-- A write keeps the canonical form. -/
theorem memWrite_wfFrom {m : Memory} : ∀ {lo a : Nat} (v : Byte), memWfFrom lo m = true → lo ≤ a →
    memWfFrom lo (memWrite m a v) = true := by
  induction m with
  | nil =>
    intro lo a v _ ha
    by_cases hv : v = 0#8
    · simp [memWrite, hv]
    · simp [memWrite, hv, memWfFrom_cons, ha]
  | cons c m ih =>
    obtain ⟨b, w⟩ := c
    intro lo a v h ha
    rw [memWfFrom_cons] at h
    obtain ⟨hb, hw, hm⟩ := h
    by_cases h1 : a < b
    · by_cases hv : v = 0#8
      · simp [memWrite, h1, hv, memWfFrom_cons, hb, hw, hm]
      · simp only [memWrite, if_pos h1, if_neg hv, memWfFrom_cons]
        exact ⟨ha, hv, by omega, hw, hm⟩
    · by_cases h2 : a = b
      · by_cases hv : v = 0#8
        · simp only [memWrite, h2, lt_irrefl, if_false, if_pos hv, if_true]
          exact memWfFrom_mono (by omega) hm
        · simp only [memWrite, h2, lt_irrefl, if_false, if_neg hv, if_true, memWfFrom_cons]
          exact ⟨hb, hv, hm⟩
      · simp only [memWrite, if_neg h1, if_neg h2, memWfFrom_cons]
        exact ⟨hb, hw, ih v hm (by omega)⟩

/-- A write keeps the canonical form of a memory. -/
theorem memWrite_wf {m : Memory} (h : Memory.wf m = true) (a : Nat) (v : Byte) :
    Memory.wf (memWrite m a v) = true :=
  memWrite_wfFrom v h (Nat.zero_le a)

/-- Reading after a write: the byte written at its address, the old byte at every other. -/
theorem memRead_memWrite_from {m : Memory} : ∀ {lo : Nat} (a b : Nat) (v : Byte), memWfFrom lo m = true →
    memRead (memWrite m a v) b = if b = a then v else memRead m b := by
  induction m with
  | nil =>
    intro lo a b v _
    by_cases hv : v = 0#8 <;> by_cases hb : b = a <;> simp [memWrite, memRead, hv, hb]
  | cons c m ih =>
    obtain ⟨x, w⟩ := c
    intro lo a b v h
    rw [memWfFrom_cons] at h
    obtain ⟨hx, hw, hm⟩ := h
    by_cases h1 : a < x
    · by_cases hv : v = 0#8
      · by_cases hb : b = a
        · have hlt : memRead ((x, w) :: m) a = 0#8 :=
            memRead_of_lt (lo := x) (by rw [memWfFrom_cons]; exact ⟨le_refl x, hw, hm⟩) h1
          simp only [memWrite, if_pos h1, hb, if_true, hlt, hv]
        · simp [memWrite, h1, hv, hb]
      · by_cases hb : b = a <;> simp [memWrite, memRead, h1, hv, hb]
    · by_cases h2 : a = x
      · by_cases hv : v = 0#8
        · by_cases hb : b = a
          · have hlt : memRead m a = 0#8 := memRead_of_lt hm (by omega)
            subst h2; subst hb
            simp [memWrite, hv, hlt]
          · have : b ≠ x := by omega
            subst h2
            simp [memWrite, memRead, hv, hb]
        · subst h2
          by_cases hb : b = a <;> simp [memWrite, memRead, hv, hb]
      · by_cases hb : b = x
        · have : b ≠ a := by omega
          simp [memWrite, memRead, h1, h2, hb]
          intro h; omega
        · simp only [memWrite, if_neg h1, if_neg h2, memRead, if_neg hb]
          exact ih a b v hm

/-- Reading after a write to a memory in canonical form. -/
theorem memRead_memWrite {m : Memory} (h : Memory.wf m = true) (a b : Nat) (v : Byte) :
    memRead (memWrite m a v) b = if b = a then v else memRead m b :=
  memRead_memWrite_from a b v h

/-- The empty memory, which every buffer holds at reset, is canonical. -/
theorem memory_wf_nil : Memory.wf [] = true := rfl

/-- Canonical memories that read alike are equal data. -/
theorem memory_ext_from {m : Memory} : ∀ {lo : Nat} {m' : Memory}, memWfFrom lo m = true → memWfFrom lo m' = true →
    (∀ a, memRead m a = memRead m' a) → m = m' := by
  induction m with
  | nil =>
    intro lo m' _ h' hr
    cases m' with
    | nil => rfl
    | cons c m' =>
      obtain ⟨x, w⟩ := c
      rw [memWfFrom_cons] at h'
      have := hr x
      simp [memRead] at this
      exact absurd this.symm h'.2.1
  | cons c m ih =>
    obtain ⟨x, w⟩ := c
    intro lo m' h h' hr
    have h0 := h
    rw [memWfFrom_cons] at h
    cases m' with
    | nil =>
      have := hr x
      simp [memRead] at this
      exact absurd this h.2.1
    | cons c' m' =>
      obtain ⟨y, u⟩ := c'
      have h0' := h'
      rw [memWfFrom_cons] at h'
      have hxy : x = y := by
        by_contra hne
        rcases Nat.lt_or_ge x y with hlt | hge
        · have e : memRead ((y, u) :: m') x = 0#8 :=
            memRead_of_lt (lo := y) (by rw [memWfFrom_cons]; exact ⟨le_refl y, h'.2⟩) hlt
          have := hr x
          rw [e] at this
          simp [memRead] at this
          exact h.2.1 this
        · have hlt : y < x := by omega
          have e : memRead ((x, w) :: m) y = 0#8 :=
            memRead_of_lt (lo := x) (by rw [memWfFrom_cons]; exact ⟨le_refl x, h.2⟩) hlt
          have := hr y
          rw [e] at this
          simp [memRead] at this
          exact h'.2.1 this.symm
      subst hxy
      have hw : w = u := by simpa [memRead] using hr x
      subst hw
      congr 1
      refine ih h.2.2 h'.2.2 fun a => ?_
      by_cases ha : a = x
      · subst ha
        rw [memRead_of_lt h.2.2 (by omega), memRead_of_lt h'.2.2 (by omega)]
      · simpa [memRead, ha] using hr a

/-- Equal memories are equal data. -/
theorem memory_ext {m m' : Memory} (h : Memory.wf m = true) (h' : Memory.wf m' = true)
    (hr : ∀ a, memRead m a = memRead m' a) : m = m' :=
  memory_ext_from h h' hr

@[simp] theorem memBytes_length (m : Memory) (n : Nat) : (memBytes m n).length = n := by simp [memBytes]

/-- The payload after a byte is stored at its end. -/
theorem memBytes_memWrite {m : Memory} (h : Memory.wf m = true) (n : Nat) (v : Byte) :
    memBytes (memWrite m n v) (n + 1) = memBytes m n ++ [v] := by
  simp only [memBytes, List.range_succ, List.map_append, List.map_cons, List.map_nil]
  rw [memRead_memWrite h, if_pos rfl]
  congr 1
  apply List.map_congr_left
  intro a ha
  rw [memRead_memWrite h, if_neg (by simp at ha; omega)]

end Sys2Proof.Machine
end

