-- ==== Sys2Proof/Laws/Words.lean ====
section
/-! SUPPORT. Words read as numbers: the assembly of fields, the byte halves, and the population count. -/

namespace Sys2Proof.Machine

open Sys2Proof

/-- A concatenation as a number. -/
theorem toNat_append_eq {m n : Nat} (x : BitVec m) (y : BitVec n) :
    (x ++ y).toNat = x.toNat * 2 ^ n + y.toNat := by
  rw [BitVec.toNat_append, ← Nat.shiftLeft_add_eq_or_of_lt y.isLt, Nat.shiftLeft_eq]

/-- MSB-first assembly doubles the field and adds the bit (30_encoding.md rule R106). -/
theorem shiftIn_eq_ofNat {n : Nat} (reg : BitVec n) (b : Bool) :
    shiftIn reg b = BitVec.ofNat n (2 * reg.toNat + b.toNat) := by
  apply BitVec.eq_of_toNat_eq
  rw [shiftIn, BitVec.toNat_or, BitVec.toNat_shiftLeft, BitVec.toNat_setWidth, BitVec.toNat_ofBool,
    BitVec.toNat_ofNat, ← Nat.or_mod_two_pow]
  congr 1
  have h : b.toNat < 2 ^ 1 := by cases b <;> decide
  rw [← Nat.shiftLeft_add_eq_or_of_lt h, Nat.shiftLeft_eq]
  omega

/-- The newest bit is bit 0. -/
theorem shiftIn_getLsbD_zero {n : Nat} (reg : BitVec n) (b : Bool) (h : 0 < n) : (shiftIn reg b).getLsbD 0 = b := by
  simp [shiftIn, h]

/-- Every older bit moves one place up. -/
theorem shiftIn_getLsbD_succ {n : Nat} (reg : BitVec n) (b : Bool) (k : Nat) (h : k + 1 < n) :
    (shiftIn reg b).getLsbD (k + 1) = reg.getLsbD k := by
  simp [shiftIn, h, -BitVec.getLsbD_eq_getElem]

/-- A field assembled in a wider register, read at its own width. -/
theorem shiftIn_setWidth {n m : Nat} (reg : BitVec m) (b : Bool) :
    shiftIn (reg.setWidth n) b = BitVec.ofNat n (2 * reg.toNat + b.toNat) := by
  rw [shiftIn_eq_ofNat]
  apply BitVec.eq_of_toNat_eq
  simp only [BitVec.toNat_setWidth, BitVec.toNat_ofNat]
  rw [Nat.add_mod, Nat.mul_mod, Nat.mod_mod, ← Nat.mul_mod, ← Nat.add_mod]

/-- The codeword in bits 11:6. -/
theorem hiCode_toNat (v : BitVec 12) : (hiCode v).toNat = v.toNat / 64 := by
  have h := v.isLt
  simp only [hiCode, BitVec.extractLsb'_toNat, Nat.shiftRight_eq_div_pow]
  omega

/-- The codeword in bits 5:0. -/
theorem loCode_toNat (v : BitVec 12) : (loCode v).toNat = v.toNat % 64 := by
  simp [loCode, BitVec.extractLsb'_toNat]

/-- The look-up of the high codeword. -/
theorem dec3of6_hiCode (par : Par) (v : BitVec 12) :
    dec3of6 par (hiCode v) = par.dec3of6.getD (v.toNat / 64) none := by
  rw [dec3of6, hiCode_toNat]

/-- The look-up of the low codeword. -/
theorem dec3of6_loCode (par : Par) (v : BitVec 12) :
    dec3of6 par (loCode v) = par.dec3of6.getD (v.toNat % 64) none := by
  rw [dec3of6, loCode_toNat]

/-- Two nibbles make the byte 16·hi + lo. -/
theorem nibbles_eq (hi lo : BitVec 4) : (hi ++ lo : Byte) = BitVec.ofNat 8 (16 * hi.toNat + lo.toNat) := by
  apply BitVec.eq_of_toNat_eq
  have h1 := hi.isLt
  have h2 := lo.isLt
  rw [toNat_append_eq, BitVec.toNat_ofNat]
  omega

/-- A counter below its last value, incremented. -/
theorem toNat_add_one_of_lt {c : BitVec 4} (h : c.toNat < 15) : (c + 1).toNat = c.toNat + 1 := by
  have : (1 : BitVec 4).toNat = 1 := rfl
  rw [BitVec.toNat_add, this]
  omega

/-- The CRC field at a position, as a number. -/
theorem crcField_toNat (t : List Byte) (pos : Nat) :
    (crcField t pos).toNat = 256 * (t.getD pos 0).toNat + (t.getD (pos + 1) 0).toNat := by
  rw [crcField, toNat_append_eq]
  omega

end Sys2Proof.Machine
end

