-- ==== Sys2Proof/Laws/Decoders.lean ====
section
/-! SUPPORT. What one bit can do to a frame decoder: the handler it runs, what passes to the host, and the invariants
it keeps. -/

namespace Sys2Proof.Machine

open Sys2Proof

/-! ### What passes to the host only grows -/

/-- Records and trace entries are appended, timestamps counted up. -/
structure Io.Grows (io io' : Io) : Prop where
  out : ∃ l, io'.out = io.out ++ l
  events : ∃ l, io'.events = io.events ++ l
  tsCount : io.tsCount ≤ io'.tsCount

theorem Io.Grows.refl (io : Io) : io.Grows io := ⟨⟨[], by simp⟩, ⟨[], by simp⟩, Nat.le_refl _⟩

theorem Io.Grows.trans {a b c : Io} (h : a.Grows b) (h' : b.Grows c) : a.Grows c := by
  obtain ⟨⟨o, ho⟩, ⟨e, he⟩, ht⟩ := h
  obtain ⟨⟨o', ho'⟩, ⟨e', he'⟩, ht'⟩ := h'
  exact ⟨⟨o ++ o', by simp [ho', ho]⟩, ⟨e ++ e', by simp [he', he]⟩, Nat.le_trans ht ht'⟩

theorem Io.Grows.note (io : Io) (e : EventRec) : io.Grows (io.note e) :=
  ⟨⟨[], by simp⟩, ⟨[e], rfl⟩, Nat.le_refl _⟩

theorem Io.Grows.emit (io : Io) (t : Telegram) : io.Grows (io.emit t) :=
  ⟨⟨[t], rfl⟩, ⟨[], by simp⟩, Nat.le_refl _⟩

theorem Io.Grows.tick (io : Io) : io.Grows io.tick := ⟨⟨[], by simp⟩, ⟨[], by simp⟩, Nat.le_succ _⟩

theorem newTelegrams_of_out {io io' : Io} (h : io'.out = io.out) : newTelegrams io io' = [] := by
  simp [newTelegrams, h]

/-! ### Running one handler -/

/-- The handler that the decoder's state selects, as an operation. -/
theorem exec_handlerT (s : State) (a : Syn) (tok : BitTok) :
    exec (handlerT (s.chT.dec a).st a tok) s =
      .next (finishT s a (t1c1Handler s.par a (s.chT.dec a) tok s.io)) := by
  generalize h : (s.chT.dec a).st = st
  cases st <;> simp [handlerT, exec, execT1c1Idle, execT1c1Lfield, execT1c1C1trailer, execT1c1C1len, execT1c1DataT1,
    execT1c1DataC1, execT1c1Done, runHandlerT, h, t1c1Handler]

/-- The handler that the decoder's state selects, as an operation. -/
theorem exec_handlerS (s : State) (a : Syn) (tok : BitTok) :
    exec (handlerS (s.chS.dec a).st a tok) s = .next (finishS s a (s1Handler s.par a (s.chS.dec a) tok s.io)) := by
  generalize h : (s.chS.dec a).st = st
  cases st <;> simp [handlerS, exec, execS1Idle, execS1Len, execS1Data, execS1Done, runHandlerS, h, s1Handler]

/-- Writing back a decoder that handed out no record. -/
theorem finishT_of_out (s : State) (a : Syn) (r : DecT × Io) (h : r.2.out = s.io.out) :
    finishT s a r = { s with chT := s.chT.setDec a r.1, io := r.2 }.reply [] := by
  simp [finishT, newTelegrams, h, State.setChT, State.setIo]

/-- Writing back a decoder that handed out no record. -/
theorem finishS_of_out (s : State) (a : Syn) (r : DecS × Io) (h : r.2.out = s.io.out) :
    finishS s a r = { s with chS := s.chS.setDec a r.1, io := r.2 }.reply [] := by
  simp [finishS, newTelegrams, h, State.setChS, State.setIo]

/-- A counter compared with a constant of its width. -/
theorem cnt_lt (c : BitVec 4) (n : Nat) (hn : n < 16) : c < BitVec.ofNat 4 n ↔ c.toNat < n := by
  rw [BitVec.lt_def, BitVec.toNat_ofNat, Nat.mod_eq_of_lt hn]

/-- The first bit of a Manchester pair comes at an even count. -/
theorem pairOpens_iff (d : DecS) : pairOpens d = true ↔ d.cnt.toNat % 2 = 0 := by
  simp [pairOpens, BitVec.getLsbD, Nat.testBit_zero]

/-! ### Completion -/

/-- What `T1C1.DONE` hands out. -/
theorem t1c1Done_out (par : Par) (a : Syn) (d : DecT) (bit : BitTok) (io : Io) :
    (t1c1Done par a d bit io).1 = decTReset ∧
    (t1c1Done par a d bit io).2.out =
      io.out ++ [telegramT a (stampT par d bit.rssi io) (doneModeT (stampT par d bit.rssi io))] ∧
    (t1c1Done par a d bit io).2.tsCount = io.tsCount + 1 := by
  unfold t1c1Done
  simp only []
  split <;> simp

/-- What `S1.DONE` hands out. -/
theorem s1Done_out (par : Par) (a : Syn) (d : DecS) (bit : BitTok) (io : Io) :
    (s1Done par a d bit io).1 = decSReset ∧
    (s1Done par a d bit io).2.out = io.out ++ [telegramS a (stampS par d bit.rssi io) .S1] ∧
    (s1Done par a d bit io).2.tsCount = io.tsCount + 1 := by
  unfold s1Done
  simp only []
  split <;> simp

/-- `T1C1.DONE` does not look at the state's name. -/
theorem t1c1Done_st (par : Par) (a : Syn) (d : DecT) (st : StT) (bit : BitTok) (io : Io) :
    t1c1Done par a { d with st := st } bit io = t1c1Done par a d bit io := rfl

/-- `S1.DONE` does not look at the state's name. -/
theorem s1Done_st (par : Par) (a : Syn) (d : DecS) (st : StS) (bit : BitTok) (io : Io) :
    s1Done par a { d with st := st } bit io = s1Done par a d bit io := rfl

theorem t1c1Done_grows (par : Par) (a : Syn) (d : DecT) (bit : BitTok) (io : Io) :
    io.Grows (t1c1Done par a d bit io).2 := by
  unfold t1c1Done
  refine Io.Grows.trans ?_ (Io.Grows.emit _ _)
  split
  · exact Io.Grows.tick _
  · exact (Io.Grows.tick _).trans (Io.Grows.note _ _)

theorem s1Done_grows (par : Par) (a : Syn) (d : DecS) (bit : BitTok) (io : Io) :
    io.Grows (s1Done par a d bit io).2 := by
  unfold s1Done
  refine Io.Grows.trans ?_ (Io.Grows.emit _ _)
  split
  · exact Io.Grows.tick _
  · exact (Io.Grows.tick _).trans (Io.Grows.note _ _)

theorem payloadT_grows (par : Par) (a : Syn) (d : DecT) (v : Byte) (bit : BitTok) (io : Io) :
    io.Grows (payloadT par a d v bit io).2 := by
  unfold payloadT
  split
  · exact Io.Grows.note _ _
  · split
    · exact t1c1Done_grows _ _ _ _ _
    · exact Io.Grows.refl _

theorem payloadS_grows (par : Par) (a : Syn) (d : DecS) (v : Byte) (bit : BitTok) (io : Io) :
    io.Grows (payloadS par a d v bit io).2 := by
  unfold payloadS
  split
  · exact Io.Grows.note _ _
  · split
    · exact s1Done_grows _ _ _ _ _
    · exact Io.Grows.refl _

/-! ### Headers hand out nothing -/

theorem t1c1Lfield_io (par : Par) (a : Syn) (d : DecT) (bit : BitTok) (io : Io) :
    (t1c1Lfield par a d bit io).2.out = io.out ∧ io.Grows (t1c1Lfield par a d bit io).2 := by
  unfold t1c1Lfield takeDiscard
  dsimp only
  repeat' split
  all_goals first
    | exact ⟨rfl, Io.Grows.refl _⟩
    | exact ⟨rfl, Io.Grows.note _ _⟩

theorem t1c1C1trailer_io (par : Par) (a : Syn) (d : DecT) (bit : BitTok) (io : Io) :
    (t1c1C1trailer par a d bit io).2.out = io.out ∧ io.Grows (t1c1C1trailer par a d bit io).2 := by
  unfold t1c1C1trailer takeDiscard
  dsimp only
  repeat' split
  all_goals first
    | exact ⟨rfl, Io.Grows.refl _⟩
    | exact ⟨rfl, Io.Grows.note _ _⟩

theorem t1c1C1len_io (par : Par) (a : Syn) (d : DecT) (bit : BitTok) (io : Io) :
    (t1c1C1len par a d bit io).2.out = io.out ∧ io.Grows (t1c1C1len par a d bit io).2 := by
  unfold t1c1C1len takeDiscard
  dsimp only
  repeat' split
  all_goals first
    | exact ⟨rfl, Io.Grows.refl _⟩
    | exact ⟨rfl, Io.Grows.note _ _⟩

theorem s1Len_io (par : Par) (a : Syn) (d : DecS) (bit : BitTok) (io : Io) :
    (s1Len par a d bit io).2.out = io.out ∧ io.Grows (s1Len par a d bit io).2 := by
  unfold s1Len takeDiscard
  dsimp only
  repeat' split
  all_goals first
    | exact ⟨rfl, Io.Grows.refl _⟩
    | exact ⟨rfl, Io.Grows.note _ _⟩

theorem t1c1DataT1_grows (par : Par) (a : Syn) (d : DecT) (bit : BitTok) (io : Io) :
    io.Grows (t1c1DataT1 par a d bit io).2 := by
  unfold t1c1DataT1
  dsimp only
  split
  · exact Io.Grows.refl _
  · refine Io.Grows.trans ?_ (payloadT_grows _ _ _ _ _ _)
    split
    · exact Io.Grows.note _ _
    · exact Io.Grows.refl _

theorem t1c1DataC1_grows (par : Par) (a : Syn) (d : DecT) (bit : BitTok) (io : Io) :
    io.Grows (t1c1DataC1 par a d bit io).2 := by
  unfold t1c1DataC1
  dsimp only
  split
  · exact Io.Grows.refl _
  · exact payloadT_grows _ _ _ _ _ _

theorem s1Data_grows (par : Par) (a : Syn) (d : DecS) (bit : BitTok) (io : Io) :
    io.Grows (s1Data par a d bit io).2 := by
  unfold s1Data
  dsimp only
  split
  · exact Io.Grows.refl _
  · have : io.Grows (if (manch par d.half bit.b).isNone then io.note (eventS .symbol a d) else io) := by
      split
      · exact Io.Grows.note _ _
      · exact Io.Grows.refl _
    split
    · exact this
    · exact this.trans (payloadS_grows _ _ _ _ _ _)

theorem t1c1Handler_grows (par : Par) (a : Syn) (d : DecT) (bit : BitTok) (io : Io) :
    io.Grows (t1c1Handler par a d bit io).2 := by
  unfold t1c1Handler
  split
  · exact Io.Grows.refl _
  · exact (t1c1Lfield_io _ _ _ _ _).2
  · exact (t1c1C1trailer_io _ _ _ _ _).2
  · exact (t1c1C1len_io _ _ _ _ _).2
  · exact t1c1DataT1_grows _ _ _ _ _
  · exact t1c1DataC1_grows _ _ _ _ _
  · exact t1c1Done_grows _ _ _ _ _

theorem s1Handler_grows (par : Par) (a : Syn) (d : DecS) (bit : BitTok) (io : Io) :
    io.Grows (s1Handler par a d bit io).2 := by
  unfold s1Handler
  split
  · exact Io.Grows.refl _
  · exact (s1Len_io _ _ _ _ _).2
  · exact s1Data_grows _ _ _ _ _
  · exact s1Done_grows _ _ _ _ _

/-- A bit takes nothing back from the host. -/
theorem t1c1Bit_grows (par : Par) (a : Syn) (d : DecT) (bit : BitTok) (io : Io) :
    io.Grows (t1c1Bit par a d bit io).2 := by
  unfold t1c1Bit
  split
  · exact Io.Grows.note _ _
  · exact t1c1Handler_grows _ _ _ _ _

/-- A bit takes nothing back from the host. -/
theorem s1Bit_grows (par : Par) (a : Syn) (d : DecS) (bit : BitTok) (io : Io) :
    io.Grows (s1Bit par a d bit io).2 := by
  unfold s1Bit
  split
  · exact Io.Grows.note _ _
  · exact s1Handler_grows _ _ _ _ _

/-! ### The invariant of a T1/C1 decoder (44_frame_decoders.md rule R275) -/

theorem decTOk_reset (par : Par) : DecTOk par decTReset where
  notDone := by decide
  idle _ := rfl
  field := by decide
  header h := by rcases h with h | h | h <;> cases h
  data h := by rcases h with h | h <;> cases h
  beyond _ _ := rfl
  c1 := by decide
  frameB := by decide
  symErr := by decide
  pending := ⟨rfl, rfl, rfl⟩
  canonical := rfl

theorem decTOk_idle {par : Par} {d : DecT} (bit : BitTok) (h : DecTOk par d) (hst : d.st = .idle) :
    DecTOk par (t1c1Idle d bit) := by
  unfold t1c1Idle
  split
  · rw [h.idle hst]
    exact {
      notDone := by simp
      idle := by simp
      field := by simp [fieldBitsT]
      header := fun _ => ⟨rfl, rfl, rfl, rfl⟩
      data := by simp
      beyond := fun _ _ => rfl
      c1 := by simp [decTReset]
      frameB := by simp [decTReset]
      symErr := by simp [decTReset]
      pending := ⟨rfl, rfl, rfl⟩
      canonical := rfl }
  · exact h

/-- A bit of a field that is not yet complete. -/
theorem decTOk_collect {par : Par} {d : DecT} (v : BitVec 12) (h : DecTOk par d) (hst : d.st ≠ .idle)
    (hc : d.cnt.toNat + 1 < fieldBitsT d.st) : DecTOk par (collectT d v) where
  notDone := h.notDone
  idle hi := absurd hi hst
  field := by
    have h16 : fieldBitsT d.st ≤ 12 := by cases d.st <;> decide
    rw [collectT_cnt, collectT_st, toNat_add_one_of_lt (by omega)]
    exact hc
  header := h.header
  data := h.data
  beyond := h.beyond
  c1 := h.c1
  frameB := h.frameB
  symErr := h.symErr
  pending := h.pending
  canonical := h.canonical

/-- The L-field of a header has been accepted. -/
theorem decTOk_begin {par : Par} {d : DecT} {l : Byte} {total : Nat} {st : StT} (h : DecTOk par d)
    (hst : d.st = .lfield ∧ st = .dataT1 ∨ d.st = .c1Len ∧ st = .dataC1) (hl : lengthRefused par total = false)
    (h290 : total ≤ 290) : DecTOk par (beginDataT (endFieldT d) l total st) := by
  have hlen : 3 ≤ total ∧ total ≤ par.cap := by simpa [lengthRefused] using hl
  obtain ⟨h1, h2, h3, h4⟩ := h.header (by rcases hst with ⟨h, _⟩ | ⟨h, _⟩ <;> simp [h])
  have hw : Memory.wf (memWrite [] 0 l) = true := memWrite_wf memory_wf_nil 0 l
  have hr : ∀ a, memRead (memWrite [] 0 l) a = if a = 0 then l else 0#8 := by
    intro a; rw [memRead_memWrite memory_wf_nil]; simp
  have hsym : d.symErr = false := by
    cases hs : d.symErr
    · rfl
    · have := h.symErr hs
      rcases hst with ⟨h, _⟩ | ⟨h, _⟩ <;> simp [h] at this
  have hc1 := h.c1
  refine { notDone := ?_, idle := ?_, field := ?_, header := ?_, data := ?_, beyond := ?_, c1 := ?_, frameB := ?_,
           symErr := ?_, pending := ?_, canonical := ?_ }
  · rcases hst with ⟨_, h⟩ | ⟨_, h⟩ <;> simp [beginDataT, h]
  · rcases hst with ⟨_, h⟩ | ⟨_, h⟩ <;> simp [beginDataT, h]
  · rcases hst with ⟨_, h⟩ | ⟨_, h⟩ <;> simp [beginDataT, h, fieldBitsT]
  · rcases hst with ⟨_, h⟩ | ⟨_, h⟩ <;> simp [beginDataT, h]
  · intro _
    simp only [beginDataT, endFieldT_buf, h4, hr, if_true]
    exact ⟨Nat.le_refl _, by omega, hlen.2, h290, trivial⟩
  · intro a ha
    have : a ≠ 0 := by simp [beginDataT] at ha; omega
    simp [beginDataT, h4, hr, this]
  · rcases hst with ⟨h, h'⟩ | ⟨h, h'⟩ <;> simp [h] at hc1 <;> simp [beginDataT, h', hc1]
  · exact h.frameB
  · simp [beginDataT, hsym]
  · exact h.pending
  · simpa [beginDataT, h4] using hw

theorem decTOk_lfield {par : Par} {d : DecT} (a : Syn) (bit : BitTok) (io : Io) (h : DecTOk par d)
    (hst : d.st = .lfield) (hlen : ∀ l, lenA par l ≤ 290) : DecTOk par (t1c1Lfield par a d bit io).1 := by
  have h11 : d.cnt < 11 ↔ d.cnt.toNat < 11 := cnt_lt _ 11 (by omega)
  unfold t1c1Lfield
  dsimp only
  split
  · rename_i hc
    exact decTOk_collect _ h (by simp [hst]) (by rw [hst, fieldBitsT]; have := h11.mp hc; omega)
  · split
    · obtain ⟨h1, h2, h3, h4⟩ := h.header (by simp [hst])
      have hsym : d.symErr = false := by
        cases hs : d.symErr
        · rfl
        · have := h.symErr hs; simp [hst] at this
      exact {
        notDone := by simp
        idle := by simp
        field := by simp [fieldBitsT]
        header := fun _ => ⟨h1, h2, h3, h4⟩
        data := by simp
        beyond := h.beyond
        c1 := by simp
        frameB := by simp
        symErr := by simp [hsym]
        pending := h.pending
        canonical := h.canonical }
    · split
      · split
        · exact decTOk_reset _
        · rename_i hr
          exact decTOk_begin h (.inl ⟨hst, rfl⟩) (by simpa using hr) (hlen _)
      · exact decTOk_reset _

theorem decTOk_trailer {par : Par} {d : DecT} (a : Syn) (bit : BitTok) (io : Io) (h : DecTOk par d)
    (hst : d.st = .c1Trailer) : DecTOk par (t1c1C1trailer par a d bit io).1 := by
  have h3 : d.cnt < 3 ↔ d.cnt.toNat < 3 := cnt_lt _ 3 (by omega)
  unfold t1c1C1trailer
  dsimp only
  split
  · rename_i hc
    exact decTOk_collect _ h (by simp [hst]) (by rw [hst, fieldBitsT]; have := h3.mp hc; omega)
  · split
    · obtain ⟨h1, h2, h3, h4⟩ := h.header (by simp [hst])
      have hc1 : d.isC1 = true := h.c1.mpr (by simp [hst])
      have hsym : d.symErr = false := by
        cases hs : d.symErr
        · rfl
        · have := h.symErr hs; simp [hst] at this
      exact {
        notDone := by simp
        idle := by simp
        field := by simp [fieldBitsT]
        header := fun _ => ⟨h1, h2, h3, h4⟩
        data := by simp
        beyond := h.beyond
        c1 := by simp [hc1]
        frameB := h.frameB
        symErr := by simp [hsym]
        pending := h.pending
        canonical := h.canonical }
    · exact decTOk_reset _

theorem decTOk_c1len {par : Par} {d : DecT} (a : Syn) (bit : BitTok) (io : Io) (h : DecTOk par d)
    (hst : d.st = .c1Len) (hlen : ∀ l, lenA par l ≤ 290) : DecTOk par (t1c1C1len par a d bit io).1 := by
  have h7 : d.cnt < 7 ↔ d.cnt.toNat < 7 := cnt_lt _ 7 (by omega)
  unfold t1c1C1len
  dsimp only
  split
  · rename_i hc
    exact decTOk_collect _ h (by simp [hst]) (by rw [hst, fieldBitsT]; have := h7.mp hc; omega)
  · split
    · exact decTOk_reset _
    · rename_i hr
      refine decTOk_begin h (.inr ⟨hst, rfl⟩) (by simpa using hr) ?_
      unfold c1Total
      split
      · have : ∀ l : Byte, lenB l ≤ 290 := by intro l; have := l.isLt; simp [lenB]; omega
        exact this _
      · exact hlen _

/-- A payload byte keeps the invariant. -/
theorem decTOk_payload {par : Par} {d : DecT} (a : Syn) (v : Byte) (bit : BitTok) (io : Io) (h : DecTOk par d)
    (hst : d.st = .dataT1 ∨ d.st = .dataC1) : DecTOk par (payloadT par a d v bit io).1 := by
  obtain ⟨h1, h2, h3, h4, h5⟩ := h.data hst
  unfold payloadT
  split
  · exact decTOk_reset _
  · split
    · rw [(t1c1Done_out _ _ _ _ _).1]; exact decTOk_reset _
    · rename_i hne
      refine { notDone := h.notDone, idle := ?_, field := h.field, header := ?_, data := fun _ => ?_,
               beyond := fun b hb => ?_, c1 := h.c1, frameB := h.frameB, symErr := h.symErr, pending := h.pending,
               canonical := memWrite_wf h.canonical _ _ }
      · intro hi; rcases hst with hs | hs <;> simp [hs] at hi
      · intro hi; rcases hst with hs | hs <;> simp [hs] at hi
      · refine ⟨by simp, by simp only [storeT_len, storeT_total]; omega, h3, h4, ?_⟩
        rw [storeT_buf, memRead_memWrite h.canonical, if_neg (by omega)]
        exact h5
      · have hb' : d.len + 1 ≤ b := hb
        rw [storeT_buf, memRead_memWrite h.canonical, if_neg (by omega)]
        exact h.beyond b (by omega)

/-- The end of a field, and the sticky flag, in the data phase. -/
theorem decTOk_endField {par : Par} {d : DecT} (e : Bool) (h : DecTOk par d)
    (hst : d.st = .dataT1 ∨ d.st = .dataC1 ∧ e = d.symErr) : DecTOk par { endFieldT d with symErr := e } := by
  have hd : d.st = .dataT1 ∨ d.st = .dataC1 := by rcases hst with h | ⟨h, _⟩ <;> simp [h]
  refine { notDone := h.notDone, idle := ?_, field := ?_, header := ?_, data := fun _ => h.data hd,
           beyond := h.beyond, c1 := h.c1, frameB := h.frameB, symErr := ?_, pending := h.pending,
           canonical := h.canonical }
  · intro hi; rcases hd with hs | hs <;> simp [hs] at hi
  · rcases hd with hs | hs <;> simp [hs, fieldBitsT]
  · intro hi; rcases hd with hs | hs <;> simp [hs] at hi
  · rcases hst with hs | ⟨hs, he⟩
    · intro _; exact hs
    · intro he'; exact h.symErr (by rw [← he]; exact he')

theorem decTOk_dataT1 {par : Par} {d : DecT} (a : Syn) (bit : BitTok) (io : Io) (h : DecTOk par d)
    (hst : d.st = .dataT1) : DecTOk par (t1c1DataT1 par a d bit io).1 := by
  have h11 : d.cnt < 11 ↔ d.cnt.toNat < 11 := cnt_lt _ 11 (by omega)
  unfold t1c1DataT1
  dsimp only
  split
  · rename_i hc
    exact decTOk_collect _ h (by simp [hst]) (by rw [hst, fieldBitsT]; have := h11.mp hc; omega)
  · exact decTOk_payload _ _ _ _ (decTOk_endField _ h (.inl hst)) (.inl hst)

theorem decTOk_dataC1 {par : Par} {d : DecT} (a : Syn) (bit : BitTok) (io : Io) (h : DecTOk par d)
    (hst : d.st = .dataC1) : DecTOk par (t1c1DataC1 par a d bit io).1 := by
  have h7 : d.cnt < 7 ↔ d.cnt.toNat < 7 := cnt_lt _ 7 (by omega)
  unfold t1c1DataC1
  dsimp only
  split
  · rename_i hc
    exact decTOk_collect _ h (by simp [hst]) (by rw [hst, fieldBitsT]; have := h7.mp hc; omega)
  · exact decTOk_payload _ _ _ _ (decTOk_endField d.symErr h (.inr ⟨hst, rfl⟩)) (.inr hst)

/-- One bit keeps a T1/C1 decoder's invariant. -/
theorem t1c1Bit_ok {par : Par} {d : DecT} (a : Syn) (bit : BitTok) (io : Io) (h : DecTOk par d)
    (hlen : ∀ l, lenA par l ≤ 290) : DecTOk par (t1c1Bit par a d bit io).1 := by
  unfold t1c1Bit
  split
  · exact decTOk_reset _
  · unfold t1c1Handler
    split
    · exact decTOk_idle _ h ‹_›
    · exact decTOk_lfield _ _ _ h ‹_› hlen
    · exact decTOk_trailer _ _ _ h ‹_›
    · exact decTOk_c1len _ _ _ h ‹_› hlen
    · exact decTOk_dataT1 _ _ _ h ‹_›
    · exact decTOk_dataC1 _ _ _ h ‹_›
    · exact absurd ‹_› h.notDone

/-! ### The invariant of an S1 decoder -/

theorem decSOk_reset (par : Par) : DecSOk par decSReset where
  notDone := by decide
  idle _ := rfl
  header h := by cases h
  data h := by cases h
  beyond _ _ := rfl
  symErr := by decide
  pending := ⟨rfl, rfl, rfl⟩
  canonical := rfl

theorem decSOk_idle {par : Par} {d : DecS} (bit : BitTok) (h : DecSOk par d) (hst : d.st = .idle) :
    DecSOk par (s1Idle d bit) := by
  unfold s1Idle
  split
  · rw [h.idle hst]
    exact {
      notDone := by simp
      idle := by simp
      header := fun _ => ⟨rfl, rfl, rfl, rfl⟩
      data := by simp
      beyond := fun _ _ => rfl
      symErr := by simp [decSReset]
      pending := ⟨rfl, rfl, rfl⟩
      canonical := rfl }
  · exact h

theorem decSOk_len {par : Par} {d : DecS} (a : Syn) (bit : BitTok) (io : Io) (h : DecSOk par d)
    (hst : d.st = .len) (hlen : ∀ l, lenA par l ≤ 290) : DecSOk par (s1Len par a d bit io).1 := by
  obtain ⟨h1, h2, h3, h4⟩ := h.header hst
  have hsym : d.symErr = false := by
    cases hs : d.symErr
    · rfl
    · have := h.symErr hs; simp [hst] at this
  have keep : ∀ d' : DecS, d'.st = d.st → d'.len = d.len → d'.total = d.total → d'.L = d.L → d'.buf = d.buf →
      d'.symErr = d.symErr → d'.crcOk = d.crcOk → d'.ts = d.ts → d'.rssiEnd = d.rssiEnd → DecSOk par d' := by
    intro d' e1 e2 e3 e4 e5 e6 e7 e8 e9
    exact {
      notDone := by rw [e1]; exact h.notDone
      idle := by rw [e1, hst]; simp
      header := by rw [e1, e2, e3, e4, e5]; exact h.header
      data := by rw [e1, hst]; simp
      beyond := by rw [e2, e5]; exact h.beyond
      symErr := by rw [e6, e1]; exact h.symErr
      pending := by rw [e7, e8, e9]; exact h.pending
      canonical := by rw [e5]; exact h.canonical }
  unfold s1Len
  split
  · exact keep _ rfl rfl rfl rfl rfl rfl rfl rfl rfl
  · split
    · exact decSOk_reset _
    · rename_i m _
      dsimp only
      split
      · exact keep _ rfl rfl rfl rfl rfl rfl rfl rfl rfl
      · split
        · exact decSOk_reset _
        · rename_i hr
          have hr' : 3 ≤ lenA par (shiftIn d.reg m) ∧ lenA par (shiftIn d.reg m) ≤ par.cap := by
            simpa [lengthRefused] using hr
          have hrd : ∀ b, memRead (memWrite [] 0 (shiftIn d.reg m)) b = if b = 0 then shiftIn d.reg m else 0#8 := by
            intro b; rw [memRead_memWrite memory_wf_nil]; simp
          refine { notDone := by simp, idle := by simp, header := by simp, data := fun _ => ?_,
                   beyond := fun b hb => ?_, symErr := by simp, pending := h.pending, canonical := ?_ }
          · have := hlen (shiftIn d.reg m)
            simp only [h4, hrd, if_true]
            exact ⟨Nat.le_refl _, by omega, hr'.2, this, trivial⟩
          · have : b ≠ 0 := by simp at hb; omega
            simp [h4, hrd, this]
          · simpa [h4] using memWrite_wf memory_wf_nil 0 (shiftIn d.reg m)

theorem decSOk_payload {par : Par} {d : DecS} (a : Syn) (v : Byte) (bit : BitTok) (io : Io) (h : DecSOk par d)
    (hst : d.st = .data) : DecSOk par (payloadS par a d v bit io).1 := by
  obtain ⟨h1, h2, h3, h4, h5⟩ := h.data hst
  unfold payloadS
  split
  · exact decSOk_reset _
  · split
    · rw [(s1Done_out _ _ _ _ _).1]; exact decSOk_reset _
    · rename_i hne
      refine { notDone := h.notDone, idle := by simp [hst], header := by simp [hst], data := fun _ => ?_,
               beyond := fun b hb => ?_, symErr := h.symErr, pending := h.pending,
               canonical := memWrite_wf h.canonical _ _ }
      · refine ⟨by simp, by simp only [storeS_len, storeS_total]; omega, h3, h4, ?_⟩
        rw [storeS_buf, memRead_memWrite h.canonical, if_neg (by omega)]
        exact h5
      · have hb' : d.len + 1 ≤ b := hb
        rw [storeS_buf, memRead_memWrite h.canonical, if_neg (by omega)]
        exact h.beyond b (by omega)

theorem decSOk_data {par : Par} {d : DecS} (a : Syn) (bit : BitTok) (io : Io) (h : DecSOk par d)
    (hst : d.st = .data) : DecSOk par (s1Data par a d bit io).1 := by
  have keep : ∀ d' : DecS, d'.st = d.st → d'.len = d.len → d'.total = d.total → d'.L = d.L → d'.buf = d.buf →
      d'.crcOk = d.crcOk → d'.ts = d.ts → d'.rssiEnd = d.rssiEnd → DecSOk par d' := by
    intro d' e1 e2 e3 e4 e5 e7 e8 e9
    exact {
      notDone := by rw [e1]; exact h.notDone
      idle := by rw [e1, hst]; simp
      header := by rw [e1, hst]; simp
      data := by rw [e1, e2, e3, e4, e5]; exact h.data
      beyond := by rw [e2, e5]; exact h.beyond
      symErr := by rw [e1, hst]; simp
      pending := by rw [e7, e8, e9]; exact h.pending
      canonical := by rw [e5]; exact h.canonical }
  unfold s1Data
  split
  · exact keep _ rfl rfl rfl rfl rfl rfl rfl rfl
  · dsimp only
    split
    · exact keep _ rfl rfl rfl rfl rfl rfl rfl rfl
    · exact decSOk_payload _ _ _ _ (keep _ rfl rfl rfl rfl rfl rfl rfl rfl) hst

/-- One bit keeps an S1 decoder's invariant. -/
theorem s1Bit_ok {par : Par} {d : DecS} (a : Syn) (bit : BitTok) (io : Io) (h : DecSOk par d)
    (hlen : ∀ l, lenA par l ≤ 290) : DecSOk par (s1Bit par a d bit io).1 := by
  unfold s1Bit
  split
  · exact decSOk_reset _
  · unfold s1Handler
    split
    · exact decSOk_idle _ h ‹_›
    · exact decSOk_len _ _ _ h ‹_› hlen
    · exact decSOk_data _ _ _ h ‹_›
    · exact absurd ‹_› h.notDone

end Sys2Proof.Machine
end

