-- ==== Sys2Proof/Laws/Encoding.lean ====
section
/-! SUPPORT. Each operand reader against its writer, in both directions. -/

namespace Sys2Proof

theorem andThen_ok {α β : Type} (a : α) (rest : List Byte) (f : α → List Byte → Parse β) :
    andThen (.ok (a, rest)) f = f a rest := rfl

/-- A reader that answers had an item to go on from. -/
theorem andThen_eq_ok {α β : Type} {r : Parse α} {f : α → List Byte → Parse β} {b : β} {rest : List Byte}
    (h : andThen r f = .ok (b, rest)) : ∃ a rest', r = .ok (a, rest') ∧ f a rest' = .ok (b, rest) := by
  cases r with
  | error e => cases h
  | ok p => exact ⟨p.1, p.2, rfl, h⟩

theorem getByte_cons (b : Byte) (rest : List Byte) : getByte (b :: rest) = .ok (b, rest) := rfl

theorem getByte_eq_ok {bs : List Byte} {b : Byte} {rest : List Byte} (h : getByte bs = .ok (b, rest)) :
    bs = b :: rest := by
  cases bs with
  | nil => cases h
  | cons x xs => injection h with h; injection h with h1 h2; rw [h1, h2]

/-! ### Codes of one byte -/

theorem getBit_putBit (b : Bool) (rest : List Byte) : getBit (putBit b ++ rest) = .ok (b, rest) := by
  cases b <;> rfl

theorem getBit_eq_ok {bs : List Byte} {b : Bool} {rest : List Byte} (h : getBit bs = .ok (b, rest)) :
    bs = putBit b ++ rest := by
  obtain ⟨x, r, h1, h2⟩ := andThen_eq_ok h
  have := getByte_eq_ok h1
  subst this
  by_cases h0 : x = 0#8
  · subst h0; injection h2 with h2; injection h2 with h3 h4; subst h3 h4; rfl
  · by_cases h9 : x = 1#8
    · subst h9; injection h2 with h2; injection h2 with h3 h4; subst h3 h4; rfl
    · simp [h0, h9] at h2

theorem getChain_putChain (c : Chain) (rest : List Byte) : getChain (putChain c ++ rest) = .ok (c, rest) := by
  cases c <;> rfl

theorem getChain_eq_ok {bs : List Byte} {c : Chain} {rest : List Byte} (h : getChain bs = .ok (c, rest)) :
    bs = putChain c ++ rest := by
  obtain ⟨b, r, h1, h2⟩ := andThen_eq_ok h
  rw [getBit_eq_ok h1]
  cases b <;> (injection h2 with h2; injection h2 with h3 h4; subst h3 h4; rfl)

theorem getSyn_putSyn (a : Syn) (rest : List Byte) : getSyn (putSyn a ++ rest) = .ok (a, rest) := by
  cases a <;> rfl

theorem getSyn_eq_ok {bs : List Byte} {a : Syn} {rest : List Byte} (h : getSyn bs = .ok (a, rest)) :
    bs = putSyn a ++ rest := by
  obtain ⟨b, r, h1, h2⟩ := andThen_eq_ok h
  rw [getBit_eq_ok h1]
  cases b <;> (injection h2 with h2; injection h2 with h3 h4; subst h3 h4; rfl)

theorem getChan_putChan (x : Chan) (rest : List Byte) : getChan (putChan x ++ rest) = .ok (x, rest) := by
  cases x <;> rfl

theorem getChan_eq_ok {bs : List Byte} {x : Chan} {rest : List Byte} (h : getChan bs = .ok (x, rest)) :
    bs = putChan x ++ rest := by
  obtain ⟨b, r, h1, h2⟩ := andThen_eq_ok h
  rw [getBit_eq_ok h1]
  cases b <;> (injection h2 with h2; injection h2 with h3 h4; subst h3 h4; rfl)

theorem getMode_putMode (m : Mode) (rest : List Byte) : getMode (putMode m ++ rest) = .ok (m, rest) := by
  cases m <;> rfl

theorem getMode_eq_ok {bs : List Byte} {m : Mode} {rest : List Byte} (h : getMode bs = .ok (m, rest)) :
    bs = putMode m ++ rest := by
  obtain ⟨x, r, h1, h2⟩ := andThen_eq_ok h
  have := getByte_eq_ok h1
  subst this
  by_cases h0 : x = 0#8
  · subst h0; injection h2 with h2; injection h2 with h3 h4; subst h3 h4; rfl
  · by_cases h9 : x = 1#8
    · subst h9; injection h2 with h2; injection h2 with h3 h4; subst h3 h4; rfl
    · by_cases h7 : x = 2#8
      · subst h7; injection h2 with h2; injection h2 with h3 h4; subst h3 h4; rfl
      · simp [h0, h9, h7] at h2

/-! ### Naturals and integers -/

theorem getNat_putNatFuel (f : Nat) : ∀ (n : Nat) (rest : List Byte), n < 2 ^ (f + 1) →
    getNat (putNatFuel f n ++ rest) = .ok (n, rest) := by
  induction f with
  | zero =>
    intro n rest h
    have e : n % 256 = n := Nat.mod_eq_of_lt (by omega)
    simp only [putNatFuel, List.singleton_append, getNat, BitVec.toNat_ofNat]
    rw [show (2 : Nat) ^ 8 = 256 by rfl, e, if_pos (by omega)]
  | succ f ih =>
    intro n rest h
    rw [putNatFuel]
    split
    · rename_i hn
      have e : n % 256 = n := Nat.mod_eq_of_lt (by omega)
      simp only [List.singleton_append, getNat, BitVec.toNat_ofNat]
      rw [show (2 : Nat) ^ 8 = 256 by rfl, e, if_pos hn]
    · rename_i hn
      have e : (128 + n % 128) % 256 = 128 + n % 128 := Nat.mod_eq_of_lt (by omega)
      have hd : n / 128 < 2 ^ (f + 1) := by
        rw [Nat.div_lt_iff_lt_mul (by decide)]
        have : 2 ^ (f + 1 + 1) = 2 * 2 ^ (f + 1) := by rw [Nat.pow_succ]; omega
        omega
      simp only [List.cons_append, getNat, BitVec.toNat_ofNat]
      rw [show (2 : Nat) ^ 8 = 256 by rfl, e, if_neg (by omega), ih _ _ hd]
      simp only []
      rw [if_neg (by omega)]
      congr 2
      omega

theorem getNat_putNat (n : Nat) (rest : List Byte) : getNat (putNat n ++ rest) = .ok (n, rest) :=
  getNat_putNatFuel _ _ _ (Nat.lt_trans (Nat.lt_log2_self) (Nat.pow_lt_pow_right (by decide) (by omega)))

/-- Enough fuel is enough. -/
theorem putNatFuel_eq (f : Nat) : ∀ (g n : Nat), n < 2 ^ (f + 1) → n < 2 ^ (g + 1) →
    putNatFuel f n = putNatFuel g n := by
  induction f with
  | zero =>
    intro g n h _
    cases g with
    | zero => rfl
    | succ g => rw [putNatFuel, putNatFuel, if_pos (by omega)]
  | succ f ih =>
    intro g n h h'
    cases g with
    | zero => rw [putNatFuel, putNatFuel, if_pos (by omega)]
    | succ g =>
      rw [putNatFuel, putNatFuel]
      split
      · rfl
      · have e1 : 2 ^ (f + 1 + 1) = 2 * 2 ^ (f + 1) := by rw [Nat.pow_succ]; omega
        have e2 : 2 ^ (g + 1 + 1) = 2 * 2 ^ (g + 1) := by rw [Nat.pow_succ]; omega
        rw [ih g _ (by rw [Nat.div_lt_iff_lt_mul (by decide)]; omega)
          (by rw [Nat.div_lt_iff_lt_mul (by decide)]; omega)]

theorem lt_two_pow_log2 (n : Nat) : n < 2 ^ (n.log2 + 1 + 1) :=
  Nat.lt_trans (Nat.lt_log2_self) (Nat.pow_lt_pow_right (by decide) (by omega))

theorem putNat_of_lt {n : Nat} (h : n < 128) : putNat n = [BitVec.ofNat 8 n] := by
  rw [putNat, putNatFuel, if_pos h]

theorem putNat_of_ge {n : Nat} (h : 128 ≤ n) : putNat n = BitVec.ofNat 8 (128 + n % 128) :: putNat (n / 128) := by
  rw [putNat, putNatFuel, if_neg (by omega)]
  congr 1
  refine putNatFuel_eq _ _ _ ?_ (lt_two_pow_log2 _)
  rw [Nat.div_lt_iff_lt_mul (by decide)]
  have := Nat.lt_log2_self (n := n)
  omega

theorem getNat_eq_ok : ∀ {bs : List Byte} {n : Nat} {rest : List Byte}, getNat bs = .ok (n, rest) →
    bs = putNat n ++ rest := by
  intro bs
  induction bs with
  | nil => intro n rest h; cases h
  | cons b bs ih =>
    intro n rest h
    have hb := b.isLt
    rw [getNat] at h
    split at h
    · rename_i hlt
      injection h with h; injection h with h1 h2; subst h1 h2
      rw [putNat_of_lt hlt]
      simp
    · rename_i hge
      split at h
      · cases h
      · rename_i m rest' hm
        split at h
        · cases h
        · rename_i hne
          injection h with h; injection h with h1 h2; subst h1 h2
          have hd : (b.toNat - 128 + 128 * m) / 128 = m := by omega
          have hb' : BitVec.ofNat 8 (128 + (b.toNat - 128 + 128 * m) % 128) = b := by
            apply BitVec.eq_of_toNat_eq
            rw [BitVec.toNat_ofNat]
            omega
          rw [ih hm, putNat_of_ge (n := b.toNat - 128 + 128 * m) (by omega), hd, hb']
          rfl

theorem intOfCode_codeOfInt (i : Int) : intOfCode (codeOfInt i) = i := by
  unfold intOfCode codeOfInt
  split <;> split <;> omega

theorem codeOfInt_intOfCode (n : Nat) : codeOfInt (intOfCode n) = n := by
  unfold intOfCode codeOfInt
  split <;> split <;> omega

/-! ### Carrier values -/

theorem getNum_putNum (x : NumT) (rest : List Byte) : getNum (putNum x ++ rest) = .ok (x, rest) := by
  have hd : x.den - 1 + 1 = x.den := Nat.sub_add_cancel x.den_pos
  rw [getNum, putNum, List.append_assoc, getNat_putNat, andThen_ok, getNat_putNat, andThen_ok]
  rw [intOfCode_codeOfInt, hd, if_pos x.reduced, Rat.mkRat_self]

theorem getNum_eq_ok {bs : List Byte} {x : NumT} {rest : List Byte} (h : getNum bs = .ok (x, rest)) :
    bs = putNum x ++ rest := by
  obtain ⟨n, r1, h1, h2⟩ := andThen_eq_ok h
  obtain ⟨d, r2, h3, h4⟩ := andThen_eq_ok h2
  split at h4
  · rename_i hg
    injection h4 with h4; injection h4 with h5 h6; subst h5 h6
    have e : mkRat (intOfCode n) (d + 1) = ⟨intOfCode n, d + 1, by omega, hg⟩ :=
      Rat.mkRat_self ⟨intOfCode n, d + 1, by omega, hg⟩
    rw [getNat_eq_ok h1, getNat_eq_ok h3, putNum, e]
    simp [codeOfInt_intOfCode]
  · cases h4

/-! ### Sequences and tokens -/

theorem getBytes_append (t rest : List Byte) : getBytes t.length (t ++ rest) = .ok (t, rest) := by
  induction t with
  | nil => rfl
  | cons b t ih => simp only [List.length_cons, List.cons_append, getBytes, ih]

theorem getBytes_eq_ok : ∀ {n : Nat} {bs t rest : List Byte}, getBytes n bs = .ok (t, rest) →
    bs = t ++ rest ∧ t.length = n := by
  intro n
  induction n with
  | zero => intro bs t rest h; injection h with h; injection h with h1 h2; subst h1 h2; exact ⟨rfl, rfl⟩
  | succ n ih =>
    intro bs t rest h
    cases bs with
    | nil => cases h
    | cons b bs =>
      simp only [getBytes] at h
      split at h
      · cases h
      · rename_i t' rest' ht
        injection h with h; injection h with h1 h2; subst h1 h2
        obtain ⟨h3, h4⟩ := ih ht
        exact ⟨by rw [h3]; rfl, by rw [List.length_cons, h4]⟩

theorem getSeq_putSeq (low : Nat) (t rest : List Byte) (h : low ≤ t.length) :
    getSeq low (putSeq low t ++ rest) = .ok (t, rest) := by
  rw [getSeq, putSeq, List.append_assoc, getNat_putNat, andThen_ok, Nat.sub_add_cancel h, getBytes_append]

theorem getSeq_eq_ok {low : Nat} {bs t rest : List Byte} (h : getSeq low bs = .ok (t, rest)) :
    bs = putSeq low t ++ rest ∧ low ≤ t.length := by
  obtain ⟨n, r, h1, h2⟩ := andThen_eq_ok h
  obtain ⟨h3, h4⟩ := getBytes_eq_ok h2
  refine ⟨?_, by omega⟩
  rw [getNat_eq_ok h1, h3, putSeq, show t.length - low = n by omega, List.append_assoc]

theorem getBitTok_putBitTok (t : BitTok) (rest : List Byte) : getBitTok (putBitTok t ++ rest) = .ok (t, rest) := by
  rw [getBitTok, putBitTok, List.cons_append, getByte_cons, andThen_ok]
  obtain ⟨b, p, r⟩ := t
  cases b <;> cases p <;> simp [getNum_putNum, andThen_ok]

theorem getBitTok_eq_ok {bs : List Byte} {t : BitTok} {rest : List Byte} (h : getBitTok bs = .ok (t, rest)) :
    bs = putBitTok t ++ rest := by
  obtain ⟨x, r1, h1, h2⟩ := andThen_eq_ok h
  split at h2
  · rename_i hx
    obtain ⟨r, r2, h3, h4⟩ := andThen_eq_ok h2
    injection h4 with h4; injection h4 with h5 h6; subst h5 h6
    rw [getByte_eq_ok h1, getNum_eq_ok h3, putBitTok]
    simp only [List.cons_append]
    congr 1
    have key : ∀ v : Fin 4, BitVec.ofNat 8 v.val =
        BitVec.ofNat 8 (((BitVec.ofNat 8 v.val).getLsbD 0).toNat + 2 * ((BitVec.ofNat 8 v.val).getLsbD 1).toNat) := by
      decide
    simpa using key ⟨x.toNat, hx⟩
  · cases h2

theorem getRawTok_putRawTok (t : RawTok) (rest : List Byte) : getRawTok (putRawTok t ++ rest) = .ok (t, rest) := by
  simp only [getRawTok, putRawTok, List.append_assoc, getBit_putBit, andThen_ok, getNum_putNum]

theorem getRawTok_eq_ok {bs : List Byte} {t : RawTok} {rest : List Byte} (h : getRawTok bs = .ok (t, rest)) :
    bs = putRawTok t ++ rest := by
  obtain ⟨b, r1, h1, h2⟩ := andThen_eq_ok h
  obtain ⟨d, r2, h3, h4⟩ := andThen_eq_ok h2
  obtain ⟨x, r3, h5, h6⟩ := andThen_eq_ok h4
  injection h6 with h6; injection h6 with h7 h8; subst h7 h8
  rw [getBit_eq_ok h1, getNum_eq_ok h3, getNum_eq_ok h5, putRawTok]
  simp only [List.append_assoc]

theorem getFirInst_putFirInst (f : FirInst) (rest : List Byte) :
    getFirInst (putFirInst f ++ rest) = .ok (f, rest) := by
  cases f <;>
    simp [getFirInst, putFirInst, getByte_cons, andThen_ok, getChain_putChain, getChan_putChan, getNat_putNat]

theorem getFirInst_eq_ok {bs : List Byte} {f : FirInst} {rest : List Byte} (h : getFirInst bs = .ok (f, rest)) :
    bs = putFirInst f ++ rest := by
  obtain ⟨k, r1, h1, h2⟩ := andThen_eq_ok h
  obtain ⟨c, r2, h3, h4⟩ := andThen_eq_ok h2
  rw [getByte_eq_ok h1, getChain_eq_ok h3]
  split at h4
  · rename_i hk
    injection h4 with h4; injection h4 with h5 h6; subst h5 h6 hk; rfl
  · split at h4
    · rename_i hk
      obtain ⟨x, r3, h5, h6⟩ := andThen_eq_ok h4
      injection h6 with h6; injection h6 with h7 h8; subst h7 h8 hk
      rw [getChan_eq_ok h5]
      simp [putFirInst]
    · split at h4
      · rename_i hk
        obtain ⟨x, r3, h5, h6⟩ := andThen_eq_ok h4
        obtain ⟨p, r4, h7, h8⟩ := andThen_eq_ok h6
        injection h8 with h8; injection h8 with h9 h10; subst h9 h10 hk
        rw [getChan_eq_ok h5, getNat_eq_ok h7]
        simp [putFirInst]
      · cases h4

theorem getCfgWord_putCfgWord (w : BitVec 32) (rest : List Byte) :
    getCfgWord (putCfgWord w ++ rest) = .ok (w, rest) := by
  simp only [getCfgWord, putCfgWord, List.cons_append, List.nil_append, getByte_cons, andThen_ok]
  congr 2
  apply BitVec.eq_of_getLsbD_eq
  intro i hi
  simp only [BitVec.getLsbD_append, BitVec.getLsbD_extractLsb']
  by_cases h1 : i < 8
  · simp [h1]
  · by_cases h2 : i < 16
    · simp [h1, show i - 8 < 8 by omega, show 8 + (i - 8) = i by omega]
    · by_cases h3 : i < 24
      · simp [h1, show ¬ i - 8 < 8 by omega, show i - 8 - 8 < 8 by omega, show 16 + (i - 8 - 8) = i by omega]
      · simp [h1, show ¬ i - 8 < 8 by omega, show ¬ i - 8 - 8 < 8 by omega, show i - 8 - 8 - 8 < 8 by omega,
          show 24 + (i - 8 - 8 - 8) = i by omega]

theorem getCfgWord_eq_ok {bs : List Byte} {w : BitVec 32} {rest : List Byte} (h : getCfgWord bs = .ok (w, rest)) :
    bs = putCfgWord w ++ rest := by
  obtain ⟨b0, r1, h1, h2⟩ := andThen_eq_ok h
  obtain ⟨b1, r2, h3, h4⟩ := andThen_eq_ok h2
  obtain ⟨b2, r3, h5, h6⟩ := andThen_eq_ok h4
  obtain ⟨b3, r4, h7, h8⟩ := andThen_eq_ok h6
  injection h8 with h8; injection h8 with h9 h10; subst h9 h10
  rw [getByte_eq_ok h1, getByte_eq_ok h3, getByte_eq_ok h5, getByte_eq_ok h7]
  have e0 : (b3 ++ b2 ++ b1 ++ b0).extractLsb' 0 8 = b0 := by
    apply BitVec.eq_of_getLsbD_eq
    intro i hi
    simp only [BitVec.getLsbD_extractLsb', BitVec.getLsbD_append, hi]
    simp [hi, -BitVec.getLsbD_eq_getElem]
  have e1 : (b3 ++ b2 ++ b1 ++ b0).extractLsb' 8 8 = b1 := by
    apply BitVec.eq_of_getLsbD_eq
    intro i hi
    simp only [BitVec.getLsbD_extractLsb', BitVec.getLsbD_append, hi]
    simp [hi, -BitVec.getLsbD_eq_getElem]
  have e2 : (b3 ++ b2 ++ b1 ++ b0).extractLsb' 16 8 = b2 := by
    apply BitVec.eq_of_getLsbD_eq
    intro i hi
    simp only [BitVec.getLsbD_extractLsb', BitVec.getLsbD_append, hi]
    simp [hi, show ¬ 16 + i < 8 by omega, show ¬ 16 + i - 8 < 8 by omega, show 16 + i - 8 - 8 = i by omega,
      -BitVec.getLsbD_eq_getElem]
  have e3 : (b3 ++ b2 ++ b1 ++ b0).extractLsb' 24 8 = b3 := by
    apply BitVec.eq_of_getLsbD_eq
    intro i hi
    simp only [BitVec.getLsbD_extractLsb', BitVec.getLsbD_append, hi]
    simp [show ¬ 24 + i < 8 by omega, show ¬ 24 + i - 8 < 8 by omega, show ¬ 24 + i - 8 - 8 < 8 by omega,
      show 24 + i - 8 - 8 - 8 = i by omega, -BitVec.getLsbD_eq_getElem]
  rw [putCfgWord, e0, e1, e2, e3]
  rfl

end Sys2Proof
end

