-- ==== Sys2Proof/Laws/Filters.lean ====
section
/-! SUPPORT. What one step of each filter can do: the shapes it keeps, the delay line it advances, the value it
returns. -/

namespace Sys2Proof.Machine

open Sys2Proof

/-! ### The delay line (20_memory.md rule R73) -/

@[simp] theorem delayLine_length (n : Nat) (hist : List NumT) (w : Nat) : (delayLine n hist w).length = n := by
  simp [delayLine]

theorem delayLine_getD (n : Nat) (hist : List NumT) (w k : Nat) (h : k < n) :
    (delayLine n hist w).getD k 0 = hist.getD ((w + n - 1 - k) % n) 0 := by
  simp [delayLine, List.getD_eq_getElem?_getD, h]

@[simp] theorem pushed_length (x : NumT) (line : List NumT) (h : 0 < line.length) :
    (pushed x line).length = line.length := by
  simp [pushed]; omega

theorem pushed_getD_zero (x : NumT) (line : List NumT) : (pushed x line).getD 0 0 = x := rfl

theorem pushed_getD_succ (x : NumT) (line : List NumT) (k : Nat) (h : k + 1 < line.length) :
    (pushed x line).getD (k + 1) 0 = line.getD k 0 := by
  have : k < line.length - 1 := by omega
  have hk : k < line.length := by omega
  simp [pushed, List.getD_eq_getElem?_getD, this, List.getElem?_eq_getElem hk]

/-- Right after the push, the sample pushed `k` steps ago stands `k` slots behind the index. -/
theorem tapAgo_set (n : Nat) (hist : List NumT) (w k : Nat) (x : NumT) (hl : hist.length = n) (hw : w < n)
    (hk : k < n) : tapAgo (hist.set w x) n w k = (pushed x (delayLine n hist w)).getD k 0 := by
  cases k with
  | zero =>
    have : w < (hist.set w x).length := by simpa [hl] using hw
    rw [tapAgo, Nat.sub_zero, Nat.add_mod_right, Nat.mod_eq_of_lt hw, List.getD_eq_getElem _ _ this]
    simp [pushed]
  | succ k =>
    rw [pushed_getD_succ _ _ _ (by simpa using hk), delayLine_getD _ _ _ _ (by omega)]
    have he : w + n - (k + 1) = w + n - 1 - k := by omega
    have hne : w ≠ (w + n - 1 - k) % n := by
      rcases Nat.lt_or_ge (w + n - 1 - k) n with h | h
      · rw [Nat.mod_eq_of_lt h]; omega
      · rw [Nat.mod_eq_sub_mod h, Nat.mod_eq_of_lt (by omega)]; omega
    simp only [tapAgo, he, List.getD_eq_getElem?_getD, List.getElem?_set_ne hne]

/-- The delay line after a push and the advance of the index. -/
theorem delayLine_set (n : Nat) (hist : List NumT) (w : Nat) (x : NumT) (hl : hist.length = n) (hw : w < n) :
    delayLine n (hist.set w x) ((w + 1) % n) = pushed x (delayLine n hist w) := by
  apply List.ext_getElem
  · rw [pushed_length _ _ (by simp; omega)]; simp
  · intro k h1 h2
    have hk : k < n := by simpa using h1
    have e1 := delayLine_getD n (hist.set w x) ((w + 1) % n) k hk
    rw [List.getD_eq_getElem _ _ h1] at e1
    have e2 := tapAgo_set n hist w k x hl hw hk
    rw [List.getD_eq_getElem _ _ h2] at e2
    rw [e1, ← e2, tapAgo]
    congr 1
    rcases Nat.lt_or_ge (w + 1) n with h | h
    · rw [Nat.mod_eq_of_lt h]
      congr 1; omega
    · have hw1 : w + 1 = n := by omega
      have : (w + 1) % n = 0 := by rw [hw1, Nat.mod_self]
      rw [this]
      have a : (0 + n - 1 - k) % n = n - 1 - k := by
        rw [Nat.zero_add]; exact Nat.mod_eq_of_lt (by omega)
      have b : (w + n - k) % n = n - 1 - k := by
        rw [Nat.mod_eq_sub_mod (by omega), Nat.mod_eq_of_lt (by omega)]; omega
      rw [a, b]

/-- A left fold over equal terms. -/
theorem numSum_congr (k : Numerics) (n : Nat) (f g : Nat → NumT) (h : ∀ j, j < n → f j = g j) :
    numSum k n f = numSum k n g := by
  have : ∀ (l : List Nat) (a : NumT), (∀ j ∈ l, f j = g j) →
      l.foldl (fun acc j => numAdd k acc (f j)) a = l.foldl (fun acc j => numAdd k acc (g j)) a := by
    intro l
    induction l with
    | nil => intros; rfl
    | cons j l ih =>
      intro a hl
      simp only [List.foldl_cons, hl j (by simp)]
      exact ih _ fun i hi => hl i (by simp [hi])
  exact this _ _ fun j hj => h j (by simpa using hj)

/-! ### `FIR.STEP` -/

/-- What `FIR.STEP` can do to a filter of the coefficients' order. -/
theorem firStep_spec (k : Numerics) (b : List NumT) (f : Fir) (x : NumT) (h : FirOk b.length f) :
    FirOk b.length (firStep k b f x).2 ∧ (firStep k b f x).2.hist = f.hist.set f.w x ∧
    (firStep k b f x).2.w = (f.w + 1) % b.length ∧
    delayLine b.length (firStep k b f x).2.hist (firStep k b f x).2.w = pushed x (delayLine b.length f.hist f.w) ∧
    (firStep k b f x).1 = convolve k b (pushed x (delayLine b.length f.hist f.w)) := by
  have hb : 0 < b.length := Nat.lt_of_le_of_lt (Nat.zero_le _) h.index
  refine ⟨⟨?_, ?_⟩, rfl, rfl, ?_, ?_⟩
  · simpa [firStep] using h.length
  · exact Nat.mod_lt _ hb
  · exact delayLine_set _ _ _ _ h.length h.index
  · exact numSum_congr _ _ _ _ fun j hj => by rw [tapAgo_set _ _ _ _ _ h.length h.index hj]

/-- `FIR.STEP` keeps the order of any filter. -/
theorem firStep_ok (k : Numerics) (b : List NumT) (f : Fir) (x : NumT) (h : FirOk b.length f) :
    FirOk b.length (firStep k b f x).2 :=
  (firStep_spec k b f x h).1

/-! ### `MAVG.STEP` -/

/-- What `MAVG.STEP` can do to a moving average of window `n`. -/
theorem mavgStep_spec (k : Numerics) (n : Nat) (m : Mavg) (x : NumT) (h : MavgOk n m) :
    MavgOk n (mavgStep k n m x).2 ∧ (mavgStep k n m x).2.hist = m.hist.set m.w x ∧
    (mavgStep k n m x).2.w = (m.w + 1) % n ∧ (mavgStep k n m x).1 = (mavgStep k n m x).2.sum ∧
    delayLine n (mavgStep k n m x).2.hist (mavgStep k n m x).2.w = pushed x (delayLine n m.hist m.w) ∧
    (mavgStep k n m x).2.sum = numAdd k (numSub k m.sum ((delayLine n m.hist m.w).getD (n - 1) 0)) x := by
  have hn : 0 < n := Nat.lt_of_le_of_lt (Nat.zero_le _) h.index
  refine ⟨⟨by simpa [mavgStep] using h.length, Nat.mod_lt _ hn⟩, rfl, rfl, rfl,
    delayLine_set _ _ _ _ h.length h.index, ?_⟩
  have e : (m.w + n - 1 - (n - 1)) % n = m.w := by
    rw [show m.w + n - 1 - (n - 1) = m.w by omega]
    exact Nat.mod_eq_of_lt h.index
  rw [delayLine_getD _ _ _ _ (by omega), e]
  rfl

theorem list_sum_set (l : List NumT) : ∀ (w : Nat) (x : NumT), w < l.length →
    (l.set w x).sum = l.sum - l.getD w 0 + x := by
  induction l with
  | nil => intro w x h; simp at h
  | cons a l ih =>
    intro w x h
    cases w with
    | zero => simp; ring
    | succ w =>
      have := ih w x (by simpa using h)
      simp only [List.set_cons_succ, List.sum_cons, this]
      simp [List.getD_eq_getElem?_getD]
      ring

/-- On the rationals `MAVG.STEP` keeps the sum that of the window (10_state.md rule R26). -/
theorem mavgStep_sum (n : Nat) (m : Mavg) (x : NumT) (h : MavgOk n m) (hs : SumOk m) :
    SumOk (mavgStep .rational n m x).2 := by
  have hw : m.w < m.hist.length := by rw [h.length]; exact h.index
  simp only [SumOk, mavgStep, numAdd, numSub]
  rw [list_sum_set _ _ _ hw, hs]

/-! ### `IIR.STEP` -/

theorem iirSection_length (k : Numerics) (b a : List NumT) (vh : NumT × List NumT) (j : Nat) :
    (iirSection k b a vh j).2.length = vh.2.length := by
  simp [iirSection]

/-- `IIR.STEP` keeps the number of taps. -/
theorem iirStep_length (k : Numerics) (n : Nat) (b a : List NumT) (gain : NumT) (g : Iir) (x : NumT) :
    (iirStep k n b a gain g x).2.h.length = g.h.length := by
  have : ∀ (l : List Nat) (vh : NumT × List NumT), (l.foldl (iirSection k b a) vh).2.length = vh.2.length := by
    intro l
    induction l with
    | nil => intro vh; rfl
    | cons j l ih => intro vh; rw [List.foldl_cons, ih, iirSection_length]
  exact this _ _

/-! ### `PPF.STEP` -/

/-- `PPF.STEP` keeps a polyphase filter's shape. -/
theorem ppfStep_ok (k : Numerics) (n l : Nat) (coef : List (List NumT)) (p : Ppf) (x : NumT) (h : PpfOk n l p)
    (hc : coef.length = n) (hl : ∀ b ∈ coef, b.length = l) : PpfOk n l (ppfStep k n coef p x).2 := by
  have hph : p.ph < p.sub.length := by rw [h.count]; exact h.phase
  have hpc : p.ph < coef.length := by rw [hc]; exact h.phase
  have hget : FirOk l (p.sub.getD p.ph (firReset 0)) := by
    rw [List.getD_eq_getElem _ _ hph]; exact h.subs _ (List.getElem_mem hph)
  have hb : (coef.getD p.ph []).length = l := by
    rw [List.getD_eq_getElem _ _ hpc]; exact hl _ (List.getElem_mem hpc)
  have hnew : FirOk l (firStep k (coef.getD p.ph []) (p.sub.getD p.ph (firReset 0)) x).2 := by
    have := firStep_ok k (coef.getD p.ph []) (p.sub.getD p.ph (firReset 0)) x (by rw [hb]; exact hget)
    rwa [hb] at this
  have hsubs : ∀ f ∈ p.sub.set p.ph (firStep k (coef.getD p.ph []) (p.sub.getD p.ph (firReset 0)) x).2,
      FirOk l f := by
    intro f hf
    rcases List.mem_or_eq_of_mem_set hf with hf | hf
    · exact h.subs f hf
    · exact hf ▸ hnew
  unfold ppfStep
  by_cases he : p.ph + 1 = n
  · simp only [he, if_true]
    exact ⟨by have := h.phase; simp; omega, by simp [h.count], hsubs, fun _ => rfl⟩
  · simp only [he, if_false]
    have := h.phase
    exact ⟨by simp only; omega, by simp [h.count], hsubs, fun h0 => by simp at h0⟩

/-- Whether `PPF.STEP` returns a value depends on the phase alone. -/
theorem ppfStep_isSome (k : Numerics) (n : Nat) (coef : List (List NumT)) (p : Ppf) (x : NumT) :
    (ppfStep k n coef p x).1.isSome = decide (p.ph + 1 = n) := by
  unfold ppfStep
  by_cases h : p.ph + 1 = n <;> simp [h]

/-- The phase after `PPF.STEP`. -/
theorem ppfStep_phase (k : Numerics) (n : Nat) (coef : List (List NumT)) (p : Ppf) (x : NumT) :
    (ppfStep k n coef p x).2.ph = if p.ph + 1 = n then 0 else p.ph + 1 := by
  unfold ppfStep
  by_cases h : p.ph + 1 = n <;> simp [h]

end Sys2Proof.Machine
end

