-- ==== Sys2Proof/Laws/Framing.lean ====
section
/-! SUPPORT. The CRC step as a linear map and as eight bit-serial steps; the walk over the blocks of a frame. -/

namespace Sys2Proof.Machine

open Sys2Proof

/-! ### The CRC step -/

/-- The step is linear. -/
theorem crcShift_xor (poly a b : BitVec 16) : crcShift poly (a ^^^ b) = crcShift poly a ^^^ crcShift poly b := by
  unfold crcShift
  rw [BitVec.getLsbD_xor, BitVec.shiftLeft_xor_distrib]
  cases a.getLsbD 15 <;> cases b.getLsbD 15 <;> simp only [Bool.xor_false, Bool.xor_true, Bool.not_true,
    Bool.not_false, if_true, if_false, Bool.false_eq_true]
  · rw [BitVec.xor_assoc]
  · rw [BitVec.xor_assoc, BitVec.xor_assoc, BitVec.xor_comm (b <<< 1)]
  · apply BitVec.eq_of_getLsbD_eq
    intro i hi
    simp only [BitVec.getLsbD_xor]
    cases (a <<< 1).getLsbD i <;> cases (b <<< 1).getLsbD i <;> cases poly.getLsbD i <;> rfl

/-- Where the most significant bit is 0 the step only shifts. -/
theorem crcShift_of_msb {poly a : BitVec 16} (h : a.getLsbD 15 = false) : crcShift poly a = a <<< 1 := by
  simp only [crcShift, h, Bool.false_eq_true, if_false]

/-- `n` steps of the table's generation. -/
def crcShiftN (poly : BitVec 16) : Nat → BitVec 16 → BitVec 16
  | 0, a => a
  | n + 1, a => crcShift poly (crcShiftN poly n a)

theorem crcShiftN_xor (poly : BitVec 16) (n : Nat) (a b : BitVec 16) :
    crcShiftN poly n (a ^^^ b) = crcShiftN poly n a ^^^ crcShiftN poly n b := by
  induction n with
  | zero => rfl
  | succ n ih => rw [crcShiftN, ih, crcShift_xor]; rfl

/-- Where the top `n` bits are 0, `n` steps only shift. -/
theorem crcShiftN_of_msb (poly a : BitVec 16) (n : Nat) (hn : n ≤ 15) (h : ∀ i, 15 < i + n → a.getLsbD i = false) :
    crcShiftN poly n a = a <<< n := by
  induction n with
  | zero => simp [crcShiftN]
  | succ n ih =>
    rw [crcShiftN, ih (by omega) (fun i hi => h i (by omega)), crcShift_of_msb, ← BitVec.shiftLeft_add]
    rw [BitVec.getLsbD_shiftLeft, h (15 - n) (by omega)]
    simp

theorem crcTab_eq (poly : BitVec 16) (i : Byte) : crcTab poly i = crcShiftN poly 8 (i ++ 0#8) := rfl

/-- A table step is eight shifts of the register with the byte added at its top. -/
theorem crcByte_eq (poly c : BitVec 16) (x : Byte) : crcByte poly c x = crcShiftN poly 8 (c ^^^ (x ++ 0#8)) := by
  have hsplit : c ^^^ (x ++ 0#8) = ((c.extractLsb' 8 8 ^^^ x) ++ 0#8) ^^^ (c &&& 0xFF#16) := by
    apply BitVec.eq_of_getLsbD_eq
    intro i hi
    simp only [BitVec.getLsbD_xor, BitVec.getLsbD_append, BitVec.getLsbD_and, BitVec.getLsbD_extractLsb']
    have hm : (0xFF#16).getLsbD i = decide (i < 8) := by
      rw [show (0xFF#16 : BitVec 16) = BitVec.ofNat 16 (2 ^ 8 - 1) by rfl, BitVec.getLsbD_ofNat,
        Nat.testBit_two_pow_sub_one]
      simp [hi]
    rw [hm]
    by_cases h : i < 8
    · simp [h]
    · have h1 : 8 + (i - 8) = i := by omega
      have h2 : i - 8 < 8 := by omega
      simp [h, h1, h2]
  have hlow : crcShiftN poly 8 (c &&& 0xFF#16) = c <<< 8 := by
    rw [crcShiftN_of_msb poly _ 8 (by omega)]
    · apply BitVec.eq_of_getLsbD_eq
      intro i hi
      simp only [BitVec.getLsbD_shiftLeft, BitVec.getLsbD_and]
      have hm : (0xFF#16).getLsbD (i - 8) = decide (i - 8 < 8) := by
        rw [show (0xFF#16 : BitVec 16) = BitVec.ofNat 16 (2 ^ 8 - 1) by rfl, BitVec.getLsbD_ofNat,
          Nat.testBit_two_pow_sub_one]
        simp
        omega
      rw [hm]
      have : i - 8 < 8 := by omega
      simp [this]
    · intro i hi
      rw [BitVec.getLsbD_and, show (0xFF#16 : BitVec 16) = BitVec.ofNat 16 (2 ^ 8 - 1) by rfl, BitVec.getLsbD_ofNat,
        Nat.testBit_two_pow_sub_one]
      have : ¬ i < 8 := by omega
      simp [this]
  rw [hsplit, crcShiftN_xor, hlow, crcByte, crcTab_eq, BitVec.xor_comm]

/-- One bit-serial step is one shift of the register with the bit added at its top. -/
theorem crcSerialBit_eq (poly c : BitVec 16) (b : Bool) :
    crcSerialBit poly c b = crcShift poly (c ^^^ (if b then 0x8000#16 else 0#16)) := by
  cases b
  · simp [crcSerialBit, crcShift]
  · have h : (c ^^^ 0x8000#16).getLsbD 15 = !c.getLsbD 15 := by
      rw [BitVec.getLsbD_xor, show (0x8000#16 : BitVec 16).getLsbD 15 = true by decide, Bool.xor_true]
    have h2 : (c ^^^ 0x8000#16) <<< 1 = c <<< 1 := by
      rw [BitVec.shiftLeft_xor_distrib, show (0x8000#16 : BitVec 16) <<< 1 = 0#16 by decide, BitVec.xor_zero]
    simp only [crcSerialBit, crcShift, if_true, h, h2]
    cases c.getLsbD 15 <;> rfl

/-! ### The walk over frame type A (45_crc_framing.md rule R313) -/

theorem blocksA_nil (fuel blk : Nat) : blocksA fuel blk [] = ([], true) := by
  cases fuel <;> rfl

/-- A remainder of one byte ends the walk with a failure. -/
theorem blocksA_one (fuel blk : Nat) (x : Byte) : blocksA (fuel + 1) blk [x] = ([], false) := rfl

/-- A block and the walk over what follows it. -/
theorem blocksA_cons (fuel blk : Nat) (t : List Byte) (h : 2 ≤ t.length) :
    blocksA (fuel + 1) blk t =
      (⟨t.take (min blk (t.length - 2)), crcField t (min blk (t.length - 2))⟩ ::
        (blocksA fuel 16 (t.drop (min blk (t.length - 2) + 2))).1,
        (blocksA fuel 16 (t.drop (min blk (t.length - 2) + 2))).2) := by
  rw [blocksA, if_neg (by omega), if_neg (by omega)]

/-- Fuel of at least the number of bytes is enough. -/
theorem blocksA_fuel (f : Nat) : ∀ (g blk : Nat) (t : List Byte), t.length ≤ f → t.length ≤ g →
    blocksA f blk t = blocksA g blk t := by
  induction f with
  | zero =>
    intro g blk t h _
    have : t = [] := List.eq_nil_of_length_eq_zero (by omega)
    subst this
    rw [blocksA_nil, blocksA_nil]
  | succ f ih =>
    intro g blk t h h'
    by_cases h0 : t.length = 0
    · have : t = [] := List.eq_nil_of_length_eq_zero h0
      subst this
      rw [blocksA_nil, blocksA_nil]
    · obtain ⟨g, rfl⟩ : ∃ k, g = k + 1 := ⟨g - 1, by omega⟩
      by_cases h2 : t.length < 2
      · rw [blocksA, blocksA, if_neg h0, if_neg h0, if_pos h2, if_pos h2]
      · rw [blocksA_cons _ _ _ (by omega), blocksA_cons _ _ _ (by omega)]
        rw [ih g 16 (t.drop (min blk (t.length - 2) + 2)) (by simp; omega) (by simp; omega)]

/-- The CRC field of a text does not depend on what follows it. -/
theorem crcField_append_left (t u : List Byte) (pos : Nat) (h : pos + 1 < t.length) :
    crcField (t ++ u) pos = crcField t pos := by
  simp only [crcField, List.getD_eq_getElem?_getD]
  rw [List.getElem?_append_left (by omega), List.getElem?_append_left (by omega)]

end Sys2Proof.Machine
end

