-- ==== Sys2Proof/Laws/Numeric.lean ====
section
/-! SUPPORT. What the carrier's operations satisfy in every instance: the corner cases with 0, law N5 of the root, and
the contracts of the arc tangents. -/

namespace Sys2Proof.Machine

open Sys2Proof

/-! ### Zero and one -/

theorem numOfInt_zero (k : Numerics) : numOfInt k 0 = 0 := by
  cases k with
  | rational => rfl
  | other n => simp [numOfInt, smallInt]

@[simp] theorem numAdd_zero (k : Numerics) (x : NumT) : numAdd k x 0 = x := by cases k <;> simp [numAdd]

@[simp] theorem zero_numAdd (k : Numerics) (x : NumT) : numAdd k 0 x = x := by
  cases k
  · simp [numAdd]
  · simp only [numAdd]; split <;> simp_all

@[simp] theorem numSub_zero (k : Numerics) (x : NumT) : numSub k x 0 = x := by
  cases k
  · simp [numSub]
  · simp only [numSub]; split <;> simp_all

@[simp] theorem numSub_self (k : Numerics) (x : NumT) : numSub k x x = 0 := by cases k <;> simp [numSub]

@[simp] theorem numMul_zero (k : Numerics) (x : NumT) : numMul k x 0 = 0 := by cases k <;> simp [numMul]

@[simp] theorem zero_numMul (k : Numerics) (x : NumT) : numMul k 0 x = 0 := by
  cases k
  · simp [numMul]
  · simp [numMul]

@[simp] theorem numMul_one (k : Numerics) (x : NumT) : numMul k x 1 = x := by cases k <;> simp [numMul]

/-! ### The root -/

/-- A rational that passes the test is the square of the quotient of the two integer roots. -/
theorem isRatSquare_eq {x : NumT} (h : isRatSquare x = true) :
    x = (isqrt x.num.natAbs / isqrt x.den) * (isqrt x.num.natAbs / isqrt x.den) := by
  simp only [isRatSquare, Bool.and_eq_true, decide_eq_true_eq] at h
  obtain ⟨⟨h0, h1⟩, h2⟩ := h
  have hn : (x.num : NumT) = (isqrt x.num.natAbs : NumT) * isqrt x.num.natAbs := by
    rw [← Nat.cast_mul, h1, Nat.cast_natAbs, abs_of_nonneg h0]
  have hd : (x.den : NumT) = (isqrt x.den : NumT) * isqrt x.den := by rw [← Nat.cast_mul, h2]
  rw [div_mul_div_comm, ← hn, ← hd, Rat.num_div_den]

/-- Outside the reference instance the root is the function of law N5. -/
theorem numSqrt_other (n : Nat) (x : NumT) : numSqrt (.other n) x = (Config.numSqrt (.other n)).toFun x := by
  simp only [numSqrt]
  split
  · rename_i h
    simp only [smallInt, isRatSquare, Bool.and_eq_true, decide_eq_true_eq] at h
    obtain ⟨⟨⟨hd, -⟩, hu⟩, ⟨h0, h1⟩, -⟩ := h
    have hx : x = (isqrt x.num.natAbs : NumT) * isqrt x.num.natAbs := by
      rw [← Nat.cast_mul, h1]
      have := Rat.num_div_den x
      rw [hd, Nat.cast_one, div_one] at this
      rw [Nat.cast_natAbs, abs_of_nonneg h0, this]
    have hr : isqrt x.num.natAbs ≤ 181 := by
      have : isqrt x.num.natAbs * isqrt x.num.natAbs ≤ 32767 := by rw [h1]; omega
      nlinarith
    conv_rhs => rw [hx]
    rw [(Config.numSqrt (.other n)).root _ (.inr hr), Rat.mkRat_one]
    simp
  · rfl

/-- Law N5, monotony: the root is monotone outside the reference instance. -/
theorem numSqrt_monotone (n : Nat) (x y : NumT) (h : x ≤ y) : numSqrt (.other n) x ≤ numSqrt (.other n) y := by
  rw [numSqrt_other, numSqrt_other]
  exact (Config.numSqrt _).monotone x y h

/-- Why the reference instance is not asked the same: no total function on the rationals is monotone and exact on the
squares of rationals. -/
theorem no_monotone_exact_root :
    ¬ ∃ f : NumT → NumT, (∀ x y, x ≤ y → f x ≤ f y) ∧ ∀ q, 0 ≤ q → f (q * q) = q := by
  rintro ⟨f, mono, exact_⟩
  have h1 : 1 ≤ f 2 := by
    have := mono (1 * 1) 2 (by norm_num)
    rwa [exact_ 1 (by norm_num)] at this
  obtain ⟨r, hr⟩ : ∃ r, f 2 = r := ⟨_, rfl⟩
  rw [hr] at h1
  have h2 : 0 < r + 2 := by linarith
  have hq : 0 ≤ (2 * r + 2) / (r + 2) := div_nonneg (by linarith) h2.le
  have hqr : (2 * r + 2) / (r + 2) - r = (2 - r * r) / (r + 2) := by field_simp; ring
  have hqq : (2 * r + 2) / (r + 2) * ((2 * r + 2) / (r + 2)) - 2 = 2 * (r * r - 2) / ((r + 2) * (r + 2)) := by
    field_simp; ring
  rcases lt_trichotomy (r * r) 2 with h | h | h
  · have a := div_pos (sub_pos.mpr h) h2
    have b := div_neg_of_neg_of_pos (show 2 * (r * r - 2) < 0 by linarith) (mul_pos h2 h2)
    have := mono ((2 * r + 2) / (r + 2) * ((2 * r + 2) / (r + 2))) 2 (by linarith)
    rw [exact_ _ hq, hr] at this
    linarith
  · have : Irrational (Real.sqrt 2) := irrational_sqrt_two
    refine this ⟨r, ?_⟩
    rw [eq_comm, Real.sqrt_eq_iff_mul_self_eq (by norm_num) (by exact_mod_cast (by linarith : (0 : NumT) ≤ r))]
    exact_mod_cast h.symm
  · have a := div_neg_of_neg_of_pos (show 2 - r * r < 0 by linarith) h2
    have b := div_pos (show 0 < 2 * (r * r - 2) by linarith) (mul_pos h2 h2)
    have := mono 2 ((2 * r + 2) / (r + 2) * ((2 * r + 2) / (r + 2))) (by linarith)
    rw [exact_ _ hq, hr] at this
    linarith

/-! ### The arc tangents -/

/-- `ARG_EXACT` is the function of its contract, the fixed values included. -/
theorem argExact_eq (k : Numerics) (im re : NumT) : argExact k im re = (Config.argExact k).toFun im re := by
  unfold argExact
  split
  · rename_i v hv
    split
    · rename_i hr
      have pos := (Config.argExact k).positive im re
      have neg := (Config.argExact k).negative im re
      simp only [argFixed, numLt, decide_eq_true_eq] at hv
      split at hv
      · rename_i hi
        subst hi
        split at hv
        · rename_i hn
          have := ((Config.argExact k).directions (-re) (by linarith)).2.1
          rw [neg_neg] at this
          simp_all
        · rename_i hn
          have h0 : (Config.argExact k).toFun 0 re = 0 := by
            apply le_antisymm
            · by_contra hc
              have := pos.mp (not_le.mp hc)
              simp_all
            · by_contra hc
              have := neg.mp (not_le.mp hc)
              simp_all
          simp_all
      · split at hv
        · rename_i hi hre
          subst hre
          split at hv
          · rename_i hp
            have := ((Config.argExact k).directions im hp).1
            simp only [Option.some.injEq] at hv
            rw [this, ← hv]; norm_num
          · rename_i hp
            have hneg : 0 < -im := by have := lt_of_le_of_ne (not_lt.mp hp) hi; linarith
            have := ((Config.argExact k).directions (-im) hneg).2.2.1
            rw [neg_neg] at this
            simp only [Option.some.injEq] at hv
            have e : (mkRat (-1) 2 : NumT) = -1 / 2 := by norm_num
            rw [e] at hv
            rw [this (by rw [hv]; exact hr), hv]
        · split at hv
          · rename_i hi hre he
            subst he
            split at hv
            · rename_i hp
              have := ((Config.argExact k).directions im hp).2.2.2.1
              simp only [Option.some.injEq] at hv
              have e : (mkRat 1 4 : NumT) = 1 / 4 := by norm_num
              rw [e] at hv
              rw [this (by rw [hv]; exact hr), hv]
            · rename_i hp
              have hneg : 0 < -im := by have := lt_of_le_of_ne (not_lt.mp hp) hi; linarith
              have := ((Config.argExact k).directions (-im) hneg).2.2.2.2.2.2
              rw [neg_neg] at this
              simp only [Option.some.injEq] at hv
              have e : (mkRat (-3) 4 : NumT) = -3 / 4 := by norm_num
              rw [e] at hv
              rw [this (by rw [hv]; exact hr), hv]
          · split at hv
            · rename_i hi hre hne he
              subst he
              split at hv
              · rename_i hp
                have := ((Config.argExact k).directions (-re) hp).2.2.2.2.1
                rw [neg_neg] at this
                simp only [Option.some.injEq] at hv
                have e : (mkRat 3 4 : NumT) = 3 / 4 := by norm_num
                rw [e] at hv
                rw [this (by rw [hv]; exact hr), hv]
              · rename_i hp
                have hpos : 0 < re := lt_of_le_of_ne (by linarith) (Ne.symm hre)
                have := ((Config.argExact k).directions re hpos).2.2.2.2.2.1
                simp only [Option.some.injEq] at hv
                have e : (mkRat (-1) 4 : NumT) = -1 / 4 := by norm_num
                rw [e] at hv
                rw [this (by rw [hv]; exact hr), hv]
            · cases hv
    · rfl
  · rfl

theorem argFull_eq (k : Numerics) (im re : NumT) : argFull k im re = (Config.argFull k).toFun im re := by
  unfold argFull
  split
  · rename_i h
    rw [h.1, h.2, (Config.argFull k).origin]
  · rfl

theorem argRestr_eq (k : Numerics) (im re : NumT) : argRestr k im re = (Config.argRestr k).toFun im re := by
  unfold argRestr
  split
  · rename_i h
    rw [h.1, h.2, (Config.argRestr k).origin]
  · rfl

/-- Contract A3 of 42_demodulator.md rule R192, for each of the three. -/
theorem arg_monotone (k : Numerics) (im re im' re' : NumT) (h : AngleLt im re im' re') :
    argExact k im re ≤ argExact k im' re' ∧ argFull k im re ≤ argFull k im' re' ∧
      argRestr k im re ≤ argRestr k im' re' := by
  simp only [argExact_eq, argFull_eq, argRestr_eq]
  exact ⟨(Config.argExact k).monotone _ _ _ _ h, (Config.argFull k).monotone _ _ _ _ h,
    (Config.argRestr k).monotone _ _ _ _ h⟩

end Sys2Proof.Machine
end

