-- ==== Sys2Proof/Laws/PerInstr.lean ====
section
/-! SUPPORT. One family of lemmas with a member for each operation: under its index, the operand bytes of a
well-formed operation are read as that operation, whatever bytes follow. -/

set_option Elab.async false

namespace Sys2Proof.Laws

open Sys2Proof

/-- The operand bytes of a well-formed operation, read under its index (30_encoding.md rule R127). -/
def OperandsRoundTrip.Statement (i : Instr) : Prop :=
  i.wellFormed = true → ∀ rest : List Byte, decodeOperands i.index (encodeOperands i ++ rest) = .ok (i, rest)

theorem three_le_of_okA {t : List Byte} (h : lengthOkA t = true) : 3 ≤ t.length := by
  simp [lengthOkA] at h; exact h.1

theorem three_le_of_okB {t : List Byte} (h : lengthOkB t = true) : 3 ≤ t.length := by
  simp [lengthOkB] at h; exact h.1

theorem OperandsRoundTrip.reset : OperandsRoundTrip.Statement (.reset) := by
  intro _ rest
  rfl

theorem OperandsRoundTrip.cfgLoad (w : BitVec 32) : OperandsRoundTrip.Statement (.cfgLoad w) := by
  intro _ rest
  simp [decodeOperands, Instr.index, encodeOperands, getCfgWord_putCfgWord, andThen_ok]

theorem OperandsRoundTrip.chunk : OperandsRoundTrip.Statement (.chunk) := by
  intro _ rest
  rfl

theorem OperandsRoundTrip.endStream (k : Nat) : OperandsRoundTrip.Statement (.endStream k) := by
  intro _ rest
  simp [decodeOperands, Instr.index, encodeOperands, getNat_putNat, andThen_ok]

theorem OperandsRoundTrip.tsGet : OperandsRoundTrip.Statement (.tsGet) := by
  intro _ rest
  rfl

theorem OperandsRoundTrip.firStep (f : FirInst) (x : NumT) : OperandsRoundTrip.Statement (.firStep f x) := by
  intro _ rest
  simp [decodeOperands, Instr.index, encodeOperands, getFirInst_putFirInst, getNum_putNum, andThen_ok]

theorem OperandsRoundTrip.iirStep (c : Chain) (x : NumT) : OperandsRoundTrip.Statement (.iirStep c x) := by
  intro _ rest
  simp [decodeOperands, Instr.index, encodeOperands, getChainNum, getChain_putChain, getNum_putNum, andThen_ok]

theorem OperandsRoundTrip.ppfStep (c : Chain) (ch : Chan) (x : NumT) :
    OperandsRoundTrip.Statement (.ppfStep c ch x) := by
  intro _ rest
  simp [decodeOperands, Instr.index, encodeOperands, getFeNum, getChain_putChain,
    getChan_putChan, getNum_putNum, andThen_ok]

theorem OperandsRoundTrip.mavgStep (c : Chain) (ch : Chan) (x : NumT) :
    OperandsRoundTrip.Statement (.mavgStep c ch x) := by
  intro _ rest
  simp [decodeOperands, Instr.index, encodeOperands, getFeNum, getChain_putChain,
    getChan_putChan, getNum_putNum, andThen_ok]

theorem OperandsRoundTrip.dcrem (i : Byte) (q : Byte) : OperandsRoundTrip.Statement (.dcrem i q) := by
  intro _ rest
  rfl

theorem OperandsRoundTrip.fsplit (i : NumT) (q : NumT) : OperandsRoundTrip.Statement (.fsplit i q) := by
  intro _ rest
  simp [decodeOperands, Instr.index, encodeOperands, getIq, getNum_putNum, andThen_ok]

theorem OperandsRoundTrip.feLpf (c : Chain) (i : NumT) (q : NumT) : OperandsRoundTrip.Statement (.feLpf c i q) := by
  intro _ rest
  simp [decodeOperands, Instr.index, encodeOperands, getChainIq, getIq, getChain_putChain, getNum_putNum, andThen_ok]

theorem OperandsRoundTrip.decim : OperandsRoundTrip.Statement (.decim) := by
  intro _ rest
  rfl

theorem OperandsRoundTrip.sampleStep (i : Byte) (q : Byte) : OperandsRoundTrip.Statement (.sampleStep i q) := by
  intro _ rest
  rfl

theorem OperandsRoundTrip.pdiscExact (c : Chain) (i : NumT) (q : NumT) :
    OperandsRoundTrip.Statement (.pdiscExact c i q) := by
  intro _ rest
  simp [decodeOperands, Instr.index, encodeOperands, getChainIq, getIq, getChain_putChain, getNum_putNum, andThen_ok]

theorem OperandsRoundTrip.pdiscFull (c : Chain) (i : NumT) (q : NumT) :
    OperandsRoundTrip.Statement (.pdiscFull c i q) := by
  intro _ rest
  simp [decodeOperands, Instr.index, encodeOperands, getChainIq, getIq, getChain_putChain, getNum_putNum, andThen_ok]

theorem OperandsRoundTrip.pdiscRestr (c : Chain) (i : NumT) (q : NumT) :
    OperandsRoundTrip.Statement (.pdiscRestr c i q) := by
  intro _ rest
  simp [decodeOperands, Instr.index, encodeOperands, getChainIq, getIq, getChain_putChain, getNum_putNum, andThen_ok]

theorem OperandsRoundTrip.pdiscSign (c : Chain) (i : NumT) (q : NumT) :
    OperandsRoundTrip.Statement (.pdiscSign c i q) := by
  intro _ rest
  simp [decodeOperands, Instr.index, encodeOperands, getChainIq, getIq, getChain_putChain, getNum_putNum, andThen_ok]

theorem OperandsRoundTrip.postlpf (c : Chain) (x : NumT) : OperandsRoundTrip.Statement (.postlpf c x) := by
  intro _ rest
  simp [decodeOperands, Instr.index, encodeOperands, getChainNum, getChain_putChain, getNum_putNum, andThen_ok]

theorem OperandsRoundTrip.dcblock (c : Chain) (x : NumT) : OperandsRoundTrip.Statement (.dcblock c x) := by
  intro _ rest
  simp [decodeOperands, Instr.index, encodeOperands, getChainNum, getChain_putChain, getNum_putNum, andThen_ok]

theorem OperandsRoundTrip.slice (c : Chain) (d : NumT) : OperandsRoundTrip.Statement (.slice c d) := by
  intro _ rest
  simp [decodeOperands, Instr.index, encodeOperands, getChainNum, getChain_putChain, getNum_putNum, andThen_ok]

theorem OperandsRoundTrip.rssi (c : Chain) (i : NumT) (q : NumT) : OperandsRoundTrip.Statement (.rssi c i q) := by
  intro _ rest
  simp [decodeOperands, Instr.index, encodeOperands, getChainIq, getIq, getChain_putChain, getNum_putNum, andThen_ok]

theorem OperandsRoundTrip.demodStep (c : Chain) (i : NumT) (q : NumT) :
    OperandsRoundTrip.Statement (.demodStep c i q) := by
  intro _ rest
  simp [decodeOperands, Instr.index, encodeOperands, getChainIq, getIq, getChain_putChain, getNum_putNum, andThen_ok]

theorem OperandsRoundTrip.acorr (c : Chain) (a : Syn) (b : Bool) (r : NumT) :
    OperandsRoundTrip.Statement (.acorr c a b r) := by
  intro _ rest
  simp [decodeOperands, Instr.index, encodeOperands, getChain_putChain, getSyn_putSyn,
    getBit_putBit, getNum_putNum, andThen_ok]

theorem OperandsRoundTrip.t2Step (c : Chain) (tok : RawTok) : OperandsRoundTrip.Statement (.t2Step c tok) := by
  intro _ rest
  simp [decodeOperands, Instr.index, encodeOperands, getChain_putChain, getRawTok_putRawTok, andThen_ok]

theorem OperandsRoundTrip.deglitch (c : Chain) (r : Bool) : OperandsRoundTrip.Statement (.deglitch c r) := by
  intro _ rest
  simp [decodeOperands, Instr.index, encodeOperands, getChain_putChain, getBit_putBit, andThen_ok]

theorem OperandsRoundTrip.rlStep (tok : RawTok) : OperandsRoundTrip.Statement (.rlStep tok) := by
  intro _ rest
  simp [decodeOperands, Instr.index, encodeOperands, getRawTok_putRawTok, andThen_ok]

theorem OperandsRoundTrip.rlRun (level : Bool) (run : Nat) (r : NumT) :
    OperandsRoundTrip.Statement (.rlRun level run r) := by
  intro _ rest
  simp [decodeOperands, Instr.index, encodeOperands, getRun, getBit_putBit, getNat_putNat, getNum_putNum, andThen_ok]

theorem OperandsRoundTrip.rlReset (c : Chain) : OperandsRoundTrip.Statement (.rlReset c) := by
  intro _ rest
  simp [decodeOperands, Instr.index, encodeOperands, getChain_putChain, andThen_ok]

theorem OperandsRoundTrip.rls1Step (tok : RawTok) : OperandsRoundTrip.Statement (.rls1Step tok) := by
  intro _ rest
  simp [decodeOperands, Instr.index, encodeOperands, getRawTok_putRawTok, andThen_ok]

theorem OperandsRoundTrip.rls1Run (level : Bool) (run : Nat) (r : NumT) :
    OperandsRoundTrip.Statement (.rls1Run level run r) := by
  intro _ rest
  simp [decodeOperands, Instr.index, encodeOperands, getRun, getBit_putBit, getNat_putNat, getNum_putNum, andThen_ok]

theorem OperandsRoundTrip.t1c1Bit (a : Syn) (tok : BitTok) : OperandsRoundTrip.Statement (.t1c1Bit a tok) := by
  intro _ rest
  simp [decodeOperands, Instr.index, encodeOperands, getDecBit, getSyn_putSyn, getBitTok_putBitTok, andThen_ok]

theorem OperandsRoundTrip.t1c1Idle (a : Syn) (tok : BitTok) : OperandsRoundTrip.Statement (.t1c1Idle a tok) := by
  intro _ rest
  simp [decodeOperands, Instr.index, encodeOperands, getDecBit, getSyn_putSyn, getBitTok_putBitTok, andThen_ok]

theorem OperandsRoundTrip.t1c1Lfield (a : Syn) (tok : BitTok) : OperandsRoundTrip.Statement (.t1c1Lfield a tok) := by
  intro _ rest
  simp [decodeOperands, Instr.index, encodeOperands, getDecBit, getSyn_putSyn, getBitTok_putBitTok, andThen_ok]

theorem OperandsRoundTrip.t1c1C1trailer (a : Syn) (tok : BitTok) :
    OperandsRoundTrip.Statement (.t1c1C1trailer a tok) := by
  intro _ rest
  simp [decodeOperands, Instr.index, encodeOperands, getDecBit, getSyn_putSyn, getBitTok_putBitTok, andThen_ok]

theorem OperandsRoundTrip.t1c1C1len (a : Syn) (tok : BitTok) : OperandsRoundTrip.Statement (.t1c1C1len a tok) := by
  intro _ rest
  simp [decodeOperands, Instr.index, encodeOperands, getDecBit, getSyn_putSyn, getBitTok_putBitTok, andThen_ok]

theorem OperandsRoundTrip.t1c1DataT1 (a : Syn) (tok : BitTok) : OperandsRoundTrip.Statement (.t1c1DataT1 a tok) := by
  intro _ rest
  simp [decodeOperands, Instr.index, encodeOperands, getDecBit, getSyn_putSyn, getBitTok_putBitTok, andThen_ok]

theorem OperandsRoundTrip.t1c1DataC1 (a : Syn) (tok : BitTok) : OperandsRoundTrip.Statement (.t1c1DataC1 a tok) := by
  intro _ rest
  simp [decodeOperands, Instr.index, encodeOperands, getDecBit, getSyn_putSyn, getBitTok_putBitTok, andThen_ok]

theorem OperandsRoundTrip.t1c1Done (a : Syn) (tok : BitTok) : OperandsRoundTrip.Statement (.t1c1Done a tok) := by
  intro _ rest
  simp [decodeOperands, Instr.index, encodeOperands, getDecBit, getSyn_putSyn, getBitTok_putBitTok, andThen_ok]

theorem OperandsRoundTrip.decReset (c : Chain) (a : Syn) : OperandsRoundTrip.Statement (.decReset c a) := by
  intro _ rest
  simp [decodeOperands, Instr.index, encodeOperands, getChain_putChain, getSyn_putSyn, andThen_ok]

theorem OperandsRoundTrip.s1Bit (a : Syn) (tok : BitTok) : OperandsRoundTrip.Statement (.s1Bit a tok) := by
  intro _ rest
  simp [decodeOperands, Instr.index, encodeOperands, getDecBit, getSyn_putSyn, getBitTok_putBitTok, andThen_ok]

theorem OperandsRoundTrip.s1Idle (a : Syn) (tok : BitTok) : OperandsRoundTrip.Statement (.s1Idle a tok) := by
  intro _ rest
  simp [decodeOperands, Instr.index, encodeOperands, getDecBit, getSyn_putSyn, getBitTok_putBitTok, andThen_ok]

theorem OperandsRoundTrip.s1Len (a : Syn) (tok : BitTok) : OperandsRoundTrip.Statement (.s1Len a tok) := by
  intro _ rest
  simp [decodeOperands, Instr.index, encodeOperands, getDecBit, getSyn_putSyn, getBitTok_putBitTok, andThen_ok]

theorem OperandsRoundTrip.s1Data (a : Syn) (tok : BitTok) : OperandsRoundTrip.Statement (.s1Data a tok) := by
  intro _ rest
  simp [decodeOperands, Instr.index, encodeOperands, getDecBit, getSyn_putSyn, getBitTok_putBitTok, andThen_ok]

theorem OperandsRoundTrip.s1Done (a : Syn) (tok : BitTok) : OperandsRoundTrip.Statement (.s1Done a tok) := by
  intro _ rest
  simp [decodeOperands, Instr.index, encodeOperands, getDecBit, getSyn_putSyn, getBitTok_putBitTok, andThen_ok]

theorem OperandsRoundTrip.crc16 (bytes : List Byte) : OperandsRoundTrip.Statement (.crc16 bytes) := by
  intro _ rest
  simp [decodeOperands, Instr.index, encodeOperands, getSeqInstr, getSeq_putSeq 0 bytes rest (Nat.zero_le _), andThen_ok]

theorem OperandsRoundTrip.crcchkA (t : List Byte) : OperandsRoundTrip.Statement (.crcchkA t) := by
  intro h rest
  simp [decodeOperands, Instr.index, encodeOperands, getSeqInstr, andThen_ok,
    getSeq_putSeq 3 t rest (three_le_of_okA h)]

theorem OperandsRoundTrip.crcchkB (t : List Byte) : OperandsRoundTrip.Statement (.crcchkB t) := by
  intro h rest
  simp [decodeOperands, Instr.index, encodeOperands, getSeqInstr, andThen_ok,
    getSeq_putSeq 3 t rest (three_le_of_okB h)]

theorem OperandsRoundTrip.stripA (t : List Byte) : OperandsRoundTrip.Statement (.stripA t) := by
  intro h rest
  simp [decodeOperands, Instr.index, encodeOperands, getSeqInstr, andThen_ok,
    getSeq_putSeq 3 t rest (three_le_of_okA h)]

theorem OperandsRoundTrip.stripB (t : List Byte) : OperandsRoundTrip.Statement (.stripB t) := by
  intro h rest
  simp [decodeOperands, Instr.index, encodeOperands, getSeqInstr, andThen_ok,
    getSeq_putSeq 3 t rest (three_le_of_okB h)]

theorem OperandsRoundTrip.serial (p : List Byte) : OperandsRoundTrip.Statement (.serial p) := by
  intro _ rest
  simp [decodeOperands, Instr.index, encodeOperands, getSeqInstr, getSeq_putSeq 0 p rest (Nat.zero_le _), andThen_ok]

theorem OperandsRoundTrip.emit (c : Chain) (a : Syn) (mode : Mode) :
    OperandsRoundTrip.Statement (.emit c a mode) := by
  intro _ rest
  simp [decodeOperands, Instr.index, encodeOperands, getChain_putChain, getSyn_putSyn, getMode_putMode, andThen_ok]

end Sys2Proof.Laws
end

