-- ==== Sys2Proof/Laws/Sync.lean ====
section
/-! SUPPORT. What the bit synchronizers can do: their windows, the bits a run emits, the invariants they keep. -/

namespace Sys2Proof.Machine

open Sys2Proof

/-! ### Windows -/

/-- The deglitch window holds the last `w` raw bits (43_bit_sync.md rule R224). -/
theorem deglitchAcc_testBit (w acc : Nat) (r : Bool) (k : Nat) :
    (deglitchAcc w acc r).testBit k = (decide (k < w) && (if k = 0 then r else acc.testBit (k - 1))) := by
  rw [deglitchAcc, Nat.testBit_and, Nat.testBit_two_pow_sub_one, Bool.and_comm, Nat.testBit_or, Nat.testBit_shiftLeft]
  cases k <;> cases r <;> simp [Nat.testBit_succ]

/-- The deglitch window is a word of `w` bits. -/
theorem deglitchAcc_lt (w acc : Nat) (r : Bool) : deglitchAcc w acc r < 2 ^ w :=
  Nat.and_lt_two_pow _ (Nat.sub_lt (Nat.two_pow_pos w) Nat.one_pos)

theorem lowBits_getLsbD (w : Nat) (x : BitVec 32) (k : Nat) (hk : k < 32) :
    (lowBits w x).getLsbD k = (decide (k < w) && x.getLsbD k) := by
  unfold lowBits
  rw [BitVec.getLsbD_and, BitVec.getLsbD_ofNat, Nat.testBit_two_pow_sub_one]
  simp [hk, Bool.and_comm]

/-- The distance to the access code, counted bit by bit (30_encoding.md rule R115). -/
theorem accDistance_eq (par : Par) (c : Chain) (sr : BitVec 32) :
    accDistance par c sr = (List.range 32).countP (fun k =>
      xor (decide (k < par.accW.get c) && sr.getLsbD k) ((par.accCode.get c).getLsbD k)) := by
  unfold accDistance popcount
  apply List.countP_congr
  intro k hk
  rw [BitVec.getLsbD_xor, lowBits_getLsbD _ _ _ (by simpa using hk)]

/-! ### Time-2 -/

/-- The lock counter stops at its threshold (43_bit_sync.md rule R222). -/
theorem t2Lock_le (n : Nat) (clk prev : Bool) (lock : Nat) (hn : 1 ≤ n) (h : lock ≤ n) :
    t2Lock n clk prev lock ≤ n := by
  unfold t2Lock
  split
  · exact hn
  · split
    · rename_i hl; simp at hl; omega
    · exact h

/-- `T2.STEP` keeps a synchronizer's shape. -/
theorem t2Advance_ok (par : Par) (c : Chain) (t : T2Reg) (tok : RawTok) (h : T2Ok par c t)
    (hn : 1 ≤ par.t2LockN.get c) : T2Ok par c (t2Advance par c t tok).1 := by
  unfold t2Advance
  dsimp only
  split <;> exact ⟨by rw [bpfStep, iirStep_length]; exact h.taps, t2Lock_le _ _ _ _ hn h.lock⟩

/-- Delivering zero or one bit keeps what one bit keeps. -/
theorem deliverOne_keeps {δ : Type} {dlv : δ → BitTok → Io → δ × Io} {P : δ → Prop}
    (hk : ∀ d b io, P d → P (dlv d b io).1) (bit : Option BitTok) (d : δ) (io : Io) (h : P d) :
    P (deliverOne dlv bit d io).1 := by
  cases bit with
  | none => exact h
  | some b => exact hk _ _ _ h

/-- Delivering zero or one bit takes nothing back from the host. -/
theorem deliverOne_grows {δ : Type} {dlv : δ → BitTok → Io → δ × Io} (hk : ∀ d b (io : Io), io.Grows (dlv d b io).2)
    (bit : Option BitTok) (d : δ) (io : Io) : io.Grows (deliverOne dlv bit d io).2 := by
  cases bit with
  | none => exact Io.Grows.refl _
  | some b => exact hk _ _ _

/-! ### Runs -/

/-- A plausible run has at least one symbol period (43_bit_sync.md rule R226). -/
theorem runPeriods_pos (bl : Int) (run : Nat) (h0 : 0 < bl) (h : bl < 2 * ((run : Int) * 256)) :
    1 ≤ runPeriods bl run := by
  unfold runPeriods
  have h3 : 0 ≤ bl.tdiv 2 := Int.tdiv_nonneg (by omega) (by omega)
  rw [Int.tdiv_eq_ediv_of_nonneg (by omega), Int.tdiv_eq_ediv_of_nonneg (by omega), Int.le_ediv_iff_mul_le h0]
  omega

/-- A run of exactly `k` bit periods has `k` of them. -/
theorem runPeriods_exact (bl : Int) (run k : Nat) (h0 : 0 < bl) (hr : (run : Int) * 256 = k * bl) :
    runPeriods bl run = k := by
  unfold runPeriods
  have h3 : 0 ≤ bl.tdiv 2 := Int.tdiv_nonneg (by omega) (by omega)
  rw [Int.tdiv_eq_ediv_of_nonneg (by omega), hr, Int.tdiv_eq_ediv_of_nonneg (by omega), mul_comm,
    Int.mul_add_ediv_left _ _ (by omega), Int.ediv_eq_zero_of_lt (by omega) (by omega)]
  simp

/-- The bits of a run: as many as periods, each of the run's level (43_bit_sync.md rule R231). -/
theorem runBits_bits {δ : Type} (par : Par) (c : Chain) (dlv : δ → BitTok → Io → δ × Io) (level : Bool) (r : NumT)
    (n : Nat) : ∀ sr d io, (runBits par c dlv level r n sr d io).bits.length = n ∧
      ∀ b ∈ (runBits par c dlv level r n sr d io).bits, b.b = level ∧ b.rssi = r := by
  induction n with
  | zero => intros; simp [runBits]
  | succ n ih =>
    intro sr d io
    simp only [runBits, List.length_cons, List.mem_cons]
    refine ⟨by rw [(ih _ _ _).1], ?_⟩
    intro b hb
    rcases hb with rfl | hb
    · exact ⟨rfl, rfl⟩
    · exact (ih _ _ _).2 b hb

/-- The bits of a run keep what one bit keeps. -/
theorem runBits_keeps {δ : Type} (par : Par) (c : Chain) {dlv : δ → BitTok → Io → δ × Io} {P : δ → Prop}
    (hk : ∀ d b io, P d → P (dlv d b io).1) (level : Bool) (r : NumT) (n : Nat) :
    ∀ sr d io, P d → P (runBits par c dlv level r n sr d io).dec := by
  induction n with
  | zero => intro sr d io h; exact h
  | succ n ih => intro sr d io h; exact ih _ _ _ (hk _ _ _ h)

/-- The bits of a run take nothing back from the host. -/
theorem runBits_grows {δ : Type} (par : Par) (c : Chain) {dlv : δ → BitTok → Io → δ × Io}
    (hk : ∀ d b (io : Io), io.Grows (dlv d b io).2) (level : Bool) (r : NumT) (n : Nat) :
    ∀ sr d (io : Io), io.Grows (runBits par c dlv level r n sr d io).io := by
  induction n with
  | zero => intro sr d io; exact Io.Grows.refl _
  | succ n ih => intro sr d io; exact (hk _ _ _).trans (ih _ _ _)

/-- What closing a T1/C1 run can do: the deglitch window and the previous level are untouched, the estimate stays
positive, the decoder keeps what one bit and a reset keep. -/
theorem rlRun_ok (par : Par) (rl : RlT) (d : DecT) (io : Io) (level : Bool) (run : Nat) (r : NumT) {P : DecT → Prop}
    (hk : ∀ d b io, P d → P (t1c1Bit par .RL d b io).1) (h0 : P decTReset) (h : P d)
    (hn : 0 < par.nomBitlen.t) :
    (rlRun par rl d io level run r).1.acc = rl.acc ∧ (rlRun par rl d io level run r).1.lvlPrev = rl.lvlPrev ∧
    0 < (rlRun par rl d io level run r).1.bitlen ∧ P (rlRun par rl d io level run r).2.1 := by
  unfold rlRun takeSync rlTCleared
  dsimp only
  split
  · exact ⟨rfl, rfl, hn, h0⟩
  · split
    · exact ⟨rfl, rfl, hn, h0⟩
    · rename_i hp
      exact ⟨rfl, rfl, by simpa using hp, runBits_keeps _ _ hk _ _ _ _ _ _ h⟩

theorem rlRun_grows (par : Par) (rl : RlT) (d : DecT) (io : Io) (level : Bool) (run : Nat) (r : NumT) :
    io.Grows (rlRun par rl d io level run r).2.2.1 := by
  have hg := runBits_grows par .T (dlv := t1c1Bit par .RL) (fun d b io => t1c1Bit_grows par .RL d b io) level r
    (runPeriods rl.bitlen run).toNat rl.sr d io
  unfold rlRun takeSync
  dsimp only
  split
  · exact Io.Grows.note _ _
  · split
    · exact hg.trans (Io.Grows.note _ _)
    · exact hg

/-- What closing an S1 run can do: the estimates stay within [0.5, 1.5] of nominal (43_bit_sync.md rule R229). -/
theorem rls1Run_ok (par : Par) (rl : RlS) (d : DecS) (io : Io) (level : Bool) (run : Nat) (r : NumT)
    {P : DecS → Prop} (hk : ∀ d b io, P d → P (s1Bit par .RL d b io).1) (h0 : P decSReset) (h : P d)
    (hn : 0 < par.nomBitlen.s)
    (hb : ∀ l, par.nomBitlen.s ≤ 2 * spbOf rl l ∧ 2 * spbOf rl l ≤ 3 * par.nomBitlen.s) :
    (rls1Run par rl d io level run r).1.acc = rl.acc ∧ (rls1Run par rl d io level run r).1.lvlPrev = rl.lvlPrev ∧
    (∀ l, par.nomBitlen.s ≤ 2 * spbOf (rls1Run par rl d io level run r).1 l ∧
      2 * spbOf (rls1Run par rl d io level run r).1 l ≤ 3 * par.nomBitlen.s) ∧
    P (rls1Run par rl d io level run r).2.1 := by
  have hc : ∀ l, par.nomBitlen.s ≤ 2 * spbOf (rlSCleared par rl) l ∧
      2 * spbOf (rlSCleared par rl) l ≤ 3 * par.nomBitlen.s := by
    intro l; cases l <;> simp [spbOf, rlSCleared] <;> omega
  unfold rls1Run takeSync
  dsimp only
  split
  · exact ⟨rfl, rfl, hc, h0⟩
  · split
    · exact ⟨rfl, rfl, hc, h0⟩
    · rename_i hp
      have hp' : par.nomBitlen.s ≤ 2 * spbAverage (spbOf rl level) run ∧
          2 * spbAverage (spbOf rl level) run ≤ 3 * par.nomBitlen.s := by
        simp [spbOutside] at hp; omega
      refine ⟨?_, ?_, fun l => ?_, runBits_keeps _ _ hk _ _ _ _ _ _ h⟩
      · cases level <;> rfl
      · cases level <;> rfl
      · have h1 := hb l
        cases level <;> cases l <;> first | exact hp' | exact h1

theorem rls1Run_grows (par : Par) (rl : RlS) (d : DecS) (io : Io) (level : Bool) (run : Nat) (r : NumT) :
    io.Grows (rls1Run par rl d io level run r).2.2.1 := by
  have hg := runBits_grows par .S (dlv := s1Bit par .RL) (fun d b io => s1Bit_grows par .RL d b io) level r
    (runPeriods (spbOf rl level) run).toNat rl.sr d io
  unfold rls1Run takeSync
  dsimp only
  split
  · exact Io.Grows.note _ _
  · split
    · exact hg.trans (Io.Grows.note _ _)
    · exact hg

/-! ### Runs as sequences of operations -/

/-- The delivery of a run's bits, one operation after another, is what `RL.RUN` does with them. -/
theorem deliverBits_T (level : Bool) (r : NumT) (n : Nat) : ∀ s : State, ∃ toks,
    deliverBits .T .RL r (List.replicate n level) s =
      .next { s with
        chT := { s.chT with
          rl := { s.chT.rl with
            sr := (runBits s.par .T (t1c1Bit s.par .RL) level r n s.chT.rl.sr s.chT.decRl s.io).sr }
          decRl := (runBits s.par .T (t1c1Bit s.par .RL) level r n s.chT.rl.sr s.chT.decRl s.io).dec }
        io := (runBits s.par .T (t1c1Bit s.par .RL) level r n s.chT.rl.sr s.chT.decRl s.io).io
        phase := if n = 0 then s.phase else s.phase.touch
        ret := toks } := by
  induction n with
  | zero => intro s; exact ⟨s.ret, rfl⟩
  | succ n ih =>
    intro s
    simp only [List.replicate_succ, deliverBits, deliver, exec, execAcorr, thenDo_next, bitOp, execT1c1Bit]
    obtain ⟨toks, hb⟩ := ih (finishT ((setSyncSr s .T .RL (acorr s.par .T (syncSr s .T .RL) level r).2).reply
      [.bitTok (acorr s.par .T (syncSr s .T .RL) level r).1]) .RL
      (t1c1Bit s.par .RL s.chT.decRl (acorr s.par .T (syncSr s .T .RL) level r).1 s.io))
    refine ⟨toks, ?_⟩
    refine Eq.trans hb ?_
    cases hp : s.phase <;> cases n <;>
      simp [hp, runBits, finishT, State.reply, setSyncSr, syncSr, State.setChT, State.setIo, ChainT.setDec, Phase.touch]

/-- The delivery of a run's bits, one operation after another, is what `RLS1.RUN` does with them. -/
theorem deliverBits_S (level : Bool) (r : NumT) (n : Nat) : ∀ s : State, ∃ toks,
    deliverBits .S .RL r (List.replicate n level) s =
      .next { s with
        chS := { s.chS with
          rl := { s.chS.rl with
            sr := (runBits s.par .S (s1Bit s.par .RL) level r n s.chS.rl.sr s.chS.decRl s.io).sr }
          decRl := (runBits s.par .S (s1Bit s.par .RL) level r n s.chS.rl.sr s.chS.decRl s.io).dec }
        io := (runBits s.par .S (s1Bit s.par .RL) level r n s.chS.rl.sr s.chS.decRl s.io).io
        phase := if n = 0 then s.phase else s.phase.touch
        ret := toks } := by
  induction n with
  | zero => intro s; exact ⟨s.ret, rfl⟩
  | succ n ih =>
    intro s
    simp only [List.replicate_succ, deliverBits, deliver, exec, execAcorr, thenDo_next, bitOp, execS1Bit]
    obtain ⟨toks, hb⟩ := ih (finishS ((setSyncSr s .S .RL (acorr s.par .S (syncSr s .S .RL) level r).2).reply
      [.bitTok (acorr s.par .S (syncSr s .S .RL) level r).1]) .RL
      (s1Bit s.par .RL s.chS.decRl (acorr s.par .S (syncSr s .S .RL) level r).1 s.io))
    refine ⟨toks, ?_⟩
    refine Eq.trans hb ?_
    cases hp : s.phase <;> cases n <;>
      simp [hp, runBits, finishS, State.reply, setSyncSr, syncSr, State.setChS, State.setIo, ChainS.setDec, Phase.touch]

end Sys2Proof.Machine
end

