-- ==== Sys2Proof/Laws/System.lean ====
section
/-! SUPPORT. What the composites leave alone: the tokens returned and the host's phase have no part in a sample, and
samples run one after another. -/

namespace Sys2Proof.Machine

open Sys2Proof

/-- The state with other tokens returned and another host phase. -/
def State.told (s : State) (r : List Token) (p : Phase) : State := { s with ret := r, phase := p }

theorem State.told_self (s : State) : s.told s.ret s.phase = s := rfl

@[simp] theorem State.told_told (s : State) (r r' : List Token) (p p' : Phase) :
    (s.told r p).told r' p' = s.told r' p' := rfl

theorem State.reply_eq_told (s : State) (r : List Token) : s.reply r = s.told r s.phase.touch := rfl

theorem routeInput_told (s : State) (r : List Token) (p : Phase) (i : Iq) :
    routeInput (s.told r p) i = ((routeInput s i).1, (routeInput s i).2.told r p) := by
  by_cases h : cfgDual s.cfg <;> simp [routeInput, State.told, h]

theorem feIfEnabled_told (s : State) (r : List Token) (p : Phase) (c : Chain) (i : Iq) :
    feIfEnabled (s.told r p) c i = ((feIfEnabled s c i).1, (feIfEnabled s c i).2.told r p) := by
  by_cases h : chainEnabled s.cfg c
  · cases c <;> simp only [feIfEnabled, State.told, h, if_true] <;> rfl
  · simp [feIfEnabled, State.told, h]

theorem runDecim_told (s : State) (r : List Token) (p : Phase) :
    runDecim (s.told r p) = ((runDecim s).1, (runDecim s).2.told r p) := rfl

theorem demodStep_told (s : State) (r : List Token) (p : Phase) (c : Chain) (i q : NumT) :
    demodStep (s.told r p) c i q = (demodStep s c i q).told r p := by
  cases c <;> rfl

theorem demodIfEnabled_told (s : State) (r : List Token) (p : Phase) (c : Chain) (v : Option Iq) :
    demodIfEnabled (s.told r p) c v = (demodIfEnabled s c v).told r p := by
  cases v with
  | none => rfl
  | some v =>
    by_cases h : chainEnabled s.cfg c
    · simp only [demodIfEnabled, demodStep_told]; simp [State.told, h]
    · simp [demodIfEnabled, State.told, h]

/-- A sample looks at neither the tokens returned before it nor the phase, and writes neither. -/
theorem sampleStep_told (s : State) (r : List Token) (p : Phase) (i q : Byte) :
    sampleStep (s.told r p) i q = (sampleStep s i q).told r p := by
  have e : (s.told r p).par = s.par := rfl
  unfold sampleStep
  simp only [e, routeInput_told, feIfEnabled_told, runDecim_told, demodIfEnabled_told]
  split <;> rfl

theorem sampleStep_phase (s : State) (i q : Byte) : (sampleStep s i q).phase = s.phase := by
  have := sampleStep_told s s.ret s.phase i q
  rw [State.told_self] at this
  rw [this]; rfl

theorem routeInput_phase (s : State) (i : Iq) : (routeInput s i).2.phase = s.phase := by
  by_cases h : cfgDual s.cfg <;> simp [routeInput, h]

theorem feIfEnabled_phase (s : State) (c : Chain) (i : Iq) : (feIfEnabled s c i).2.phase = s.phase := by
  by_cases h : chainEnabled s.cfg c
  · cases c <;> simp only [feIfEnabled, h, if_true] <;> rfl
  · simp [feIfEnabled, h]

theorem runSamples_told (r : List Token) (p : Phase) (bytes : List Byte) :
    ∀ s : State, runSamples (s.told r p) bytes = (runSamples s bytes).told r p := by
  match bytes with
  | [] => intro s; rfl
  | [_] => intro s; rfl
  | i :: q :: rest => intro s; simp only [runSamples, sampleStep_told, runSamples_told r p rest]

/-- The samples of a chunk, one operation after another, are what `CHUNK` does with them. -/
theorem runOps_sampleOps (bytes : List Byte) :
    ∀ s : State, ∃ r p, runOps (sampleOps bytes) s = .next ((runSamples s bytes).told r p) := by
  match bytes with
  | [] => intro s; exact ⟨s.ret, s.phase, rfl⟩
  | [_] => intro s; exact ⟨s.ret, s.phase, rfl⟩
  | i :: q :: rest =>
    intro s
    simp only [sampleOps, runOps, exec, execSampleStep, thenDo_next, runSamples, State.reply_eq_told]
    obtain ⟨r, p, h⟩ := runOps_sampleOps rest
      ((sampleStep s i q).told (newTelegrams s.io (sampleStep s i q).io) (sampleStep s i q).phase.touch)
    exact ⟨r, p, by rw [h, runSamples_told]; rfl⟩

/-- Samples run one after another, in whatever pieces they come. -/
theorem runSamples_append (n : Nat) : ∀ (a b : List Byte) (s : State), a.length = 2 * n →
    runSamples s (a ++ b) = runSamples (runSamples s a) b := by
  induction n with
  | zero =>
    intro a b s h
    have : a = [] := List.eq_nil_of_length_eq_zero (by omega)
    subst this
    rfl
  | succ n ih =>
    intro a b s h
    match a with
    | [] => simp at h
    | [_] => simp at h; omega
    | i :: q :: rest => simp only [List.cons_append, runSamples]; exact ih rest b _ (by simp at h; omega)

/-- What `RL.STEP` and `T2.STEP` take back from the host: nothing. -/
theorem rlStep_grows (par : Par) (ch : ChainT) (io : Io) (tok : RawTok) : io.Grows (rlStep par ch io tok).2.1 := by
  unfold rlStep
  dsimp only
  split
  · exact Io.Grows.refl _
  · exact rlRun_grows ..

theorem rls1Step_grows (par : Par) (ch : ChainS) (io : Io) (tok : RawTok) :
    io.Grows (rls1Step par ch io tok).2.1 := by
  unfold rls1Step
  dsimp only
  split
  · exact Io.Grows.refl _
  · exact rls1Run_grows ..

theorem t2StepT_grows (par : Par) (ch : ChainT) (io : Io) (tok : RawTok) : io.Grows (t2StepT par ch io tok).2.1 :=
  deliverOne_grows (fun d b io => t1c1Bit_grows par .T2 d b io) _ _ _

theorem t2StepS_grows (par : Par) (ch : ChainS) (io : Io) (tok : RawTok) : io.Grows (t2StepS par ch io tok).2.1 :=
  deliverOne_grows (fun d b io => s1Bit_grows par .T2 d b io) _ _ _

/-- `DEMOD.STEP` changes neither `PAR` nor the configuration, and takes nothing back from the host. -/
theorem demodStep_frame (s : State) (c : Chain) (i q : NumT) :
    (demodStep s c i q).par = s.par ∧ (demodStep s c i q).cfg = s.cfg ∧ s.io.Grows (demodStep s c i q).io := by
  cases c
  · refine ⟨rfl, rfl, ?_⟩
    show s.io.Grows (demodStepT s.par s.cfg s.chT s.io i q).2
    unfold demodStepT
    dsimp only
    split <;> split
    · exact (t2StepT_grows ..).trans (rlStep_grows ..)
    · exact rlStep_grows ..
    · exact t2StepT_grows ..
    · exact Io.Grows.refl _
  · refine ⟨rfl, rfl, ?_⟩
    show s.io.Grows (demodStepS s.par s.cfg s.chS s.io i q).2
    unfold demodStepS
    dsimp only
    split <;> split
    · exact (t2StepS_grows ..).trans (rls1Step_grows ..)
    · exact rls1Step_grows ..
    · exact t2StepS_grows ..
    · exact Io.Grows.refl _

end Sys2Proof.Machine
end

