-- ==== Sys2Proof/Tests/Slice0.lean ====
section
/-! SUPPORT. The model's own tests: the well-formedness checks refuse what they must, written-out words decode, small
vectors of 95_test_vectors.md hold, and the hypotheses of every obligation are met by a concrete state. -/

set_option Elab.async false

namespace Sys2Proof.Tests

open Sys2Proof Sys2Proof.Machine

/-! ### Helpers -/

/-- The tokens an operation returns from a state. -/
def out (i : Instr) (s : State) : List Token :=
  match exec i s with
  | .next t => t.ret
  | .refused _ => []

/-- The state an operation leaves. -/
def after (i : Instr) (s : State) : State :=
  match exec i s with
  | .next t => t
  | .refused _ => s

/-- Why an operation is refused, if it is. -/
def refusal (i : Instr) (s : State) : Option Refusal :=
  match exec i s with
  | .next _ => none
  | .refused r => some r

/-- The state after one step. -/
def stepped (s : State) : Option State :=
  match step s with
  | .next t => some t
  | .refused _ => none

theorem stepped_next {s : State} (h : (stepped s).isSome = true) : ∃ t, step s = .next t := by
  unfold stepped at h
  split at h
  · exact ⟨_, ‹_›⟩
  · cases h

/-- Whether bytes decode to an operation and leave nothing. -/
def decodes (bs : List Byte) (i : Instr) : Bool := decide (decode bs = .ok (i, []))

/-- Reset, with a changed `PAR`. -/
def withPar (p : Par) : State := { State.reset with par := p, phase := .running }

/-- Reset, with a T1/C1 decoder on the run-length side. -/
def withDecT (d : DecT) : State := State.reset.setChT (State.reset.chT.setDec .RL d)

/-- Reset, with an S1 decoder on the run-length side. -/
def withDecS (d : DecS) : State := State.reset.setChS (State.reset.chS.setDec .RL d)

/-- Reset, with the front part of chain T. -/
def withFront (f : Front → Front) : State := State.reset.setFront .T (f (State.reset.front .T))

/-- Reset, with an estimate and an integrator in the T1/C1 run-length synchronizer. -/
def withRlT (bitlen esum : Int) : State :=
  State.reset.setChT { State.reset.chT with rl := { State.reset.chT.rl with bitlen := bitlen, esum := esum } }

/-- Reset, with the S1 estimates. -/
def withRlS (spb0 spb1 : Int) : State :=
  State.reset.setChS { State.reset.chS with rl := { State.reset.chS.rl with spb0 := spb0, spb1 := spb1 } }

/-- A decided bit at RSSI 40. -/
def bit (b : Bool) : BitTok := ⟨b, false, 40⟩

/-! ### Well-formedness -/

theorem test_wf_crcchkA_short : (Instr.crcchkA [1#8, 2#8]).wellFormed = false := by decide
theorem test_wf_crcchkA_long : (Instr.crcchkA (List.replicate 291 0#8)).wellFormed = false := by decide +kernel
theorem test_wf_crcchkA_longest : (Instr.crcchkA (List.replicate 290 0#8)).wellFormed = true := by decide +kernel
theorem test_wf_crcchkB_short : (Instr.crcchkB []).wellFormed = false := by decide
theorem test_wf_crcchkB_long : (Instr.crcchkB (List.replicate 257 0#8)).wellFormed = false := by decide +kernel
theorem test_wf_stripA_short : (Instr.stripA [1#8, 2#8]).wellFormed = false := by decide
theorem test_wf_stripA_long : (Instr.stripA (List.replicate 291 0#8)).wellFormed = false := by decide +kernel
theorem test_wf_stripB_short : (Instr.stripB [1#8, 2#8]).wellFormed = false := by decide
theorem test_wf_stripB_long : (Instr.stripB (List.replicate 257 0#8)).wellFormed = false := by decide +kernel

/-! ### Decoding: the index of 30_encoding.md rule R127, then the operand bytes (log entry 4)

A carrier value is a natural that numbers its numerator (0, −1, 1, −2, 2, …) and its denominator less one: 40 is
`50 00`, −1/4 is `01 03`, 1/2 is `02 01`. -/

theorem test_decode_reset : decodes [0x00] .reset = true := by decide +kernel
theorem test_decode_cfgLoad : decodes [0x01, 0x02, 0x0F, 0x00, 0x00] (.cfgLoad 0x00000F02#32) = true := by
  decide +kernel
theorem test_decode_chunk : decodes [0x02] .chunk = true := by decide +kernel
theorem test_decode_end : decodes [0x03, 0x90, 0x0E] (.endStream 1808) = true := by decide +kernel
theorem test_decode_tsGet : decodes [0x04] .tsGet = true := by decide +kernel
theorem test_decode_firStep : decodes [0x10, 0x02, 0x00, 0x01, 0x01, 0x50, 0x00] (.firStep (.sub .T .Q 1) 40) = true := by
  decide +kernel
theorem test_decode_iirStep : decodes [0x11, 0x01, 0x50, 0x00] (.iirStep .S 40) = true := by decide +kernel
theorem test_decode_ppfStep : decodes [0x12, 0x00, 0x01, 0x02, 0x01] (.ppfStep .T .Q (mkRat 1 2)) = true := by
  decide +kernel
theorem test_decode_mavgStep : decodes [0x13, 0x01, 0x00, 0x01, 0x03] (.mavgStep .S .I (mkRat (-1) 4)) = true := by
  decide +kernel
theorem test_decode_dcrem : decodes [0x20, 0x82, 0x7F] (.dcrem 0x82 0x7F) = true := by decide +kernel
theorem test_decode_fsplit : decodes [0x21, 0x06, 0x00, 0x08, 0x00] (.fsplit 3 4) = true := by decide +kernel
theorem test_decode_feLpf : decodes [0x22, 0x00, 0x06, 0x00, 0x0D, 0x00] (.feLpf .T 3 (-7)) = true := by decide +kernel
theorem test_decode_decim : decodes [0x23] .decim = true := by decide +kernel
theorem test_decode_sampleStep : decodes [0x24, 0x7E, 0x80] (.sampleStep 0x7E 0x80) = true := by decide +kernel
theorem test_decode_pdiscExact : decodes [0x30, 0x00, 0x04, 0x00, 0x00, 0x00] (.pdiscExact .T 2 0) = true := by
  decide +kernel
theorem test_decode_pdiscFull : decodes [0x31, 0x01, 0x00, 0x00, 0x04, 0x00] (.pdiscFull .S 0 2) = true := by
  decide +kernel
theorem test_decode_pdiscRestr : decodes [0x32, 0x00, 0x02, 0x00, 0x04, 0x00] (.pdiscRestr .T 1 2) = true := by
  decide +kernel
theorem test_decode_pdiscSign : decodes [0x33, 0x00, 0x02, 0x00, 0x06, 0x00] (.pdiscSign .T 1 3) = true := by
  decide +kernel
theorem test_decode_postlpf : decodes [0x34, 0x01, 0x02, 0x01] (.postlpf .S (mkRat 1 2)) = true := by decide +kernel
theorem test_decode_dcblock : decodes [0x35, 0x00, 0x08, 0x00] (.dcblock .T 4) = true := by decide +kernel
theorem test_decode_slice : decodes [0x36, 0x01, 0x01, 0x03] (.slice .S (mkRat (-1) 4)) = true := by decide +kernel
theorem test_decode_rssi : decodes [0x37, 0x00, 0x0C, 0x00, 0x10, 0x00] (.rssi .T 6 8) = true := by decide +kernel
theorem test_decode_demodStep : decodes [0x38, 0x01, 0x0C, 0x00, 0x10, 0x00] (.demodStep .S 6 8) = true := by
  decide +kernel
theorem test_decode_acorr : decodes [0x40, 0x00, 0x01, 0x01, 0x50, 0x00] (.acorr .T .RL true 40) = true := by
  decide +kernel
theorem test_decode_t2Step : decodes [0x41, 0x01, 0x01, 0x02, 0x03, 0x50, 0x00]
    (.t2Step .S ⟨true, mkRat 1 4, 40⟩) = true := by decide +kernel
theorem test_decode_deglitch : decodes [0x42, 0x00, 0x01] (.deglitch .T true) = true := by decide +kernel
theorem test_decode_rlStep : decodes [0x43, 0x00, 0x00, 0x00, 0x50, 0x00] (.rlStep ⟨false, 0, 40⟩) = true := by
  decide +kernel
theorem test_decode_rlRun : decodes [0x44, 0x01, 0x11, 0x50, 0x00] (.rlRun true 17 40) = true := by decide +kernel
theorem test_decode_rlReset : decodes [0x45, 0x01] (.rlReset .S) = true := by decide +kernel
theorem test_decode_rls1Step : decodes [0x46, 0x01, 0x00, 0x00, 0x42, 0x00] (.rls1Step ⟨true, 0, 33⟩) = true := by
  decide +kernel
theorem test_decode_rls1Run : decodes [0x47, 0x00, 0x18, 0x42, 0x00] (.rls1Run false 24 33) = true := by decide +kernel
theorem test_decode_t1c1Bit : decodes [0x50, 0x01, 0x03, 0x50, 0x00] (.t1c1Bit .RL ⟨true, true, 40⟩) = true := by
  decide +kernel
theorem test_decode_t1c1Idle : decodes [0x51, 0x01, 0x02, 0x50, 0x00] (.t1c1Idle .RL ⟨false, true, 40⟩) = true := by
  decide +kernel
theorem test_decode_t1c1Lfield : decodes [0x52, 0x00, 0x01, 0x50, 0x00] (.t1c1Lfield .T2 (bit true)) = true := by
  decide +kernel
theorem test_decode_t1c1C1trailer : decodes [0x53, 0x01, 0x00, 0x50, 0x00] (.t1c1C1trailer .RL (bit false)) = true := by
  decide +kernel
theorem test_decode_t1c1C1len : decodes [0x54, 0x01, 0x01, 0x50, 0x00] (.t1c1C1len .RL (bit true)) = true := by
  decide +kernel
theorem test_decode_t1c1DataT1 : decodes [0x55, 0x00, 0x01, 0x50, 0x00] (.t1c1DataT1 .T2 (bit true)) = true := by
  decide +kernel
theorem test_decode_t1c1DataC1 : decodes [0x56, 0x01, 0x00, 0x50, 0x00] (.t1c1DataC1 .RL (bit false)) = true := by
  decide +kernel
theorem test_decode_t1c1Done : decodes [0x57, 0x01, 0x01, 0x50, 0x00] (.t1c1Done .RL (bit true)) = true := by
  decide +kernel
theorem test_decode_decReset : decodes [0x58, 0x01, 0x00] (.decReset .S .T2) = true := by decide +kernel
theorem test_decode_s1Bit : decodes [0x60, 0x00, 0x02, 0x50, 0x00] (.s1Bit .T2 ⟨false, true, 40⟩) = true := by
  decide +kernel
theorem test_decode_s1Idle : decodes [0x61, 0x01, 0x03, 0x50, 0x00] (.s1Idle .RL ⟨true, true, 40⟩) = true := by
  decide +kernel
theorem test_decode_s1Len : decodes [0x62, 0x01, 0x01, 0x50, 0x00] (.s1Len .RL (bit true)) = true := by decide +kernel
theorem test_decode_s1Data : decodes [0x63, 0x00, 0x00, 0x50, 0x00] (.s1Data .T2 (bit false)) = true := by
  decide +kernel
theorem test_decode_s1Done : decodes [0x64, 0x01, 0x01, 0x50, 0x00] (.s1Done .RL (bit true)) = true := by
  decide +kernel
theorem test_decode_crc16 : decodes [0x70, 0x01, 0x01] (.crc16 [0x01]) = true := by decide +kernel
theorem test_decode_crcchkA : decodes [0x71, 0x03, 0x03, 0x44, 0xAE, 0x0C, 0x3B, 0x65]
    (.crcchkA [0x03, 0x44, 0xAE, 0x0C, 0x3B, 0x65]) = true := by decide +kernel
theorem test_decode_crcchkB : decodes [0x72, 0x00, 0x00, 0xFF, 0xFF] (.crcchkB [0x00, 0xFF, 0xFF]) = true := by
  decide +kernel
theorem test_decode_stripA : decodes [0x73, 0x01, 0x01, 0x02, 0x03, 0x04] (.stripA [0x01, 0x02, 0x03, 0x04]) = true := by
  decide +kernel
theorem test_decode_stripB : decodes [0x74, 0x00, 0x01, 0x02, 0x03] (.stripB [0x01, 0x02, 0x03]) = true := by
  decide +kernel
theorem test_decode_serial : decodes [0x75, 0x02, 0x03, 0x44] (.serial [0x03, 0x44]) = true := by decide +kernel
theorem test_decode_emit : decodes [0x76, 0x00, 0x01, 0x01] (.emit .T .RL .C1) = true := by decide +kernel

/-- `EMIT` with a mode that the chain's own decoders never pass: rule R318 excludes none (log entry 21). -/
theorem test_emit_any_mode : (decodes [0x76, 0x01, 0x00, 0x01] (.emit .S .T2 .C1) = true) ∧
    (after (.emit .S .T2 .C1) State.reset).io.out.map (fun t => (t.mode, t.frameB, t.plen)) = [(.C1, false, 0)] := by
  decide +kernel

/-- 0x05 is unassigned (30_encoding.md rules R126 and R127). -/
theorem test_decode_unassigned : decode [0x05] = .error (.unassignedIndex 0x05) := by decide +kernel
/-- Bit 2 of a `BIT` byte is reserved (30_encoding.md rule R105). -/
theorem test_decode_reserved_bit : decode [0x50, 0x00, 0x04, 0x00, 0x00] = .error .reservedCode := by decide +kernel
/-- Mode code 3 is unused (30_encoding.md rules R121 and R126). -/
theorem test_decode_mode_3 : decode [0x76, 0x00, 0x00, 0x03] = .error .reservedCode := by decide +kernel
/-- `CRCCHK.B` is for 3 ≤ N ≤ 256 (45_crc_framing.md rule R314): here N = 257, written 254. -/
theorem test_decode_operand_range :
    decode (0x72#8 :: putSeq 3 (List.replicate 257 0)) = .error .operandRange := by decide +kernel
theorem test_decode_truncated : decode [0x36, 0x00, 0x01] = .error .truncated := by decide +kernel
theorem test_decode_table_word : decodeTableWord 8 0x58 = some (.decReset .T .T2) := by decide +kernel
theorem test_withFetchWord : stepped (State.reset.withFetchWord 8 0x03) = some (after (.endStream 0) State.reset) := by
  decide +kernel

/-! ### Vectors of 95_test_vectors.md, one operation each -/

/-- V46-1 -/
theorem test_reset_registers :
    let t := after .reset { State.reset with cfg := 0, dcnt := 7, fsIdx := 3, phase := .ended }
    (t.cfg, t.dcnt, t.fsIdx, t.chT.rl.bitlen, t.chS.rl.spb0, t.phase) = (0x00000F02#32, 0, 0, 2048, 6250, .configuring) := by
  decide +kernel
/-- V46-2, accepted words -/
theorem test_cfgLoad_accepts : ([0x00000F02#32, 0x00006D02#32, 0x00001F02#32].all fun w =>
    decide (after (.cfgLoad w) State.reset = { State.reset with cfg := w, ret := [.status true] })) = true := by
  decide +kernel
/-- V46-2, refused words: `cfg` keeps its value and `EV_CFG` is traced -/
theorem test_cfgLoad_refuses :
    ([0x00000C02#32, 0x00006F02#32, 0x00000F03#32, 0x00040F02#32, 0x00000F00#32, 0x00001702#32].all fun w =>
      decide (after (.cfgLoad w) State.reset =
        { State.reset with io := ⟨[], [⟨.cfg, none, 0, 0, 0⟩], 0⟩, ret := [.status false] })) = true := by
  decide +kernel
/-- P4's first two pairs as a chunk of four bytes: two samples at rate 2 forward once, the pair (2, 0). -/
theorem test_chunk_consumes :
    let s := { withPar { parInitial with chunkBytes := 4 } with inp := [0x82, 0x7F, 0x7E, 0x7F, 0x55] }
    ((after .chunk s).inp, (after .chunk s).dcnt, ((after .chunk s).chT.fr.pd)) = ([0x55#8], 0, ⟨2, 0⟩) := by
  decide +kernel
/-- V46-3: the last 1808 bytes of the stream are discarded. -/
theorem test_end_discards :
    let t := after (.endStream 1808) { State.reset with inp := List.replicate 1808 1#8, phase := .running }
    (t.inp, t.io.events.map (·.ev), t.phase) = ([], [.trunc], .ended) := by decide +kernel
/-- A count past the chunk size has the same effect (log entry 15). -/
theorem test_end_beyond_chunk :
    let t := after (.endStream 4) { withPar { parInitial with chunkBytes := 2 } with inp := [1, 2, 3, 4, 5] }
    (t.inp, t.io.events.map (·.ev), t.phase) = ([5#8], [.trunc], .ended) := by decide +kernel
theorem test_tsGet_counts : (after .tsGet State.reset).io.tsCount = 1 := by decide +kernel
/-- V40-1, the fifth step: the history holds (1, 0, 0) with the index at 1. -/
theorem test_firStep : out (.firStep (.fe .T .I) 1)
    (withFront fun f => { f with feI := { f.feI with fir := ⟨[0, 0, 0], 1⟩ } }) = [.num 2] := by decide +kernel
/-- V40-1, the third step -/
theorem test_firStep_oldest : out (.firStep (.fe .T .I) 0)
    (withFront fun f => { f with feI := { f.feI with fir := ⟨[1, 0, 0], 2⟩ } }) = [.num 5] := by decide +kernel
/-- V40-3, the second step: h = (1, 1, 0) after the impulse. -/
theorem test_iirStep :
    let p := { parInitial with t2B := ⟨[1, 0, 0], [1, 0, 0]⟩, t2A := ⟨[1, mkRat (-1) 2, 0], [1, 0, 0]⟩, t2Gain := ⟨2, 1⟩ }
    let s := (withPar p).setT2 .T { t2Reset p .T with bpf := ⟨[1, 1, 0]⟩ }
    (out (.iirStep .T 0) s, (after (.iirStep .T 0) s).chT.t2.bpf.h) = ([.num 1], [mkRat 1 2, mkRat 1 2, 1]) := by
  decide +kernel
/-- V40-5: no section -/
theorem test_iirStep_empty :
    let p := { parInitial with t2Sect := ⟨0, 0⟩, t2B := ⟨[], []⟩, t2A := ⟨[], []⟩, t2Gain := ⟨3, 3⟩ }
    out (.iirStep .S 2) ((withPar p).setT2 .S (t2Reset p .S)) = [.num 6] := by decide +kernel
/-- V40-6, the first two steps -/
theorem test_ppfStep_first : out (.ppfStep .T .I 1) State.reset = [] := by decide +kernel
theorem test_ppfStep_last : out (.ppfStep .T .I 0) (after (.ppfStep .T .I 1) State.reset) = [.num 3] := by decide +kernel
/-- V40-8, the third step: the window holds (5, −3). -/
theorem test_mavgStep : out (.mavgStep .T .Q 4)
    (withFront fun f => { f with feQ := { f.feQ with mavg := ⟨[5, -3], 0, 2⟩ } }) = [.num 1] := by decide +kernel
/-- V41-1 -/
theorem test_dcrem : out (.dcrem 0 255) State.reset = [.iq (-127) 128] := by decide +kernel
/-- V41-2 -/
theorem test_dcrem_half : out (.dcrem 127 128) (withPar { parInitial with dcOffset := .d127half }) =
    [.iq (mkRat (-1) 2) (mkRat 1 2)] := by decide +kernel
/-- V41-3, n = 1 -/
theorem test_fsplit :
    let s := { withPar { parInitial with fsN := 4, fsStep := 1, fsCos := [1, 0, -1, 0], fsNsin := [0, -1, 0, 1] } with
      fsIdx := 1 }
    (out (.fsplit 3 4) s, (after (.fsplit 3 4) s).fsIdx) = ([.iq 4 (-3), .iq (-4) 3], 2) := by decide +kernel
/-- V41-4, the second step -/
theorem test_feLpf : out (.feLpf .T 1 1) (after (.feLpf .T 3 (-7)) State.reset) = [.iq 4 (-6)] := by decide +kernel
/-- V41-5, the second and third calls -/
theorem test_decim :
    let s := fun n => { State.reset with cfg := 0x00000F03#32, dcnt := n }
    (out .decim (s 1), (after .decim (s 1)).dcnt, out .decim (s 2), (after .decim (s 2)).dcnt) =
      ([.bit false], 2, [.bit true], 0) := by decide +kernel
/-- V41-7: both chains receive the same pair, and the table index does not move. -/
theorem test_sampleStep :
    let t := after (.sampleStep 130 120) State.reset
    (t.chT.fr.feI.mavg.sum, t.chS.fr.feI.mavg.sum, t.chT.fr.feQ.mavg.sum, t.fsIdx, t.dcnt) = (3, 3, -7, 0, 1) := by
  decide +kernel
/-- V42-2 and V42-3 -/
theorem test_pdiscExact : out (.pdiscExact .T 0 2) (withFront fun f => { f with pd := ⟨2, 0⟩ }) = [.num (mkRat 1 2)] ∧
    out (.pdiscExact .T 2 0) (withFront fun f => { f with pd := ⟨0, 2⟩ }) = [.num (mkRat (-1) 2)] := by decide +kernel
/-- V42-5 -/
theorem test_pdiscExact_pi : out (.pdiscExact .T (-1) 0) (withFront fun f => { f with pd := ⟨1, 0⟩ }) = [.num 1] := by
  decide +kernel
/-- V42-7 -/
theorem test_pdiscFull : out (.pdiscFull .T 5 3) State.reset = [.num 0] := by decide +kernel
theorem test_pdiscRestr : out (.pdiscRestr .T 5 3) State.reset = [.num 0] := by decide +kernel
/-- V42-6 -/
theorem test_pdiscSign : out (.pdiscSign .T 1 3) (withFront fun f => { f with pd := ⟨2, 1⟩ }) = [.num 5] := by
  decide +kernel
/-- V42-8, the second step -/
theorem test_postlpf : out (.postlpf .T (mkRat (-1) 2)) (withFront fun f => { f with post := ⟨[mkRat 1 2, 0], 1⟩ }) =
    [.num 0] := by decide +kernel
/-- V42-9, the third step -/
theorem test_dcblock : out (.dcblock .T 0) (withFront fun f => { f with dcb := ⟨4, 1⟩ }) = [.num (mkRat (-3) 2)] := by
  decide +kernel
/-- V42-10 -/
theorem test_slice : [mkRat (-1) 4, 0, mkRat 1 4].map (fun d => out (.slice .T d) State.reset) =
    [[.bit false], [.bit true], [.bit true]] := by decide +kernel
theorem test_slice_inverted :
    [mkRat (-1) 4, 0].map (fun d => out (.slice .S d) (withPar { parInitial with pol := ⟨false, true⟩ })) =
      [[.bit true], [.bit false]] := by decide +kernel
/-- V42-11 and V42-12 -/
theorem test_rssi : out (.rssi .T 6 8) State.reset = [.num (mkRat 5 2)] ∧
    (after (.rssi .T 6 8) State.reset).chT.fr.rssi.y = 5 ∧
    out (.rssi .T 6 8) (withPar { parInitial with feKind := .fir }) = [.num 5] := by decide +kernel
/-- P4, k = 1 -/
theorem test_demodStep :
    let t := after (.demodStep .T 2 0) State.reset
    (t.chT.fr.pd, t.chT.fr.rssi.y, t.chT.t2.lock, t.chT.t2.clkPrev, t.chT.rl.acc, t.chT.rl.run) =
      (⟨2, 0⟩, 1, 1, true, 1, 1) := by decide +kernel
/-- V43-2 -/
theorem test_acorr :
    let s := State.reset.setT2 .T { State.reset.t2 .T with sr := 0x2A1E }
    (out (.acorr .T .T2 true 40) s, (after (.acorr .T .T2 true 40) s).chT.t2.sr) =
      ([.bitTok ⟨true, true, 40⟩], 0x543D#32) := by decide +kernel
/-- V43-1, the sixteenth bit, at tolerance 0 and 1 -/
theorem test_acorr_tolerance :
    let s := fun n => (withPar { parInitial with accTol := ⟨n, 0⟩ }).setT2 .T { State.reset.t2 .T with sr := 0x2A1E }
    (out (.acorr .T .T2 false 40) (s 0), out (.acorr .T .T2 false 40) (s 1)) =
      ([.bitTok ⟨false, false, 40⟩], [.bitTok ⟨false, true, 40⟩]) := by decide +kernel
/-- V43-4, the third and fourth samples (the clock is high for any `d` at threshold 0 from rest) -/
theorem test_t2Step :
    let s := fun n => (withPar { parInitial with t2LockN := ⟨3, 3⟩ }).setT2 .T
      { State.reset.t2 .T with clkPrev := true, lock := n }
    let tok : RawTok := ⟨true, 1, 40⟩
    (out (.t2Step .T tok) (s 1), (after (.t2Step .T tok) (s 1)).chT.t2.lock,
      out (.t2Step .T tok) (s 2), (after (.t2Step .T tok) (s 2)).chT.t2.lock) =
      ([], 2, [.bitTok ⟨true, false, 40⟩], 3) := by decide +kernel
/-- V43-3, the third and the last step -/
theorem test_deglitch :
    let s := fun a => State.reset.setChT { State.reset.chT with rl := { State.reset.chT.rl with acc := a } }
    (out (.deglitch .T true) (s 3), out (.deglitch .T false) (s 112), (after (.deglitch .T false) (s 112)).chT.rl.acc) =
      ([.bit true], [.bit false], 96) := by decide +kernel
/-- 00_scope.md rule R6 bounds no `DEGL_W`: at width 9 the ninth bit from the right is kept (rule R224). -/
theorem test_deglitch_wide :
    let s := withPar { parInitial with deglW := ⟨9, 9⟩, deglTh := ⟨9, 9⟩ }
    let u := s.setChT { s.chT with rl := { s.chT.rl with acc := 255 } }
    (refusal .reset s, out (.deglitch .T true) u, (after (.deglitch .T true) u).chT.rl.acc) =
      (none, [.bit true], 511) := by decide +kernel
/-- V43-10, the sample at index 10: `RL.RUN (0, 10)` -/
theorem test_rlStep :
    let s := State.reset.setChT { State.reset.chT with rl := { State.reset.chT.rl with acc := 3, run := 10 } }
    let t := after (.rlStep ⟨true, 0, 40⟩) s
    (t.ret, t.chT.rl) = ([.bitTok (bit false)], ⟨7, true, 1, 2065, 512, 0⟩) := by decide +kernel
/-- V43-7, run 17, and the truncating update of run 8 at 4095 -/
theorem test_rlRun :
    let t := after (.rlRun true 17 40) State.reset
    let u := after (.rlRun true 8 40) (withRlT 4095 0)
    (t.ret, t.chT.rl.bitlen, t.chT.rl.esum, u.chT.rl.bitlen, u.chT.rl.esum) =
      ([.bitTok (bit true), .bitTok (bit true)], 2052, 256, 4028, -2047) := by decide +kernel
/-- V43-6 and V43-7, run 8 at 4096 -/
theorem test_rlRun_sync : out (.rlRun true 4 40) State.reset = [] ∧ out (.rlRun true 8 40) (withRlT 4096 9) = [] ∧
    (after (.rlRun true 8 40) (withRlT 4096 9)).chT.rl = ⟨0, false, 0, 2048, 0, 0⟩ ∧
    (after (.rlRun true 4 40) State.reset).io.events.map (·.ev) = [.sync] := by decide +kernel
theorem test_rlReset : (after (.rlReset .T) (withRlT 4095 7)).chT.rl = ⟨0, false, 0, 2048, 0, 0⟩ := by decide +kernel
/-- 43_bit_sync.md rule R228: an unchanged level grows the run. -/
theorem test_rls1Step : (after (.rls1Step ⟨false, 0, 33⟩) State.reset).chS.rl.run = 1 := by decide +kernel
/-- V43-9, the third run, and V43-8 beyond 1.5 of nominal -/
theorem test_rls1Run :
    let t := after (.rls1Run false 49 33) (withRlS 6197 6325)
    let u := after (.rls1Run false 44 33) (withRlS 7733 6250)
    (t.ret.length, t.chS.rl.spb0, t.chS.rl.spb1, u.chS.rl.spb0, u.io.events.map (·.ev)) = (2, 6234, 6325, 6250, [.sync]) := by
  decide +kernel
/-- P1, bit 15 -/
theorem test_t1c1Bit_captures :
    ((after (.t1c1Bit .RL ⟨true, true, 40⟩) State.reset).chT.decRl.st,
      (after (.t1c1Bit .RL ⟨true, true, 40⟩) State.reset).chT.decRl.rssiPre) = (.lfield, 40) := by decide +kernel
/-- V44-8, bit 30 -/
theorem test_t1c1Bit_rssi :
    let s := { withDecT { decTReset with st := .dataT1, cnt := 2, len := 1, total := 6, L := 3, buf := [(0, 3)] } with
      par := { parInitial with rssiTh := ⟨10, 0⟩ } }
    let t := after (.t1c1Bit .RL ⟨false, false, 4⟩) s
    (t.chT.decRl, t.io.events) = (decTReset, [⟨.rssi, some (.T, .RL), 4, 2, 1⟩]) := by decide +kernel
theorem test_t1c1Idle : (after (.t1c1Idle .RL ⟨true, false, 40⟩) State.reset).chT.decRl = decTReset := by decide +kernel
/-- V44-2, the twelfth bit -/
theorem test_t1c1Lfield :
    let d := (after (.t1c1Lfield .RL (bit true))
      (withDecT { decTReset with st := .lfield, cnt := 11, reg := 0b00110101100#12 })).chT.decRl
    (d.L, d.total, d.buf, d.len, d.st) = (0x15#8, 26, [(0, 0x15#8)], 1, .dataT1) := by decide +kernel
/-- V44-3, the twelfth bit -/
theorem test_t1c1Lfield_invalid :
    let t := after (.t1c1Lfield .RL (bit false)) (withDecT { decTReset with st := .lfield, cnt := 11 })
    (t.chT.decRl, t.io.events) = (decTReset, [⟨.lfield, some (.T, .RL), 1, 11, 0⟩]) := by decide +kernel
/-- V44-4, the fourth trailer bit -/
theorem test_t1c1C1trailer :
    let t := after (.t1c1C1trailer .RL (bit false))
      (withDecT { decTReset with st := .c1Trailer, cnt := 3, reg := 0b110#12, isC1 := true })
    (t.chT.decRl, t.io.events.map (·.ev)) = (decTReset, [.trailer]) := by decide +kernel
/-- V44-6, the eighth bit, frame types A and B -/
theorem test_t1c1C1len :
    let t := fun b => (after (.t1c1C1len .RL (bit true))
      (withDecT { decTReset with st := .c1Len, cnt := 7, reg := 0x7F#12, isC1 := true, isB := b })).chT.decRl
    ((t false).L, (t false).total, (t true).total, (t true).st) = (0xFF#8, 290, 256, .dataC1) := by decide +kernel
/-- V44-5, the eighth bit -/
theorem test_t1c1C1len_cap :
    let t := after (.t1c1C1len .RL (bit true))
      (withDecT { decTReset with st := .c1Len, cnt := 7, isC1 := true, isB := true })
    (t.chT.decRl, t.io.events.map (·.ev)) = (decTReset, [.cap]) := by decide +kernel
/-- V44-7, the twelfth bit of each codeword pair -/
theorem test_t1c1DataT1 :
    let t := fun v b => (after (.t1c1DataT1 .RL (bit b)) (withDecT
      { decTReset with st := .dataT1, cnt := 11, reg := v, len := 1, total := 6, L := 3, buf := [(0, 3)] })).chT.decRl
    ((t 0b01011010100#12 true).buf, (t 0b01011010100#12 true).symErr,
      (t 0b00011101011#12 false).buf, (t 0b00011101011#12 false).symErr) =
      ([(0, 3#8), (1, 0x0F#8)], false, [(0, 3#8), (1, 0xF0#8)], true) := by decide +kernel
/-- P2, the byte 44 after the byte 09 -/
theorem test_t1c1DataC1 :
    (after (.t1c1DataC1 .RL (bit false)) (withDecT
      { decTReset with st := .dataC1, cnt := 7, reg := 0x22#12, len := 1, total := 10, L := 9, buf := [(0, 9)] })).chT.decRl.buf =
      [(0, 9#8), (1, 0x44#8)] := by decide +kernel
/-- P1, completion -/
theorem test_t1c1Done :
    let t := after (.t1c1Done .RL (bit true)) (withDecT
      { decTReset with st := .done, len := 6, total := 6, L := 3, rssiPre := 40,
                       buf := [(0, 0x03), (1, 0x44), (2, 0xAE), (3, 0x0C), (4, 0x3B), (5, 0x65)] })
    t.chT.decRl = decTReset ∧ t.io.out.map (fun r => { r with ts := .null }) =
      [⟨.T1, false, true, true, false, .null, 40, 40, 0#32, 4, [0x03#8, 0x44#8, 0xAE#8, 0x0C#8]⟩] := by decide +kernel
theorem test_decReset : (after (.decReset .T .RL) (withDecT { decTReset with st := .lfield, cnt := 3 })).chT.decRl =
    decTReset := by decide +kernel
/-- P3, bit 23 -/
theorem test_s1Bit_captures :
    ((after (.s1Bit .RL ⟨false, true, 33⟩) State.reset).chS.decRl.st,
      (after (.s1Bit .RL ⟨false, true, 33⟩) State.reset).chS.decRl.rssiPre) = (.len, 33) := by decide +kernel
theorem test_s1Idle : (after (.s1Idle .RL ⟨true, false, 33⟩) State.reset).chS.decRl = decSReset := by decide +kernel
/-- P3, bit 39 -/
theorem test_s1Len :
    let d := (after (.s1Len .RL (bit true))
      (withDecS { decSReset with st := .len, cnt := 15, half := false, reg := 1 })).chS.decRl
    (d.L, d.total, d.buf, d.len, d.st) = (0x03#8, 6, [(0, 0x03#8)], 1, .data) := by decide +kernel
/-- V44-9, the second bit of the pair 11 -/
theorem test_s1Len_invalid :
    let t := after (.s1Len .RL (bit true)) (withDecS { decSReset with st := .len, cnt := 3, half := true })
    (t.chS.decRl, t.io.events.map (·.ev)) = (decSReset, [.lfield]) := by decide +kernel
/-- V44-10: an invalid pair counts as 0 and sets the sticky flag. -/
theorem test_s1Data :
    let d := (after (.s1Data .RL (bit true)) (withDecS
      { decSReset with st := .data, cnt := 5, half := true, reg := 1, len := 1, total := 6, L := 3, buf := [(0, 3)] })).chS.decRl
    (d.symErr, d.reg, d.cnt, d.st) = (true, 2#8, 6#4, .data) := by decide +kernel
/-- P3, completion -/
theorem test_s1Done :
    let t := after (.s1Done .RL ⟨true, false, 33⟩) (withDecS
      { decSReset with st := .done, len := 6, total := 6, L := 3, rssiPre := 33,
                       buf := [(0, 0x03), (1, 0x44), (2, 0xAE), (3, 0x0C), (4, 0x3B), (5, 0x65)] })
    t.chS.decRl = decSReset ∧ t.io.out.map (fun r => { r with ts := .null }) =
      [⟨.S1, false, true, true, false, .null, 33, 33, 0#32, 4, [0x03#8, 0x44#8, 0xAE#8, 0x0C#8]⟩] := by decide +kernel
/-- V45-1 and V45-2 -/
theorem test_crc16 : [[], [0x00], [0x01], [0xFF]].map (fun b => out (.crc16 b) State.reset) =
    [[.u16 0xFFFF], [.u16 0xFFFF], [.u16 0xC29A], [.u16 0x53B7]] := by decide +kernel
theorem test_crc16_digits :
    out (.crc16 [0x31, 0x32, 0x33, 0x34, 0x35, 0x36, 0x37, 0x38, 0x39]) State.reset = [.u16 0xC2B7] := by decide +kernel
/-- V45-5, V45-9 and V45-10 -/
theorem test_crcchkA : [[0x03, 0x44, 0xAE, 0x0C, 0x3B, 0x65], [0x00, 0xFF, 0xFF], [0x03, 0x44, 0xAE, 0x0C, 0x3B, 0x64],
    [0x09, 0, 0, 0, 0, 0, 0, 0, 0, 0, 0x25, 0x91, 0x55]].map (fun t => out (.crcchkA t) State.reset) =
    [[.bit true], [.bit true], [.bit false], [.bit false]] := by decide +kernel
/-- V45-11 -/
theorem test_crcchkB : out (.crcchkB [0x09, 0x44, 0xAE, 0x0C, 0x78, 0x56, 0x34, 0x12, 0x24, 0x6C]) State.reset =
    [.bit true] := by decide +kernel
/-- V45-6 -/
theorem test_stripA :
    out (.stripA [0x0A, 0x44, 0xAE, 0x0C, 0x78, 0x56, 0x34, 0x12, 0x01, 0x07, 0x91, 0x98, 0x7A, 0xE1, 0x2A]) State.reset =
      [.bytes [0x0A, 0x44, 0xAE, 0x0C, 0x78, 0x56, 0x34, 0x12, 0x01, 0x07, 0x7A]] := by decide +kernel
/-- V45-11 -/
theorem test_stripB : out (.stripB [0x09, 0x44, 0xAE, 0x0C, 0x78, 0x56, 0x34, 0x12, 0x24, 0x6C]) State.reset =
    [.bytes [0x09, 0x44, 0xAE, 0x0C, 0x78, 0x56, 0x34, 0x12]] := by decide +kernel
/-- V45-15 -/
theorem test_serial : [[0x03, 0x44, 0xAE, 0x0C], [0x09, 0x44, 0xAE, 0x0C, 0x78, 0x56],
    [0x09, 0x44, 0xAE, 0x0C, 0x78, 0x56, 0x34, 0x12]].map (fun p => out (.serial p) State.reset) =
    [[.u32 0], [.u32 0x5678], [.u32 0x12345678]] := by decide +kernel
/-- P2 (a): the record of a frame type B telegram -/
theorem test_emit :
    let s := withDecT
      { decTReset with
        st := .done, isC1 := true, isB := true, crcOk := true, len := 10, total := 10, L := 9
        ts := .host 5, rssiPre := 40, rssiEnd := 41
        buf := [(0, 0x09), (1, 0x44), (2, 0xAE), (3, 0x0C), (4, 0x78), (5, 0x56), (6, 0x34), (7, 0x12), (8, 0x24),
          (9, 0x6C)] }
    (after (.emit .T .RL .C1) s).io.out = [⟨.C1, true, true, true, false, .host 5, 40, 41, 0x12345678, 8,
      [0x09, 0x44, 0xAE, 0x0C, 0x78, 0x56, 0x34, 0x12]⟩] := by decide +kernel

/-! ### Witnesses: a concrete state and operands for the hypotheses of each obligation -/

/-- Reset, with an operation requested. -/
def requesting (bs : List Byte) : State := { State.reset with ops := bs, phase := .running }

/-- A T1/C1 decoder in a data state: the telegram 03 …, of six bytes, one stored. -/
def dataT (st : StT) (cnt : BitVec 4) (len : Nat) : DecT :=
  { decTReset with st := st, cnt := cnt, L := 3, total := 6, len := len, buf := [(0, 3)], isC1 := decide (st = .dataC1) }

/-- An S1 decoder in its data state. -/
def dataS (cnt : BitVec 4) (len : Nat) : DecS :=
  { decSReset with st := .data, cnt := cnt, L := 3, total := 6, len := len, buf := [(0, 3)] }

theorem witness_StepRunsDecoded : decode (requesting [0x04, 0x23]).ops = .ok (.tsGet, [0x23]) ∧
    decode State.reset.ops = .error .noOperation := by decide +kernel
theorem witness_DecodeEncode : (Instr.crcchkA (List.replicate 290 0#8)).wellFormed = true ∧
    (Instr.crcchkB (List.replicate 3 0#8)).wellFormed = true ∧ (Instr.emit .S .T2 .S1).wellFormed = true := by
  decide +kernel
theorem witness_EncodeDecode : decode [0x36, 0x01, 0x01, 0x03, 0xFF] = .ok (.slice .S (mkRat (-1) 4), [0xFF]) := by
  decide +kernel
theorem witness_ResetValues : parOk State.reset.par = true := by decide +kernel
theorem witness_ResetReproducible :
    let s := State.reset
    let u := { withRlT 4095 7 with cfg := 0, dcnt := 3, phase := .ended }
    (s.par = u.par ∧ s.inp = u.inp ∧ s.io = u.io ∧ s.ops = u.ops) ∧ s ≠ u := by decide +kernel
theorem witness_RequestsRefused :
    parOk { parInitial with mavgLen := 0 } = false ∧ (requesting []).phase ≠ .configuring ∧
    ({ State.reset with phase := .ended } : State).phase = .ended ∧
    (State.reset.phase ≠ .ended ∧ ({ State.reset with inp := List.replicate 4095 0 } : State).inp.length <
      State.reset.par.chunkBytes) ∧
    (State.reset.chT.dec .RL).st ≠ .done ∧ (State.reset.chS.dec .T2).st ≠ .len ∧
    State.reset.par.ppP ≤ 2 := by decide +kernel
theorem witness_CfgLoadValidates : State.reset.phase = .configuring ∧ cfgLegal State.reset.par 0x00006D02 = true ∧
    cfgLegal State.reset.par 0x00006F02 = false := by decide +kernel
theorem witness_ChunkRunsSamples :
    let s := { withPar { parInitial with chunkBytes := 2 } with inp := [0x82, 0x7F] }
    s.phase ≠ .ended ∧ s.par.chunkBytes ≤ s.inp.length := by decide +kernel
theorem witness_ChunkSplit :
    let s := { withPar { parInitial with chunkBytes := 2 } with inp := [0x82, 0x7F, 0x7E, 0x7F] }
    s.phase ≠ .ended ∧ s.par.chunkBytes % 2 = 0 ∧ 2 * s.par.chunkBytes ≤ s.inp.length := by decide +kernel
theorem witness_EndDiscards : State.reset.phase ≠ .ended := by decide +kernel
theorem witness_FirStepConvolves :
    (firState State.reset (.fe .T .I) = some ⟨[0, 0, 0], 0⟩ ∧
      FirOk (firCoef State.reset.par (.fe .T .I)).length ⟨[0, 0, 0], 0⟩) ∧
    (firState (withFront fun f => { f with feI := { f.feI with fir := ⟨[1, 0, 0], 2⟩ } }) (.fe .T .I) =
      some ⟨[1, 0, 0], 2⟩ ∧ FirOk (firCoef State.reset.par (.fe .T .I)).length ⟨[1, 0, 0], 2⟩) :=
  ⟨⟨by decide +kernel, by decide +kernel, by decide +kernel⟩, by decide +kernel, by decide +kernel, by decide +kernel⟩
theorem witness_FirImpulse : firCoef State.reset.par (.fe .T .I) = 2 :: [3, 5] ∧
    firState State.reset (.fe .T .I) = some ⟨List.replicate ([3, 5].length + 1) 0, 0⟩ := by decide +kernel
theorem witness_IirStepCascade : (State.reset.t2 .T).bpf.h.length = 3 * State.reset.par.t2Sect.get .T := by decide +kernel
theorem witness_PpfStepAccumulates :
    (((State.reset.front .T).fe .I).ppf.ph < State.reset.par.ppP ∧
      ((State.reset.front .T).fe .I).ppf.ph ≠ State.reset.par.ppP - 1) ∧
    (let s := after (.ppfStep .T .I 1) State.reset
     ((s.front .T).fe .I).ppf.ph < s.par.ppP ∧ ((s.front .T).fe .I).ppf.ph = s.par.ppP - 1) := by decide +kernel
theorem witness_MavgStepSums :
    let m := ((State.reset.front .T).fe .Q).mavg
    MavgOk State.reset.par.mavgLen m ∧ State.reset.par.numerics = .rational ∧ m.sum = m.hist.sum :=
  ⟨⟨by decide +kernel, by decide +kernel⟩, by decide +kernel, by decide +kernel⟩
theorem witness_DcremOffsets : numOfInt State.reset.par.numerics 127 = 127 ∧ State.reset.par.dcOffset = .d127 ∧
    (let p := { parInitial with dcOffset := .d127half }
     p.dcOffset = .d127half ∧ p.numerics = .rational) := by decide +kernel
theorem witness_FsplitMixes : State.reset.par.fsCos.getD State.reset.fsIdx 0 = 1 ∧
    State.reset.par.fsNsin.getD State.reset.fsIdx 0 = 0 := by decide +kernel
theorem witness_FeLpfByKind : State.reset.par.feKind = .mavg ∧
    (withPar { parInitial with feKind := .fir }).par.feKind = .fir ∧
    (withPar { parInitial with feKind := .ppf }).par.feKind = .ppf := by decide +kernel
theorem witness_DecimCounts : (withPar { parInitial with feKind := .ppf }).par.feKind = .ppf ∧
    (State.reset.par.feKind ≠ .ppf ∧ State.reset.dcnt + 1 ≠ State.reset.cfg.toNat % 256) ∧
    (let s := { State.reset with dcnt := 1 }
     s.par.feKind ≠ .ppf ∧ s.dcnt + 1 = s.cfg.toNat % 256) := by decide +kernel

/-- The products of a sample with a previous one. -/
def crossTerms (ip qp i q : NumT) : NumT × NumT :=
  (numAdd .rational (numMul .rational i ip) (numMul .rational q qp),
    numSub .rational (numMul .rational q ip) (numMul .rational i qp))

/-- From the previous sample (1, 0) the pair (re, im) is the sample: all eight directions, the origin, and what the
rational carrier represents. -/
theorem angleLt_zero_right : AngleLt 0 1 1 0 := by
  refine ⟨by simp, by simp, ?_⟩
  have a : Complex.arg ⟨((1 : NumT) : ℝ), ((0 : NumT) : ℝ)⟩ = 0 := by
    rw [Complex.arg_eq_zero_iff]; simp
  have b : Complex.arg ⟨((0 : NumT) : ℝ), ((1 : NumT) : ℝ)⟩ = Real.pi / 2 := by
    rw [Complex.arg_eq_pi_div_two_iff]; simp
  rw [a, b]
  exact Real.pi_div_two_pos

/-- Two samples after (1, 0), the second a quarter turn on, and the values that `PDISC.EXACT` returns. -/
theorem witness_PdiscExactContract_monotone : let s := withFront fun f => { f with pd := ⟨1, 0⟩ }
    AngleLt (discIm s.par.numerics (s.front .T).pd 1 0) (discRe s.par.numerics (s.front .T).pd 1 0)
      (discIm s.par.numerics (s.front .T).pd 0 1) (discRe s.par.numerics (s.front .T).pd 0 1) ∧
    out (.pdiscExact .T 1 0) s = [.num 0] ∧ out (.pdiscExact .T 0 1) s = [.num (mkRat 1 2)] := by
  refine ⟨?_, by decide +kernel, by decide +kernel⟩
  have e : discIm .rational ⟨1, 0⟩ 1 0 = 0 ∧ discRe .rational ⟨1, 0⟩ 1 0 = 1 ∧ discIm .rational ⟨1, 0⟩ 0 1 = 1 ∧
      discRe .rational ⟨1, 0⟩ 0 1 = 0 := by decide +kernel
  show AngleLt (discIm .rational ⟨1, 0⟩ 1 0) (discRe .rational ⟨1, 0⟩ 1 0) (discIm .rational ⟨1, 0⟩ 0 1)
    (discRe .rational ⟨1, 0⟩ 0 1)
  rw [e.1, e.2.1, e.2.2.1, e.2.2.2]
  exact angleLt_zero_right

theorem witness_PdiscExactContract : ((withFront fun f => { f with pd := ⟨1, 0⟩ }).front .T).pd = ⟨1, 0⟩ ∧
    ([(0, 0), (1, 0), (-1, 0), (0, 1), (0, -1), (1, 1), (-1, -1), (-1, 1), (1, -1)].all fun p : NumT × NumT =>
      decide (crossTerms 1 0 p.1 p.2 = p)) = true ∧
    numRepresents State.reset.par.numerics (mkRat (-3) 4) = true ∧ State.reset.par.numerics = .rational := by decide +kernel
theorem witness_PdiscOtherVariants : State.reset.par.numerics = .rational ∧ crossTerms 2 1 1 3 = (5, 5) ∧
    AngleLt 0 1 1 0 := ⟨by decide +kernel, by decide +kernel, angleLt_zero_right⟩
theorem witness_DcblockDecays : State.reset.par.numerics = .rational ∧ (State.reset.front .S).dcb = ⟨0, 0⟩ ∧
    numAdd State.reset.par.numerics
      (numMul State.reset.par.numerics State.reset.par.dcbK (numSub State.reset.par.numerics 4 0))
      (numMul State.reset.par.numerics State.reset.par.dcbK 0) = 2 ∧
    (withPar { parInitial with dcbK := 0 }).par.dcbK = 0 := by decide +kernel
theorem witness_RssiSmooths : State.reset.par.numerics = .rational ∧ (0 : NumT) ≤ 10 ∧
    (10 : NumT) * 10 = 6 * 6 + 8 * 8 ∧ State.reset.cfg.toNat % 256 ≠ 0 := by decide +kernel
theorem witness_AcorrWindow : parInitial.accCode.t = 0x543D#32 ∧ parInitial.accW.t = 16 ∧
    (0x543C#32).toNat % 2 ^ 16 = Nat.xor 0x543D (2 ^ 0) ∧ (0xFFFFD43D#32).toNat % 2 ^ 16 = Nat.xor 0x543D (2 ^ 15) := by
  decide +kernel

/-- What the time-2 band-pass filter of chain T gives from rest. -/
def clockValue (s : State) (d : NumT) : NumT := retNum (after (.iirStep .T (d * d)) s)

/-- The four cases of the lock counter; the last two hypotheses of its last case, at their boundary. -/
theorem witness_T2StepLocks :
    let s := fun (th : NumT) (n lock : Nat) (prev : Bool) =>
      (withPar { parInitial with t2LockN := ⟨n, n⟩, t2ClkTh := th }).setT2 .T
        { State.reset.t2 .T with clkPrev := prev, lock := lock }
    (s 4 2 0 false).par.t2ClkTh ≤ clockValue (s 4 2 0 false) 2 ∧
    (s 4 3 1 true).par.t2ClkTh ≤ clockValue (s 4 3 1 true) 2 ∧ 1 < 3 ∧ 1 + 1 ≠ 3 ∧
    (s 4 2 1 true).par.t2ClkTh ≤ clockValue (s 4 2 1 true) 2 ∧ 1 < 2 ∧ 1 + 1 = 2 ∧
    clockValue (s 5 2 0 false) 2 < (s 5 2 0 false).par.t2ClkTh ∧
    ((s 4 2 2 true).t2 .T).clkPrev = true ∧ (s 4 2 2 true).par.t2LockN.get .T ≤ ((s 4 2 2 true).t2 .T).lock := by
  decide +kernel
theorem witness_RunLengthSteps :
    let s := State.reset.setChT { State.reset.chT with rl := { State.reset.chT.rl with acc := 3 } }
    let u := State.reset.setChS { State.reset.chS with rl := { State.reset.chS.rl with acc := 3 } }
    out (.deglitch .T false) State.reset = [.bit State.reset.chT.rl.lvlPrev] ∧
    out (.deglitch .T true) s = [.bit (!s.chT.rl.lvlPrev)] ∧
    out (.deglitch .S false) State.reset = [.bit State.reset.chS.rl.lvlPrev] ∧
    out (.deglitch .S true) u = [.bit (!u.chS.rl.lvlPrev)] := by decide +kernel

/-- Too short; at half a bit; just above half a bit with a positive new estimate; with one that is not. -/
theorem witness_RlRunCloses :
    (0 < State.reset.chT.rl.bitlen ∧ 4 < State.reset.par.rlMinRun.t) ∧
    (0 < (withRlT 4096 0).chT.rl.bitlen ∧ 2 * ((8 : Int) * 256) ≤ (withRlT 4096 0).chT.rl.bitlen) ∧
    (State.reset.par.rlMinRun.t ≤ 8 ∧ (withRlT 4095 0).chT.rl.bitlen < 2 * ((8 : Int) * 256) ∧
      runPeriods 4095 8 = 1 ∧ runResidual 4095 8 = -2047 ∧ 0 < piBitlen parInitial 4095 (-2047) (0 + -2047) 1) ∧
    piBitlen parInitial 4095 (-2047) (-2100000 + -2047) 1 ≤ 0 := by decide +kernel

/-- V43-8 and V43-9: too short; at half a symbol; an estimate kept; one below and one above the permitted range. -/
theorem witness_Rls1RunCloses :
    (spbOf State.reset.chS.rl true = 6250 ∧ 4 < State.reset.par.rlMinRun.s) ∧
    (spbOf (withRlS 6197 6144).chS.rl true = 6144 ∧ 2 * ((12 : Int) * 256) ≤ 6144) ∧
    (State.reset.par.rlMinRun.s ≤ 24 ∧ (6250 : Int) < 2 * ((24 : Int) * 256) ∧ runPeriods 6250 24 = 1 ∧
      State.reset.par.nomBitlen.s ≤ 2 * ((6250 + ((24 : Int) * 256).tdiv 1).tdiv 2) ∧
      2 * ((6250 + ((24 : Int) * 256).tdiv 1).tdiv 2) ≤ 3 * State.reset.par.nomBitlen.s) ∧
    (runPeriods 3674 8 = 1 ∧ 2 * ((3674 + ((8 : Int) * 256).tdiv 1).tdiv 2) < State.reset.par.nomBitlen.s) ∧
    (runPeriods 7733 44 = 1 ∧ 3 * State.reset.par.nomBitlen.s < 2 * ((7733 + ((44 : Int) * 256).tdiv 1).tdiv 2)) := by
  decide +kernel
theorem witness_RunEmissions : 4 < State.reset.par.rlMinRun.t ∧
    (0 < State.reset.chT.rl.bitlen ∧ State.reset.par.rlMinRun.t ≤ 5 ∧
      State.reset.chT.rl.bitlen < 2 * ((5 : Int) * 256)) ∧
    (0 < spbOf State.reset.chS.rl true ∧ State.reset.par.rlMinRun.s ≤ 13 ∧
      spbOf State.reset.chS.rl true < 2 * ((13 : Int) * 256)) ∧
    ((24 : Int) * 256 = 3 * State.reset.chT.rl.bitlen ∧ State.reset.chT.rl.esum.tdiv State.reset.par.rlKi = 0) := by
  decide +kernel
theorem witness_BitDispatch :
    (State.reset.chT.dec .RL).st ≠ .done ∧ (State.reset.chS.dec .RL).st ≠ .done ∧
    (((withDecT (dataT .dataT1 2 1)).chT.dec .RL).st = .dataT1 ∧ (-1 : NumT) < State.reset.par.rssiTh.t) ∧
    (((withDecS (dataS 2 1)).chS.dec .RL).st = .data ∧ (-1 : NumT) < State.reset.par.rssiTh.s) := by decide +kernel
theorem witness_IdleHandlers : (State.reset.chT.dec .T2).st = .idle ∧ (State.reset.chS.dec .T2).st = .idle := by decide +kernel

/-- The twelfth bit: an incomplete field, either mode word, an invalid codeword, and L = 3. -/
theorem witness_LfieldHandler :
    let d := fun cnt reg => ((withDecT { decTReset with st := .lfield, cnt := cnt, reg := reg }).chT.dec .RL)
    ((d 10 0).st = .lfield ∧ (d 10 0).cnt.toNat < 11) ∧
    (11 ≤ (d 11 0x2A6).cnt.toNat ∧ BitVec.ofNat 12 (2 * (d 11 0x2A6).reg.toNat + 0) = parInitial.c1ModeA) ∧
    (BitVec.ofNat 12 (2 * (d 11 0x2A1).reg.toNat + 1) = parInitial.c1ModeB ∧ parInitial.c1ModeB ≠ parInitial.c1ModeA) ∧
    (parInitial.dec3of6.getD ((0x000 : BitVec 12).toNat / 64) none = none) ∧
    (BitVec.ofNat 12 (2 * (d 11 0x2C5).reg.toNat + 1) = 0x58B#12 ∧
      parInitial.dec3of6.getD ((0x58B#12).toNat / 64) none = some 0 ∧
      parInitial.dec3of6.getD ((0x58B#12).toNat % 64) none = some 3 ∧
      3 ≤ parInitial.lenA.getD 3 0 ∧ parInitial.lenA.getD 3 0 ≤ parInitial.cap) ∧
    ({ parInitial with cap := 5 } : Par).cap < parInitial.lenA.getD 3 0 := by decide +kernel
theorem witness_C1HeaderHandlers :
    let d := fun cnt reg => { decTReset with st := StT.c1Trailer, cnt := cnt, reg := reg, isC1 := true }
    let e := fun cnt reg b => { decTReset with st := StT.c1Len, cnt := cnt, reg := reg, isC1 := true, isB := b }
    ((withDecT (d 2 0)).chT.dec .RL = d 2 0 ∧ (d 2 0).cnt.toNat < 3) ∧
    (3 ≤ (d 3 6).cnt.toNat ∧ BitVec.ofNat 4 (2 * (d 3 6).reg.toNat + 1) = parInitial.c1Trailer) ∧
    BitVec.ofNat 4 (2 * (d 3 6).reg.toNat + 0) ≠ parInitial.c1Trailer ∧
    ((withDecT (e 6 0 true)).chT.dec .RL = e 6 0 true ∧ (e 6 0 true).cnt.toNat < 7) ∧
    (7 ≤ (e 7 0 true).cnt.toNat ∧ (BitVec.ofNat 8 (2 * (e 7 0 true).reg.toNat + 1)).toNat + 1 < 3) ∧
    (parInitial.lenA.getD (BitVec.ofNat 8 (2 * (e 7 0x7F false).reg.toNat + 1)).toNat 0 = parInitial.cap) := by
  decide +kernel
theorem witness_DataHandlersT :
    let d := fun st cnt len => (withDecT (dataT st cnt len)).chT.dec .RL
    ((d .dataT1 10 1).st = .dataT1 ∧ (d .dataT1 10 1).len < parInitial.cap ∧ (d .dataT1 10 1).cnt.toNat < 11) ∧
    (11 ≤ (d .dataT1 11 4).cnt.toNat ∧ (d .dataT1 11 4).len + 1 ≠ (d .dataT1 11 4).total) ∧
    (d .dataT1 11 5).len + 1 = (d .dataT1 11 5).total ∧
    ((d .dataC1 6 1).st = .dataC1 ∧ (d .dataC1 6 1).cnt.toNat < 7) ∧
    (7 ≤ (d .dataC1 7 4).cnt.toNat ∧ (d .dataC1 7 4).len + 1 ≠ (d .dataC1 7 4).total) ∧
    (d .dataC1 7 5).len + 1 = (d .dataC1 7 5).total := by decide +kernel
theorem witness_S1LenHandler :
    let d := fun cnt half reg => (withDecS { decSReset with st := .len, cnt := cnt, half := half, reg := reg }).chS.dec .RL
    ((d 14 false 1).st = .len ∧ (d 14 false 1).cnt.toNat % 2 = 0) ∧
    ((d 3 true 0).cnt.toNat % 2 = 1 ∧ parInitial.manch.getD (2 * (d 3 true 0).half.toNat + 1) none = none) ∧
    (parInitial.manch.getD (2 * (d 13 false 0).half.toNat + 1) none = some true ∧ (d 13 false 0).cnt.toNat < 15) ∧
    ((d 15 false 1).cnt.toNat = 15 ∧ BitVec.ofNat 8 (2 * (d 15 false 1).reg.toNat + 1) = 3#8 ∧
      3 ≤ parInitial.lenA.getD 3 0 ∧ parInitial.lenA.getD 3 0 ≤ parInitial.cap) ∧
    ({ parInitial with cap := 5 } : Par).cap < parInitial.lenA.getD 3 0 := by decide +kernel
theorem witness_S1DataHandler :
    let d := fun cnt len => (withDecS (dataS cnt len)).chS.dec .RL
    ((d 14 1).st = .data ∧ (d 14 1).len < parInitial.cap ∧ (d 14 1).cnt.toNat % 2 = 0) ∧
    ((d 13 1).cnt.toNat % 2 = 1 ∧ (d 13 1).cnt.toNat < 15) ∧
    ((d 15 4).cnt.toNat = 15 ∧ (d 15 4).len + 1 ≠ (d 15 4).total) ∧
    (d 15 5).len + 1 = (d 15 5).total := by decide +kernel
theorem witness_DoneHandlers : ((withDecT (dataT .done 0 6)).chT.dec .RL).st = .done ∧
    ((withDecS { dataS 0 6 with st := .done }).chS.dec .RL).st = .done := by decide +kernel

theorem memRead_first (a : Nat) (h : 1 ≤ a) : memRead [(0, 3)] a = 0#8 := by
  unfold memRead
  rw [if_neg (by omega)]
  rfl

/-- A decoder in its data phase is as between two operations. -/
theorem dataT_ok : DecTOk parInitial (dataT .dataT1 11 1) where
  notDone := by decide
  idle := by decide
  field := by decide
  header := by decide
  data := by intro _; decide +kernel
  beyond := memRead_first
  c1 := by decide
  frameB := by decide
  symErr := by decide
  pending := by decide +kernel
  canonical := by decide +kernel

/-- An S1 decoder in its data phase is as between two operations. -/
theorem dataS_ok : DecSOk parInitial (dataS 15 1) where
  notDone := by decide
  idle := by decide
  header := by decide
  data := by intro _; decide +kernel
  beyond := memRead_first
  symErr := by decide
  pending := by decide +kernel
  canonical := by decide +kernel

/-- An idle T1/C1 decoder is as between two operations. -/
theorem idleT_ok (p : Par) : DecTOk p decTReset where
  notDone := by decide
  idle := fun _ => rfl
  field := by decide
  header := by decide
  data := fun h => absurd h (by decide)
  beyond := fun _ _ => rfl
  c1 := by decide
  frameB := by decide
  symErr := by decide
  pending := by decide +kernel
  canonical := by decide +kernel

/-- An idle S1 decoder is as between two operations. -/
theorem idleS_ok (p : Par) : DecSOk p decSReset where
  notDone := by decide
  idle := fun _ => rfl
  header := by decide
  data := fun h => absurd h (by decide)
  beyond := fun _ _ => rfl
  symErr := by decide
  pending := by decide +kernel
  canonical := by decide +kernel

theorem witness_ForwardTransitions :
    (DecTOk (withDecT (dataT .dataT1 11 1)).par ((withDecT (dataT .dataT1 11 1)).chT.dec .RL) ∧
      ∃ t, exec (.t1c1Bit .RL (bit true)) (withDecT (dataT .dataT1 11 1)) = .next t) ∧
    (DecSOk (withDecS (dataS 15 1)).par ((withDecS (dataS 15 1)).chS.dec .RL) ∧
      ∃ t, exec (.s1Bit .RL (bit true)) (withDecS (dataS 15 1)) = .next t) :=
  ⟨⟨dataT_ok, _, rfl⟩, ⟨dataS_ok, _, rfl⟩⟩
theorem witness_CrcPartition : 2 ≤ [1#8, 2#8].length ∧ (List.replicate 128 0#8).length ≤ 128 ∧
    (List.replicate 129 0#8).length = 129 ∧ 130 ≤ (List.replicate 130 0#8).length := by decide +kernel
theorem witness_CrcRoundTrip : State.reset.par.crcPoly ≠ 0#16 ∧
    (withPar { parInitial with crcPoly := 0x8000 }).par.crcPoly ≠ 0#16 ∧
    2 < (frameA State.reset.par.crcPoly [0x03]).length ∧ 2 < (frameB State.reset.par.crcPoly [0x03]).length := by
  decide +kernel

theorem firReset_ok (n : Nat) (h : 0 < n) : FirOk n (firReset n) := ⟨by simp [firReset], h⟩

theorem feReset_ok (c : Chain) : FeOk parInitial c (feReset parInitial c) where
  mavg := ⟨by simp [feReset, mavgReset], by cases c <;> decide⟩
  fir := firReset_ok _ (by cases c <;> decide +kernel)
  ppf := ⟨by cases c <;> decide, by simp [feReset, ppfReset],
    fun _ hf => by rw [List.eq_of_mem_replicate hf]; exact firReset_ok _ (by cases c <;> decide +kernel), fun _ => rfl⟩

theorem frontReset_ok (c : Chain) : FrontOk parInitial c (frontReset parInitial c) :=
  ⟨feReset_ok c, feReset_ok c, firReset_ok _ (by cases c <;> decide +kernel)⟩

theorem t2Reset_ok (c : Chain) : T2Ok parInitial c (t2Reset parInitial c) :=
  ⟨by simp [t2Reset, iirReset], Nat.zero_le _⟩

/-- A state that asks for `DECIM` and steps. -/
theorem witness_ShapesKept : ShapesOk (requesting [0x23]) ∧ SumsOk (requesting [0x23]) ∧
    ∃ t, step (requesting [0x23]) = .next t :=
  ⟨⟨by decide +kernel, frontReset_ok .T, frontReset_ok .S, t2Reset_ok .T, t2Reset_ok .S, by decide +kernel,
      by decide +kernel, by decide +kernel⟩,
    ⟨fun c x => by cases c <;> cases x <;> exact (feReset_ok _).mavg,
      fun c x => by cases c <;> cases x <;> (unfold SumOk; decide +kernel)⟩,
    _, rfl⟩
theorem witness_DecodersKept : DecodersOk (requesting [0x50, 0x01, 0x03, 0x50, 0x00]) ∧
    ∃ t, step (requesting [0x50, 0x01, 0x03, 0x50, 0x00]) = .next t :=
  ⟨⟨by
      have h : ∀ n : Fin 256, lenA parInitial (BitVec.ofNat 8 n) ≤ 290 := by decide +kernel
      intro l
      have := h ⟨l.toNat, l.isLt⟩
      rw [BitVec.ofNat_toNat, BitVec.setWidth_eq] at this
      exact this,
    fun a => by cases a <;> exact idleT_ok _, fun a => by cases a <;> exact idleS_ok _⟩,
    stepped_next (by decide +kernel)⟩
theorem witness_EstimatesKept : EstimatesOk (requesting [0x44, 0x01, 0x11, 0x50, 0x00]) ∧
    ∃ t, step (requesting [0x44, 0x01, 0x11, 0x50, 0x00]) = .next t :=
  ⟨⟨by decide +kernel, by decide +kernel, by decide +kernel, by decide +kernel⟩, stepped_next (by decide +kernel)⟩
theorem witness_GateKept : GateOk (requesting [0x23]) ∧ ∃ t, step (requesting [0x23]) = .next t :=
  ⟨⟨Or.inl rfl, by decide +kernel, by decide +kernel, by decide +kernel⟩, _, rfl⟩
theorem witness_WholeMachineFrame : ∃ t, step (requesting [0x04]) = .next t := ⟨_, rfl⟩

/-- The chains S of the two cores differ; the front end is a moving average, then polyphase with every phase 0, then
polyphase with chain S off and chain T alone at phase 1. -/
theorem witness_ChainIndependence :
    let s := fun p : Par => withPar p
    let u := fun p : Par => (withPar p).setChS { (withPar p).chS with rl := { (withPar p).chS.rl with run := 7 } }
    let p := { parInitial with feKind := .ppf }
    let one := fun v : State => after (.feLpf .T 1 1) { v with cfg := 0x00000702 }
    ((s parInitial).cfg = (u parInitial).cfg ∧ (s parInitial).dcnt = (u parInitial).dcnt ∧
      (s parInitial).fsIdx = (u parInitial).fsIdx ∧ (s parInitial).par.feKind ≠ .ppf ∧
      (s parInitial).chT = (u parInitial).chT ∧ (s parInitial).chS ≠ (u parInitial).chS) ∧
    (p.feKind = .ppf ∧ ([(Chain.T, Chan.I), (.T, .Q), (.S, .I), (.S, .Q)].all fun x =>
      decide ((((s p).front x.1).fe x.2).ppf.ph = 0) && decide ((((u p).front x.1).fe x.2).ppf.ph = 0)) = true) ∧
    (chainEnabled (one (s p)).cfg .S = false ∧ ([one (s p), one (u p)].all fun v => [Chan.I, .Q].all fun x =>
      decide (((v.front .T).fe x).ppf.ph = 1) && decide (((v.front .S).fe x).ppf.ph = 0)) = true) ∧
    refusal (.sampleStep 130 120) (s parInitial) = none ∧ refusal (.sampleStep 130 120) (u p) = none ∧
    refusal (.sampleStep 130 120) (one (u p)) = none := by
  decide +kernel

/-- A code for the default table: the codewords of 30_encoding.md rule R110, by nibble. -/
def code3of6 (n : BitVec 4) : BitVec 6 :=
  [0b010110#6, 0b001101#6, 0b001110#6, 0b001011#6, 0b011100#6, 0b011001#6, 0b011010#6, 0b010011#6,
    0b101100#6, 0b100101#6, 0b100110#6, 0b100011#6, 0b110100#6, 0b110001#6, 0b110010#6, 0b101001#6].getD n.toNat 0

/-- Tokens that carry the bits, every second one flagged. -/
def carrying (r : NumT) (bs : List Bool) : List BitTok := bs.zipIdx.map fun x => ⟨x.1, decide (x.2 % 2 = 1), r⟩

theorem witness_FrameReceivedT :
    let t : List Byte := [0x03, 0x44, 0xAE, 0x0C, 0x3B, 0x65]
    let b : List Byte := [0x09, 0x44, 0xAE, 0x0C, 0x78, 0x56, 0x34, 0x12, 0x24, 0x6C]
    (State.reset.chT.dec .RL = decTReset ∧ 6 ≤ State.reset.par.cap ∧
      (∀ n, State.reset.par.dec3of6.getD (code3of6 n).toNat none = some n) ∧
      codedByte code3of6 3 ≠ bitsMsb State.reset.par.c1ModeA ∧ codedByte code3of6 3 ≠ bitsMsb State.reset.par.c1ModeB ∧
      t.length = State.reset.par.lenA.getD (3 : Byte).toNat 0) ∧
    Carries State.reset.par.rssiTh.t 40 (t.flatMap (codedByte code3of6)) (carrying 40 (t.flatMap (codedByte code3of6))) ∧
    (State.reset.par.c1ModeA ≠ State.reset.par.c1ModeB ∧ b.length = (9 : Byte).toNat + 1) ∧
    Carries State.reset.par.rssiTh.t 40
      (bitsMsb State.reset.par.c1ModeB ++ bitsMsb State.reset.par.c1Trailer ++ b.flatMap rawByte)
      (carrying 40 (bitsMsb State.reset.par.c1ModeB ++ bitsMsb State.reset.par.c1Trailer ++ b.flatMap rawByte)) :=
  ⟨by decide +kernel, ⟨by decide +kernel, by decide +kernel, by decide +kernel⟩, by decide +kernel,
    ⟨by decide +kernel, by decide +kernel, by decide +kernel⟩⟩

/-- Both tables that 30_encoding.md rule R113 allows. -/
theorem witness_FrameReceivedS :
    let t : List Byte := [0x03, 0x44, 0xAE, 0x0C, 0x3B, 0x65]
    let code := fun b : Bool => (!b, b)
    let swapped := fun b : Bool => (b, !b)
    (State.reset.chS.dec .RL = decSReset ∧ 6 ≤ State.reset.par.cap ∧
      (∀ m, State.reset.par.manch.getD (2 * (code m).1.toNat + (code m).2.toNat) none = some m) ∧
      (∀ m, [none, some false, some true, none].getD (2 * (swapped m).1.toNat + (swapped m).2.toNat) none = some m) ∧
      t.length = State.reset.par.lenA.getD (3 : Byte).toNat 0) ∧
    Carries State.reset.par.rssiTh.s 33 (t.flatMap (manchByte code)) (carrying 33 (t.flatMap (manchByte code))) :=
  ⟨by decide +kernel, ⟨by decide +kernel, by decide +kernel, by decide +kernel⟩⟩

end Sys2Proof.Tests
end

section
/-! PROOFS. Reset, the frame of the whole machine, and the decimation gate (10_state.md). The one inversion lemma of
this part is `exec_effect`: an operation that answers a next state is a `RESET`, a `CFG.LOAD`, or an operation of the
running core, whose frame is `CoreFrame`. -/

namespace Sys2Proof.Machine

open Sys2Proof

/-! ### The decimation gate's counter (10_state.md rule R28) -/

/-- The range of the gate's counter under a configuration: below the rate, and 0 with a polyphase front end. -/
structure GateRange (par : Par) (cfg : BitVec 32) (dcnt : Nat) : Prop where
  range : par.feKind ≠ .ppf → dcnt < cfgDecim cfg
  unused : par.feKind = .ppf → dcnt = 0

/-- The gate's invariant, its last two clauses as one. -/
theorem gateOk_iff (s : State) :
    GateOk s ↔ (s.cfg = cfgDefault ∨ cfgLegal s.par s.cfg = true) ∧ (s.phase = .configuring → s.dcnt = 0) ∧
      GateRange s.par s.cfg s.dcnt :=
  ⟨fun ⟨hcfg, hfresh, hrange, hunused⟩ => ⟨hcfg, hfresh, hrange, hunused⟩,
    fun ⟨hcfg, hfresh, hrange, hunused⟩ => ⟨hcfg, hfresh, hrange, hunused⟩⟩

theorem GateRange.zero {cfg : BitVec 32} (par : Par) (h : 0 < cfgDecim cfg) : GateRange par cfg 0 :=
  ⟨fun _ => h, fun _ => rfl⟩

/-- `DECIM` wraps the counter at the rate (41_front_end.md rule R174). -/
theorem GateRange.decimGate {par : Par} {cfg : BitVec 32} {n : Nat} (v : Bool) (h : GateRange par cfg n) :
    GateRange par cfg (decimGate par cfg v n).2 := by
  unfold Machine.decimGate
  by_cases hk : par.feKind = .ppf
  · rwa [if_pos hk]
  · have hn : n < cfgDecim cfg := h.range hk
    rw [if_neg hk]
    by_cases he : n + 1 = cfgDecim cfg
    · rw [if_pos he]
      exact .zero par (by omega)
    · rw [if_neg he]
      exact ⟨fun _ => by dsimp only; omega, fun h' => absurd h' hk⟩

theorem cfgDecim_cfgDefault : cfgDecim cfgDefault = 2 := by decide

/-- Validation refuses the rate 0 (46_system_ops.md rule R341). -/
theorem cfgDecim_pos_of_cfgLegal {par : Par} {w : BitVec 32} (h : cfgLegal par w = true) : 0 < cfgDecim w := by
  simp only [cfgLegal, Bool.and_eq_true, Bool.not_eq_true', decide_eq_false_iff_not] at h
  exact Nat.pos_of_ne_zero (by tauto)

/-! ### The frame of the running core -/

/-- What an operation of the running core leaves alone: `PAR` and the configuration stay, nothing is taken back from the
host, and the gate's counter stays in its range. -/
structure CoreFrame (s t : State) : Prop where
  par : t.par = s.par
  cfg : t.cfg = s.cfg
  io : s.io.Grows t.io
  gate : GateRange s.par s.cfg s.dcnt → GateRange s.par s.cfg t.dcnt

theorem CoreFrame.trans {s t u : State} (h : CoreFrame s t) (h' : CoreFrame t u) : CoreFrame s u where
  par := h'.par.trans h.par
  cfg := h'.cfg.trans h.cfg
  io := h.io.trans h'.io
  gate hg := by
    have := h'.gate
    rw [h.par, h.cfg] at this
    exact this (h.gate hg)

/-- A change that stays off `PAR`, the configuration and the gate's counter. -/
theorem CoreFrame.of_dcnt {s t : State} (hp : t.par = s.par) (hc : t.cfg = s.cfg) (hd : t.dcnt = s.dcnt)
    (hio : s.io.Grows t.io) : CoreFrame s t :=
  ⟨hp, hc, hio, fun hg => by rwa [hd]⟩

/-- A change that also leaves alone what passed to the host. -/
theorem CoreFrame.of_io {s t : State} (hp : t.par = s.par) (hc : t.cfg = s.cfg) (hd : t.dcnt = s.dcnt)
    (hio : t.io = s.io) : CoreFrame s t :=
  .of_dcnt hp hc hd (hio ▸ Io.Grows.refl _)

theorem CoreFrame.refl (s : State) : CoreFrame s s := .of_io rfl rfl rfl rfl

theorem CoreFrame.reply {s t : State} (h : CoreFrame s t) (toks : List Token) : CoreFrame s (t.reply toks) :=
  h.trans (.of_io rfl rfl rfl rfl)

theorem CoreFrame.setFront (s : State) (c : Chain) (f : Front) : CoreFrame s (s.setFront c f) :=
  .of_io (by simp) (by simp) (by simp) (by simp)

theorem CoreFrame.setT2 (s : State) (c : Chain) (r : T2Reg) : CoreFrame s (s.setT2 c r) :=
  .of_io (by simp) (by simp) (by simp) (by simp)

theorem CoreFrame.setChT (s : State) (ch : ChainT) : CoreFrame s (s.setChT ch) := .of_io rfl rfl rfl rfl

theorem CoreFrame.setChS (s : State) (ch : ChainS) : CoreFrame s (s.setChS ch) := .of_io rfl rfl rfl rfl

theorem CoreFrame.setFsIdx (s : State) (n : Nat) : CoreFrame s { s with fsIdx := n } := .of_io rfl rfl rfl rfl

theorem CoreFrame.setIo {s t : State} {io : Io} (h : CoreFrame s t) (hio : s.io.Grows io) :
    CoreFrame s (t.setIo io) :=
  ⟨h.par, h.cfg, hio, h.gate⟩

/-! ### The frame of the shared operations -/

theorem setFirState_frame (s : State) (f : FirInst) (v : Fir) : CoreFrame s (setFirState s f v) := by
  cases f <;> exact .setFront ..

theorem setSyncSr_frame (s : State) (c : Chain) (a : Syn) (sr : BitVec 32) : CoreFrame s (setSyncSr s c a sr) := by
  cases c
  · cases a <;> exact .setChT ..
  · cases a <;> exact .setChS ..

theorem resetDec_frame (s : State) (c : Chain) (a : Syn) : CoreFrame s (resetDec s c a) :=
  .of_io (by simp) (by simp) (by simp) (by simp)

theorem routeInput_frame (s : State) (p : Iq) : CoreFrame s (routeInput s p).2 := by
  unfold routeInput
  split
  · exact .setFsIdx s _
  · exact .refl s

theorem runFeLpf_frame (s : State) (c : Chain) (p : Iq) : CoreFrame s (runFeLpf s c p).2 :=
  (CoreFrame.setFront s c _).trans (.of_io rfl rfl rfl rfl)

theorem feIfEnabled_frame (s : State) (c : Chain) (p : Iq) : CoreFrame s (feIfEnabled s c p).2 := by
  unfold feIfEnabled
  split
  · exact runFeLpf_frame s c p
  · exact .refl s

theorem runDecim_frame (s : State) : CoreFrame s (runDecim s).2 :=
  ⟨rfl, rfl, Io.Grows.refl _, .decimGate s.feValue⟩

theorem demodStep_coreFrame (s : State) (c : Chain) (i q : NumT) : CoreFrame s (demodStep s c i q) := by
  obtain ⟨hpar, hcfg, hio⟩ := demodStep_frame s c i q
  exact .of_dcnt hpar hcfg (by cases c <;> rfl) hio

theorem demodIfEnabled_frame (s : State) (c : Chain) (v : Option Iq) : CoreFrame s (demodIfEnabled s c v) := by
  cases v with
  | none => exact .refl s
  | some p =>
    unfold demodIfEnabled
    dsimp only
    split
    · exact demodStep_coreFrame s c p.1 p.2
    · exact .refl s

theorem sampleStep_frame (s : State) (i q : Byte) : CoreFrame s (sampleStep s i q) := by
  unfold sampleStep
  generalize (dcrem s.par i, dcrem s.par q) = p
  have hT := (routeInput_frame s p).trans (feIfEnabled_frame _ .T (routeInput s p).1.1)
  have hS := hT.trans (feIfEnabled_frame _ .S (routeInput s p).1.2)
  have hgate := hS.trans (runDecim_frame _)
  dsimp only
  split
  · exact (hgate.trans (demodIfEnabled_frame _ .T _)).trans (demodIfEnabled_frame _ .S _)
  · exact hgate

theorem runSamples_frame (bytes : List Byte) : ∀ s : State, CoreFrame s (runSamples s bytes) := by
  match bytes with
  | [] => exact .refl
  | [_] => exact .refl
  | i :: q :: rest => exact fun s => (sampleStep_frame s i q).trans (runSamples_frame rest _)

theorem runChunk_frame (s : State) : CoreFrame s (runChunk s) := by
  obtain ⟨hpar, hcfg, hio, hgate⟩ :=
    runSamples_frame (s.inp.take s.par.chunkBytes) { s with inp := s.inp.drop s.par.chunkBytes }
  exact ⟨hpar, hcfg, hio, hgate⟩

/-! ### The frame of an operation's answer -/

/-- An answer of the running core: any next state is framed, and the host's phase is no longer `configuring`. -/
def RunsCore (s : State) (o : Host.Outcome State Fault Refusal) : Prop :=
  ∀ t, o = .next t → CoreFrame s t ∧ t.phase ≠ .configuring

theorem Phase.touch_ne_configuring (p : Phase) : p.touch ≠ .configuring := by cases p <;> decide

theorem RunsCore.refused (s : State) (e : Refusal) : RunsCore s (.refused e) := by
  intro t h
  cases h

theorem RunsCore.next {s t : State} (h : CoreFrame s t) (hp : t.phase ≠ .configuring) : RunsCore s (.next t) := by
  rintro _ ⟨⟩
  exact ⟨h, hp⟩

theorem RunsCore.reply {s t : State} (h : CoreFrame s t) (toks : List Token) : RunsCore s (.next (t.reply toks)) :=
  .next (h.reply toks) t.phase.touch_ne_configuring

/-- What a T1/C1 decoder operation answers. -/
theorem RunsCore.finishT (s : State) (a : Syn) (r : DecT × Io) (hio : s.io.Grows r.2) :
    RunsCore s (.next (finishT s a r)) :=
  .reply ((CoreFrame.setChT s _).setIo hio) _

/-- What an S1 decoder operation answers. -/
theorem RunsCore.finishS (s : State) (a : Syn) (r : DecS × Io) (hio : s.io.Grows r.2) :
    RunsCore s (.next (finishS s a r)) :=
  .reply ((CoreFrame.setChS s _).setIo hio) _

theorem RunsCore.runHandlerT (s : State) (a : Syn) (st : StT) (r : DecT × Io) (hio : s.io.Grows r.2) :
    RunsCore s (runHandlerT s a st r) := by
  unfold Machine.runHandlerT
  split
  · exact .finishT s a r hio
  · exact .refused s _

theorem RunsCore.runHandlerS (s : State) (a : Syn) (st : StS) (r : DecS × Io) (hio : s.io.Grows r.2) :
    RunsCore s (runHandlerS s a st r) := by
  unfold Machine.runHandlerS
  split
  · exact .finishS s a r hio
  · exact .refused s _

theorem execChunk_runsCore (s : State) : RunsCore s (execChunk s) := by
  unfold execChunk
  split
  · exact .refused s _
  · split
    · exact .refused s _
    · exact .next (runChunk_frame s) (by simp [runChunk])

theorem execEndStream_runsCore (k : Nat) (s : State) : RunsCore s (execEndStream k s) := by
  unfold execEndStream
  split
  · exact .refused s _
  · exact .next (.of_dcnt rfl rfl rfl (.note ..)) (by simp)

theorem execFirStep_runsCore (f : FirInst) (x : NumT) (s : State) : RunsCore s (execFirStep f x s) := by
  unfold execFirStep
  split
  · exact .refused s _
  · exact .reply (setFirState_frame s f _) _

theorem execT2Step_runsCore (c : Chain) (tok : RawTok) (s : State) : RunsCore s (execT2Step c tok s) := by
  cases c
  · exact .reply ((CoreFrame.setChT s _).setIo (t2StepT_grows ..)) _
  · exact .reply ((CoreFrame.setChS s _).setIo (t2StepS_grows ..)) _

theorem execDeglitch_runsCore (c : Chain) (r : Bool) (s : State) : RunsCore s (execDeglitch c r s) := by
  cases c
  · exact .reply (.setChT s _) _
  · exact .reply (.setChS s _) _

theorem execRlReset_runsCore (c : Chain) (s : State) : RunsCore s (execRlReset c s) := by
  cases c
  · exact .reply (.setChT s _) _
  · exact .reply (.setChS s _) _

/-- Every operation but `RESET` and `CFG.LOAD` is one of the running core. -/
theorem exec_runsCore (i : Instr) (s : State) (hr : i ≠ .reset) (hc : ∀ w, i ≠ .cfgLoad w) :
    RunsCore s (exec i s) := by
  cases i with
  | reset => exact absurd rfl hr
  | cfgLoad w => exact absurd rfl (hc w)
  | chunk => exact execChunk_runsCore s
  | endStream k => exact execEndStream_runsCore k s
  | tsGet => exact .reply ((CoreFrame.refl s).setIo (.tick _)) _
  | firStep f x => exact execFirStep_runsCore f x s
  | iirStep c x => exact .reply (.setT2 ..) _
  | ppfStep c ch x => exact .reply (.setFront ..) _
  | mavgStep c ch x => exact .reply (.setFront ..) _
  | dcrem i q => exact .reply (.refl s) _
  | fsplit i q => exact .reply (.setFsIdx s _) _
  | feLpf c i q => exact .reply (runFeLpf_frame s c (i, q)) _
  | decim => exact .reply (runDecim_frame s) _
  | sampleStep i q => exact .reply (sampleStep_frame s i q) _
  | pdiscExact c i q => exact .reply (.setFront ..) _
  | pdiscFull c i q => exact .reply (.setFront ..) _
  | pdiscRestr c i q => exact .reply (.setFront ..) _
  | pdiscSign c i q => exact .reply (.setFront ..) _
  | postlpf c x => exact .reply (.setFront ..) _
  | dcblock c x => exact .reply (.setFront ..) _
  | slice c d => exact .reply (.refl s) _
  | rssi c i q => exact .reply (.setFront ..) _
  | demodStep c i q => exact .reply (demodStep_coreFrame s c i q) _
  | acorr c a b r => exact .reply (setSyncSr_frame s c a _) _
  | t2Step c tok => exact execT2Step_runsCore c tok s
  | deglitch c r => exact execDeglitch_runsCore c r s
  | rlStep tok => exact .reply ((CoreFrame.setChT s _).setIo (rlStep_grows ..)) _
  | rlRun level run r => exact .reply ((CoreFrame.setChT s _).setIo (rlRun_grows ..)) _
  | rlReset c => exact execRlReset_runsCore c s
  | rls1Step tok => exact .reply ((CoreFrame.setChS s _).setIo (rls1Step_grows ..)) _
  | rls1Run level run r => exact .reply ((CoreFrame.setChS s _).setIo (rls1Run_grows ..)) _
  | t1c1Bit a tok => exact .finishT s a _ (t1c1Bit_grows ..)
  | t1c1Idle a tok => exact .runHandlerT s a _ _ (.refl _)
  | t1c1Lfield a tok => exact .runHandlerT s a _ _ (t1c1Lfield_io ..).2
  | t1c1C1trailer a tok => exact .runHandlerT s a _ _ (t1c1C1trailer_io ..).2
  | t1c1C1len a tok => exact .runHandlerT s a _ _ (t1c1C1len_io ..).2
  | t1c1DataT1 a tok => exact .runHandlerT s a _ _ (t1c1DataT1_grows ..)
  | t1c1DataC1 a tok => exact .runHandlerT s a _ _ (t1c1DataC1_grows ..)
  | t1c1Done a tok => exact .runHandlerT s a _ _ (t1c1Done_grows ..)
  | decReset c a => exact .reply (resetDec_frame s c a) _
  | s1Bit a tok => exact .finishS s a _ (s1Bit_grows ..)
  | s1Idle a tok => exact .runHandlerS s a _ _ (.refl _)
  | s1Len a tok => exact .runHandlerS s a _ _ (s1Len_io ..).2
  | s1Data a tok => exact .runHandlerS s a _ _ (s1Data_grows ..)
  | s1Done a tok => exact .runHandlerS s a _ _ (s1Done_grows ..)
  | crc16 bytes => exact .reply (.refl s) _
  | crcchkA t => exact .reply (.refl s) _
  | crcchkB t => exact .reply (.refl s) _
  | stripA t => exact .reply (.refl s) _
  | stripB t => exact .reply (.refl s) _
  | serial p => exact .reply (.refl s) _
  | emit c a mode => exact .reply ((CoreFrame.refl s).setIo (.emit ..)) _

/-! ### `RESET` (10_state.md rule R49) -/

theorem execReset_of_parOk {s : State} (h : parOk s.par = true) : execReset s = .next (resetCore s) := by
  rw [execReset, if_pos h]

theorem execReset_of_not_parOk {s : State} (h : ¬ parOk s.par = true) : execReset s = .refused .parInvalid := by
  rw [execReset, if_neg h]

/-- A front-end filter after `RESET`, of either channel. -/
theorem resetCore_fe (s : State) (c : Chain) (x : Chan) : ((resetCore s).front c).fe x = feReset s.par c := by
  cases c <;> cases x <;> rfl

theorem resetCore_front (s : State) (c : Chain) : (resetCore s).front c = frontReset s.par c := by
  cases c <;> rfl

theorem resetCore_t2 (s : State) (c : Chain) : (resetCore s).t2 c = t2Reset s.par c := by
  cases c <;> rfl

theorem resetCore_decT (s : State) (a : Syn) : (resetCore s).chT.dec a = decTReset := by
  cases a <;> rfl

theorem resetCore_decS (s : State) (a : Syn) : (resetCore s).chS.dec a = decSReset := by
  cases a <;> rfl

/-- `RESET` leaves nothing of the registers behind: its result is a function of `PAR` and of the host's side. -/
theorem resetCore_congr {s u : State} (hpar : s.par = u.par) (hinp : s.inp = u.inp) (hio : s.io = u.io)
    (hops : s.ops = u.ops) : resetCore s = resetCore u := by
  simp only [resetCore, hpar, hinp, hio, hops]

/-! ### What a step can do -/

/-- What an operation that answers a next state can have done to the registers outside the chains. -/
inductive ExecEffect (s : State) : Instr → State → Prop
  | reset (hpar : parOk s.par = true) : ExecEffect s .reset (resetCore s)
  | cfgAccepted (w : BitVec 32) (hphase : s.phase = .configuring) (hlegal : cfgLegal s.par w = true) :
    ExecEffect s (.cfgLoad w) { s with cfg := w, ret := [.status true] }
  | cfgRefused (w : BitVec 32) (hphase : s.phase = .configuring) (hillegal : cfgLegal s.par w = false) :
    ExecEffect s (.cfgLoad w) { s with io := s.io.note (eventCore .cfg), ret := [.status false] }
  | ran (i : Instr) (t : State) (hframe : CoreFrame s t) (hphase : t.phase ≠ .configuring) : ExecEffect s i t

theorem execCfgLoad_effect {w : BitVec 32} {s t : State} (h : execCfgLoad w s = .next t) :
    ExecEffect s (.cfgLoad w) t := by
  unfold execCfgLoad at h
  split at h
  · next hphase =>
    split at h
    · next hlegal =>
      cases h
      exact .cfgAccepted w hphase hlegal
    · next hillegal =>
      cases h
      exact .cfgRefused w hphase (by simpa using hillegal)
  · cases h
  · cases h

/-- The inversion of `exec`. -/
theorem exec_effect {i : Instr} {s t : State} (h : exec i s = .next t) : ExecEffect s i t := by
  by_cases hr : i = .reset
  · subst hr
    by_cases hpar : parOk s.par = true
    · have ht := (execReset_of_parOk hpar).symm.trans h
      cases ht
      exact .reset hpar
    · exact absurd ((execReset_of_not_parOk hpar).symm.trans h) nofun
  · by_cases hc : ∃ w, i = .cfgLoad w
    · obtain ⟨w, rfl⟩ := hc
      exact execCfgLoad_effect h
    · obtain ⟨hframe, hphase⟩ := exec_runsCore i s hr (fun w hw => hc ⟨w, hw⟩) t h
      exact .ran i t hframe hphase

/-- A step that answers a next state ran the operation that stands first in the request stream. -/
theorem step_effect {s t : State} (h : step s = .next t) :
    ∃ i rest, decode s.ops = .ok (i, rest) ∧ ExecEffect { s with ops := rest } i t := by
  unfold step at h
  split at h
  · next i rest hfetch => exact ⟨i, rest, hfetch, exec_effect h⟩
  · cases h

/-! ### The obligations -/

/-- Whatever an operation does to the registers outside the chains, it keeps the gate's invariant. -/
theorem ExecEffect.gateOk {s t : State} {i : Instr} (h : ExecEffect s i t) (hs : GateOk s) : GateOk t := by
  obtain ⟨hcfg, hfresh, hrange⟩ := (gateOk_iff s).1 hs
  rw [gateOk_iff]
  cases h with
  | reset _ => exact ⟨.inl rfl, fun _ => rfl, .zero _ (by simp [resetCore, cfgDecim_cfgDefault])⟩
  | cfgAccepted w hphase hlegal =>
    have hd : s.dcnt = 0 := hfresh hphase
    refine ⟨.inr hlegal, fun _ => hd, ?_⟩
    dsimp only
    rw [hd]
    exact .zero _ (cfgDecim_pos_of_cfgLegal hlegal)
  | cfgRefused w hphase _ => exact ⟨hcfg, hfresh, hrange⟩
  | ran _ _ hframe hphase =>
    rw [hframe.par, hframe.cfg]
    exact ⟨hcfg, fun hp => absurd hp hphase, hframe.gate hrange⟩

/-- Settles O56, by cases on what a step can do: `RESET` and `CFG.LOAD` leave the counter 0 and a positive rate, every
other operation stays inside `CoreFrame`. -/
theorem gateKept : Obligations.GateKept := by
  intro s t hs h
  obtain ⟨i, rest, -, heffect⟩ := step_effect h
  have hs' : GateOk { s with ops := rest } := ⟨hs.cfg, hs.fresh, hs.range, hs.unused⟩
  exact heffect.gateOk hs'

/-- Settles O57, by cases on what a step can do. -/
theorem wholeMachineFrame : Obligations.WholeMachineFrame := by
  intro s t h
  obtain ⟨i, rest, hdecode, heffect⟩ := step_effect h
  cases heffect with
  | reset _ =>
    obtain ⟨hout, hevents, hts⟩ := Io.Grows.refl s.io
    exact ⟨rfl, hout, hevents, hts, .inr (.inl ⟨rest, hdecode, rfl⟩)⟩
  | cfgAccepted w hphase hlegal =>
    obtain ⟨hout, hevents, hts⟩ := Io.Grows.refl s.io
    exact ⟨rfl, hout, hevents, hts, .inr (.inr ⟨w, rest, hdecode, hphase, hlegal, rfl⟩)⟩
  | cfgRefused w _ _ =>
    obtain ⟨hout, hevents, hts⟩ := Io.Grows.note s.io (eventCore .cfg)
    exact ⟨rfl, hout, hevents, hts, .inl rfl⟩
  | ran _ _ hframe _ =>
    obtain ⟨hout, hevents, hts⟩ := hframe.io
    exact ⟨hframe.par, hout, hevents, hts, .inl hframe.cfg⟩

/-- Settles O5, block by block: every register block holds its reset value. -/
theorem resetValues : Obligations.ResetValues := by
  intro s hpar
  refine ⟨resetCore s, execReset_of_parOk hpar, rfl, rfl, rfl, fun c x => ?_, fun c => ?_, rfl, rfl,
    resetCore_decT s, resetCore_decS s, rfl, rfl, rfl, rfl⟩
  · rw [resetCore_fe]
    exact ⟨rfl, rfl, rfl, rfl, rfl⟩
  · rw [resetCore_front, resetCore_t2]
    exact ⟨rfl, rfl, rfl, rfl, rfl⟩

/-- Settles O6: after `RESET` the two cores are one state, so whatever follows is the same. -/
theorem resetReproducible : Obligations.ResetReproducible := by
  intro s u is hpar hinp hio hops
  have hreset : exec .reset s = exec .reset u := by
    show execReset s = execReset u
    rw [execReset, execReset, hpar, resetCore_congr hpar hinp hio hops]
  rw [runOps_cons, runOps_cons, hreset]

end Sys2Proof.Machine
end

section
/-! PROOFS. The chains are independent (20_memory.md rule R81). What a chain does with a sample never looks at what
passed to the host (`Blind`), and leaves the other chain alone (`LeavesAlone`). So one sample keeps the agreement of two
cores on a chain (`Agree`), once their gates are known to decide alike. -/

namespace Sys2Proof.Machine

open Sys2Proof

/-! ### Records without their timestamps, and the chain they belong to -/

/-- A record without its timestamp. -/
def Telegram.untimed (t : Telegram) : Telegram := { t with ts := .null }

/-- Whether a record is one of chain `c`'s: the mode tells (30_encoding.md rule R121). -/
def Telegram.ofChain (c : Chain) (t : Telegram) : Bool :=
  match c with
  | .T => decide (t.mode ≠ .S1)
  | .S => decide (t.mode = .S1)

@[simp] theorem Telegram.untimed_ofChain (c : Chain) (t : Telegram) : t.untimed.ofChain c = t.ofChain c := by
  cases c <;> rfl

theorem Telegram.ofChain_of_ne {c c' : Chain} {t : Telegram} (h : t.ofChain c = true) (hne : c ≠ c') :
    t.ofChain c' = false := by
  cases c
  · cases c'
    · exact absurd rfl hne
    · simpa [Telegram.ofChain] using h
  · cases c'
    · simpa [Telegram.ofChain] using h
    · exact absurd rfl hne

/-- The records of chain `c` among those of a list, without their timestamps. -/
def recordsOf (c : Chain) (l : List Telegram) : List Telegram := (l.filter (Telegram.ofChain c)).map Telegram.untimed

theorem recordsOf_append (c : Chain) (l l' : List Telegram) :
    recordsOf c (l ++ l') = recordsOf c l ++ recordsOf c l' := by
  simp [recordsOf]

/-- They are a function of the records without their timestamps. -/
theorem recordsOf_eq_filter (c : Chain) (l : List Telegram) :
    recordsOf c l = (l.map Telegram.untimed).filter (Telegram.ofChain c) := by
  simp [recordsOf, List.filter_map, Function.comp_def]

theorem recordsOf_eq_nil {c c' : Chain} {l : List Telegram} (h : ∀ t ∈ l.map Telegram.untimed, t.ofChain c = true)
    (hne : c ≠ c') : recordsOf c' l = [] := by
  rw [recordsOf_eq_filter, List.filter_eq_nil_iff]
  intro t ht
  simp [Telegram.ofChain_of_ne (h t ht) hne]

/-! ### Handing records out -/

/-- Between `io` and `io'` the records `rs` were handed out, timestamps aside. -/
def Io.Hands (io io' : Io) (rs : List Telegram) : Prop :=
  ∃ l, io'.out = io.out ++ l ∧ l.map Telegram.untimed = rs

theorem Io.Hands.of_out {io io' : Io} (h : io'.out = io.out) : io.Hands io' [] := ⟨[], by simp [h], rfl⟩

theorem Io.Hands.trans {a b c : Io} {rs rs' : List Telegram} (h : a.Hands b rs) (h' : b.Hands c rs') :
    a.Hands c (rs ++ rs') := by
  obtain ⟨l, hl, rfl⟩ := h
  obtain ⟨l', hl', rfl⟩ := h'
  exact ⟨l ++ l', by rw [hl', hl, List.append_assoc], List.map_append⟩

/-- An operation of chain `c` that does not look at what passed to the host: whatever passed before, it leaves the same
value `val` and hands out the same records, all of its chain, timestamps aside. -/
def Blind {α : Type} (c : Chain) (val : Io → α) (host : Io → Io) : Prop :=
  ∃ a rs, (∀ t ∈ rs, t.ofChain c = true) ∧ ∀ io, val io = a ∧ io.Hands (host io) rs

section
variable {α β : Type} {c : Chain} {val : Io → α} {host : Io → Io}

/-- An operation that hands out nothing. -/
theorem Blind.silent (hval : ∀ io io', val io = val io') (hout : ∀ io, (host io).out = io.out) : Blind c val host :=
  ⟨val ⟨[], [], 0⟩, [], by simp, fun io => ⟨hval io _, .of_out (hout io)⟩⟩

/-- Another value drawn from the one left, and other notes in the trace. -/
theorem Blind.map (h : Blind c val host) (f : α → β) {host' : Io → Io} (hout : ∀ io, (host' io).out = (host io).out) :
    Blind c (fun io => f (val io)) host' := by
  obtain ⟨a, rs, hrs, hio⟩ := h
  refine ⟨f a, rs, hrs, fun io => ?_⟩
  obtain ⟨hval, l, hl, hmap⟩ := hio io
  exact ⟨congrArg f hval, l, by rw [hout, hl], hmap⟩

/-- One operation after another. -/
theorem Blind.bind (h : Blind c val host) {val' : α → Io → β} {host' : α → Io → Io}
    (h' : ∀ a, Blind c (val' a) (host' a)) :
    Blind c (fun io => val' (val io) (host io)) (fun io => host' (val io) (host io)) := by
  obtain ⟨a, rs, hrs, hio⟩ := h
  obtain ⟨b, rs', hrs', hio'⟩ := h' a
  refine ⟨b, rs ++ rs', fun t ht => (List.mem_append.mp ht).elim (hrs t) (hrs' t), fun io => ?_⟩
  obtain ⟨hval, hhands⟩ := hio io
  obtain ⟨hval', hhands'⟩ := hio' (host io)
  dsimp only
  rw [hval]
  exact ⟨hval', hhands.trans hhands'⟩

end

/-- A decoder step of chain `c` that does not look at what passed to the host. -/
abbrev BlindStep {δ : Type} (c : Chain) (f : Io → δ × Io) : Prop := Blind c (fun io => (f io).1) (fun io => (f io).2)

/-- A step after a note in the trace. -/
theorem BlindStep.after {δ : Type} {c : Chain} {f : Io → δ × Io} (h : BlindStep c f) {note : Io → Io}
    (hout : ∀ io, (note io).out = io.out) : BlindStep c (fun io => f (note io)) :=
  (Blind.silent (val := fun _ => ()) (fun _ _ => rfl) hout).bind fun _ => h

theorem BlindStep.ite {δ : Type} {c : Chain} {p : Prop} [Decidable p] {f g : Io → δ × Io} (hf : p → BlindStep c f)
    (hg : ¬ p → BlindStep c g) : BlindStep c (fun io => if p then f io else g io) := by
  by_cases hp : p
  · simpa only [BlindStep, if_pos hp] using hf hp
  · simpa only [BlindStep, if_neg hp] using hg hp

theorem BlindStep.keep {δ : Type} (c : Chain) (d : δ) : BlindStep c (fun io => (d, io)) :=
  .silent (fun _ _ => rfl) fun _ => rfl

theorem BlindStep.discard {δ : Type} (c : Chain) (idle : δ) (e : EventRec) :
    BlindStep c (fun io => takeDiscard idle e io) :=
  .silent (fun _ _ => rfl) fun _ => rfl

/-! ### The decoders are blind -/

section
variable (par : Par) (a : Syn)

theorem t1c1Lfield_blind (d : DecT) (bit : BitTok) : BlindStep .T (t1c1Lfield par a d bit) := by
  refine .silent (fun io io' => ?_) fun io => (t1c1Lfield_io par a d bit io).1
  unfold t1c1Lfield takeDiscard
  dsimp only
  repeat' split
  all_goals rfl

theorem t1c1C1trailer_blind (d : DecT) (bit : BitTok) : BlindStep .T (t1c1C1trailer par a d bit) :=
  .ite (fun _ => .keep ..) fun _ => .ite (fun _ => .keep ..) fun _ => .discard ..

theorem t1c1C1len_blind (d : DecT) (bit : BitTok) : BlindStep .T (t1c1C1len par a d bit) :=
  .ite (fun _ => .keep ..) fun _ => .ite (fun _ => .discard ..) fun _ => .keep ..

/-- The one record of a completion: only its timestamp is the host's. -/
theorem t1c1Done_blind (d : DecT) (bit : BitTok) : BlindStep .T (t1c1Done par a d bit) := by
  refine ⟨decTReset, [(telegramT a (stampT par d bit.rssi ⟨[], [], 0⟩) (doneModeT d)).untimed], ?_, fun io => ?_⟩
  · simp only [List.mem_singleton, forall_eq, Telegram.untimed_ofChain]
    cases hc1 : d.isC1 <;> simp [Telegram.ofChain, telegramT, doneModeT, hc1]
  · obtain ⟨hdec, hout, -⟩ := t1c1Done_out par a d bit io
    exact ⟨hdec, _, hout, rfl⟩

theorem payloadT_blind (d : DecT) (v : Byte) (bit : BitTok) : BlindStep .T (payloadT par a d v bit) :=
  .ite (fun _ => .discard ..) fun _ => .ite (fun _ => t1c1Done_blind ..) fun _ => .keep ..

theorem t1c1DataT1_blind (d : DecT) (bit : BitTok) : BlindStep .T (t1c1DataT1 par a d bit) :=
  .ite (fun _ => .keep ..) fun _ => (payloadT_blind ..).after fun io => by split <;> rfl

theorem t1c1DataC1_blind (d : DecT) (bit : BitTok) : BlindStep .T (t1c1DataC1 par a d bit) :=
  .ite (fun _ => .keep ..) fun _ => payloadT_blind ..

theorem t1c1Handler_blind (d : DecT) (bit : BitTok) : BlindStep .T (t1c1Handler par a d bit) := by
  unfold t1c1Handler
  cases d.st with
  | idle => exact .keep ..
  | lfield => exact t1c1Lfield_blind ..
  | c1Trailer => exact t1c1C1trailer_blind ..
  | c1Len => exact t1c1C1len_blind ..
  | dataT1 => exact t1c1DataT1_blind ..
  | dataC1 => exact t1c1DataC1_blind ..
  | done => exact t1c1Done_blind ..

theorem t1c1Bit_blind (d : DecT) (bit : BitTok) : BlindStep .T (t1c1Bit par a d bit) :=
  .ite (fun _ => .discard ..) fun _ => t1c1Handler_blind ..

theorem s1Len_blind (d : DecS) (bit : BitTok) : BlindStep .S (s1Len par a d bit) := by
  refine .silent (fun io io' => ?_) fun io => (s1Len_io par a d bit io).1
  unfold s1Len takeDiscard
  dsimp only
  repeat' split
  all_goals rfl

/-- The one record of a completion: only its timestamp is the host's. -/
theorem s1Done_blind (d : DecS) (bit : BitTok) : BlindStep .S (s1Done par a d bit) := by
  refine ⟨decSReset, [(telegramS a (stampS par d bit.rssi ⟨[], [], 0⟩) .S1).untimed], ?_, fun io => ?_⟩
  · simp only [List.mem_singleton, forall_eq, Telegram.untimed_ofChain]
    rfl
  · obtain ⟨hdec, hout, -⟩ := s1Done_out par a d bit io
    exact ⟨hdec, _, hout, rfl⟩

theorem payloadS_blind (d : DecS) (v : Byte) (bit : BitTok) : BlindStep .S (payloadS par a d v bit) :=
  .ite (fun _ => .discard ..) fun _ => .ite (fun _ => s1Done_blind ..) fun _ => .keep ..

theorem s1Data_blind (d : DecS) (bit : BitTok) : BlindStep .S (s1Data par a d bit) :=
  .ite (fun _ => .keep ..) fun _ =>
    (BlindStep.ite (fun _ => .keep ..) fun _ => payloadS_blind ..).after fun io => by split <;> rfl

theorem s1Handler_blind (d : DecS) (bit : BitTok) : BlindStep .S (s1Handler par a d bit) := by
  unfold s1Handler
  cases d.st with
  | idle => exact .keep ..
  | len => exact s1Len_blind ..
  | data => exact s1Data_blind ..
  | done => exact s1Done_blind ..

theorem s1Bit_blind (d : DecS) (bit : BitTok) : BlindStep .S (s1Bit par a d bit) :=
  .ite (fun _ => .discard ..) fun _ => s1Handler_blind ..

end

/-! ### The synchronizers and the demodulator are blind -/

section
variable {δ : Type} {c : Chain} {dlv : δ → BitTok → Io → δ × Io}

theorem deliverOne_blind (hdlv : ∀ d b, BlindStep c (dlv d b)) (bit : Option BitTok) (d : δ) :
    BlindStep c (deliverOne dlv bit d) := by
  cases bit with
  | none => exact .keep ..
  | some b => exact hdlv d b

theorem runBits_blind (par : Par) (hdlv : ∀ d b, BlindStep c (dlv d b)) (level : Bool) (r : NumT) (n : Nat) :
    ∀ sr d, Blind c
      (fun io => ((runBits par c dlv level r n sr d io).sr, (runBits par c dlv level r n sr d io).dec))
      (fun io => (runBits par c dlv level r n sr d io).io) := by
  induction n with
  | zero => exact fun sr d => .silent (fun _ _ => rfl) fun _ => rfl
  | succ n ih => exact fun sr d => (hdlv d (acorr par c sr level r).1).bind fun d' => ih _ d'

end

section
variable (par : Par)

theorem t2StepT_blind (ch : ChainT) (tok : RawTok) :
    Blind .T (fun io => (t2StepT par ch io tok).1) (fun io => (t2StepT par ch io tok).2.1) :=
  (deliverOne_blind (t1c1Bit_blind par .T2) (t2Advance par .T ch.t2 tok).2 ch.decT2).map
    (fun d => { ch with t2 := (t2Advance par .T ch.t2 tok).1, decT2 := d }) fun _ => rfl

theorem t2StepS_blind (ch : ChainS) (tok : RawTok) :
    Blind .S (fun io => (t2StepS par ch io tok).1) (fun io => (t2StepS par ch io tok).2.1) :=
  (deliverOne_blind (s1Bit_blind par .T2) (t2Advance par .S ch.t2 tok).2 ch.decT2).map
    (fun d => { ch with t2 := (t2Advance par .S ch.t2 tok).1, decT2 := d }) fun _ => rfl

/-- The bits of a run are delivered to the decoder; then the estimate alone says whether the synchronizer restarts. -/
theorem rlRun_blind (rl : RlT) (d : DecT) (level : Bool) (run : Nat) (r : NumT) :
    Blind .T (fun io => ((rlRun par rl d io level run r).1, (rlRun par rl d io level run r).2.1))
      (fun io => (rlRun par rl d io level run r).2.2.1) := by
  have hbits := runBits_blind par (t1c1Bit_blind par .RL) level r (runPeriods rl.bitlen run).toNat rl.sr d
  by_cases himplausible : runImplausible par.rlMinRun.t rl.bitlen run
  · simp only [rlRun, if_pos himplausible]
    exact .silent (fun _ _ => rfl) fun _ => rfl
  · by_cases hlost : piBitlen par rl.bitlen (runResidual rl.bitlen run) (rl.esum + runResidual rl.bitlen run)
        (runPeriods rl.bitlen run) ≤ 0
    · simp only [rlRun, if_neg himplausible, if_pos hlost]
      exact hbits.map (fun _ => (rlTCleared par rl, decTReset)) fun _ => rfl
    · simp only [rlRun, if_neg himplausible, if_neg hlost]
      exact hbits.map (fun x => ({ rl with
        sr := x.1
        esum := rl.esum + runResidual rl.bitlen run
        bitlen := piBitlen par rl.bitlen (runResidual rl.bitlen run) (rl.esum + runResidual rl.bitlen run)
          (runPeriods rl.bitlen run) }, x.2)) fun _ => rfl

theorem rls1Run_blind (rl : RlS) (d : DecS) (level : Bool) (run : Nat) (r : NumT) :
    Blind .S (fun io => ((rls1Run par rl d io level run r).1, (rls1Run par rl d io level run r).2.1))
      (fun io => (rls1Run par rl d io level run r).2.2.1) := by
  have hbits := runBits_blind par (s1Bit_blind par .RL) level r (runPeriods (spbOf rl level) run).toNat rl.sr d
  by_cases himplausible : runImplausible par.rlMinRun.s (spbOf rl level) run
  · simp only [rls1Run, if_pos himplausible]
    exact .silent (fun _ _ => rfl) fun _ => rfl
  · by_cases houtside : spbOutside par.nomBitlen.s (spbAverage (spbOf rl level) run)
    · simp only [rls1Run, if_neg himplausible, if_pos houtside]
      exact hbits.map (fun _ => (rlSCleared par rl, decSReset)) fun _ => rfl
    · simp only [rls1Run, if_neg himplausible, if_neg houtside]
      exact hbits.map (fun x => ({ setSpb rl level (spbAverage (spbOf rl level) run) with sr := x.1 }, x.2))
        fun _ => rfl

theorem rlStep_blind (ch : ChainT) (tok : RawTok) :
    Blind .T (fun io => (rlStep par ch io tok).1) (fun io => (rlStep par ch io tok).2.1) := by
  by_cases hlevel : (deglitchT par ch.rl tok.r).2 = ch.rl.lvlPrev
  · simp only [rlStep, if_pos hlevel]
    exact .silent (fun _ _ => rfl) fun _ => rfl
  · simp only [rlStep, if_neg hlevel]
    exact (rlRun_blind par (deglitchT par ch.rl tok.r).1 ch.decRl ch.rl.lvlPrev ch.rl.run tok.rssi).map
      (fun x => { ch with rl := { x.1 with lvlPrev := (deglitchT par ch.rl tok.r).2, run := 1 }, decRl := x.2 })
      fun _ => rfl

theorem rls1Step_blind (ch : ChainS) (tok : RawTok) :
    Blind .S (fun io => (rls1Step par ch io tok).1) (fun io => (rls1Step par ch io tok).2.1) := by
  by_cases hlevel : (deglitchS par ch.rl tok.r).2 = ch.rl.lvlPrev
  · simp only [rls1Step, if_pos hlevel]
    exact .silent (fun _ _ => rfl) fun _ => rfl
  · simp only [rls1Step, if_neg hlevel]
    exact (rls1Run_blind par (deglitchS par ch.rl tok.r).1 ch.decRl ch.rl.lvlPrev ch.rl.run tok.rssi).map
      (fun x => { ch with rl := { x.1 with lvlPrev := (deglitchS par ch.rl tok.r).2, run := 1 }, decRl := x.2 })
      fun _ => rfl

/-- The front does not speak to the host; each synchronizer that is enabled is blind. -/
theorem demodStepT_blind (cfg : BitVec 32) (ch : ChainT) (i q : NumT) :
    BlindStep .T (fun io => demodStepT par cfg ch io i q) := by
  unfold demodStepT
  cases cfgT2En cfg
  · cases cfgRlEn cfg
    · exact .silent (fun _ _ => rfl) fun _ => rfl
    · exact rlStep_blind ..
  · cases cfgRlEn cfg
    · exact t2StepT_blind ..
    · exact (t2StepT_blind ..).bind fun ch' => rlStep_blind par ch' (demodFront par cfg .T ch.fr i q).1

theorem demodStepS_blind (cfg : BitVec 32) (ch : ChainS) (i q : NumT) :
    BlindStep .S (fun io => demodStepS par cfg ch io i q) := by
  unfold demodStepS
  cases cfgT2En cfg
  · cases cfgRlEn cfg
    · exact .silent (fun _ _ => rfl) fun _ => rfl
    · exact rls1Step_blind ..
  · cases cfgRlEn cfg
    · exact t2StepS_blind ..
    · exact (t2StepS_blind ..).bind fun ch' => rls1Step_blind par ch' (demodFront par cfg .S ch.fr i q).1

end

/-! ### Two cores that agree on a chain -/

/-- Chain `c` holds the same in both states. -/
def SameChain (c : Chain) (s u : State) : Prop :=
  match c with
  | .T => s.chT = u.chT
  | .S => s.chS = u.chS

theorem SameChain.symm {c : Chain} {s u : State} (h : SameChain c s u) : SameChain c u s := by
  cases c <;> exact Eq.symm h

theorem SameChain.trans {c : Chain} {s u v : State} (h : SameChain c s u) (h' : SameChain c u v) :
    SameChain c s v := by
  cases c <;> exact Eq.trans h h'

theorem SameChain.refl (c : Chain) (s : State) : SameChain c s s := by cases c <;> rfl

theorem SameChain.front {c : Chain} {s u : State} (h : SameChain c s u) : s.front c = u.front c := by
  cases c
  · exact congrArg ChainT.fr h
  · exact congrArg ChainS.fr h

theorem SameChain.setFront {c : Chain} {s u : State} (h : SameChain c s u) (f : Front) :
    SameChain c (s.setFront c f) (u.setFront c f) := by
  cases c
  · exact congrArg (fun ch : ChainT => { ch with fr := f }) h
  · exact congrArg (fun ch : ChainS => { ch with fr := f }) h

theorem setFront_sameChain_of_ne {c c' : Chain} (hne : c' ≠ c) (s : State) (f : Front) :
    SameChain c s (s.setFront c' f) := by
  cases c
  · cases c'
    · exact absurd rfl hne
    · rfl
  · cases c'
    · rfl
    · exact absurd rfl hne

/-- The two cores agree on what is shared and on chain `c`, and since they had handed out `a` and `b` they have handed
out the same records of that chain, timestamps aside. -/
structure Agree (c : Chain) (a b : List Telegram) (s u : State) : Prop where
  par : s.par = u.par
  cfg : s.cfg = u.cfg
  dcnt : s.dcnt = u.dcnt
  fsIdx : s.fsIdx = u.fsIdx
  chain : SameChain c s u
  records : ∃ l l', s.io.out = a ++ l ∧ u.io.out = b ++ l' ∧ recordsOf c l = recordsOf c l'

/-- From `s` to `t` nothing that is shared and nothing of chain `c` changes, and no record of it is handed out. -/
structure LeavesAlone (c : Chain) (s t : State) : Prop where
  par : t.par = s.par
  cfg : t.cfg = s.cfg
  dcnt : t.dcnt = s.dcnt
  fsIdx : t.fsIdx = s.fsIdx
  chain : SameChain c s t
  records : ∃ l, t.io.out = s.io.out ++ l ∧ recordsOf c l = []

theorem LeavesAlone.refl (c : Chain) (s : State) : LeavesAlone c s s :=
  ⟨rfl, rfl, rfl, rfl, .refl c s, [], by simp, rfl⟩

theorem LeavesAlone.trans {c : Chain} {s t v : State} (h : LeavesAlone c s t) (h' : LeavesAlone c t v) :
    LeavesAlone c s v := by
  obtain ⟨l, hl, hnil⟩ := h.records
  obtain ⟨l', hl', hnil'⟩ := h'.records
  exact ⟨h'.par.trans h.par, h'.cfg.trans h.cfg, h'.dcnt.trans h.dcnt, h'.fsIdx.trans h.fsIdx, h.chain.trans h'.chain,
    l ++ l', by rw [hl', hl, List.append_assoc], by rw [recordsOf_append, hnil, hnil']; rfl⟩

section
variable {c : Chain} {a b : List Telegram} {s u s' u' : State}

theorem Agree.symm (h : Agree c a b s u) : Agree c b a u s := by
  obtain ⟨l, l', hl, hl', heq⟩ := h.records
  exact ⟨h.par.symm, h.cfg.symm, h.dcnt.symm, h.fsIdx.symm, h.chain.symm, l', l, hl', hl, heq.symm⟩

theorem Agree.left (h : Agree c a b s u) (hs : LeavesAlone c s s') : Agree c a b s' u := by
  obtain ⟨l, l', hl, hl', heq⟩ := h.records
  obtain ⟨m, hm, hnil⟩ := hs.records
  exact ⟨hs.par.trans h.par, hs.cfg.trans h.cfg, hs.dcnt.trans h.dcnt, hs.fsIdx.trans h.fsIdx,
    hs.chain.symm.trans h.chain, l ++ m, l', by rw [hm, hl, List.append_assoc], hl',
    by rw [recordsOf_append, hnil, List.append_nil, heq]⟩

/-- What leaves chain `c` alone in each core leaves the agreement on it. -/
theorem Agree.both (h : Agree c a b s u) (hs : LeavesAlone c s s') (hu : LeavesAlone c u u') : Agree c a b s' u' :=
  ((h.left hs).symm.left hu).symm

/-! ### One sample, part by part -/

theorem routeInput_agree (h : Agree c a b s u) (p : Iq) :
    (routeInput s p).1 = (routeInput u p).1 ∧ Agree c a b (routeInput s p).2 (routeInput u p).2 := by
  unfold routeInput
  rw [h.cfg, h.par, h.fsIdx]
  split
  · exact ⟨rfl, rfl, rfl, h.dcnt, rfl, by cases c <;> exact h.chain, h.records⟩
  · exact ⟨rfl, h⟩

/-- The chain's own filters. -/
theorem feIfEnabled_agree (h : Agree c a b s u) (p : Iq) :
    (feIfEnabled s c p).1 = (feIfEnabled u c p).1 ∧ Agree c a b (feIfEnabled s c p).2 (feIfEnabled u c p).2 := by
  unfold feIfEnabled
  rw [h.cfg]
  split
  · unfold runFeLpf
    rw [h.par, h.chain.front]
    have hchain := h.chain.setFront (feLpf u.par c (u.front c) p).2
    refine ⟨rfl, by simpa using h.par, by simpa using h.cfg, by simpa using h.dcnt, by simpa using h.fsIdx, ?_,
      by simpa using h.records⟩
    cases c <;> exact hchain
  · exact ⟨rfl, h⟩

/-- The other chain's filters. -/
theorem feIfEnabled_leavesAlone {c' : Chain} (hne : c' ≠ c) (s : State) (p : Iq) :
    LeavesAlone c s (feIfEnabled s c' p).2 := by
  unfold feIfEnabled
  split
  · have hchain := setFront_sameChain_of_ne hne s (feLpf s.par c' (s.front c') p).2
    refine ⟨by simp [runFeLpf], by simp [runFeLpf], by simp [runFeLpf], by simp [runFeLpf], ?_, [],
      by simp [runFeLpf], rfl⟩
    cases c <;> exact hchain
  · exact .refl c s

/-- The counter does not look at the filters (41_front_end.md rule R174). -/
theorem decimGate_dcnt (par : Par) (cfg : BitVec 32) (f f' : Bool) (n : Nat) :
    (decimGate par cfg f n).2 = (decimGate par cfg f' n).2 := by
  unfold decimGate
  split
  · rfl
  · rfl

theorem runDecim_agree (h : Agree c a b s u) : Agree c a b (runDecim s).2 (runDecim u).2 := by
  refine ⟨h.par, h.cfg, ?_, h.fsIdx, h.chain, h.records⟩
  simp only [runDecim, h.par, h.cfg, h.dcnt]
  exact decimGate_dcnt ..

/-- Where two cores agree on a chain, its demodulator leaves them so and hands out the same records of that chain. -/
theorem demodStep_hands (hpar : s.par = u.par) (hcfg : s.cfg = u.cfg) (hchain : SameChain c s u) (i q : NumT) :
    SameChain c (demodStep s c i q) (demodStep u c i q) ∧ ∃ rs, (∀ t ∈ rs, t.ofChain c = true) ∧
      s.io.Hands (demodStep s c i q).io rs ∧ u.io.Hands (demodStep u c i q).io rs := by
  cases c with
  | T =>
    have hch : s.chT = u.chT := hchain
    obtain ⟨ch, rs, hrs, hio⟩ := demodStepT_blind u.par u.cfg u.chT i q
    simp only [SameChain, demodStep, State.setIo_chT, State.setChT_chT, State.setIo_io, hpar, hcfg, hch]
    exact ⟨(hio s.io).1.trans (hio u.io).1.symm, rs, hrs, (hio s.io).2, (hio u.io).2⟩
  | S =>
    have hch : s.chS = u.chS := hchain
    obtain ⟨ch, rs, hrs, hio⟩ := demodStepS_blind u.par u.cfg u.chS i q
    simp only [SameChain, demodStep, State.setIo_chS, State.setChS_chS, State.setIo_io, hpar, hcfg, hch]
    exact ⟨(hio s.io).1.trans (hio u.io).1.symm, rs, hrs, (hio s.io).2, (hio u.io).2⟩

theorem demodStep_fsIdx (s : State) (c : Chain) (i q : NumT) : (demodStep s c i q).fsIdx = s.fsIdx := by
  cases c <;> rfl

theorem demodStep_dcnt (s : State) (c : Chain) (i q : NumT) : (demodStep s c i q).dcnt = s.dcnt := by
  cases c <;> rfl

/-- The chain's own demodulator. -/
theorem demodStep_agree (h : Agree c a b s u) (i q : NumT) :
    Agree c a b (demodStep s c i q) (demodStep u c i q) := by
  obtain ⟨hspar, hscfg, -⟩ := demodStep_frame s c i q
  obtain ⟨hupar, hucfg, -⟩ := demodStep_frame u c i q
  obtain ⟨hchain, rs, -, ⟨m, hm, hmap⟩, m', hm', hmap'⟩ := demodStep_hands h.par h.cfg h.chain i q
  obtain ⟨l, l', hl, hl', heq⟩ := h.records
  refine ⟨by rw [hspar, hupar, h.par], by rw [hscfg, hucfg, h.cfg], by simp only [demodStep_dcnt, h.dcnt],
    by simp only [demodStep_fsIdx, h.fsIdx], hchain,
    l ++ m, l' ++ m', by rw [hm, hl, List.append_assoc], by rw [hm', hl', List.append_assoc], ?_⟩
  rw [recordsOf_append, recordsOf_append, heq, recordsOf_eq_filter c m, recordsOf_eq_filter c m', hmap, hmap']

theorem demodStep_sameChain_of_ne {c' : Chain} (hne : c' ≠ c) (s : State) (i q : NumT) :
    SameChain c s (demodStep s c' i q) := by
  cases c
  · cases c'
    · exact absurd rfl hne
    · rfl
  · cases c'
    · rfl
    · exact absurd rfl hne

/-- The other chain's demodulator. -/
theorem demodStep_leavesAlone {c' : Chain} (hne : c' ≠ c) (s : State) (i q : NumT) :
    LeavesAlone c s (demodStep s c' i q) := by
  obtain ⟨hpar, hcfg, -⟩ := demodStep_frame s c' i q
  obtain ⟨-, rs, hrs, ⟨l, hl, rfl⟩, -⟩ := demodStep_hands (c := c') (s := s) rfl rfl (.refl c' s) i q
  exact ⟨hpar, hcfg, demodStep_dcnt .., demodStep_fsIdx .., demodStep_sameChain_of_ne hne s i q,
    l, hl, recordsOf_eq_nil hrs hne⟩

theorem demodIfEnabled_agree (h : Agree c a b s u) (v : Option Iq) :
    Agree c a b (demodIfEnabled s c v) (demodIfEnabled u c v) := by
  cases v with
  | none => exact h
  | some p =>
    simp only [demodIfEnabled, h.cfg]
    split
    · exact demodStep_agree h p.1 p.2
    · exact h

theorem demodIfEnabled_leavesAlone {c' : Chain} (s : State) (v : Option Iq)
    (h : c' ≠ c ∨ chainEnabled s.cfg c = false) : LeavesAlone c s (demodIfEnabled s c' v) := by
  cases v with
  | none => exact .refl c s
  | some p =>
    simp only [demodIfEnabled]
    split
    · rename_i henabled
      refine demodStep_leavesAlone ?_ s p.1 p.2
      rintro rfl
      simp [henabled] at h
    · exact .refl c s

end

/-! ### One sample, in two halves -/

/-- What the filters of the two chains returned. -/
abbrev Filtered := Option Iq × Option Iq

/-- The value of chain `c`. -/
def Filtered.get (v : Filtered) (c : Chain) : Option Iq :=
  match c with
  | .T => v.1
  | .S => v.2

/-- The filters of the two chains on their inputs: what they returned, and the state. -/
def runFilters (s : State) (v : Iq × Iq) : Filtered × State :=
  let t := feIfEnabled s .T v.1
  let u := feIfEnabled t.2 .S v.2
  ((t.1, u.1), u.2)

/-- The first half of `SAMPLE.STEP`, up to the gate. -/
def filterSample (s : State) (i q : Byte) : Filtered × State :=
  let r := routeInput s (dcrem s.par i, dcrem s.par q)
  runFilters r.2 r.1

/-- The second half, when the gate forwards the sample: the demodulators of the two chains. -/
def forwardSample (s : State) (v : Filtered) : State := demodIfEnabled (demodIfEnabled s .T v.1) .S v.2

theorem sampleStep_eq (s : State) (i q : Byte) :
    sampleStep s i q =
      if (runDecim (filterSample s i q).2).1 then
        forwardSample (runDecim (filterSample s i q).2).2 (filterSample s i q).1
      else (runDecim (filterSample s i q).2).2 := rfl

section
variable {c : Chain} {a b : List Telegram} {s u : State}

theorem runFilters_agree (h : Agree c a b s u) (v : Iq × Iq) :
    (runFilters s v).1.get c = (runFilters u v).1.get c ∧ Agree c a b (runFilters s v).2 (runFilters u v).2 := by
  cases c with
  | T =>
    obtain ⟨hvalue, hown⟩ := feIfEnabled_agree h v.1
    exact ⟨hvalue, hown.both (feIfEnabled_leavesAlone (by decide) _ _) (feIfEnabled_leavesAlone (by decide) _ _)⟩
  | S =>
    have hother := h.both (feIfEnabled_leavesAlone (c' := .T) (by decide) s v.1)
      (feIfEnabled_leavesAlone (c' := .T) (by decide) u v.1)
    exact feIfEnabled_agree hother v.2

theorem filterSample_agree (h : Agree c a b s u) (i q : Byte) :
    (filterSample s i q).1.get c = (filterSample u i q).1.get c ∧
      Agree c a b (filterSample s i q).2 (filterSample u i q).2 := by
  obtain ⟨hinputs, hroute⟩ := routeInput_agree h (dcrem u.par i, dcrem u.par q)
  simp only [filterSample, h.par, hinputs]
  exact runFilters_agree hroute _

theorem forwardSample_agree (h : Agree c a b s u) {v w : Filtered} (hvalue : v.get c = w.get c) :
    Agree c a b (forwardSample s v) (forwardSample u w) := by
  unfold forwardSample
  cases c with
  | T =>
    have hown := demodIfEnabled_agree h v.1
    rw [show w.1 = v.1 from hvalue.symm]
    exact hown.both (demodIfEnabled_leavesAlone _ _ (.inl (by decide)))
      (demodIfEnabled_leavesAlone _ _ (.inl (by decide)))
  | S =>
    rw [show w.2 = v.2 from hvalue.symm]
    exact demodIfEnabled_agree (h.both (demodIfEnabled_leavesAlone _ _ (.inl (by decide)))
      (demodIfEnabled_leavesAlone _ _ (.inl (by decide)))) v.2

/-- A chain that is not enabled is left alone. -/
theorem forwardSample_leavesAlone (hoff : chainEnabled s.cfg c = false) (v : Filtered) :
    LeavesAlone c s (forwardSample s v) := by
  have hT := demodIfEnabled_leavesAlone (c' := .T) s v.1 (.inr hoff)
  exact hT.trans (demodIfEnabled_leavesAlone _ v.2 (.inr (by rw [hT.cfg]; exact hoff)))

end

/-! ### The gate -/

/-- The polyphase filters of every enabled chain are at phase `p`. -/
def AtPhase (s : State) (p : Nat) : Prop :=
  ∀ c x, chainEnabled s.cfg c = true → ((s.front c).fe x).ppf.ph = p

theorem routeInput_atPhase {s : State} {p : Nat} (h : AtPhase s p) (v : Iq) : AtPhase (routeInput s v).2 p := by
  unfold routeInput
  split
  · intro c x hc
    cases c
    · exact h .T x hc
    · exact h .S x hc
  · exact h

theorem bothIq_isSome (x y : Option NumT) : (bothIq x y).isSome = (x.isSome && y.isSome) := by
  cases x <;> cases y <;> rfl

/-- A polyphase front end returns a value at the end of a phase cycle (40_filter_library.md rule R145). -/
theorem feLpf_isSome {par : Par} (hppf : par.feKind = .ppf) (c : Chain) (f : Front) (v : Iq) {p : Nat}
    (hphase : ∀ x, (f.fe x).ppf.ph = p) : (feLpf par c f v).1.isSome = decide (p + 1 = par.ppP) := by
  have hstep : ∀ x y, (feStep par c (f.fe x) y).1.isSome = decide (p + 1 = par.ppP) := by
    intro x y
    simp only [feStep, hppf, ppfStep_isSome, hphase]
  calc (feLpf par c f v).1.isSome
      = ((feStep par c (f.fe .I) v.1).1.isSome && (feStep par c (f.fe .Q) v.2).1.isSome) := bothIq_isSome ..
    _ = decide (p + 1 = par.ppP) := by rw [hstep, hstep, Bool.and_self]

theorem feIfEnabled_feValue {s : State} {c : Chain} (hppf : s.par.feKind = .ppf) (hon : chainEnabled s.cfg c = true)
    {p : Nat} (hphase : ∀ x, ((s.front c).fe x).ppf.ph = p) (v : Iq) :
    (feIfEnabled s c v).2.feValue = decide (p + 1 = s.par.ppP) := by
  rw [feIfEnabled, if_pos hon]
  exact feLpf_isSome hppf c (s.front c) v hphase

/-- With a polyphase front end the value that the gate asks for comes from whichever enabled chain ran last; at one
phase they all answer alike. -/
theorem runFilters_feValue {s : State} {c : Chain} (hppf : s.par.feKind = .ppf) {p : Nat} (hphase : AtPhase s p)
    (hon : chainEnabled s.cfg c = true) (v : Iq × Iq) :
    (runFilters s v).2.feValue = decide (p + 1 = s.par.ppP) := by
  have hT : LeavesAlone .S s (feIfEnabled s .T v.1).2 := feIfEnabled_leavesAlone (by decide) s v.1
  by_cases hS : chainEnabled s.cfg .S = true
  · have hvalue := feIfEnabled_feValue (s := (feIfEnabled s .T v.1).2) (c := .S) (by rw [hT.par, hppf])
      (by rw [hT.cfg, hS]) (p := p) (fun x => by rw [← hT.chain.front]; exact hphase .S x hS) v.2
    rwa [hT.par] at hvalue
  · have hoff : (runFilters s v).2 = (feIfEnabled s .T v.1).2 := by
      simp only [runFilters]
      rw [feIfEnabled, hT.cfg, if_neg hS]
    cases c with
    | T => rw [hoff, feIfEnabled_feValue hppf hon (fun x => hphase .T x hon)]
    | S => exact absurd hon hS

theorem filterSample_feValue {s : State} {c : Chain} (hppf : s.par.feKind = .ppf) {p : Nat} (hphase : AtPhase s p)
    (hon : chainEnabled s.cfg c = true) (i q : Byte) :
    (filterSample s i q).2.feValue = decide (p + 1 = s.par.ppP) := by
  have hframe := routeInput_frame s (dcrem s.par i, dcrem s.par q)
  have hvalue := runFilters_feValue (c := c) (by rw [hframe.par, hppf])
    (routeInput_atPhase hphase (dcrem s.par i, dcrem s.par q)) (by rw [hframe.cfg, hon])
    (routeInput s (dcrem s.par i, dcrem s.par q)).1
  rwa [hframe.par] at hvalue

theorem filterSample_frame (s : State) (i q : Byte) : CoreFrame s (filterSample s i q).2 :=
  ((routeInput_frame s _).trans (feIfEnabled_frame _ .T _)).trans (feIfEnabled_frame _ .S _)

section
variable {c : Chain} {a b : List Telegram} {s u : State}

/-- The gate decides alike in two cores where some chain is enabled. -/
theorem runDecim_filterSample (h : Agree c a b s u)
    (hphase : s.par.feKind = .ppf → ∃ p, AtPhase s p ∧ AtPhase u p) (hon : chainEnabled s.cfg c = true) (i q : Byte) :
    (runDecim (filterSample s i q).2).1 = (runDecim (filterSample u i q).2).1 := by
  obtain ⟨-, hfiltered⟩ := filterSample_agree h i q
  have hfeValue : (filterSample u i q).2.par.feKind = .ppf →
      (filterSample s i q).2.feValue = (filterSample u i q).2.feValue := by
    intro hppf
    have hppfs : s.par.feKind = .ppf := by rwa [← hfiltered.par, (filterSample_frame s i q).par] at hppf
    obtain ⟨p, hs, hu⟩ := hphase hppfs
    rw [filterSample_feValue hppfs hs hon, filterSample_feValue (h.par ▸ hppfs) hu (h.cfg ▸ hon), h.par]
  simp only [runDecim, decimGate, hfiltered.par, hfiltered.cfg, hfiltered.dcnt]
  split
  · rename_i hppf
    exact hfeValue hppf
  · split <;> rfl

/-- One sample keeps the agreement on a chain. An enabled chain is forwarded in both cores or in neither; a chain that
is not enabled is left alone whatever the gates decide. -/
theorem sampleStep_agree (h : Agree c a b s u) (hphase : s.par.feKind = .ppf → ∃ p, AtPhase s p ∧ AtPhase u p)
    (i q : Byte) : Agree c a b (sampleStep s i q) (sampleStep u i q) := by
  obtain ⟨hvalue, hfiltered⟩ := filterSample_agree h i q
  have hgate := runDecim_agree hfiltered
  by_cases hon : chainEnabled s.cfg c = true
  · rw [sampleStep_eq, sampleStep_eq, runDecim_filterSample h hphase hon]
    split
    · exact forwardSample_agree hgate hvalue
    · exact hgate
  · have halone : ∀ v : State, v.cfg = s.cfg →
        LeavesAlone c (runDecim (filterSample v i q).2).2 (sampleStep v i q) := by
      intro v hcfg
      rw [sampleStep_eq]
      split
      · refine forwardSample_leavesAlone ?_ _
        rw [(runDecim_frame _).cfg, (filterSample_frame v i q).cfg, hcfg]
        exact Bool.eq_false_iff.mpr hon
      · exact .refl c _
    exact hgate.both (halone s rfl) (halone u h.cfg.symm)

end

/-! ### The counters -/

theorem runFilters_counters (s : State) (v : Iq × Iq) :
    (runFilters s v).2.dcnt = s.dcnt ∧ (runFilters s v).2.fsIdx = s.fsIdx := by
  have hT : LeavesAlone .S s (feIfEnabled s .T v.1).2 := feIfEnabled_leavesAlone (by decide) ..
  have hS : LeavesAlone .T (feIfEnabled s .T v.1).2 (runFilters s v).2 := feIfEnabled_leavesAlone (by decide) ..
  exact ⟨hS.dcnt.trans hT.dcnt, hS.fsIdx.trans hT.fsIdx⟩

theorem forwardSample_counters (s : State) (v : Filtered) :
    (forwardSample s v).dcnt = s.dcnt ∧ (forwardSample s v).fsIdx = s.fsIdx := by
  have hT : LeavesAlone .S s (demodIfEnabled s .T v.1) := demodIfEnabled_leavesAlone _ _ (.inl (by decide))
  have hS : LeavesAlone .T (demodIfEnabled s .T v.1) (forwardSample s v) :=
    demodIfEnabled_leavesAlone _ _ (.inl (by decide))
  exact ⟨hS.dcnt.trans hT.dcnt, hS.fsIdx.trans hT.fsIdx⟩

/-- The gate counts the sample and nothing else does. -/
theorem sampleStep_dcnt (s : State) (i q : Byte) :
    (sampleStep s i q).dcnt = (decimGate s.par s.cfg s.feValue s.dcnt).2 := by
  have hroute : ∀ v, (routeInput s v).2.dcnt = s.dcnt := fun v => by unfold routeInput; split <;> rfl
  have hgate : (runDecim (filterSample s i q).2).2.dcnt = (decimGate s.par s.cfg s.feValue s.dcnt).2 := by
    have hframe := filterSample_frame s i q
    have hcount : (filterSample s i q).2.dcnt = s.dcnt := (runFilters_counters ..).1.trans (hroute _)
    simp only [runDecim, hframe.par, hframe.cfg, hcount]
    exact decimGate_dcnt ..
  rw [sampleStep_eq]
  split
  · rw [(forwardSample_counters ..).1, hgate]
  · exact hgate

/-- The split moves the table index where it runs and nothing else does (41_front_end.md rules R171 and R172). -/
theorem sampleStep_fsIdx (s : State) (i q : Byte) :
    (sampleStep s i q).fsIdx = if cfgDual s.cfg then fsNext s.par s.fsIdx else s.fsIdx := by
  have hroute : ∀ v, (routeInput s v).2.fsIdx = if cfgDual s.cfg then fsNext s.par s.fsIdx else s.fsIdx :=
    fun v => by unfold routeInput; split <;> rfl
  have hfiltered : (filterSample s i q).2.fsIdx = if cfgDual s.cfg then fsNext s.par s.fsIdx else s.fsIdx :=
    (runFilters_counters ..).2.trans (hroute _)
  rw [sampleStep_eq]
  split
  · exact (forwardSample_counters ..).2.trans hfiltered
  · exact hfiltered

/-! ### The obligation -/

theorem Agree.refl_of {c : Chain} {s u : State} (hpar : s.par = u.par) (hcfg : s.cfg = u.cfg) (hdcnt : s.dcnt = u.dcnt)
    (hfsIdx : s.fsIdx = u.fsIdx) (hchain : SameChain c s u) : Agree c s.io.out u.io.out s u :=
  ⟨hpar, hcfg, hdcnt, hfsIdx, hchain, [], [], by simp, by simp, rfl⟩

/-- The records of a chain handed out since. -/
theorem Agree.recordsOf_drop {c : Chain} {a b : List Telegram} {s u : State} (h : Agree c a b s u) :
    recordsOf c (s.io.out.drop a.length) = recordsOf c (u.io.out.drop b.length) := by
  obtain ⟨l, l', hl, hl', heq⟩ := h.records
  rw [hl, hl', List.drop_left, List.drop_left, heq]

/-- Settles O58: the counters are functions of what the two cores share, and a sample keeps the agreement on a chain. -/
theorem chainIndependence : Obligations.ChainIndependence := by
  intro s u s' u' i q hpar hcfg hdcnt hfsIdx hphase hs hu
  obtain rfl : (sampleStep s i q).reply _ = s' := Host.Outcome.next.inj hs
  obtain rfl : (sampleStep u i q).reply _ = u' := Host.Outcome.next.inj hu
  have hstep : ∀ c, SameChain c s u → Agree c s.io.out u.io.out (sampleStep s i q) (sampleStep u i q) := by
    intro c hchain
    refine sampleStep_agree (.refl_of hpar hcfg hdcnt hfsIdx hchain) (fun hppf => ?_) i q
    obtain ⟨p, hp⟩ := hphase hppf
    exact ⟨p, fun c x hon => (hp c x hon).1, fun c x hon => (hp c x (hcfg ▸ hon)).2⟩
  refine ⟨?_, ?_, fun hT => ?_, fun hS => ?_⟩
  · simp only [State.reply_dcnt, sampleStep_dcnt, hpar, hcfg, hdcnt]
    exact decimGate_dcnt ..
  · simp only [State.reply_fsIdx, sampleStep_fsIdx, hpar, hcfg, hfsIdx]
  · exact ⟨(hstep .T hT).chain, (hstep .T hT).recordsOf_drop⟩
  · exact ⟨(hstep .S hS).chain, (hstep .S hS).recordsOf_drop⟩

end Sys2Proof.Machine
end

section
/-! PROOFS. Whole frames are received (30_encoding.md rule R131). A frame is a row of fields, each a word sent most
significant bit first. A decoder collects the bits of a field and acts at the last one, so a frame is received field by
field: `feed_fieldT` and `feed_byteS` bring a decoder to the last bit of a field, one lemma per state says what it does
with the word, and `ReceivesByte.feed_data` walks over the payload bytes of any decoder. -/

namespace Sys2Proof.Machine

open Sys2Proof

/-! ### Words and their bits (30_encoding.md rule R106) -/

/-- The first `m` bits of a word, assembled, are its top `m` bits. -/
theorem foldl_shiftIn_topBits {n : Nat} (w : BitVec n) : ∀ m ≤ n,
    ((List.range m).map fun i => w.getLsbD (n - 1 - i)).foldl shiftIn 0#n = w >>> (n - m) := by
  intro m
  induction m with
  | zero => simp [BitVec.ushiftRight_eq_zero]
  | succ m ih =>
    intro hm
    rw [List.range_succ, List.map_append, List.foldl_append, ih (by omega)]
    apply BitVec.eq_of_getLsbD_eq
    intro i hi
    rw [List.map_singleton, List.foldl_cons, List.foldl_nil, BitVec.getLsbD_ushiftRight]
    cases i with
    | zero =>
      rw [shiftIn_getLsbD_zero _ _ hi]
      congr 1
      omega
    | succ k =>
      rw [shiftIn_getLsbD_succ _ _ _ hi, BitVec.getLsbD_ushiftRight]
      congr 1
      omega

/-- Assembling the bits of a word gives the word back. -/
theorem foldl_shiftIn_bitsMsb {n : Nat} (w : BitVec n) : (bitsMsb w).foldl shiftIn 0#n = w := by
  rw [bitsMsb, foldl_shiftIn_topBits w n (Nat.le_refl n), Nat.sub_self, BitVec.ushiftRight_zero]

@[simp] theorem bitsMsb_length {n : Nat} (w : BitVec n) : (bitsMsb w).length = n := by simp [bitsMsb]

theorem bitsMsb_ne_nil {n : Nat} (w : BitVec n) (hn : 0 < n) : bitsMsb w ≠ [] :=
  List.ne_nil_of_length_pos (by rwa [bitsMsb_length])

/-- Two words sent one after the other are their concatenation sent. -/
theorem bitsMsb_append {m n : Nat} (x : BitVec m) (y : BitVec n) : bitsMsb (x ++ y) = bitsMsb x ++ bitsMsb y := by
  rw [bitsMsb, List.range_add, List.map_append, List.map_map]
  congr 1
  · refine List.map_congr_left fun i hi => ?_
    have hi : i < m := List.mem_range.mp hi
    rw [BitVec.getLsbD_append, if_neg (by omega)]
    congr 1
    omega
  · refine List.map_congr_left fun i hi => ?_
    have hi : i < n := List.mem_range.mp hi
    rw [Function.comp_apply, BitVec.getLsbD_append, if_pos (by omega)]
    congr 1
    omega

/-- The two codewords of a byte as one 12-bit field (30_encoding.md rule R107). -/
def codedWord (code : BitVec 4 → BitVec 6) (x : Byte) : BitVec 12 :=
  code (x.extractLsb' 4 4) ++ code (x.extractLsb' 0 4)

theorem codedByte_eq (code : BitVec 4 → BitVec 6) (x : Byte) : codedByte code x = bitsMsb (codedWord code x) :=
  (bitsMsb_append _ _).symm

theorem hiCode_codedWord (code : BitVec 4 → BitVec 6) (x : Byte) :
    hiCode (codedWord code x) = code (x.extractLsb' 4 4) := by
  apply BitVec.eq_of_toNat_eq
  have h := (code (x.extractLsb' 0 4)).isLt
  rw [hiCode_toNat, codedWord, toNat_append_eq]
  omega

theorem loCode_codedWord (code : BitVec 4 → BitVec 6) (x : Byte) :
    loCode (codedWord code x) = code (x.extractLsb' 0 4) := by
  apply BitVec.eq_of_toNat_eq
  have h := (code (x.extractLsb' 0 4)).isLt
  rw [loCode_toNat, codedWord, toNat_append_eq]
  omega

/-- A byte is its two nibbles. -/
theorem nibbles_append (x : Byte) : (x.extractLsb' 4 4 ++ x.extractLsb' 0 4 : Byte) = x := by
  apply BitVec.eq_of_toNat_eq
  have h := x.isLt
  simp only [toNat_append_eq, BitVec.extractLsb'_toNat, Nat.shiftRight_eq_div_pow]
  omega

/-! ### Tokens that carry bits -/

theorem Carries.of_singleton {th r : NumT} {b : Bool} {toks : List BitTok} (h : Carries th r [b] toks) :
    ∃ bit, toks = [bit] ∧ bit.b = b ∧ bit.rssi = r ∧ ¬ bit.rssi < th := by
  obtain ⟨hbits, hstrong, hlast⟩ := h
  obtain ⟨bit, rfl, hb⟩ := List.map_eq_singleton_iff.mp hbits
  exact ⟨bit, rfl, hb, by simpa using hlast, hstrong bit (by simp)⟩

/-- The tokens of two bit sequences are those of the one and then those of the other. -/
theorem Carries.of_append {th r : NumT} {xs ys : List Bool} {toks : List BitTok} (h : Carries th r (xs ++ ys) toks)
    (hx : xs ≠ []) (hy : ys ≠ []) :
    ∃ toks₁ toks₂ r₁, toks = toks₁ ++ toks₂ ∧ Carries th r₁ xs toks₁ ∧ Carries th r ys toks₂ := by
  obtain ⟨hbits, hstrong, hlast⟩ := h
  obtain ⟨toks₁, toks₂, rfl, rfl, rfl⟩ := List.map_eq_append_iff.mp hbits
  have h₁ : toks₁ ≠ [] := by simpa using hx
  have h₂ : toks₂ ≠ [] := by simpa using hy
  refine ⟨toks₁, toks₂, (toks₁.getLast h₁).rssi, rfl, ⟨rfl, fun x hm => hstrong x (by simp [hm]), ?_⟩,
    ⟨rfl, fun x hm => hstrong x (by simp [hm]), ?_⟩⟩
  · rw [List.getLast?_eq_some_getLast h₁, Option.map_some]
  · rwa [List.getLast?_append_of_ne_nil _ h₂] at hlast

/-- The first token of a bit sequence of two bits or more. -/
theorem Carries.of_cons {th r : NumT} {b : Bool} {bs : List Bool} {toks : List BitTok} (h : Carries th r (b :: bs) toks)
    (hbs : bs ≠ []) :
    ∃ bit toks', toks = bit :: toks' ∧ bit.b = b ∧ ¬ bit.rssi < th ∧ Carries th r bs toks' := by
  obtain ⟨toks₁, toks', r₁, rfl, h₁, h'⟩ := Carries.of_append (xs := [b]) h (by simp) hbs
  obtain ⟨bit, rfl, hb, -, hstrong⟩ := h₁.of_singleton
  exact ⟨bit, toks', rfl, hb, hstrong, h'⟩

/-! ### Feeding a decoder -/

section
variable {δ : Type} (dlv : δ → BitTok → Io → δ × Io)

/-- The tokens delivered to a decoder one after another. -/
def feed (toks : List BitTok) (p : δ × Io) : δ × Io := toks.foldl (fun p bit => dlv p.1 bit p.2) p

@[simp] theorem feed_nil (p : δ × Io) : feed dlv [] p = p := rfl

@[simp] theorem feed_cons (bit : BitTok) (toks : List BitTok) (p : δ × Io) :
    feed dlv (bit :: toks) p = feed dlv toks (dlv p.1 bit p.2) := rfl

theorem feed_append (toks toks' : List BitTok) (p : δ × Io) :
    feed dlv (toks ++ toks') p = feed dlv toks' (feed dlv toks p) := List.foldl_append

/-- A completed telegram: the decoder is idle again and one record has gone to the host, stamped at that moment. -/
structure Emits (idle : δ) (io : Io) (record : Timestamp → Telegram) (p : δ × Io) : Prop where
  idle : p.1 = idle
  out : p.2.out = io.out ++ [record io.timestamp]

/-- A decoder that holds the first bytes of a telegram of `total` bytes receives the next one, sent as `enc` says: it
stores the byte, or, with the last one, completes the telegram. -/
structure ReceivesByte (th : NumT) (idle : δ) (total : Nat) (enc : Byte → List Bool)
    (record : NumT → Timestamp → List Byte → Telegram) (Holds : List Byte → δ → Prop) : Prop where
  enc_ne_nil : ∀ x, enc x ≠ []
  stores : ∀ {bytes d x r toks} (io : Io), Holds bytes d → bytes.length + 1 < total → Carries th r (enc x) toks →
    ∃ d', feed dlv toks (d, io) = (d', io) ∧ Holds (bytes ++ [x]) d'
  completes : ∀ {bytes d x r toks} (io : Io), Holds bytes d → bytes.length + 1 = total → Carries th r (enc x) toks →
    Emits idle io (fun ts => record r ts (bytes ++ [x])) (feed dlv toks (d, io))

variable {dlv}

theorem ReceivesByte.flatMap_ne_nil {th : NumT} {idle : δ} {total : Nat} {enc : Byte → List Bool}
    {record : NumT → Timestamp → List Byte → Telegram} {Holds : List Byte → δ → Prop}
    (h : ReceivesByte dlv th idle total enc record Holds) {data : List Byte} (hdata : data ≠ []) :
    data.flatMap enc ≠ [] := by
  obtain ⟨x, hx⟩ := List.exists_mem_of_ne_nil data hdata
  exact fun hnil => h.enc_ne_nil x (List.flatMap_eq_nil_iff.mp hnil x hx)

/-- The rest of a telegram is received byte by byte. -/
theorem ReceivesByte.feed_data {th r : NumT} {idle : δ} {total : Nat} {enc : Byte → List Bool}
    {record : NumT → Timestamp → List Byte → Telegram} {Holds : List Byte → δ → Prop}
    (h : ReceivesByte dlv th idle total enc record Holds) (io : Io) (data : List Byte) :
    ∀ {bytes : List Byte} {d : δ} {toks : List BitTok}, data ≠ [] → Holds bytes d → bytes.length + data.length = total →
      Carries th r (data.flatMap enc) toks →
      Emits idle io (fun ts => record r ts (bytes ++ data)) (feed dlv toks (d, io)) := by
  induction data with
  | nil => intro _ _ _ hne; exact absurd rfl hne
  | cons x data ih =>
    intro bytes d toks _ hd hlen hc
    rw [List.flatMap_cons] at hc
    by_cases hdata : data = []
    · subst hdata
      rw [List.flatMap_nil, List.append_nil] at hc
      exact h.completes io hd hlen hc
    · have hpos := List.length_pos_iff.mpr hdata
      rw [List.length_cons] at hlen
      obtain ⟨toks₁, toks₂, r₁, rfl, hc₁, hc₂⟩ := hc.of_append (h.enc_ne_nil x) (h.flatMap_ne_nil hdata)
      obtain ⟨d', hfeed, hd'⟩ := h.stores io hd (by omega) hc₁
      have hrest := ih hdata hd' (by rw [List.length_append, List.length_singleton]; omega) hc₂
      rw [List.append_assoc, List.singleton_append] at hrest
      rwa [feed_append, hfeed]

end

/-- The record of a telegram `t` of frame type A or B without a symbol error (45_crc_framing.md rule R318). -/
def frameRecord (poly : BitVec 16) (mode : Mode) (isB : Bool) (a : Syn) (r0 r : NumT) (ts : Timestamp) (t : List Byte) :
    Telegram :=
  let payload := if isB then stripB t else stripA t
  ⟨mode, isB, algOf a, if isB then crcchkB poly t else crcchkA poly t, false, ts, r0, r, serialOf payload,
    payload.length, payload⟩

/-! ### Delivering tokens to a decoder of the machine -/

theorem ChainT.setDec_setDec (ch : ChainT) (a : Syn) (d d' : DecT) : (ch.setDec a d).setDec a d' = ch.setDec a d' := by
  cases a <;> rfl

theorem ChainS.setDec_setDec (ch : ChainS) (a : Syn) (d d' : DecS) : (ch.setDec a d).setDec a d' = ch.setDec a d' := by
  cases a <;> rfl

/-- A row of `T1C1.BIT` operations feeds the decoder and leaves the rest of the chain alone. -/
theorem runOps_bitOps_T (a : Syn) (toks : List BitTok) : ∀ s : State, ∃ u, runOps (bitOps .T a toks) s = .next u ∧
    u.chT = s.chT.setDec a (feed (t1c1Bit s.par a) toks (s.chT.dec a, s.io)).1 ∧
    u.io = (feed (t1c1Bit s.par a) toks (s.chT.dec a, s.io)).2 := by
  induction toks with
  | nil => exact fun s => ⟨s, rfl, by simp, rfl⟩
  | cons bit toks ih =>
    intro s
    obtain ⟨u, hu, hchT, hio⟩ := ih (finishT s a (t1c1Bit s.par a (s.chT.dec a) bit s.io))
    refine ⟨u, hu, ?_, ?_⟩
    · simpa [ChainT.setDec_setDec] using hchT
    · simpa using hio

/-- A row of `S1.BIT` operations feeds the decoder and leaves the rest of the chain alone. -/
theorem runOps_bitOps_S (a : Syn) (toks : List BitTok) : ∀ s : State, ∃ u, runOps (bitOps .S a toks) s = .next u ∧
    u.chS = s.chS.setDec a (feed (s1Bit s.par a) toks (s.chS.dec a, s.io)).1 ∧
    u.io = (feed (s1Bit s.par a) toks (s.chS.dec a, s.io)).2 := by
  induction toks with
  | nil => exact fun s => ⟨s, rfl, by simp, rfl⟩
  | cons bit toks ih =>
    intro s
    obtain ⟨u, hu, hchS, hio⟩ := ih (finishS s a (s1Bit s.par a (s.chS.dec a) bit s.io))
    refine ⟨u, hu, ?_, ?_⟩
    · simpa [ChainS.setDec_setDec] using hchS
    · simpa using hio

/-- A telegram that an idle T1/C1 decoder receives leaves the chain as it was and is handed out. -/
theorem Emits.runOps_T {s : State} {a : Syn} {toks : List BitTok} {record : Timestamp → Telegram}
    (hidle : s.chT.dec a = decTReset)
    (h : Emits decTReset s.io record (feed (t1c1Bit s.par a) toks (decTReset, s.io))) :
    ∃ u ts, runOps (bitOps .T a toks) s = .next u ∧ u.chT = s.chT ∧ u.io.out = s.io.out ++ [record (.host ts)] := by
  obtain ⟨u, hu, hchT, hio⟩ := runOps_bitOps_T a toks s
  rw [hidle] at hchT hio
  refine ⟨u, _, hu, ?_, hio ▸ h.out⟩
  rw [hchT, h.idle, ← hidle, ChainT.setDec_self]

/-- A telegram that an idle S1 decoder receives leaves the chain as it was and is handed out. -/
theorem Emits.runOps_S {s : State} {a : Syn} {toks : List BitTok} {record : Timestamp → Telegram}
    (hidle : s.chS.dec a = decSReset)
    (h : Emits decSReset s.io record (feed (s1Bit s.par a) toks (decSReset, s.io))) :
    ∃ u ts, runOps (bitOps .S a toks) s = .next u ∧ u.chS = s.chS ∧ u.io.out = s.io.out ++ [record (.host ts)] := by
  obtain ⟨u, hu, hchS, hio⟩ := runOps_bitOps_S a toks s
  rw [hidle] at hchS hio
  refine ⟨u, _, hu, ?_, hio ▸ h.out⟩
  rw [hchS, h.idle, ← hidle, ChainS.setDec_self]

/-- The accepted telegram lengths (60_exceptions.md rule R360). -/
theorem lengthRefused_eq_false_iff {par : Par} {n : Nat} : lengthRefused par n = false ↔ 3 ≤ n ∧ n ≤ par.cap := by
  simp [lengthRefused]

/-- The first byte of a telegram in an empty buffer. -/
theorem memBytes_memWrite_nil (l : Byte) : memBytes (memWrite [] 0 l) 1 = [l] :=
  memBytes_memWrite memory_wf_nil 0 l

/-! ### One field of a T1/C1 decoder -/

/-- Inside a capture at sufficient RSSI a bit goes to the handler. -/
theorem t1c1Bit_of_strong {par : Par} {d : DecT} {bit : BitTok} (a : Syn) (io : Io)
    (hstrong : ¬ bit.rssi < par.rssiTh.t) : t1c1Bit par a d bit io = t1c1Handler par a d bit io := by
  have hlow : rssiLow par .T bit = false := decide_eq_false hstrong
  rw [t1c1Bit, hlow, Bool.and_false, if_neg Bool.false_ne_true]

/-- A bit that does not end its field is shifted into it. -/
theorem t1c1Handler_collect {par : Par} {d : DecT} {st : StT} (a : Syn) (bit : BitTok) (io : Io) (hst : d.st = st)
    (hcnt : d.cnt.toNat + 1 < fieldBitsT st) :
    t1c1Handler par a d bit io =
      (collectT d ((shiftIn (d.reg.setWidth (fieldBitsT st)) bit.b).setWidth 12), io) := by
  have hlt : ∀ {n : Nat}, fieldBitsT st = n + 1 → n < 16 → d.cnt < BitVec.ofNat 4 n :=
    fun {n} hn h16 => (cnt_lt _ n h16).mpr (by omega)
  rw [t1c1Handler, hst]
  cases st with
  | idle => simp [fieldBitsT] at hcnt
  | done => simp [fieldBitsT] at hcnt
  | lfield => exact (if_pos (hlt (n := 11) rfl (by decide))).trans (by simp [fieldBitsT])
  | c1Trailer => exact if_pos (hlt (n := 3) rfl (by decide))
  | c1Len => exact if_pos (hlt (n := 7) rfl (by decide))
  | dataT1 => exact (if_pos (hlt (n := 11) rfl (by decide))).trans (by simp [fieldBitsT])
  | dataC1 => exact if_pos (hlt (n := 7) rfl (by decide))

/-- The decoder `e` is `d` with all bits of a field of state `st` collected but the last, which is `bit`; with it the
field is the word `w`. -/
structure EndsFieldT (d : DecT) (st : StT) (w : BitVec (fieldBitsT st)) (e : DecT) (bit : BitTok) : Prop where
  rest : endFieldT e = endFieldT d
  cnt : e.cnt.toNat + 1 = fieldBitsT st
  word : shiftIn (e.reg.setWidth (fieldBitsT st)) bit.b = w

/-- The state is the one whose field ends. -/
theorem EndsFieldT.st {d e : DecT} {st : StT} {w : BitVec (fieldBitsT st)} {bit : BitTok} (h : EndsFieldT d st w e bit)
    (hst : d.st = st) : e.st = st := by
  rw [← endFieldT_st e, h.rest, endFieldT_st, hst]

/-- The last bit of a field does not leave it short of `n + 1` bits. -/
theorem EndsFieldT.not_lt {d e : DecT} {st : StT} {w : BitVec (fieldBitsT st)} {bit : BitTok}
    (h : EndsFieldT d st w e bit) {n : Nat} (hn : fieldBitsT st = n + 1) (h16 : n < 16) :
    ¬ e.cnt < BitVec.ofNat 4 n := by
  rw [cnt_lt _ n h16]
  have := h.cnt
  omega

/-- The bits of a field up to the last one are collected. -/
theorem feed_bitsT {par : Par} (a : Syn) {st : StT} (io : Io) {r : NumT} (bs : List Bool) :
    ∀ {d : DecT} {toks : List BitTok}, bs ≠ [] → d.st = st → d.cnt.toNat + bs.length = fieldBitsT st →
      Carries par.rssiTh.t r bs toks →
      ∃ e bit, bit.rssi = r ∧ EndsFieldT d st (bs.foldl shiftIn (d.reg.setWidth _)) e bit ∧
        feed (t1c1Bit par a) toks (d, io) = t1c1Handler par a e bit io := by
  induction bs with
  | nil => intro _ _ hne; exact absurd rfl hne
  | cons b bs ih =>
    intro d toks _ hst hlen hc
    rw [List.length_cons] at hlen
    by_cases hbs : bs = []
    · subst hbs
      obtain ⟨bit, rfl, rfl, hr, hstrong⟩ := hc.of_singleton
      exact ⟨d, bit, hr, ⟨rfl, hlen, rfl⟩, t1c1Bit_of_strong a io hstrong⟩
    · obtain ⟨bit, toks', rfl, rfl, hstrong, hc'⟩ := hc.of_cons hbs
      have hpos := List.length_pos_iff.mpr hbs
      have h12 : fieldBitsT st ≤ 12 := by cases st <;> decide
      have hstep : t1c1Bit par a d bit io = _ :=
        (t1c1Bit_of_strong a io hstrong).trans (t1c1Handler_collect a bit io hst (by omega))
      have hcnt : (d.cnt + 1).toNat = d.cnt.toNat + 1 := toNat_add_one_of_lt (by omega)
      obtain ⟨e, last, hr, hend, hfeed⟩ := ih (d := collectT d ((shiftIn (d.reg.setWidth _) bit.b).setWidth 12)) hbs hst
        (by rw [collectT_cnt, hcnt]; omega) hc'
      refine ⟨e, last, hr, ⟨hend.rest, hend.cnt, ?_⟩, ?_⟩
      · rw [hend.word, collectT_reg, BitVec.setWidth_setWidth_of_le _ h12, BitVec.setWidth_eq, List.foldl_cons]
      · rw [feed_cons, hstep]
        exact hfeed

/-- A field of a T1/C1 decoder is brought to its last bit. -/
theorem feed_fieldT {par : Par} (a : Syn) {st : StT} (io : Io) {r : NumT} {d : DecT}
    {toks : List BitTok} (w : BitVec (fieldBitsT st)) (hst : d.st = st) (hd : endFieldT d = d)
    (hc : Carries par.rssiTh.t r (bitsMsb w) toks) :
    ∃ e bit, bit.rssi = r ∧ EndsFieldT d st w e bit ∧
      feed (t1c1Bit par a) toks (d, io) = t1c1Handler par a e bit io := by
  have hcnt : d.cnt = 0 := by rw [← hd, endFieldT_cnt]
  have hreg : d.reg.setWidth (fieldBitsT st) = 0#_ := by rw [← hd, endFieldT_reg]; exact BitVec.setWidth_zero ..
  have hpos : 0 < fieldBitsT st := by cases st <;> decide
  have h := feed_bitsT a io _ (bitsMsb_ne_nil w hpos) hst (by simp [hcnt]) hc
  rwa [hreg, foldl_shiftIn_bitsMsb] at h

/-! ### The header of a T1/C1 frame -/

/-- A T1/C1 decoder that has captured an access code and stored no byte yet. -/
def headerT (st : StT) (r0 : NumT) (isC1 isB : Bool) : DecT :=
  { decTReset with st := st, rssiPre := r0, isC1 := isC1, isB := isB }

/-- An access code starts a capture. -/
theorem t1c1Bit_access (par : Par) (a : Syn) (b0 : Bool) (r0 : NumT) (io : Io) :
    t1c1Bit par a decTReset ⟨b0, true, r0⟩ io = (headerT .lfield r0 false false, io) := rfl

/-- A field of the header is brought to its last bit. -/
theorem feed_headerT {par : Par} (a : Syn) {st : StT} (io : Io) {r0 r : NumT} {isC1 isB : Bool} {toks : List BitTok}
    (w : BitVec (fieldBitsT st)) (hc : Carries par.rssiTh.t r (bitsMsb w) toks) :
    ∃ e bit, EndsFieldT (headerT st r0 isC1 isB) st w e bit ∧
      feed (t1c1Bit par a) toks (headerT st r0 isC1 isB, io) = t1c1Handler par a e bit io := by
  obtain ⟨e, bit, -, hend, hfeed⟩ := feed_fieldT (d := headerT st r0 isC1 isB) a io w rfl rfl hc
  exact ⟨e, bit, hend, hfeed⟩

/-- A mode word makes the capture a C1 one. -/
theorem feed_modeWord {par : Par} (a : Syn) (io : Io) {r0 r : NumT} {toks : List BitTok} {w : BitVec 12}
    (hw : isC1Word par w = true) (hc : Carries par.rssiTh.t r (bitsMsb w) toks) :
    feed (t1c1Bit par a) toks (headerT .lfield r0 false false, io) =
      (headerT .c1Trailer r0 true (isBWord par w), io) := by
  obtain ⟨e, bit, hend, hfeed⟩ := feed_headerT a (st := .lfield) io w hc
  have hcnt : ¬ e.cnt < 11 := hend.not_lt (n := 11) rfl (by decide)
  have hword : shiftIn e.reg bit.b = w := by simpa [fieldBitsT] using hend.word
  rw [hfeed, t1c1Handler, hend.st rfl]
  simp only [t1c1Lfield, if_neg hcnt, hword, if_pos hw, hend.rest]
  rfl

/-- The C1 trailer is accepted. -/
theorem feed_trailer {par : Par} (a : Syn) (io : Io) {r0 r : NumT} {isB : Bool} {toks : List BitTok}
    (hc : Carries par.rssiTh.t r (bitsMsb par.c1Trailer) toks) :
    feed (t1c1Bit par a) toks (headerT .c1Trailer r0 true isB, io) = (headerT .c1Len r0 true isB, io) := by
  obtain ⟨e, bit, hend, hfeed⟩ := feed_headerT a (st := .c1Trailer) io par.c1Trailer hc
  have hcnt : ¬ e.cnt < 3 := hend.not_lt (n := 3) rfl (by decide)
  have hword : shiftIn (e.reg.setWidth 4) bit.b = par.c1Trailer := hend.word
  rw [hfeed, t1c1Handler, hend.st rfl]
  simp only [t1c1C1trailer, if_neg hcnt, hword, if_true, hend.rest]
  rfl

/-- The L-field of a C1 frame begins the payload. -/
theorem feed_c1Len {par : Par} (a : Syn) (io : Io) {r0 r : NumT} {isB : Bool} {toks : List BitTok} {l : Byte}
    (hl : lengthRefused par (c1Total par isB l) = false) (hc : Carries par.rssiTh.t r (rawByte l) toks) :
    feed (t1c1Bit par a) toks (headerT .c1Len r0 true isB, io) =
      (beginDataT (headerT .c1Len r0 true isB) l (c1Total par isB l) .dataC1, io) := by
  obtain ⟨e, bit, hend, hfeed⟩ := feed_headerT a (st := .c1Len) io l hc
  have hcnt : ¬ e.cnt < 7 := hend.not_lt (n := 7) rfl (by decide)
  have hword : shiftIn (e.reg.setWidth 8) bit.b = l := hend.word
  have hisB : e.isB = isB := by rw [← endFieldT_isB e, hend.rest]; rfl
  rw [hfeed, t1c1Handler, hend.st rfl]
  simp only [t1c1C1len, if_neg hcnt, hword, hisB, hl, Bool.false_eq_true, if_false, hend.rest]
  rfl

/-- A code that the table decodes is decoded. -/
theorem dec3of6_code {par : Par} {code : BitVec 4 → BitVec 6}
    (hcode : ∀ n, par.dec3of6.getD (code n).toNat none = some n) (n : BitVec 4) : dec3of6 par (code n) = some n :=
  hcode n

/-- The L-field of a T1 frame, no C1 mode word, begins the payload. -/
theorem feed_t1Len {par : Par} (a : Syn) (io : Io) {r0 r : NumT} {toks : List BitTok} {l : Byte}
    {code : BitVec 4 → BitVec 6} (hcode : ∀ n, par.dec3of6.getD (code n).toNat none = some n)
    (hw : isC1Word par (codedWord code l) = false) (hl : lengthRefused par (lenA par l) = false)
    (hc : Carries par.rssiTh.t r (codedByte code l) toks) :
    feed (t1c1Bit par a) toks (headerT .lfield r0 false false, io) =
      (beginDataT (headerT .lfield r0 false false) l (lenA par l) .dataT1, io) := by
  rw [codedByte_eq] at hc
  obtain ⟨e, bit, hend, hfeed⟩ := feed_headerT a (st := .lfield) io (codedWord code l) hc
  have hcnt : ¬ e.cnt < 11 := hend.not_lt (n := 11) rfl (by decide)
  have hword : shiftIn e.reg bit.b = codedWord code l := by simpa [fieldBitsT] using hend.word
  rw [hfeed, t1c1Handler, hend.st rfl]
  simp only [t1c1Lfield, if_neg hcnt, hword, hw, Bool.false_eq_true, if_false, hiCode_codedWord, loCode_codedWord,
    dec3of6_code hcode, nibbles_append, hl, hend.rest]
  rfl

/-! ### The payload of a T1/C1 frame -/

/-- A decoder in the data state `st` that holds the first bytes of a telegram of `total` bytes, no bit of the next. -/
structure HoldsT (st : StT) (r0 : NumT) (isC1 isB : Bool) (total : Nat) (bytes : List Byte) (d : DecT) : Prop where
  st : d.st = st
  field : endFieldT d = d
  rssiPre : d.rssiPre = r0
  isC1 : d.isC1 = isC1
  isB : d.isB = isB
  symErr : d.symErr = false
  total : d.total = total
  len : d.len = bytes.length
  stored : memBytes d.buf bytes.length = bytes
  canonical : Memory.wf d.buf = true

theorem holdsT_beginDataT (st st' : StT) (r0 : NumT) (isC1 isB : Bool) (total : Nat) (l : Byte) :
    HoldsT st r0 isC1 isB total [l] (beginDataT (headerT st' r0 isC1 isB) l total st) :=
  ⟨rfl, rfl, rfl, rfl, rfl, rfl, rfl, rfl, memBytes_memWrite_nil l, memWrite_wf memory_wf_nil 0 l⟩

section
variable {par : Par} {st : StT} {r0 : NumT} {isC1 isB : Bool} {total : Nat} {bytes : List Byte} {d : DecT}

theorem HoldsT.storeT (h : HoldsT st r0 isC1 isB total bytes d) (x : Byte) :
    HoldsT st r0 isC1 isB total (bytes ++ [x]) (storeT d x) where
  st := h.st
  field := congrArg (Machine.storeT · x) h.field
  rssiPre := h.rssiPre
  isC1 := h.isC1
  isB := h.isB
  symErr := h.symErr
  total := h.total
  len := by rw [storeT_len, h.len, List.length_append, List.length_singleton]
  stored := by
    rw [storeT_buf, h.len, List.length_append, List.length_singleton, memBytes_memWrite h.canonical, h.stored]
  canonical := memWrite_wf h.canonical _ _

/-- The record of a decoder that holds its whole telegram. -/
theorem HoldsT.emits (h : HoldsT st r0 isC1 isB total bytes d) (a : Syn) (bit : BitTok) (io : Io)
    (hlen : bytes.length = total) :
    Emits decTReset io
      (fun ts => frameRecord par.crcPoly (if isC1 then .C1 else .T1) isB a r0 bit.rssi ts bytes)
      (t1c1Done par a d bit io) := by
  obtain ⟨hidle, hout, -⟩ := t1c1Done_out par a d bit io
  refine ⟨hidle, hout.trans ?_⟩
  have hbytes : memBytes d.buf d.total = bytes := by rw [h.total, ← hlen, h.stored]
  simp only [telegramT, stampT, doneModeT, doneCrcT, frameRecord, hbytes, h.rssiPre, h.isC1, h.isB, h.symErr]

/-- What a payload byte does to a decoder that holds the bytes before it. -/
theorem HoldsT.payloadT_eq (h : HoldsT st r0 isC1 isB total bytes d) (a : Syn) (x : Byte) (bit : BitTok) (io : Io)
    (hcap : total ≤ par.cap) (hlen : bytes.length < total) :
    payloadT par a d x bit io =
      if bytes.length + 1 = total then t1c1Done par a (Machine.storeT d x) bit io else (Machine.storeT d x, io) := by
  rw [payloadT, h.len, h.total, if_neg (by omega)]

/-- A decoder that gives every byte to `payloadT` receives the bytes of a telegram. -/
theorem receivesByte_of_payloadT {a : Syn} {enc : Byte → List Bool} (hcap : total ≤ par.cap)
    (henc : ∀ x, enc x ≠ [])
    (hbyte : ∀ {bytes d x r toks} (io : Io), HoldsT st r0 isC1 isB total bytes d → Carries par.rssiTh.t r (enc x) toks →
      ∃ bit, bit.rssi = r ∧ feed (t1c1Bit par a) toks (d, io) = payloadT par a d x bit io) :
    ReceivesByte (t1c1Bit par a) par.rssiTh.t decTReset total enc
      (frameRecord par.crcPoly (if isC1 then .C1 else .T1) isB a r0) (HoldsT st r0 isC1 isB total) where
  enc_ne_nil := henc
  stores {bytes d x r toks} io hd hlen hc := by
    obtain ⟨bit, -, hfeed⟩ := hbyte io hd hc
    exact ⟨_, by rw [hfeed, hd.payloadT_eq a x bit io hcap (by omega), if_neg (by omega)], hd.storeT x⟩
  completes {bytes d x r toks} io hd hlen hc := by
    obtain ⟨bit, rfl, hfeed⟩ := hbyte io hd hc
    rw [hfeed, hd.payloadT_eq a x bit io hcap (by omega), if_pos hlen]
    exact (hd.storeT x).emits a bit io (by simp [hlen])

/-- A T1 decoder receives 3-out-of-6 bytes (44_frame_decoders.md rule R266). -/
theorem receivesByte_T1 {code : BitVec 4 → BitVec 6} (a : Syn) (r0 : NumT) (hcap : total ≤ par.cap)
    (hcode : ∀ n, par.dec3of6.getD (code n).toNat none = some n) :
    ReceivesByte (t1c1Bit par a) par.rssiTh.t decTReset total (codedByte code)
      (frameRecord par.crcPoly .T1 false a r0) (HoldsT .dataT1 r0 false false total) := by
  refine receivesByte_of_payloadT (isC1 := false) (isB := false) hcap
    (fun x => codedByte_eq code x ▸ bitsMsb_ne_nil _ (by decide)) ?_
  intro bytes d x r toks io hd hc
  rw [codedByte_eq] at hc
  obtain ⟨e, bit, hr, hend, hfeed⟩ := feed_fieldT a (st := .dataT1) io (codedWord code x) hd.st hd.field hc
  have hcnt : ¬ e.cnt < 11 := hend.not_lt (n := 11) rfl (by decide)
  have hword : shiftIn e.reg bit.b = codedWord code x := by simpa [fieldBitsT] using hend.word
  have hvalid : t1Invalid par (codedWord code x) = false := by
    simp [t1Invalid, hiCode_codedWord, loCode_codedWord, dec3of6_code hcode]
  have hbyte : t1Byte par (codedWord code x) = x := by
    simp [t1Byte, hiCode_codedWord, loCode_codedWord, dec3of6_code hcode, nibbles_append]
  have hrest : endFieldT e = d := hend.rest.trans hd.field
  have hsym : e.symErr = d.symErr := by rw [← hrest, endFieldT_symErr]
  refine ⟨bit, hr, ?_⟩
  rw [hfeed, t1c1Handler, hend.st hd.st]
  simp only [t1c1DataT1, if_neg hcnt, hword, hvalid, hbyte, hrest, hsym, symErrAfter, Bool.or_false, Bool.false_eq_true,
    if_false]

/-- A C1 decoder receives raw bytes (44_frame_decoders.md rule R267). -/
theorem receivesByte_C1 (a : Syn) (r0 : NumT) (isB : Bool) (hcap : total ≤ par.cap) :
    ReceivesByte (t1c1Bit par a) par.rssiTh.t decTReset total rawByte
      (frameRecord par.crcPoly .C1 isB a r0) (HoldsT .dataC1 r0 true isB total) := by
  refine receivesByte_of_payloadT (isC1 := true) (isB := isB) (enc := rawByte) hcap
    (fun x => bitsMsb_ne_nil x (by decide)) ?_
  intro bytes d x r toks io hd hc
  obtain ⟨e, bit, hr, hend, hfeed⟩ := feed_fieldT a (st := .dataC1) io x hd.st hd.field hc
  have hcnt : ¬ e.cnt < 7 := hend.not_lt (n := 7) rfl (by decide)
  have hword : shiftIn (e.reg.setWidth 8) bit.b = x := hend.word
  have hrest : endFieldT e = d := hend.rest.trans hd.field
  refine ⟨bit, hr, ?_⟩
  rw [hfeed, t1c1Handler, hend.st hd.st]
  simp only [t1c1DataC1, if_neg hcnt, hword, hrest]

end

/-! ### A whole T1 or C1 frame -/

/-- A whole T1 frame is received. -/
theorem emits_frameT1 {par : Par} (a : Syn) (io : Io) {b0 : Bool} {r0 r : NumT} {l : Byte} {data : List Byte}
    {toks : List BitTok} {code : BitVec 4 → BitVec 6} (hcode : ∀ n, par.dec3of6.getD (code n).toNat none = some n)
    (hw : isC1Word par (codedWord code l) = false) (hdata : data ≠ []) (hl : lengthRefused par (lenA par l) = false)
    (hlen : (l :: data).length = lenA par l)
    (hc : Carries par.rssiTh.t r ((l :: data).flatMap (codedByte code)) toks) :
    Emits decTReset io (fun ts => frameRecord par.crcPoly .T1 false a r0 r ts (l :: data))
      (feed (t1c1Bit par a) (⟨b0, true, r0⟩ :: toks) (decTReset, io)) := by
  have hrec := receivesByte_T1 a r0 (lengthRefused_eq_false_iff.mp hl).2 hcode
  obtain ⟨toks₁, toks₂, r₁, rfl, hc₁, hc₂⟩ := hc.of_append (hrec.enc_ne_nil l) (hrec.flatMap_ne_nil hdata)
  rw [feed_cons, t1c1Bit_access, feed_append, feed_t1Len a io hcode hw hl hc₁]
  exact hrec.feed_data io data hdata (holdsT_beginDataT ..) (by simpa [Nat.add_comm] using hlen) hc₂

/-- A whole C1 frame of frame type A or B is received. -/
theorem emits_frameC1 {par : Par} (a : Syn) (io : Io) {b0 : Bool} {r0 r : NumT} {l : Byte} {data : List Byte}
    {toks : List BitTok} {w : BitVec 12} {isB : Bool} (hw : isC1Word par w = true) (hB : isBWord par w = isB)
    (hdata : data ≠ []) (hl : lengthRefused par (c1Total par isB l) = false)
    (hlen : (l :: data).length = c1Total par isB l)
    (hc : Carries par.rssiTh.t r (bitsMsb w ++ bitsMsb par.c1Trailer ++ (l :: data).flatMap rawByte) toks) :
    Emits decTReset io (fun ts => frameRecord par.crcPoly .C1 isB a r0 r ts (l :: data))
      (feed (t1c1Bit par a) (⟨b0, true, r0⟩ :: toks) (decTReset, io)) := by
  have hrec := receivesByte_C1 a r0 isB (lengthRefused_eq_false_iff.mp hl).2
  have hmode := bitsMsb_ne_nil w (by decide)
  have htrailer := bitsMsb_ne_nil par.c1Trailer (by decide)
  obtain ⟨toks₁, toks', r₁, rfl, hc₁, hc'⟩ := hc.of_append (by simp [hmode])
    (hrec.flatMap_ne_nil (List.cons_ne_nil l data))
  obtain ⟨toks₂, toks₃, r₂, rfl, hc₂, hc₃⟩ := hc₁.of_append hmode htrailer
  obtain ⟨toks₄, toks₅, r₃, rfl, hc₄, hc₅⟩ := hc'.of_append (hrec.enc_ne_nil l) (hrec.flatMap_ne_nil hdata)
  rw [feed_cons, t1c1Bit_access, feed_append, feed_append, feed_append, feed_modeWord a io hw hc₂, hB,
    feed_trailer a io hc₃, feed_c1Len a io hl hc₄]
  exact hrec.feed_data io data hdata (holdsT_beginDataT ..) (by simpa [Nat.add_comm] using hlen) hc₅

/-- Settles O59: the T1 frame, then the C1 frame of either type. -/
theorem frameReceivedT : Obligations.FrameReceivedT := by
  intro s a b0 r0 r l data t toks ht hidle h3 hcap
  subst ht
  have hdata : data ≠ [] := by
    rintro rfl
    simp at h3
  have haccepted : ∀ {n : Nat}, (l :: data).length = n → lengthRefused s.par n = false := by
    rintro n rfl
    exact lengthRefused_eq_false_iff.mpr ⟨h3, hcap⟩
  refine ⟨fun code hcode hA hB hlen hc => ?_, fun hlen hc => ?_, fun hAB hlen hc => ?_⟩
  · have hw : isC1Word s.par (codedWord code l) = false := by
      rw [codedByte_eq] at hA hB
      simp only [isC1Word, Bool.or_eq_false_iff, decide_eq_false_iff_not]
      exact ⟨fun h => hA (congrArg bitsMsb h), fun h => hB (congrArg bitsMsb h)⟩
    exact (emits_frameT1 a s.io hcode hw hdata (haccepted hlen) hlen hc).runOps_T hidle
  · exact (emits_frameC1 a s.io (isB := false) (by simp [isC1Word]) (by simp [isBWord]) hdata (haccepted hlen) hlen
      hc).runOps_T hidle
  · exact (emits_frameC1 a s.io (isB := true) (by simp [isC1Word]) (by simp [isBWord, hAB.symm]) hdata
      (haccepted hlen) hlen hc).runOps_T hidle

/-! ### One Manchester byte of an S1 decoder -/

/-- Inside a capture at sufficient RSSI a bit goes to the handler. -/
theorem s1Bit_of_strong {par : Par} {d : DecS} {bit : BitTok} (a : Syn) (io : Io)
    (hstrong : ¬ bit.rssi < par.rssiTh.s) : s1Bit par a d bit io = s1Handler par a d bit io := by
  have hlow : rssiLow par .S bit = false := decide_eq_false hstrong
  rw [s1Bit, hlow, Bool.and_false, if_neg Bool.false_ne_true]

/-- The first bit of a pair is kept. -/
theorem s1Handler_open {par : Par} {d : DecS} (a : Syn) (bit : BitTok) (io : Io) (hst : d.st = .len ∨ d.st = .data)
    (hcnt : d.cnt.toNat % 2 = 0) : s1Handler par a d bit io = (openPair d bit.b, io) := by
  have hopens : pairOpens d = true := (pairOpens_iff d).mpr hcnt
  rcases hst with hst | hst
  · rw [s1Handler, hst]
    exact if_pos hopens
  · rw [s1Handler, hst]
    exact if_pos hopens

/-- The second bit of a valid pair sets no flag; it ends the byte or adds the pair's bit (44_frame_decoders.md rule
R273). -/
theorem s1Data_of_valid {par : Par} {d : DecS} {bit : BitTok} {m : Bool} (a : Syn) (io : Io)
    (hopens : ¬ pairOpens d = true) (hm : manch par d.half bit.b = some m) :
    s1Data par a d bit io =
      if d.cnt < 15 then (collectS d (shiftIn d.reg m), io)
      else payloadS par a (endFieldS d) (shiftIn d.reg m) bit io := by
  simp only [s1Data, if_neg hopens, hm, symErrAfter, Option.isNone_some, Bool.or_false, Bool.false_eq_true, if_false,
    Option.getD_some]

/-- The second bit of a valid pair that does not end its byte adds the pair's bit. -/
theorem s1Handler_close {par : Par} {d : DecS} {bit : BitTok} {m : Bool} (a : Syn) (io : Io)
    (hst : d.st = .len ∨ d.st = .data) (hcnt : d.cnt.toNat % 2 = 1) (hlt : d.cnt.toNat < 15)
    (hm : manch par d.half bit.b = some m) : s1Handler par a d bit io = (collectS d (shiftIn d.reg m), io) := by
  have hopens : ¬ pairOpens d = true := by rw [pairOpens_iff]; omega
  have h15 : d.cnt < 15 := (cnt_lt _ 15 (by decide)).mpr hlt
  rcases hst with hst | hst
  · simp only [s1Handler, hst, s1Len, if_neg hopens, hm, if_pos h15]
  · simp only [s1Handler, hst, s1Data_of_valid a io hopens hm, if_pos h15]

/-- The decoder `e` is `d` with all bits of a Manchester byte collected but the last, which is `bit`; with it the byte
is `x`. -/
structure EndsByteS (par : Par) (d : DecS) (x : Byte) (e : DecS) (bit : BitTok) : Prop where
  rest : endFieldS e = { endFieldS d with half := e.half }
  cnt : e.cnt.toNat = 15
  word : ∃ m, manch par e.half bit.b = some m ∧ shiftIn e.reg m = x

theorem EndsByteS.st {par : Par} {d e : DecS} {x : Byte} {bit : BitTok} (h : EndsByteS par d x e bit) :
    e.st = d.st := by
  rw [← endFieldS_st e, h.rest]
  rfl

/-- The last bit of a byte closes a pair and does not leave the byte short. -/
theorem EndsByteS.last {par : Par} {d e : DecS} {x : Byte} {bit : BitTok} (h : EndsByteS par d x e bit) :
    ¬ pairOpens e = true ∧ ¬ e.cnt < 15 := by
  have hcnt := h.cnt
  refine ⟨fun hopens => ?_, fun hlt => ?_⟩
  · have := (pairOpens_iff e).mp hopens
    omega
  · have := (cnt_lt e.cnt 15 (by decide)).mp hlt
    omega

/-- The pair of bits that stands for a bit. -/
def pairOf (code : Bool → Bool × Bool) (b : Bool) : List Bool := [(code b).1, (code b).2]

/-- The pairs of a byte are collected up to the last bit. -/
theorem feed_pairsS {par : Par} {code : Bool → Bool × Bool} (a : Syn) (io : Io) {r : NumT}
    (hcode : ∀ m, manch par (code m).1 (code m).2 = some m) (bs : List Bool) :
    ∀ {d : DecS} {toks : List BitTok}, bs ≠ [] → d.st = .len ∨ d.st = .data → d.cnt.toNat + 2 * bs.length = 16 →
      Carries par.rssiTh.s r (bs.flatMap (pairOf code)) toks →
      ∃ e bit, bit.rssi = r ∧ EndsByteS par d (bs.foldl shiftIn d.reg) e bit ∧
        feed (s1Bit par a) toks (d, io) = s1Handler par a e bit io := by
  induction bs with
  | nil => intro _ _ hne; exact absurd rfl hne
  | cons b bs ih =>
    intro d toks _ hst hlen hc
    rw [List.length_cons] at hlen
    obtain ⟨bit₁, toks₁, rfl, hb₁, hstrong₁, hc₁⟩ :=
      Carries.of_cons (b := (code b).1) (bs := (code b).2 :: bs.flatMap (pairOf code)) hc (List.cons_ne_nil _ _)
    have hopen : s1Bit par a d bit₁ io = (openPair d (code b).1, io) := by
      rw [s1Bit_of_strong a io hstrong₁, s1Handler_open a bit₁ io hst (by omega), hb₁]
    have hcnt : (openPair d (code b).1).cnt.toNat = d.cnt.toNat + 1 := toNat_add_one_of_lt (by omega)
    by_cases hbs : bs = []
    · subst hbs
      obtain ⟨bit₂, rfl, hb₂, hr, hstrong₂⟩ := hc₁.of_singleton
      refine ⟨openPair d (code b).1, bit₂, hr, ⟨rfl, by simp at hlen; omega, b, hb₂ ▸ hcode b, rfl⟩, ?_⟩
      rw [feed_cons, hopen]
      exact s1Bit_of_strong a io hstrong₂
    · have hpairs : bs.flatMap (pairOf code) ≠ [] := by
        obtain ⟨y, hy⟩ := List.exists_mem_of_ne_nil bs hbs
        exact fun hnil => List.cons_ne_nil _ _ (List.flatMap_eq_nil_iff.mp hnil y hy)
      have hpos := List.length_pos_iff.mpr hbs
      obtain ⟨bit₂, toks₂, rfl, hb₂, hstrong₂, hc₂⟩ := hc₁.of_cons hpairs
      have hclose : s1Bit par a (openPair d (code b).1) bit₂ io =
          (collectS (openPair d (code b).1) (shiftIn d.reg b), io) :=
        (s1Bit_of_strong a io hstrong₂).trans
          (s1Handler_close a io hst (by omega) (by omega) (hb₂ ▸ hcode b))
      have hcnt' : (collectS (openPair d (code b).1) (shiftIn d.reg b)).cnt.toNat = d.cnt.toNat + 2 := by
        rw [collectS_cnt, toNat_add_one_of_lt (by omega), hcnt]
      obtain ⟨e, last, hr, hend, hfeed⟩ := ih (d := collectS (openPair d (code b).1) (shiftIn d.reg b)) hbs hst
        (by omega) hc₂
      refine ⟨e, last, hr, ⟨hend.rest, hend.cnt, hend.word⟩, ?_⟩
      rw [feed_cons, hopen, feed_cons, hclose]
      exact hfeed

/-- A Manchester byte is brought to its last bit. -/
theorem feed_byteS {par : Par} {code : Bool → Bool × Bool} (a : Syn) (io : Io) {r : NumT} {d : DecS}
    {toks : List BitTok} {x : Byte} (hcode : ∀ m, manch par (code m).1 (code m).2 = some m)
    (hst : d.st = .len ∨ d.st = .data) (hd : endFieldS d = d)
    (hc : Carries par.rssiTh.s r (manchByte code x) toks) :
    ∃ e bit, bit.rssi = r ∧ EndsByteS par d x e bit ∧
      feed (s1Bit par a) toks (d, io) = s1Handler par a e bit io := by
  have hcnt : d.cnt = 0 := by rw [← hd, endFieldS_cnt]
  have hreg : d.reg = 0#8 := by rw [← hd, endFieldS_reg]; rfl
  have h := feed_pairsS a io hcode (bitsMsb x) (bitsMsb_ne_nil x (by decide)) hst (by simp [hcnt]) hc
  rwa [hreg, foldl_shiftIn_bitsMsb] at h

/-! ### A whole S1 frame -/

/-- An S1 decoder that has captured an access code and stored no byte yet. -/
def headerS (r0 : NumT) : DecS := { decSReset with st := .len, rssiPre := r0 }

/-- An access code starts a capture. -/
theorem s1Bit_access (par : Par) (a : Syn) (b0 : Bool) (r0 : NumT) (io : Io) :
    s1Bit par a decSReset ⟨b0, true, r0⟩ io = (headerS r0, io) := rfl

/-- A decoder in the data state that holds the first bytes of a telegram of `total` bytes, no bit of the next. -/
structure HoldsS (r0 : NumT) (total : Nat) (bytes : List Byte) (d : DecS) : Prop where
  st : d.st = .data
  field : endFieldS d = d
  rssiPre : d.rssiPre = r0
  symErr : d.symErr = false
  total : d.total = total
  len : d.len = bytes.length
  stored : memBytes d.buf bytes.length = bytes
  canonical : Memory.wf d.buf = true

/-- The L-field of an S1 frame begins the payload. -/
theorem feed_s1Len {par : Par} (a : Syn) (io : Io) {r0 r : NumT} {toks : List BitTok} {l : Byte}
    {code : Bool → Bool × Bool} (hcode : ∀ m, manch par (code m).1 (code m).2 = some m)
    (hl : lengthRefused par (lenA par l) = false) (hc : Carries par.rssiTh.s r (manchByte code l) toks) :
    ∃ d, feed (s1Bit par a) toks (headerS r0, io) = (d, io) ∧ HoldsS r0 (lenA par l) [l] d := by
  obtain ⟨e, bit, -, hend, hfeed⟩ := feed_byteS (d := headerS r0) a io hcode (.inl rfl) rfl hc
  obtain ⟨hopens, h15⟩ := hend.last
  obtain ⟨m, hm, hword⟩ := hend.word
  have hbuf : e.buf = [] := by rw [← endFieldS_buf e, hend.rest]; rfl
  refine ⟨{ headerS r0 with
    half := e.half, L := l, total := lenA par l, buf := memWrite [] 0 l, len := 1, st := .data }, ?_, ?_⟩
  · rw [hfeed, s1Handler, hend.st, show (headerS r0).st = .len from rfl]
    simp only [s1Len, if_neg hopens, hm, if_neg h15, hword, hl, Bool.false_eq_true, if_false, hend.rest, hbuf]
    rfl
  · exact ⟨rfl, rfl, rfl, rfl, rfl, rfl, memBytes_memWrite_nil l, memWrite_wf memory_wf_nil 0 l⟩

section
variable {par : Par} {r0 : NumT} {total : Nat} {bytes : List Byte} {d : DecS}

theorem HoldsS.storeS (h : HoldsS r0 total bytes d) (x : Byte) : HoldsS r0 total (bytes ++ [x]) (storeS d x) where
  st := h.st
  field := congrArg (Machine.storeS · x) h.field
  rssiPre := h.rssiPre
  symErr := h.symErr
  total := h.total
  len := by rw [storeS_len, h.len, List.length_append, List.length_singleton]
  stored := by
    rw [storeS_buf, h.len, List.length_append, List.length_singleton, memBytes_memWrite h.canonical, h.stored]
  canonical := memWrite_wf h.canonical _ _

/-- The bit kept of a pair is no part of what a decoder holds. -/
theorem HoldsS.setHalf (h : HoldsS r0 total bytes d) (half : Bool) : HoldsS r0 total bytes { d with half := half } :=
  ⟨h.st, congrArg (fun d : DecS => { d with half := half }) h.field, h.rssiPre, h.symErr, h.total, h.len, h.stored,
    h.canonical⟩

/-- The record of a decoder that holds its whole telegram. -/
theorem HoldsS.emits (h : HoldsS r0 total bytes d) (a : Syn) (bit : BitTok) (io : Io) (hlen : bytes.length = total) :
    Emits decSReset io (fun ts => frameRecord par.crcPoly .S1 false a r0 bit.rssi ts bytes)
      (s1Done par a d bit io) := by
  obtain ⟨hidle, hout, -⟩ := s1Done_out par a d bit io
  refine ⟨hidle, hout.trans ?_⟩
  have hbytes : memBytes d.buf d.total = bytes := by rw [h.total, ← hlen, h.stored]
  simp only [telegramS, stampS, frameRecord, hbytes, h.rssiPre, h.symErr, Bool.false_eq_true, if_false]

/-- What a payload byte does to a decoder that holds the bytes before it. -/
theorem HoldsS.payloadS_eq (h : HoldsS r0 total bytes d) (a : Syn) (x : Byte) (bit : BitTok) (io : Io)
    (hcap : total ≤ par.cap) (hlen : bytes.length < total) :
    payloadS par a d x bit io =
      if bytes.length + 1 = total then s1Done par a (Machine.storeS d x) bit io else (Machine.storeS d x, io) := by
  rw [payloadS, h.len, h.total, if_neg (by omega)]

/-- The bits of a payload byte give the byte to `payloadS` (44_frame_decoders.md rule R273). -/
theorem HoldsS.feed_byte (h : HoldsS r0 total bytes d) (a : Syn) (io : Io) {r : NumT} {x : Byte} {toks : List BitTok}
    {code : Bool → Bool × Bool} (hcode : ∀ m, manch par (code m).1 (code m).2 = some m)
    (hc : Carries par.rssiTh.s r (manchByte code x) toks) :
    ∃ d' bit, bit.rssi = r ∧ HoldsS r0 total bytes d' ∧
      feed (s1Bit par a) toks (d, io) = payloadS par a d' x bit io := by
  obtain ⟨e, bit, hr, hend, hfeed⟩ := feed_byteS a io hcode (.inr h.st) h.field hc
  obtain ⟨hopens, h15⟩ := hend.last
  obtain ⟨m, hm, hword⟩ := hend.word
  have hrest : endFieldS e = { d with half := e.half } := by rw [hend.rest, h.field]
  refine ⟨{ d with half := e.half }, bit, hr, h.setHalf e.half, ?_⟩
  rw [hfeed, s1Handler, hend.st.trans h.st]
  exact (s1Data_of_valid a io hopens hm).trans (by rw [if_neg h15, hword, hrest])

/-- An S1 decoder receives Manchester bytes. -/
theorem receivesByte_S1 {code : Bool → Bool × Bool} (a : Syn) (r0 : NumT) (hcap : total ≤ par.cap)
    (hcode : ∀ m, manch par (code m).1 (code m).2 = some m) :
    ReceivesByte (s1Bit par a) par.rssiTh.s decSReset total (manchByte code)
      (frameRecord par.crcPoly .S1 false a r0) (HoldsS r0 total) where
  enc_ne_nil x := by
    refine List.ne_nil_of_length_pos ?_
    simp [manchByte]
  stores {bytes d x r toks} io hd hlen hc := by
    obtain ⟨d', bit, -, hd', hfeed⟩ := hd.feed_byte a io hcode hc
    exact ⟨_, by rw [hfeed, hd'.payloadS_eq a x bit io hcap (by omega), if_neg (by omega)], hd'.storeS x⟩
  completes {bytes d x r toks} io hd hlen hc := by
    obtain ⟨d', bit, rfl, hd', hfeed⟩ := hd.feed_byte a io hcode hc
    rw [hfeed, hd'.payloadS_eq a x bit io hcap (by omega), if_pos hlen]
    exact (hd'.storeS x).emits a bit io (by simp [hlen])

end

/-- Settles O60: the access code, the L-field, then the payload bytes. -/
theorem frameReceivedS : Obligations.FrameReceivedS := by
  intro s a b0 r0 r l data t toks code ht hidle h3 hcap hcode hlen hc
  subst ht
  have hdata : data ≠ [] := by
    rintro rfl
    simp at h3
  have hlenA : (l :: data).length = lenA s.par l := hlen
  have hrec := receivesByte_S1 a r0 (hlenA ▸ hcap) hcode
  obtain ⟨toks₁, toks₂, r₁, rfl, hc₁, hc₂⟩ := hc.of_append (hrec.enc_ne_nil l) (hrec.flatMap_ne_nil hdata)
  obtain ⟨d, hfeed, hd⟩ := feed_s1Len (r0 := r0) a s.io hcode (hlenA ▸ lengthRefused_eq_false_iff.mpr ⟨h3, hcap⟩) hc₁
  refine Emits.runOps_S (toks := ⟨b0, true, r0⟩ :: (toks₁ ++ toks₂)) hidle
    (record := fun ts => frameRecord s.par.crcPoly .S1 false a r0 r ts (l :: data)) ?_
  rw [feed_cons, s1Bit_access, feed_append, hfeed]
  exact hrec.feed_data s.io data hdata hd (by simpa [Nat.add_comm] using hlenA) hc₂

end Sys2Proof.Machine
end

section
/-! PROOFS. Every step keeps the shapes of the registers (40_filter_library.md rule R149). `Shaped` is the invariant of
`ShapesOk` and `SumsOk` together, cut along the blocks that the operations write; each operation is shown to keep its
block, and `exec_shaped` puts the operations together. -/

namespace Sys2Proof.Machine

open Sys2Proof

/-! ### What the constraints on `PAR` say of the shapes -/

/-- The part of `parOk` that the shapes rest on (00_scope.md rule R6). -/
structure ParShapes (par : Par) : Prop where
  window : 1 ≤ par.mavgLen
  fir : ∀ c, 1 ≤ (par.feFirB.get c).length
  phases : 1 ≤ par.ppP
  subOrder : ∀ c, 1 ≤ par.ppL.get c
  subCount : ∀ c, (par.ppCoef.get c).length = par.ppP
  subCoef : ∀ c, ∀ b ∈ par.ppCoef.get c, b.length = par.ppL.get c
  table : 1 ≤ par.fsN
  post : ∀ c, 1 ≤ (par.postB.get c).length
  lock : ∀ c, 1 ≤ par.t2LockN.get c

theorem parShapes_of_parOk {par : Par} (h : parOk par = true) : ParShapes par := by
  simp only [parOk, Bool.and_eq_true, decide_eq_true_eq, List.all_eq_true, and_assoc] at h
  obtain ⟨-, -, hwindow, hfirT, hfirS, hphases, horderT, horderS, hcountT, hcountS, hcoefT, hcoefS, htable, -, -, -,
    hpostT, hpostS, -, -, h⟩ := h
  have hlock : 2 ≤ par.t2LockN.t ∧ 2 ≤ par.t2LockN.s := by tauto
  obtain ⟨hlockT, hlockS⟩ := hlock
  exact
    { window := hwindow
      fir := fun | .T => hfirT | .S => hfirS
      phases := hphases
      subOrder := fun | .T => horderT | .S => horderS
      subCount := fun | .T => hcountT | .S => hcountS
      subCoef := fun | .T => hcoefT | .S => hcoefS
      table := htable
      post := fun | .T => hpostT | .S => hpostS
      lock := fun | .T => Nat.le_of_succ_le hlockT | .S => Nat.le_of_succ_le hlockS }

/-- A sub-filter that exists has coefficients of its order (10_state.md rule R25). -/
theorem ParShapes.length_sub {par : Par} (hp : ParShapes par) (c : Chain) {p : Nat} (h : p < par.ppP) :
    ((par.ppCoef.get c).getD p []).length = par.ppL.get c := by
  have hlt : p < (par.ppCoef.get c).length := by rwa [hp.subCount]
  rw [List.getD_eq_getElem _ _ hlt]
  exact hp.subCoef c _ (List.getElem_mem hlt)

/-! ### A front-end filter -/

/-- A front-end filter's shapes and, on the rationals, its moving sum. -/
structure FeKept (par : Par) (c : Chain) (e : Fe) : Prop extends FeOk par c e where
  sum : par.numerics = .rational → SumOk e.mavg

section
variable {par : Par} {c : Chain} {e : Fe}

theorem FeKept.mavgStep (h : FeKept par c e) (x : NumT) :
    FeKept par c { e with mavg := (mavgStep par.numerics par.mavgLen e.mavg x).2 } where
  mavg := (mavgStep_spec par.numerics par.mavgLen e.mavg x h.mavg).1
  fir := h.fir
  ppf := h.ppf
  sum hr := by
    rw [hr]
    exact mavgStep_sum par.mavgLen e.mavg x h.mavg (h.sum hr)

theorem FeKept.setFir {v : Fir} (h : FeKept par c e) (hv : FirOk (par.feFirB.get c).length v) :
    FeKept par c { e with fir := v } :=
  ⟨⟨h.mavg, hv, h.ppf⟩, h.sum⟩

theorem FeKept.setPpf {q : Ppf} (h : FeKept par c e) (hq : PpfOk par.ppP (par.ppL.get c) q) :
    FeKept par c { e with ppf := q } :=
  ⟨⟨h.mavg, h.fir, hq⟩, h.sum⟩

theorem FeKept.ppfStep (h : FeKept par c e) (hp : ParShapes par) (x : NumT) :
    FeKept par c { e with ppf := (ppfStep par.numerics par.ppP (par.ppCoef.get c) e.ppf x).2 } :=
  h.setPpf (ppfStep_ok _ _ _ _ _ _ h.ppf (hp.subCount c) (hp.subCoef c))

/-- Writing one sub-filter keeps a polyphase filter's shape. -/
theorem PpfOk.setSub {n l p : Nat} {q : Ppf} {v : Fir} (h : PpfOk n l q) (hv : FirOk l v) :
    PpfOk n l { q with sub := q.sub.set p v } where
  phase := h.phase
  count := by simpa using h.count
  subs f hf := (List.mem_or_eq_of_mem_set hf).elim (h.subs f) (fun hfv => hfv ▸ hv)
  start := h.start

/-- `FE.LPF` steps the kind that `PAR.FE_KIND` names, each of which keeps the filter's shapes. -/
theorem FeKept.feStep (h : FeKept par c e) (hp : ParShapes par) (x : NumT) :
    FeKept par c (feStep par c e x).2 := by
  unfold Machine.feStep
  cases par.feKind with
  | mavg => exact h.mavgStep x
  | fir => exact h.setFir (firStep_ok _ _ _ _ h.fir)
  | ppf => exact h.ppfStep hp x

end

/-! ### The front part of a chain -/

/-- The shapes of a chain's front part and, on the rationals, its two moving sums. -/
structure FrontKept (par : Par) (c : Chain) (f : Front) : Prop where
  feI : FeKept par c f.feI
  feQ : FeKept par c f.feQ
  post : FirOk (par.postB.get c).length f.post

section
variable {par : Par} {c : Chain} {f : Front}

theorem FrontKept.fe (h : FrontKept par c f) (x : Chan) : FeKept par c (f.fe x) := by
  cases x
  · exact h.feI
  · exact h.feQ

theorem FrontKept.setFe {x : Chan} {e : Fe} (h : FrontKept par c f) (he : FeKept par c e) :
    FrontKept par c (f.setFe x e) := by
  cases x
  · exact ⟨he, h.feQ, h.post⟩
  · exact ⟨h.feI, he, h.post⟩

theorem FrontKept.setPost {v : Fir} (h : FrontKept par c f) (hv : FirOk (par.postB.get c).length v) :
    FrontKept par c { f with post := v } :=
  ⟨h.feI, h.feQ, hv⟩

theorem FrontKept.postlpf (h : FrontKept par c f) (x : NumT) :
    FrontKept par c { f with post := (postlpf par c f.post x).2 } :=
  h.setPost (firStep_ok _ _ _ _ h.post)

theorem FrontKept.feLpf (h : FrontKept par c f) (hp : ParShapes par) (p : Iq) :
    FrontKept par c (feLpf par c f p).2 :=
  ⟨h.feI.feStep hp p.1, h.feQ.feStep hp p.2, h.post⟩

/-- The discriminator, the DC removal and the RSSI estimate have no shape. -/
theorem FrontKept.setDemod {pd : Pdisc} {dcb : Dcb} {rssi : RssiReg} (h : FrontKept par c f) :
    FrontKept par c { f with pd := pd, dcb := dcb, rssi := rssi } :=
  ⟨h.feI, h.feQ, h.post⟩

theorem FrontKept.demodFront (h : FrontKept par c f) (cfg : BitVec 32) (i q : NumT) :
    FrontKept par c (demodFront par cfg c f i q).2 :=
  (h.postlpf _).setDemod

end

/-! ### A chain -/

/-- The shapes of what a chain holds outside its decoders: its front part, its time-2 synchronizer and its deglitch
window. -/
structure ChainKept (par : Par) (c : Chain) (fr : Front) (t2 : T2Reg) (acc : Nat) : Prop where
  front : FrontKept par c fr
  t2 : T2Ok par c t2
  window : acc < 2 ^ par.deglW.get c

/-- The shapes of chain T. -/
abbrev ChainT.Kept (par : Par) (ch : ChainT) : Prop := ChainKept par .T ch.fr ch.t2 ch.rl.acc

/-- The shapes of chain S. -/
abbrev ChainS.Kept (par : Par) (ch : ChainS) : Prop := ChainKept par .S ch.fr ch.t2 ch.rl.acc

/-- Closing a run leaves the deglitch window alone. -/
theorem rlRun_acc (par : Par) (rl : RlT) (d : DecT) (io : Io) (level : Bool) (run : Nat) (r : NumT) :
    (rlRun par rl d io level run r).1.acc = rl.acc := by
  unfold rlRun
  dsimp only
  split
  · rfl
  · split <;> rfl

theorem rls1Run_acc (par : Par) (rl : RlS) (d : DecS) (io : Io) (level : Bool) (run : Nat) (r : NumT) :
    (rls1Run par rl d io level run r).1.acc = rl.acc := by
  unfold rls1Run
  dsimp only
  split
  · rfl
  · split
    · rfl
    · cases level <;> rfl

/-- `RL.STEP` writes nothing of the front part or of time-2, and moves the deglitch window by one bit. -/
theorem rlStep_registers (par : Par) (ch : ChainT) (io : Io) (tok : RawTok) :
    (rlStep par ch io tok).1.fr = ch.fr ∧ (rlStep par ch io tok).1.t2 = ch.t2 ∧
      (rlStep par ch io tok).1.rl.acc = deglitchAcc par.deglW.t ch.rl.acc tok.r := by
  unfold rlStep
  dsimp only
  split
  · exact ⟨rfl, rfl, rfl⟩
  · exact ⟨rfl, rfl, rlRun_acc ..⟩

theorem rls1Step_registers (par : Par) (ch : ChainS) (io : Io) (tok : RawTok) :
    (rls1Step par ch io tok).1.fr = ch.fr ∧ (rls1Step par ch io tok).1.t2 = ch.t2 ∧
      (rls1Step par ch io tok).1.rl.acc = deglitchAcc par.deglW.s ch.rl.acc tok.r := by
  unfold rls1Step
  dsimp only
  split
  · exact ⟨rfl, rfl, rfl⟩
  · exact ⟨rfl, rfl, rls1Run_acc ..⟩

section
variable {par : Par}

theorem ChainT.Kept.rlStep {ch : ChainT} (h : ch.Kept par) (io : Io) (tok : RawTok) :
    (rlStep par ch io tok).1.Kept par := by
  obtain ⟨hfr, ht2, hacc⟩ := rlStep_registers par ch io tok
  exact ⟨hfr ▸ h.front, ht2 ▸ h.t2, hacc ▸ deglitchAcc_lt ..⟩

theorem ChainS.Kept.rls1Step {ch : ChainS} (h : ch.Kept par) (io : Io) (tok : RawTok) :
    (rls1Step par ch io tok).1.Kept par := by
  obtain ⟨hfr, ht2, hacc⟩ := rls1Step_registers par ch io tok
  exact ⟨hfr ▸ h.front, ht2 ▸ h.t2, hacc ▸ deglitchAcc_lt ..⟩

theorem ChainT.Kept.t2StepT {ch : ChainT} (h : ch.Kept par) (hp : ParShapes par) (io : Io) (tok : RawTok) :
    (t2StepT par ch io tok).1.Kept par :=
  ⟨h.front, t2Advance_ok par .T ch.t2 tok h.t2 (hp.lock .T), h.window⟩

theorem ChainS.Kept.t2StepS {ch : ChainS} (h : ch.Kept par) (hp : ParShapes par) (io : Io) (tok : RawTok) :
    (t2StepS par ch io tok).1.Kept par :=
  ⟨h.front, t2Advance_ok par .S ch.t2 tok h.t2 (hp.lock .S), h.window⟩

/-- `DEMOD.STEP` on chain T: the front part, then the synchronizers that are enabled. -/
theorem ChainT.Kept.demodStepT {ch : ChainT} (h : ch.Kept par) (hp : ParShapes par) (cfg : BitVec 32) (io : Io)
    (i q : NumT) : (demodStepT par cfg ch io i q).1.Kept par := by
  have hfront : ChainT.Kept par { ch with fr := (demodFront par cfg .T ch.fr i q).2 } :=
    ⟨h.front.demodFront cfg i q, h.t2, h.window⟩
  unfold Machine.demodStepT
  dsimp only
  cases cfgT2En cfg
  · cases cfgRlEn cfg
    · exact hfront
    · exact hfront.rlStep ..
  · cases cfgRlEn cfg
    · exact hfront.t2StepT hp ..
    · exact (hfront.t2StepT hp ..).rlStep ..

theorem ChainS.Kept.demodStepS {ch : ChainS} (h : ch.Kept par) (hp : ParShapes par) (cfg : BitVec 32) (io : Io)
    (i q : NumT) : (demodStepS par cfg ch io i q).1.Kept par := by
  have hfront : ChainS.Kept par { ch with fr := (demodFront par cfg .S ch.fr i q).2 } :=
    ⟨h.front.demodFront cfg i q, h.t2, h.window⟩
  unfold Machine.demodStepS
  dsimp only
  cases cfgT2En cfg
  · cases cfgRlEn cfg
    · exact hfront
    · exact hfront.rls1Step ..
  · cases cfgRlEn cfg
    · exact hfront.t2StepS hp ..
    · exact (hfront.t2StepS hp ..).rls1Step ..

end

/-! ### The machine -/

/-- The shapes and, on the rationals, the moving sums of the whole machine (`shaped_iff`). -/
structure Shaped (s : State) : Prop where
  parOk : parOk s.par = true
  chT : s.chT.Kept s.par
  chS : s.chS.Kept s.par
  fs : s.fsIdx < s.par.fsN

theorem FrontKept.frontOk {par : Par} {c : Chain} {f : Front} (h : FrontKept par c f) : FrontOk par c f :=
  ⟨h.feI.toFeOk, h.feQ.toFeOk, h.post⟩

/-- `Shaped` is what `Obligations.ShapesKept` speaks of. -/
theorem shaped_iff (s : State) : Shaped s ↔ ShapesOk s ∧ (s.par.numerics = .rational → SumsOk s) := by
  constructor
  · rintro ⟨hpar, hT, hS, hfs⟩
    have hfront : ∀ c, FrontKept s.par c (s.front c) := fun | .T => hT.front | .S => hS.front
    exact ⟨⟨hpar, hT.front.frontOk, hS.front.frontOk, hT.t2, hS.t2, hfs, hT.window, hS.window⟩, fun hr =>
      ⟨fun c x => ((hfront c).fe x).mavg, fun c x => ((hfront c).fe x).sum hr⟩⟩
  · rintro ⟨h, hsum⟩
    exact
      { parOk := h.par
        chT := ⟨⟨⟨h.frontT.feI, fun hr => (hsum hr).sum .T .I⟩, ⟨h.frontT.feQ, fun hr => (hsum hr).sum .T .Q⟩,
          h.frontT.post⟩, h.t2T, h.windowT⟩
        chS := ⟨⟨⟨h.frontS.feI, fun hr => (hsum hr).sum .S .I⟩, ⟨h.frontS.feQ, fun hr => (hsum hr).sum .S .Q⟩,
          h.frontS.post⟩, h.t2S, h.windowS⟩
        fs := h.fs }

section
variable {s : State}

theorem Shaped.par (h : Shaped s) : ParShapes s.par := parShapes_of_parOk h.parOk

theorem Shaped.front (h : Shaped s) (c : Chain) : FrontKept s.par c (s.front c) := by
  cases c
  · exact h.chT.front
  · exact h.chS.front

theorem Shaped.t2 (h : Shaped s) (c : Chain) : T2Ok s.par c (s.t2 c) := by
  cases c
  · exact h.chT.t2
  · exact h.chS.t2

/-! ### Writing one block -/

theorem Shaped.reply (h : Shaped s) (toks : List Token) : Shaped (s.reply toks) := ⟨h.parOk, h.chT, h.chS, h.fs⟩

theorem Shaped.setIo (h : Shaped s) (io : Io) : Shaped (s.setIo io) := ⟨h.parOk, h.chT, h.chS, h.fs⟩

theorem Shaped.setFsIdx {n : Nat} (h : Shaped s) (hn : n < s.par.fsN) : Shaped { s with fsIdx := n } :=
  ⟨h.parOk, h.chT, h.chS, hn⟩

theorem Shaped.setChT {ch : ChainT} (h : Shaped s) (hch : ch.Kept s.par) : Shaped (s.setChT ch) :=
  ⟨h.parOk, hch, h.chS, h.fs⟩

theorem Shaped.setChS {ch : ChainS} (h : Shaped s) (hch : ch.Kept s.par) : Shaped (s.setChS ch) :=
  ⟨h.parOk, h.chT, hch, h.fs⟩

theorem Shaped.setFront {c : Chain} {f : Front} (h : Shaped s) (hf : FrontKept s.par c f) :
    Shaped (s.setFront c f) := by
  cases c
  · exact h.setChT ⟨hf, h.chT.t2, h.chT.window⟩
  · exact h.setChS ⟨hf, h.chS.t2, h.chS.window⟩

theorem Shaped.setFe {c : Chain} {e : Fe} (h : Shaped s) (x : Chan) (he : FeKept s.par c e) :
    Shaped (s.setFront c ((s.front c).setFe x e)) :=
  h.setFront ((h.front c).setFe he)

theorem Shaped.setT2 {c : Chain} {r : T2Reg} (h : Shaped s) (hr : T2Ok s.par c r) : Shaped (s.setT2 c r) := by
  cases c
  · exact h.setChT ⟨h.chT.front, hr, h.chT.window⟩
  · exact h.setChS ⟨h.chS.front, hr, h.chS.window⟩

theorem Shaped.setDecT (h : Shaped s) (a : Syn) (d : DecT) : Shaped (s.setChT (s.chT.setDec a d)) :=
  h.setChT (by simpa [ChainT.Kept] using h.chT)

theorem Shaped.setDecS (h : Shaped s) (a : Syn) (d : DecS) : Shaped (s.setChS (s.chS.setDec a d)) :=
  h.setChS (by simpa [ChainS.Kept] using h.chS)

/-- A new run-length synchronizer whose window is in range. -/
theorem Shaped.setRlT {rl : RlT} {d : DecT} (h : Shaped s) (hrl : rl.acc < 2 ^ s.par.deglW.t) :
    Shaped (s.setChT { s.chT with rl := rl, decRl := d }) :=
  h.setChT ⟨h.chT.front, h.chT.t2, hrl⟩

theorem Shaped.setRlS {rl : RlS} {d : DecS} (h : Shaped s) (hrl : rl.acc < 2 ^ s.par.deglW.s) :
    Shaped (s.setChS { s.chS with rl := rl, decRl := d }) :=
  h.setChS ⟨h.chS.front, h.chS.t2, hrl⟩

/-! ### The shared operations -/

/-- Every FIR filter that exists has the order of its coefficients. -/
theorem Shaped.firOk {f : FirInst} {v : Fir} (h : Shaped s) (hf : firState s f = some v) :
    FirOk (firCoef s.par f).length v := by
  cases f with
  | post c =>
    cases hf
    exact (h.front c).post
  | fe c x =>
    cases hf
    exact ((h.front c).fe x).fir
  | sub c x p =>
    simp only [firState] at hf
    split at hf
    · next hlt =>
      cases hf
      have hppf := ((h.front c).fe x).ppf
      have hsub : p < ((s.front c).fe x).ppf.sub.length := by rwa [hppf.count]
      rw [firCoef, h.par.length_sub c hlt, List.getD_eq_getElem _ _ hsub]
      exact hppf.subs _ (List.getElem_mem hsub)
    · cases hf

theorem Shaped.setFirState {f : FirInst} {v w : Fir} (h : Shaped s) (hf : firState s f = some w)
    (hv : FirOk (firCoef s.par f).length v) : Shaped (setFirState s f v) := by
  cases f with
  | post c => exact h.setFront ((h.front c).setPost hv)
  | fe c x => exact h.setFe x (((h.front c).fe x).setFir hv)
  | sub c x p =>
    simp only [firState] at hf
    split at hf
    · next hlt =>
      rw [firCoef, h.par.length_sub c hlt] at hv
      have hfe := (h.front c).fe x
      exact h.setFe x (hfe.setPpf (hfe.ppf.setSub hv))
    · cases hf

theorem Shaped.setSyncSr (h : Shaped s) (c : Chain) (a : Syn) (sr : BitVec 32) : Shaped (setSyncSr s c a sr) := by
  cases c
  · cases a
    · exact h.setChT ⟨h.chT.front, ⟨h.chT.t2.taps, h.chT.t2.lock⟩, h.chT.window⟩
    · exact h.setChT ⟨h.chT.front, h.chT.t2, h.chT.window⟩
  · cases a
    · exact h.setChS ⟨h.chS.front, ⟨h.chS.t2.taps, h.chS.t2.lock⟩, h.chS.window⟩
    · exact h.setChS ⟨h.chS.front, h.chS.t2, h.chS.window⟩

theorem Shaped.resetDec (h : Shaped s) (c : Chain) (a : Syn) : Shaped (resetDec s c a) := by
  cases c
  · exact h.setDecT a _
  · exact h.setDecS a _

theorem Shaped.finishT (h : Shaped s) (a : Syn) (r : DecT × Io) : Shaped (finishT s a r) :=
  ((h.setDecT a r.1).setIo r.2).reply _

theorem Shaped.finishS (h : Shaped s) (a : Syn) (r : DecS × Io) : Shaped (finishS s a r) :=
  ((h.setDecS a r.1).setIo r.2).reply _

theorem Shaped.runPdisc (h : Shaped s) (v : Atan) (c : Chain) (i q : NumT) : Shaped (runPdisc v c i q s) :=
  (h.setFront (h.front c).setDemod).reply _

theorem Shaped.fsNext_lt (h : Shaped s) (n : Nat) : fsNext s.par n < s.par.fsN := Nat.mod_lt _ h.par.table

theorem Shaped.routeInput (h : Shaped s) (p : Iq) : Shaped (routeInput s p).2 := by
  unfold Machine.routeInput
  split
  · exact h.setFsIdx (h.fsNext_lt _)
  · exact h

theorem Shaped.runFeLpf (h : Shaped s) (c : Chain) (p : Iq) : Shaped (runFeLpf s c p).2 := by
  obtain ⟨hpar, hT, hS, hfs⟩ := h.setFront ((h.front c).feLpf h.par p)
  exact ⟨hpar, hT, hS, hfs⟩

theorem Shaped.feIfEnabled (h : Shaped s) (c : Chain) (p : Iq) : Shaped (feIfEnabled s c p).2 := by
  unfold Machine.feIfEnabled
  split
  · exact h.runFeLpf c p
  · exact h

theorem Shaped.runDecim (h : Shaped s) : Shaped (runDecim s).2 := ⟨h.parOk, h.chT, h.chS, h.fs⟩

theorem Shaped.demodStep (h : Shaped s) (c : Chain) (i q : NumT) : Shaped (demodStep s c i q) := by
  cases c
  · exact (h.setChT (h.chT.demodStepT h.par ..)).setIo _
  · exact (h.setChS (h.chS.demodStepS h.par ..)).setIo _

theorem Shaped.demodIfEnabled (h : Shaped s) (c : Chain) (v : Option Iq) : Shaped (demodIfEnabled s c v) := by
  cases v with
  | none => exact h
  | some p =>
    unfold Machine.demodIfEnabled
    dsimp only
    split
    · exact h.demodStep c p.1 p.2
    · exact h

theorem Shaped.sampleStep (h : Shaped s) (i q : Byte) : Shaped (sampleStep s i q) := by
  unfold Machine.sampleStep
  generalize (dcrem s.par i, dcrem s.par q) = p
  have hT := (h.routeInput p).feIfEnabled .T (Machine.routeInput s p).1.1
  have hS := hT.feIfEnabled .S (Machine.routeInput s p).1.2
  have hgate := hS.runDecim
  dsimp only
  split
  · exact (hgate.demodIfEnabled .T _).demodIfEnabled .S _
  · exact hgate

theorem runSamples_shaped (bytes : List Byte) : ∀ s : State, Shaped s → Shaped (runSamples s bytes) := by
  match bytes with
  | [] => exact fun _ h => h
  | [_] => exact fun _ h => h
  | i :: q :: rest => exact fun s h => runSamples_shaped rest _ (h.sampleStep i q)

theorem Shaped.runChunk (h : Shaped s) : Shaped (runChunk s) := by
  obtain ⟨hpar, hT, hS, hfs⟩ := runSamples_shaped (s.inp.take s.par.chunkBytes)
    { s with inp := s.inp.drop s.par.chunkBytes } ⟨h.parOk, h.chT, h.chS, h.fs⟩
  exact ⟨hpar, hT, hS, hfs⟩

/-! ### `RESET` (10_state.md rule R49) -/

theorem firReset_firOk {n : Nat} (h : 1 ≤ n) : FirOk n (firReset n) := ⟨List.length_replicate, h⟩

theorem feReset_kept {par : Par} (hp : ParShapes par) (c : Chain) : FeKept par c (feReset par c) where
  mavg := ⟨List.length_replicate, hp.window⟩
  fir := firReset_firOk (hp.fir c)
  ppf :=
    { phase := hp.phases
      count := List.length_replicate
      subs := fun _ hf => List.eq_of_mem_replicate hf ▸ firReset_firOk (hp.subOrder c)
      start := fun _ => rfl }
  sum _ := by simp [SumOk, feReset, mavgReset]

theorem chainReset_kept {par : Par} (hp : ParShapes par) (c : Chain) :
    ChainKept par c (frontReset par c) (t2Reset par c) 0 where
  front := ⟨feReset_kept hp c, feReset_kept hp c, firReset_firOk (hp.post c)⟩
  t2 := ⟨List.length_replicate, Nat.zero_le _⟩
  window := Nat.two_pow_pos _

theorem resetCore_shaped (h : Machine.parOk s.par = true) : Shaped (resetCore s) :=
  have hp := parShapes_of_parOk h
  ⟨h, chainReset_kept hp .T, chainReset_kept hp .S, hp.table⟩

end

/-! ### What an operation answers -/

/-- An answer whose next state, if it is one, is in shape. -/
def AnswersShaped (o : Host.Outcome State Fault Refusal) : Prop := ∀ t, o = .next t → Shaped t

theorem AnswersShaped.refused (e : Refusal) : AnswersShaped (.refused e) := by
  intro t h
  cases h

theorem Shaped.answer {t : State} (h : Shaped t) : AnswersShaped (.next t) := by
  rintro _ ⟨⟩
  exact h

section
variable {s : State}

theorem Shaped.answerReply (h : Shaped s) (toks : List Token) : AnswersShaped (.next (s.reply toks)) :=
  (h.reply toks).answer

theorem Shaped.runHandlerT (h : Shaped s) (a : Syn) (st : StT) (r : DecT × Io) :
    AnswersShaped (runHandlerT s a st r) := by
  unfold Machine.runHandlerT
  split
  · exact (h.finishT a r).answer
  · exact .refused _

theorem Shaped.runHandlerS (h : Shaped s) (a : Syn) (st : StS) (r : DecS × Io) :
    AnswersShaped (runHandlerS s a st r) := by
  unfold Machine.runHandlerS
  split
  · exact (h.finishS a r).answer
  · exact .refused _

theorem execReset_shaped (s : State) : AnswersShaped (execReset s) := by
  unfold execReset
  split
  · next hpar => exact (resetCore_shaped hpar).answer
  · exact .refused _

theorem Shaped.execCfgLoad (h : Shaped s) (w : BitVec 32) : AnswersShaped (execCfgLoad w s) := by
  unfold Machine.execCfgLoad
  split
  · split
    · exact Shaped.answer ⟨h.parOk, h.chT, h.chS, h.fs⟩
    · exact Shaped.answer ⟨h.parOk, h.chT, h.chS, h.fs⟩
  · exact .refused _
  · exact .refused _

theorem Shaped.execChunk (h : Shaped s) : AnswersShaped (execChunk s) := by
  unfold Machine.execChunk
  split
  · exact .refused _
  · split
    · exact .refused _
    · exact h.runChunk.answer

theorem Shaped.execEndStream (h : Shaped s) (k : Nat) : AnswersShaped (execEndStream k s) := by
  unfold Machine.execEndStream
  split
  · exact .refused _
  · exact Shaped.answer ⟨h.parOk, h.chT, h.chS, h.fs⟩

theorem Shaped.execFirStep (h : Shaped s) (f : FirInst) (x : NumT) : AnswersShaped (execFirStep f x s) := by
  unfold Machine.execFirStep
  split
  · exact .refused _
  · next hf => exact (h.setFirState hf (firStep_ok _ _ _ _ (h.firOk hf))).answerReply _

theorem Shaped.execIirStep (h : Shaped s) (c : Chain) (x : NumT) : AnswersShaped (execIirStep c x s) := by
  have hbpf : T2Ok s.par c { s.t2 c with bpf := (bpfStep s.par c (s.t2 c).bpf x).2 } :=
    ⟨by rw [bpfStep, iirStep_length, (h.t2 c).taps], (h.t2 c).lock⟩
  exact (h.setT2 hbpf).answerReply _

theorem Shaped.execT2Step (h : Shaped s) (c : Chain) (tok : RawTok) : AnswersShaped (execT2Step c tok s) := by
  cases c
  · exact ((h.setChT (h.chT.t2StepT h.par ..)).setIo _).answerReply _
  · exact ((h.setChS (h.chS.t2StepS h.par ..)).setIo _).answerReply _

theorem Shaped.execDeglitch (h : Shaped s) (c : Chain) (r : Bool) : AnswersShaped (execDeglitch c r s) := by
  cases c
  · exact (h.setRlT (deglitchAcc_lt ..)).answerReply _
  · exact (h.setRlS (deglitchAcc_lt ..)).answerReply _

theorem Shaped.execRlReset (h : Shaped s) (c : Chain) : AnswersShaped (execRlReset c s) := by
  cases c
  · exact (h.setRlT (rl := rlTCleared s.par s.chT.rl) h.chT.window).answerReply _
  · exact (h.setRlS (rl := rlSCleared s.par s.chS.rl) h.chS.window).answerReply _

theorem Shaped.execRlRun (h : Shaped s) (level : Bool) (run : Nat) (r : NumT) :
    AnswersShaped (execRlRun level run r s) :=
  ((h.setRlT (by rw [rlRun_acc]; exact h.chT.window)).setIo _).answerReply _

theorem Shaped.execRls1Run (h : Shaped s) (level : Bool) (run : Nat) (r : NumT) :
    AnswersShaped (execRls1Run level run r s) :=
  ((h.setRlS (by rw [rls1Run_acc]; exact h.chS.window)).setIo _).answerReply _

/-- Every operation keeps the shapes. -/
theorem Shaped.exec (h : Shaped s) (i : Instr) : AnswersShaped (exec i s) := by
  cases i with
  | reset => exact execReset_shaped s
  | cfgLoad w => exact h.execCfgLoad w
  | chunk => exact h.execChunk
  | endStream k => exact h.execEndStream k
  | tsGet => exact (h.setIo _).answerReply _
  | firStep f x => exact h.execFirStep f x
  | iirStep c x => exact h.execIirStep c x
  | ppfStep c ch x => exact (h.setFe ch (((h.front c).fe ch).ppfStep h.par x)).answerReply _
  | mavgStep c ch x => exact (h.setFe ch (((h.front c).fe ch).mavgStep x)).answerReply _
  | dcrem i q => exact h.answerReply _
  | fsplit i q => exact (h.setFsIdx (h.fsNext_lt _)).answerReply _
  | feLpf c i q => exact (h.runFeLpf c (i, q)).answerReply _
  | decim => exact h.runDecim.answerReply _
  | sampleStep i q => exact (h.sampleStep i q).answerReply _
  | pdiscExact c i q => exact (h.runPdisc .exact c i q).answer
  | pdiscFull c i q => exact (h.runPdisc .full c i q).answer
  | pdiscRestr c i q => exact (h.runPdisc .restr c i q).answer
  | pdiscSign c i q => exact (h.runPdisc .sign c i q).answer
  | postlpf c x => exact (h.setFront ((h.front c).postlpf x)).answerReply _
  | dcblock c x => exact (h.setFront (h.front c).setDemod).answerReply _
  | slice c d => exact h.answerReply _
  | rssi c i q => exact (h.setFront (h.front c).setDemod).answerReply _
  | demodStep c i q => exact (h.demodStep c i q).answerReply _
  | acorr c a b r => exact (h.setSyncSr c a _).answerReply _
  | t2Step c tok => exact h.execT2Step c tok
  | deglitch c r => exact h.execDeglitch c r
  | rlStep tok => exact ((h.setChT (h.chT.rlStep ..)).setIo _).answerReply _
  | rlRun level run r => exact h.execRlRun level run r
  | rlReset c => exact h.execRlReset c
  | rls1Step tok => exact ((h.setChS (h.chS.rls1Step ..)).setIo _).answerReply _
  | rls1Run level run r => exact h.execRls1Run level run r
  | t1c1Bit a tok => exact (h.finishT a _).answer
  | t1c1Idle a tok => exact h.runHandlerT a _ _
  | t1c1Lfield a tok => exact h.runHandlerT a _ _
  | t1c1C1trailer a tok => exact h.runHandlerT a _ _
  | t1c1C1len a tok => exact h.runHandlerT a _ _
  | t1c1DataT1 a tok => exact h.runHandlerT a _ _
  | t1c1DataC1 a tok => exact h.runHandlerT a _ _
  | t1c1Done a tok => exact h.runHandlerT a _ _
  | decReset c a => exact (h.resetDec c a).answerReply _
  | s1Bit a tok => exact (h.finishS a _).answer
  | s1Idle a tok => exact h.runHandlerS a _ _
  | s1Len a tok => exact h.runHandlerS a _ _
  | s1Data a tok => exact h.runHandlerS a _ _
  | s1Done a tok => exact h.runHandlerS a _ _
  | crc16 bytes => exact h.answerReply _
  | crcchkA t => exact h.answerReply _
  | crcchkB t => exact h.answerReply _
  | stripA t => exact h.answerReply _
  | stripB t => exact h.answerReply _
  | serial p => exact h.answerReply _
  | emit c a mode => exact (h.setIo _).answerReply _

end

/-! ### The obligation -/

/-- Settles O53: the invariant `Shaped` does not look at the request stream, and every operation keeps it. -/
theorem shapesKept : Obligations.ShapesKept := by
  intro s t hshapes hsums hstep
  obtain ⟨hpar, hT, hS, hfs⟩ := (shaped_iff s).mpr ⟨hshapes, hsums⟩
  unfold step at hstep
  split at hstep
  · next i rest _ =>
    have hs : Shaped { s with ops := rest } := ⟨hpar, hT, hS, hfs⟩
    exact (shaped_iff t).mp (hs.exec i t hstep)
  · cases hstep

end Sys2Proof.Machine
end

section
/-! PROOFS. The operations of the filter library return what their rules say (40_filter_library.md): the convolution and
the impulse response of a FIR filter, the cascade of an IIR filter, the running sums of the polyphase filter and of the
moving average. -/

namespace Sys2Proof.Machine

open Sys2Proof

/-! ### `FIR.STEP` (40_filter_library.md rule R141) -/

/-- `FIR.STEP` on a filter that exists. -/
theorem exec_firStep {s : State} {f : FirInst} {v : Fir} (x : NumT) (h : firState s f = some v) :
    exec (.firStep f x) s =
      .next ((setFirState s f (firStep s.par.numerics (firCoef s.par f) v x).2).reply
        [.num (firStep s.par.numerics (firCoef s.par f) v x).1]) := by
  show execFirStep f x s = _
  rw [execFirStep, h]

/-- Settles O13: `firStep_spec` on the filter, and `POSTLPF` computes the same step. -/
theorem firStepConvolves : Obligations.FirStepConvolves := by
  refine ⟨fun s f x v hv hok => ?_, fun s c x => ⟨_, rfl, rfl⟩⟩
  obtain ⟨hok', hhist, hw, hline, hout⟩ := firStep_spec s.par.numerics (firCoef s.par f) v x hok
  exact ⟨_, hok', hhist, hw, hline, by rw [exec_firStep x hv, hout]⟩

/-! ### The impulse response (40_filter_library.md rule R142) -/

/-- A delay line of at least `n` samples whose one impulse came `k` steps ago. -/
def ImpulseAgo (n k : Nat) (line : List NumT) : Prop := ∀ j, j < n → line.getD j 0 = if j = k then 1 else 0

/-- An impulse enters a line at rest. -/
theorem ImpulseAgo.pushed_one (n : Nat) : ImpulseAgo n 0 (pushed 1 (List.replicate n 0)) := by
  intro j hj
  cases j with
  | zero => rfl
  | succ j => rw [pushed_getD_succ _ _ _ (by simpa using hj), List.getD_replicate _ (by omega), if_neg j.succ_ne_zero]

/-- A zero moves the impulse on by one step. -/
theorem ImpulseAgo.pushed_zero {n k : Nat} {line : List NumT} (h : ImpulseAgo n k line) (hlen : line.length = n) :
    ImpulseAgo n (k + 1) (pushed 0 line) := by
  intro j hj
  cases j with
  | zero => rfl
  | succ j => rw [pushed_getD_succ _ _ _ (hlen ▸ hj), h j (by omega)]; simp only [Nat.add_right_cancel_iff]

/-- A sum with one term that is not 0: every carrier adds 0 exactly (law N3). -/
theorem numSum_single (K : Numerics) (n k : Nat) (c : NumT) :
    numSum K n (fun j => if j = k then c else 0) = if k < n then c else 0 := by
  have hsucc : ∀ n f, numSum K (n + 1) f = numAdd K (numSum K n f) (f n) := by
    intro n f
    simp [numSum, List.range_succ]
  induction n with
  | zero => exact numOfInt_zero K
  | succ n ih =>
    rw [hsucc, ih]
    rcases lt_trichotomy k n with hlt | rfl | hgt
    · rw [if_pos hlt, if_neg (by omega), if_pos (by omega), numAdd_zero]
    · rw [if_neg (by omega), if_pos rfl, if_pos (by omega), zero_numAdd]
    · rw [if_neg (by omega), if_neg (by omega), if_neg (by omega), numAdd_zero]

/-- The weighted sum over a line with one impulse is the impulse's coefficient. -/
theorem ImpulseAgo.convolve {b line : List NumT} {k : Nat} (K : Numerics) (h : ImpulseAgo b.length k line)
    (hk : k < b.length) : convolve K b line = b.getD k 0 := by
  have hterm : ∀ j, j < b.length → numMul K (b.getD j 0) (line.getD j 0) = if j = k then b.getD k 0 else 0 := by
    intro j hj
    rw [h j hj]
    by_cases hjk : j = k
    · rw [if_pos hjk, if_pos hjk, numMul_one, hjk]
    · rw [if_neg hjk, if_neg hjk, numMul_zero]
  rw [Machine.convolve, numSum_congr _ _ _ _ hterm, numSum_single, if_pos hk]

/-- A filter at rest holds zeros. -/
theorem delayLine_replicate_zero (n : Nat) : delayLine n (List.replicate n 0) 0 = List.replicate n 0 := by
  refine List.eq_replicate_iff.mpr ⟨delayLine_length .., fun y hy => ?_⟩
  obtain ⟨k, -, rfl⟩ := List.mem_map.mp hy
  rw [List.getD_eq_getElem?_getD, List.getElem?_replicate]
  split <;> rfl

/-- A filter reads back what was written to it; that it is there is seen by its history, which is not empty. -/
theorem firState_setFirState {s : State} {f : FirInst} {v : Fir} {n : Nat} (w : Fir) (hv : firState s f = some v)
    (hok : FirOk n v) : firState (setFirState s f w) f = some w := by
  cases f with
  | post c => simp [firState, setFirState]
  | fe c x => simp [firState, setFirState]
  | sub c x p =>
    simp only [firState] at hv
    split at hv
    · next hlt =>
      cases hv
      have hsub : p < ((s.front c).fe x).ppf.sub.length := by
        by_contra hge
        have hlen := hok.length
        have hidx := hok.index
        rw [List.getD_eq_default _ _ (by omega)] at hlen hidx
        simp only [firReset, List.length_replicate] at hlen hidx
        omega
      simp [firState, setFirState, hlt, hsub]
    · cases hv

theorem firState_reply (s : State) (toks : List Token) (f : FirInst) : firState (s.reply toks) f = firState s f := by
  cases f <;> simp [firState]

/-- What a FIR filter holds after `FIR.STEP`, and what it returned: one sample of a sequence. -/
theorem runOutputs_firStep {s : State} {f : FirInst} {v : Fir} (x : NumT) (is : List Instr)
    (hv : firState s f = some v) (hok : FirOk (firCoef s.par f).length v) :
    ∃ t v', t.par = s.par ∧ firState t f = some v' ∧ FirOk (firCoef s.par f).length v' ∧
      delayLine (firCoef s.par f).length v'.hist v'.w = pushed x (delayLine (firCoef s.par f).length v.hist v.w) ∧
      (runOutputs (.firStep f x :: is) s).1 =
        [.num (convolve s.par.numerics (firCoef s.par f)
          (pushed x (delayLine (firCoef s.par f).length v.hist v.w)))] :: (runOutputs is t).1 := by
  obtain ⟨hok', -, -, hline, hout⟩ := firStep_spec s.par.numerics (firCoef s.par f) v x hok
  refine ⟨(setFirState s f (firStep s.par.numerics (firCoef s.par f) v x).2).reply
    [.num (firStep s.par.numerics (firCoef s.par f) v x).1], _, (setFirState_frame s f _).par,
    (firState_reply ..).trans (firState_setFirState _ hv hok), hok', hline, ?_⟩
  rw [runOutputs, exec_firStep x hv, ← hout]
  rfl

/-- After an impulse zeros bring out the coefficients that it has not met yet. -/
theorem runOutputs_firStep_zeros (m : Nat) : ∀ {s : State} {f : FirInst} {v : Fir} {k : Nat},
    firState s f = some v → FirOk (firCoef s.par f).length v → k + 1 + m = (firCoef s.par f).length →
    ImpulseAgo (firCoef s.par f).length k (delayLine (firCoef s.par f).length v.hist v.w) →
    (runOutputs (List.replicate m (.firStep f 0)) s).1 =
      ((firCoef s.par f).drop (k + 1)).map (fun c => [Token.num c]) := by
  induction m with
  | zero =>
    intro s f v k _ _ hm _
    rw [List.drop_of_length_le (by omega)]
    rfl
  | succ m ih =>
    intro s f v k hv hok hm himp
    have hk : k + 1 < (firCoef s.par f).length := by omega
    obtain ⟨t, v', hpar, hv', hok', hline, hout⟩ :=
      runOutputs_firStep 0 (List.replicate m (.firStep f 0)) hv hok
    have himp' := himp.pushed_zero (delayLine_length ..)
    rw [List.replicate_succ, hout, himp'.convolve _ hk, List.drop_eq_getElem_cons hk, List.getD_eq_getElem _ _ hk]
    rw [← hline] at himp'
    rw [← hpar] at hok' hm himp'
    rw [List.map_cons, ih hv' hok' (by omega) himp', hpar]

/-- Settles O14: the impulse enters a filter at rest, then zeros move it past the coefficients one by one. -/
theorem firImpulse : Obligations.FirImpulse := by
  intro s f b bs hcoef hv
  have hn : (firCoef s.par f).length = bs.length + 1 := by rw [hcoef, List.length_cons]
  have hok : FirOk (firCoef s.par f).length ⟨List.replicate (bs.length + 1) 0, 0⟩ := by
    rw [hn]
    exact ⟨List.length_replicate, Nat.succ_pos _⟩
  obtain ⟨t, v, hpar, hv', hok', hline, hout⟩ :=
    runOutputs_firStep 1 (List.replicate bs.length (.firStep f 0)) hv hok
  have himp := ImpulseAgo.pushed_one (firCoef s.par f).length
  rw [hn, delayLine_replicate_zero, ← hn] at hline hout
  rw [hout, himp.convolve _ (by omega)]
  rw [← hline] at himp
  rw [← hpar] at hok' himp hn hcoef
  rw [runOutputs_firStep_zeros bs.length hv' hok' (by omega) himp, ← hpar, hcoef]
  rfl

/-! ### `IIR.STEP` (40_filter_library.md rule R143) -/

/-- The value handed on and the taps after the first `j` sections of `IIR.STEP`. -/
def iirRun (k : Numerics) (b a : List NumT) (x : NumT) (h : List NumT) (j : Nat) : NumT × List NumT :=
  (List.range j).foldl (iirSection k b a) (x, h)

/-- The value that enters a section's taps, from the value `v` handed to the section and the taps of the step before. -/
def iirEntry (k : Numerics) (a h : List NumT) (j : Nat) (v : NumT) : NumT :=
  numSub k (numSub k v (numMul k (a.getD (3 * j + 1) 0) (h.getD (3 * j + 1) 0)))
    (numMul k (a.getD (3 * j + 2) 0) (h.getD (3 * j + 2) 0))

/-- The value that a section hands on, from the value that enters its taps. -/
def iirValue (k : Numerics) (b h : List NumT) (j : Nat) (t0 : NumT) : NumT :=
  numAdd k (numAdd k (numMul k (b.getD (3 * j) 0) t0) (numMul k (b.getD (3 * j + 1) 0) (h.getD (3 * j + 1) 0)))
    (numMul k (b.getD (3 * j + 2) 0) (h.getD (3 * j + 2) 0))

section
variable (k : Numerics) (b a : List NumT) (x : NumT) (h : List NumT)

/-- `IIR.STEP` runs its sections, then applies the gain. -/
theorem iirStep_eq (n : Nat) (gain : NumT) (g : Iir) :
    iirStep k n b a gain g x = (numMul k (iirRun k b a x g.h n).1 gain, ⟨(iirRun k b a x g.h n).2⟩) := rfl

theorem iirRun_succ (j : Nat) : iirRun k b a x h (j + 1) = iirSection k b a (iirRun k b a x h j) j := by
  simp [iirRun, List.range_succ]

theorem iirRun_length (j : Nat) : (iirRun k b a x h j).2.length = h.length := by
  induction j with
  | zero => rfl
  | succ j ih => rw [iirRun_succ, iirSection_length, ih]

theorem iirSection_value (vh : NumT × List NumT) (j : Nat) :
    (iirSection k b a vh j).1 = iirValue k b vh.2 j (iirEntry k a vh.2 j vh.1) := rfl

/-- A section shifts its three taps. -/
theorem iirSection_taps (vh : NumT × List NumT) (j : Nat) (hj : 3 * j + 2 < vh.2.length) :
    (iirSection k b a vh j).2.getD (3 * j) 0 = iirEntry k a vh.2 j vh.1 ∧
    (iirSection k b a vh j).2.getD (3 * j + 1) 0 = iirEntry k a vh.2 j vh.1 ∧
    (iirSection k b a vh j).2.getD (3 * j + 2) 0 = vh.2.getD (3 * j + 1) 0 := by
  have h0 : 3 * j < vh.2.length := by omega
  have h1 : 3 * j + 1 < vh.2.length := by omega
  refine ⟨?_, ?_, ?_⟩ <;> simp [iirSection, iirEntry, h0, h1, hj]

/-- A section leaves the taps of every other section alone. -/
theorem iirSection_getD_of_ne (vh : NumT × List NumT) {i j : Nat} (hij : i / 3 ≠ j) :
    (iirSection k b a vh j).2.getD i 0 = vh.2.getD i 0 := by
  have h0 : 3 * j ≠ i := by omega
  have h1 : 3 * j + 1 ≠ i := by omega
  have h2 : 3 * j + 2 ≠ i := by omega
  simp [iirSection, h0, h1, h2]

/-- A section finds its taps as the step before left them. -/
theorem iirRun_getD_of_le {i j : Nat} (hij : j ≤ i / 3) : (iirRun k b a x h j).2.getD i 0 = h.getD i 0 := by
  induction j with
  | zero => rfl
  | succ j ih => rw [iirRun_succ, iirSection_getD_of_ne k b a _ (by omega), ih (by omega)]

/-- The sections after a tap's own leave it alone. -/
theorem iirRun_getD_of_lt {i m n : Nat} (hm : i / 3 < m) (hmn : m ≤ n) :
    (iirRun k b a x h n).2.getD i 0 = (iirRun k b a x h m).2.getD i 0 := by
  induction n, hmn using Nat.le_induction with
  | base => rfl
  | succ n hn ih => rw [iirRun_succ, iirSection_getD_of_ne k b a _ (by omega), ih]

/-- The value that enters section `j`'s taps in the cascade. -/
theorem iirEntry_iirRun (j : Nat) (v : NumT) : iirEntry k a (iirRun k b a x h j).2 j v = iirEntry k a h j v := by
  rw [iirEntry, iirRun_getD_of_le k b a x h (by omega), iirRun_getD_of_le k b a x h (by omega), iirEntry]

/-- The value that section `j` hands on in the cascade. -/
theorem iirRun_value (j : Nat) :
    (iirRun k b a x h (j + 1)).1 = iirValue k b h j (iirEntry k a h j (iirRun k b a x h j).1) := by
  rw [iirRun_succ, iirSection_value, iirEntry_iirRun, iirValue, iirRun_getD_of_le k b a x h (by omega),
    iirRun_getD_of_le k b a x h (by omega), iirValue]

/-- The taps of section `j` after the whole cascade. -/
theorem iirRun_taps {j n : Nat} (hlen : h.length = 3 * n) (hj : j < n) :
    (iirRun k b a x h n).2.getD (3 * j) 0 = iirEntry k a h j (iirRun k b a x h j).1 ∧
    (iirRun k b a x h n).2.getD (3 * j + 1) 0 = iirEntry k a h j (iirRun k b a x h j).1 ∧
    (iirRun k b a x h n).2.getD (3 * j + 2) 0 = h.getD (3 * j + 1) 0 := by
  have hin : 3 * j + 2 < (iirRun k b a x h j).2.length := by rw [iirRun_length]; omega
  obtain ⟨h0, h1, h2⟩ := iirSection_taps k b a (iirRun k b a x h j) j hin
  rw [← iirRun_succ, iirEntry_iirRun] at h0 h1
  rw [← iirRun_succ, iirRun_getD_of_le k b a x h (i := 3 * j + 1) (j := j) (by omega)] at h2
  have hsettled : ∀ i, i / 3 = j → (iirRun k b a x h n).2.getD i 0 = (iirRun k b a x h (j + 1)).2.getD i 0 :=
    fun i hi => iirRun_getD_of_lt k b a x h (by omega) hj
  exact ⟨(hsettled _ (by omega)).trans h0, (hsettled _ (by omega)).trans h1, (hsettled _ (by omega)).trans h2⟩

end

/-- Settles O15: `v j` is the value after `j` sections of the cascade. -/
theorem iirStepCascade : Obligations.IirStepCascade := by
  intro s c x hlen
  refine ⟨fun j => (iirRun s.par.numerics (s.par.t2B.get c) (s.par.t2A.get c) x (s.t2 c).bpf.h j).1,
    fun j => iirEntry s.par.numerics (s.par.t2A.get c) (s.t2 c).bpf.h j
      (iirRun s.par.numerics (s.par.t2B.get c) (s.par.t2A.get c) x (s.t2 c).bpf.h j).1,
    (iirRun s.par.numerics (s.par.t2B.get c) (s.par.t2A.get c) x (s.t2 c).bpf.h (s.par.t2Sect.get c)).2, rfl,
    (iirRun_length ..).trans hlen, fun j hj => ⟨rfl, iirRun_value .., iirRun_taps _ _ _ _ _ hlen hj⟩, rfl⟩

/-! ### `PPF.STEP` (40_filter_library.md rule R145) -/

/-- The later of two writes to a chain's front part stays, and the later of two replies. -/
theorem State.reply_setFront_reply (s : State) (c : Chain) (f g : Front) (xs ys : List Token) :
    (((s.setFront c f).reply xs).setFront c g).reply ys = (s.setFront c g).reply ys := by
  cases c <;> simp [State.reply, State.setFront]

/-- The later of two writes to a front-end filter stays. -/
theorem Front.setFe_setFe (f : Front) (x : Chan) (e e' : Fe) : (f.setFe x e).setFe x e' = f.setFe x e' := by
  cases x <;> rfl

/-- Settles O16: by the phase, the sub-filter's step being `FIR.STEP` on the filter of that phase. -/
theorem ppfStepAccumulates : Obligations.PpfStepAccumulates := by
  intro s c ch x hph
  have hsub : firState s (.sub c ch ((s.front c).fe ch).ppf.ph) =
      some (((s.front c).fe ch).ppf.sub.getD ((s.front c).fe ch).ppf.ph (firReset 0)) := if_pos hph
  refine ⟨_, _, exec_firStep x hsub, rfl, ?_⟩
  show if _ then execPpfStep c ch x s = _ else execPpfStep c ch x s = _
  by_cases hlast : ((s.front c).fe ch).ppf.ph + 1 = s.par.ppP
  · rw [if_pos (by omega), execPpfStep, ppfStep, if_pos hlast]
    simp [setFirState, firCoef, State.reply_setFront_reply, Front.setFe_setFe]
  · rw [if_neg (by omega), execPpfStep, ppfStep, if_neg hlast]
    simp [setFirState, firCoef, State.reply_setFront_reply, Front.setFe_setFe]

/-! ### `MAVG.STEP` (40_filter_library.md rule R147) -/

/-- The delay line is the history read backwards from the slot before the index. -/
theorem delayLine_eq_rotate {n w : Nat} {hist : List NumT} (hl : hist.length = n) (hw : w < n) :
    delayLine n hist w = (hist.rotate w).reverse := by
  subst hl
  refine List.ext_getElem (by simp) fun k hk _ => ?_
  rw [delayLine_length] at hk
  have hslot : hist.length - 1 - k + w = w + hist.length - 1 - k := by omega
  have hmod : (w + hist.length - 1 - k) % hist.length < hist.length := Nat.mod_lt _ (by omega)
  simp [delayLine, List.getElem_rotate, hslot, hmod]

/-- The delay line holds the samples of the history. -/
theorem delayLine_sum {n w : Nat} {hist : List NumT} (hl : hist.length = n) (hw : w < n) :
    (delayLine n hist w).sum = hist.sum := by
  rw [delayLine_eq_rotate hl hw]
  exact ((List.reverse_perm _).trans (List.rotate_perm hist w)).sum_eq

/-- Settles O17: `mavgStep_spec`, and on the rationals the sum kept is that of the window. -/
theorem mavgStepSums : Obligations.MavgStepSums := by
  rintro s c ch x m rfl hok
  obtain ⟨hok', hhist, hw, hout, hline, hsum⟩ := mavgStep_spec s.par.numerics s.par.mavgLen _ x hok
  refine ⟨_, hok', hhist, hw, hline, hsum, fun hr hs => ?_, ?_⟩
  · rw [← hline, delayLine_sum hok'.length hok'.index, hr]
    exact mavgStep_sum _ _ x hok hs
  · show execMavgStep c ch x s = _
    rw [execMavgStep, hout]

end Sys2Proof.Machine
end

section
/-! PROOFS. The front end (41_front_end.md): `DCREM` and `FSPLIT` in the carrier's operations, `FE.LPF` as the step of
one filter on each channel, and `SAMPLE.STEP` as the sequence of primitive operations its rule lists. -/

namespace Sys2Proof.Machine

open Sys2Proof

/-! ### `DCREM` (41_front_end.md rule R170) -/

theorem smallInt_intCast {n : Int} (hl : -32768 ≤ n) (hu : n ≤ 32767) : smallInt (n : Rat) = true := by
  simp [smallInt, hl, hu]

/-- Law N1 of 00_scope.md rule R9. -/
theorem numOfInt_of_small (k : Numerics) {n : Int} (hl : -32768 ≤ n) (hu : n ≤ 32767) :
    numOfInt k n = (n : Rat) := by
  cases k with
  | rational => rfl
  | other m => rw [numOfInt, if_pos (smallInt_intCast hl hu)]

/-- Law N4 of 00_scope.md rule R9 for the difference. -/
theorem numSub_of_small (k : Numerics) {x y : NumT} (hx : smallInt x = true) (hy : smallInt y = true)
    (hd : smallInt (x - y) = true) : numSub k x y = x - y := by
  cases k with
  | rational => rfl
  | other m =>
    by_cases hxy : x = y
    · rw [hxy, numSub_self, sub_self]
    · by_cases hy0 : y = 0
      · rw [hy0, numSub_zero, sub_zero]
      · simp [numSub, hxy, hy0, hx, hy, hd]

/-- The offset 127 is subtracted exactly on every carrier. -/
theorem dcrem_of_d127 {par : Par} (h : par.dcOffset = .d127) (x : Byte) :
    dcrem par x = (((x.toNat : Int) - 127 : Int) : Rat) := by
  have hx := x.isLt
  rw [dcrem, dcOffset, h]
  simp only [numOfInt_of_small par.numerics (show -32768 ≤ (x.toNat : Int) by omega) (by omega),
    numOfInt_of_small par.numerics (n := 127) (by decide) (by decide)]
  rw [numSub_of_small _ (smallInt_intCast (by omega) (by omega)) (smallInt_intCast (by decide) (by decide)),
    Int.cast_sub]
  exact Int.cast_sub (R := Rat) _ _ ▸ smallInt_intCast (by omega) (by omega)

/-- The offset 127.5 is subtracted exactly on the rationals. -/
theorem dcrem_of_d127half {par : Par} (h : par.dcOffset = .d127half) (hr : par.numerics = .rational) (x : Byte) :
    dcrem par x = mkRat (2 * (x.toNat : Int) - 255) 2 := by
  rw [dcrem, dcOffset, h, hr]
  simp only [numSub, numAdd, numOfInt, numHalf, Rat.mkRat_eq_div]
  push_cast
  ring

/-- Settles O18: the first clause is the operation's meaning, the others the two offsets on each component. -/
theorem dcremOffsets : Obligations.DcremOffsets := by
  intro s i q
  have hexec : exec (.dcrem i q) s = .next (s.reply [.iq (dcrem s.par i) (dcrem s.par q)]) := rfl
  refine ⟨?_, fun h => ?_, fun h hr => ?_⟩
  · rintro _ rfl
    rfl
  · rw [hexec, dcrem_of_d127 h, dcrem_of_d127 h]
  · rw [hexec, dcrem_of_d127half h hr, dcrem_of_d127half h hr]

/-! ### `FSPLIT` (41_front_end.md rule R171) -/

/-- A turn by the angle 0 leaves both basebands the input. -/
theorem fsplitOut_of_unit {par : Par} {n : Nat} (hcos : par.fsCos.getD n 0 = 1) (hsin : par.fsNsin.getD n 0 = 0)
    (p : Iq) : fsplitOut par n p = (p, p) := by
  simp only [fsplitOut, hcos, hsin, numMul_one, numMul_zero, numAdd_zero, numSub_zero]

/-- Settles O19: the products are the operation's meaning, the corner case is `fsplitOut_of_unit`. -/
theorem fsplitMixes : Obligations.FsplitMixes := by
  rintro s i q _ _ rfl rfl
  refine ⟨rfl, fun hcos hsin => ?_⟩
  show execFsplit i q s = _
  rw [execFsplit, fsplitOut_of_unit hcos hsin]
  rfl

/-! ### `FE.LPF` (41_front_end.md rule R173) -/

/-- The filter operation of kind `k` on one channel. -/
def feOp (k : FeKind) (c : Chain) (ch : Chan) (x : NumT) : Instr :=
  match k with
  | .mavg => .mavgStep c ch x
  | .fir => .firStep (.fe c ch) x
  | .ppf => .ppfStep c ch x

/-- The tokens of one channel's value. -/
def numTokens (v : Option NumT) : List Token := v.toList.map Token.num

/-- The tokens of a front-end filter's value. -/
def iqTokens (v : Option Iq) : List Token := v.toList.map fun p => Token.iq p.1 p.2

/-- The filter operation of the kind `FE_KIND` does one channel of `FE.LPF`. -/
theorem exec_feOp (s : State) (c : Chain) (ch : Chan) (x : NumT) :
    exec (feOp s.par.feKind c ch x) s =
      .next ((s.setFront c ((s.front c).setFe ch (feStep s.par c ((s.front c).fe ch) x).2)).reply
        (numTokens (feStep s.par c ((s.front c).fe ch) x).1)) := by
  unfold feOp feStep
  cases s.par.feKind with
  | mavg => rfl
  | fir => exact exec_firStep (f := .fe c ch) x rfl
  | ppf => rfl

/-- Every kind but the polyphase one returns a value each time. -/
theorem feStep_of_ne_ppf {par : Par} (h : par.feKind ≠ .ppf) (c : Chain) (e : Fe) (x : NumT) :
    ∃ v, (feStep par c e x).1 = some v := by
  unfold feStep
  cases hk : par.feKind with
  | mavg => exact ⟨_, rfl⟩
  | fir => exact ⟨_, rfl⟩
  | ppf => exact absurd hk h

/-- `FE.LPF` is the filter operation on the I channel, then on the Q channel; it returns both values or nothing. -/
theorem exec_feLpf {s : State} {k : FeKind} {c : Chain} {i q : NumT} {a b : Option NumT} (hk : s.par.feKind = k)
    (ha : (feStep s.par c (s.front c).feI i).1 = a) (hb : (feStep s.par c (s.front c).feQ q).1 = b) :
    ∃ u v, exec (feOp k c .I i) s = .next u ∧ u.ret = numTokens a ∧
      exec (feOp k c .Q q) u = .next v ∧ v.ret = numTokens b ∧
      exec (.feLpf c i q) s = .next { v with ret := iqTokens (bothIq a b), feValue := (bothIq a b).isSome } := by
  subst hk ha hb
  have hQ := exec_feOp ((s.setFront c ((s.front c).setFe .I (feStep s.par c (s.front c).feI i).2)).reply
    (numTokens (feStep s.par c (s.front c).feI i).1)) c .Q q
  rw [State.reply_setFront_reply] at hQ
  simp only [State.reply_par, State.setFront_par, State.reply_front, State.setFront_front] at hQ
  exact ⟨_, _, exec_feOp s c .I i, rfl, hQ, rfl, by cases c <;> rfl⟩

/-- A filter that is not polyphase returns a value at every sample. -/
theorem exec_feLpf_of_ne_ppf {s : State} {k : FeKind} (hk : s.par.feKind = k) (hne : k ≠ .ppf) (c : Chain)
    (i q : NumT) :
    ∃ a b u v, exec (feOp k c .I i) s = .next u ∧ u.ret = [.num a] ∧
      exec (feOp k c .Q q) u = .next v ∧ v.ret = [.num b] ∧
      exec (.feLpf c i q) s = .next { v with ret := [.iq a b], feValue := true } := by
  obtain ⟨a, ha⟩ := feStep_of_ne_ppf (hk.trans_ne hne) c (s.front c).feI i
  obtain ⟨b, hb⟩ := feStep_of_ne_ppf (hk.trans_ne hne) c (s.front c).feQ q
  exact ⟨a, b, exec_feLpf hk ha hb⟩

/-- Settles O20: `exec_feLpf` in each kind, the polyphase one by which of the channels returned a value. -/
theorem feLpfByKind : Obligations.FeLpfByKind := by
  intro s c i q
  refine ⟨fun hk => exec_feLpf_of_ne_ppf hk (by decide) c i q, fun hk => exec_feLpf_of_ne_ppf hk (by decide) c i q,
    fun hk => ?_⟩
  obtain ⟨a, ha⟩ : ∃ a, (feStep s.par c (s.front c).feI i).1 = a := ⟨_, rfl⟩
  obtain ⟨b, hb⟩ : ∃ b, (feStep s.par c (s.front c).feQ q).1 = b := ⟨_, rfl⟩
  obtain ⟨u, v, hu, hur, hv, hvr, h⟩ := exec_feLpf hk ha hb
  refine ⟨u, v, hu, hv, ?_⟩
  match a, b with
  | none, _ => exact .inr ⟨.inl hur, h⟩
  | some _, none => exact .inr ⟨.inr hvr, h⟩
  | some a, some b => exact .inl ⟨a, b, hur, hvr, h⟩

/-! ### `SAMPLE.STEP` (41_front_end.md rule R175)

Between two operations of the expansion the machine is a state of `sampleStep` that has answered with some tokens. -/

theorem feIfEnabled_reply (s : State) (toks : List Token) (c : Chain) (p : Iq) :
    feIfEnabled (s.reply toks) c p = ((feIfEnabled s c p).1, (feIfEnabled s c p).2.reply toks) := by
  rw [State.reply_eq_told, feIfEnabled_told, State.reply_eq_told, feIfEnabled_phase]

theorem demodIfEnabled_phase (s : State) (c : Chain) (v : Option Iq) : (demodIfEnabled s c v).phase = s.phase := by
  have h := congrArg State.phase (demodIfEnabled_told s s.ret s.phase c v)
  rwa [State.told_self] at h

theorem demodIfEnabled_reply (s : State) (toks : List Token) (c : Chain) (v : Option Iq) :
    demodIfEnabled (s.reply toks) c v = (demodIfEnabled s c v).reply toks := by
  rw [State.reply_eq_told, demodIfEnabled_told, State.reply_eq_told, demodIfEnabled_phase]

theorem retIq_reply_iq (s : State) (i q : NumT) : retIq (s.reply [.iq i q]) = some (i, q) := rfl

theorem retIq_iqTokens (s : State) (v : Option Iq) : retIq (s.reply (iqTokens v)) = v := by
  cases v <;> rfl

/-- `FSPLIT` where `cfg.dual = 1` routes U to chain T and L to chain S; else both take the input (rule R172). -/
theorem execIf_fsplit (s : State) (p : Iq) :
    ∃ toks, execIf (cfgDual s.cfg) (.fsplit p.1 p.2) (s.reply [.iq p.1 p.2]) =
        .next ((routeInput s p).2.reply toks) ∧
      chainInputs (cfgDual s.cfg) ((routeInput s p).2.reply toks) = (routeInput s p).1 := by
  unfold execIf routeInput chainInputs
  by_cases h : cfgDual s.cfg
  · simp only [if_pos h]
    exact ⟨_, congrArg Host.Outcome.next (State.reply_reply { s with fsIdx := fsNext s.par s.fsIdx } _ _), rfl⟩
  · simp only [if_neg h]
    exact ⟨_, rfl, rfl⟩

theorem expandFe_reply (s : State) (toks : List Token) (c : Chain) (p : Iq) :
    expandFe c p (s.reply toks) = .next ((feIfEnabled s c p).2.reply (iqTokens (feIfEnabled s c p).1)) := by
  by_cases h : chainEnabled s.cfg c
  · have hrun : exec (.feLpf c p.1 p.2) (s.reply toks) =
        .next ((feIfEnabled (s.reply toks) c p).2.reply (iqTokens (feIfEnabled (s.reply toks) c p).1)) := by
      rw [feIfEnabled, State.reply_cfg, if_pos h]
      rfl
    rw [expandFe, State.reply_cfg, if_pos h, hrun, feIfEnabled_reply, State.reply_reply]
  · rw [expandFe, State.reply_cfg, if_neg h, feIfEnabled, if_neg h]
    rfl

theorem exec_decim_reply (s : State) (toks : List Token) :
    exec .decim (s.reply toks) = .next ((runDecim s).2.reply [.bit (runDecim s).1]) :=
  congrArg Host.Outcome.next (State.reply_reply (runDecim s).2 toks _)

theorem expandForward_reply (s : State) (toks : List Token) (c : Chain) (v : Option Iq) :
    ∃ toks', expandForward c v (s.reply toks) = .next ((demodIfEnabled s c v).reply toks') := by
  cases v with
  | none => exact ⟨toks, rfl⟩
  | some p =>
    by_cases h : chainEnabled s.cfg c
    · have hrun : exec (.demodStep c p.1 p.2) (s.reply toks) =
          .next ((demodIfEnabled (s.reply toks) c (some p)).reply
            (newTelegrams s.io (demodIfEnabled (s.reply toks) c (some p)).io)) := by
        rw [demodIfEnabled, State.reply_cfg, if_pos h]
        rfl
      rw [demodIfEnabled_reply, State.reply_reply] at hrun
      exact ⟨_, (if_pos h).trans hrun⟩
    · exact ⟨toks, (if_neg h).trans (by rw [demodIfEnabled, if_neg h])⟩

/-- Both chains' demodulators, chain T first. -/
theorem expandForward_both (s : State) (toks : List Token) (v : Filtered) :
    ∃ toks', thenDo (expandForward .T v.1 (s.reply toks)) (expandForward .S v.2) =
      .next ((forwardSample s v).reply toks') := by
  obtain ⟨toksT, hT⟩ := expandForward_reply s toks .T v.1
  obtain ⟨toksS, hS⟩ := expandForward_reply (demodIfEnabled s .T v.1) toksT .S v.2
  exact ⟨toksS, by rw [hT, thenDo_next, hS]; rfl⟩

/-- The operations of rule R175 leave the machine as `sampleStep` does, having answered with some tokens. -/
theorem expandSample_eq (s : State) (i q : Byte) :
    ∃ toks, expandSample i q s = .next ((sampleStep s i q).reply toks) := by
  have hdcrem : exec (.dcrem i q) s = .next (s.reply [.iq (dcrem s.par i) (dcrem s.par q)]) := rfl
  obtain ⟨toks, hsplit, hinputs⟩ := execIf_fsplit s (dcrem s.par i, dcrem s.par q)
  obtain ⟨toks', hforward⟩ := expandForward_both (runDecim (filterSample s i q).2).2
    [.bit (runDecim (filterSample s i q).2).1] (filterSample s i q).1
  rw [expandSample, hdcrem, thenDo_next, retIq_reply_iq, Option.getD_some, hsplit, thenDo_next, hinputs,
    expandFe_reply, thenDo_next, expandFe_reply, thenDo_next, exec_decim_reply, thenDo_next, retIq_iqTokens,
    retIq_iqTokens, sampleStep_eq]
  by_cases hgate : (runDecim (filterSample s i q).2).1
  · exact ⟨toks', by rw [if_pos hgate]; exact (if_pos hgate).trans hforward⟩
  · exact ⟨_, by rw [if_neg hgate]; exact if_neg hgate⟩

/-- Settles O22: `expandSample_eq`, the telegrams being those the same state holds. -/
theorem sampleStepExpands : Obligations.SampleStepExpands := by
  intro s i q
  obtain ⟨toks, h⟩ := expandSample_eq s i q
  refine ⟨_, h, ?_⟩
  show execSampleStep i q s = _
  rw [execSampleStep, State.reply_io]
  rfl

end Sys2Proof.Machine
end

section
/-! PROOFS. The demodulator (42_demodulator.md): the discriminator's variants under the contracts of their arc tangents,
the DC removal, the slicer and the RSSI estimate in the carrier's operations, and `DEMOD.STEP` as the sequence of
primitive operations its rule lists. -/

namespace Sys2Proof.Machine

open Sys2Proof

/-! ### `PDISC.*` (42_demodulator.md rule R190) -/

/-- The operation of a variant of the discriminator. -/
def Atan.op (v : Atan) (c : Chain) (i q : NumT) : Instr :=
  match v with
  | .exact => .pdiscExact c i q
  | .full => .pdiscFull c i q
  | .restr => .pdiscRestr c i q
  | .sign => .pdiscSign c i q

/-- Each variant keeps the new sample and returns its function of the cross term and the product's real part. -/
theorem exec_atanOp (v : Atan) (s : State) (c : Chain) (i q : NumT) :
    exec (v.op c i q) s = .next ((s.setFront c { s.front c with pd := ⟨i, q⟩ }).reply
      [.num (atanResult s.par.numerics v (discIm s.par.numerics (s.front c).pd i q)
        (discRe s.par.numerics (s.front c).pd i q))]) := by
  cases v <;> rfl

/-- A sample that is exactly zero has no angle to the previous one: both terms are 0, on every carrier. -/
theorem disc_zero_sample (k : Numerics) (pd : Pdisc) : discIm k pd 0 0 = 0 ∧ discRe k pd 0 0 = 0 := by
  simp [discIm, discRe]

/-! ### `ARG_EXACT` (42_demodulator.md rules R191 and R192)

The fixed values direction by direction, then the contract. -/

theorem argFixed_real (re : NumT) : argFixed 0 re = some (if re < 0 then 1 else 0) := by
  by_cases h : re < 0 <;> simp [argFixed, numLt, h]

theorem argFixed_imaginary {im : NumT} (h : im ≠ 0) :
    argFixed im 0 = some (if 0 < im then mkRat 1 2 else mkRat (-1) 2) := by
  by_cases hp : 0 < im <;> simp [argFixed, numLt, h, hp]

theorem argFixed_diagonal {im : NumT} (h : im ≠ 0) :
    argFixed im im = some (if 0 < im then mkRat 1 4 else mkRat (-3) 4) := by
  by_cases hp : 0 < im <;> simp [argFixed, numLt, h, hp]

theorem argFixed_antidiagonal {im re : NumT} (h : im ≠ 0) (he : im = -re) :
    argFixed im re = some (if 0 < im then mkRat 3 4 else mkRat (-1) 4) := by
  have hre : re ≠ 0 := fun h0 => h (by rw [he, h0, neg_zero])
  have hne : im ≠ re := fun h1 => hre (by linarith)
  by_cases hp : 0 < im <;> simp [argFixed, numLt, h, hre, hne, ← he, hp]

/-- A fixed value that the carrier represents is returned. -/
theorem argExact_of_fixed {k : Numerics} {im re v : NumT} (h : argFixed im re = some v)
    (hr : numRepresents k v = true) : argExact k im re = v := by
  simp [argExact, h, hr]

/-- Every carrier represents 0, 1 and 1/2. -/
theorem numRepresents_of_basic (k : Numerics) {v : NumT} (h : v = 0 ∨ v = 1 ∨ v = mkRat 1 2) :
    numRepresents k v = true := by
  cases k with
  | rational => rfl
  | other n => rcases h with rfl | rfl | rfl <;> simp [numRepresents]

/-- Contract A1. -/
theorem argExact_range (k : Numerics) (im re : NumT) : -1 ≤ argExact k im re ∧ argExact k im re ≤ 1 := by
  rw [argExact_eq]
  exact (Config.argExact k).range im re

/-- Contract A2, above the real axis and on its negative half. -/
theorem argExact_pos_iff (k : Numerics) (im re : NumT) : 0 < argExact k im re ↔ 0 < im ∨ im = 0 ∧ re < 0 := by
  rw [argExact_eq]
  exact (Config.argExact k).positive im re

/-- Contract A2, below the real axis. -/
theorem argExact_neg_iff (k : Numerics) (im re : NumT) : argExact k im re < 0 ↔ im < 0 := by
  rw [argExact_eq]
  exact (Config.argExact k).negative im re

theorem argExact_ne_neg_one (k : Numerics) (im re : NumT) : k = .rational → argExact k im re ≠ -1 := by
  rw [argExact_eq]
  exact fun hk => (Config.argExact k).neverMinusOne hk im re

/-- No turn, on every carrier. -/
theorem argExact_of_nonneg (k : Numerics) {re : NumT} (h : 0 ≤ re) : argExact k 0 re = 0 :=
  argExact_of_fixed (by rw [argFixed_real, if_neg (not_lt.mpr h)]) (numRepresents_of_basic k (.inl rfl))

/-- The half turn, on every carrier. -/
theorem argExact_of_neg (k : Numerics) {re : NumT} (h : re < 0) : argExact k 0 re = 1 :=
  argExact_of_fixed (by rw [argFixed_real, if_pos h]) (numRepresents_of_basic k (.inr (.inl rfl)))

/-- The quarter turn forward, on every carrier. -/
theorem argExact_quarter (k : Numerics) {im : NumT} (h : 0 < im) : argExact k im 0 = mkRat 1 2 :=
  argExact_of_fixed (by rw [argFixed_imaginary h.ne', if_pos h]) (numRepresents_of_basic k (.inr (.inr rfl)))

/-- Settles O23: the first part by the contract and the directions of rule R191, the second by contract A3. -/
theorem pdiscExactContract : Obligations.PdiscExactContract := by
  refine ⟨?_, ?_⟩
  · intro s c i q re im hre him
    have hexec : exec (.pdiscExact c i q) s = .next ((s.setFront c { s.front c with pd := ⟨i, q⟩ }).reply
        [.num (argExact s.par.numerics im re)]) := by
      rw [hre, him]
      exact exec_atanOp .exact s c i q
    refine ⟨_, hexec, (argExact_range ..).1, (argExact_range ..).2, argExact_pos_iff .., argExact_neg_iff ..,
      argExact_ne_neg_one _ im re, ?_, ?_, ?_, ?_, ?_, ?_, ?_, ?_, ?_⟩
    · rintro rfl h
      exact argExact_of_nonneg _ h
    · rintro rfl h
      exact argExact_of_neg _ h
    · rintro rfl h
      exact argExact_quarter _ h
    · rintro rfl h
      exact argExact_of_fixed (by rw [argFixed_imaginary h.ne, if_neg h.not_gt])
    · rintro rfl h
      exact argExact_of_fixed (by rw [argFixed_diagonal h.ne', if_pos h])
    · rintro rfl h
      exact argExact_of_fixed (by rw [argFixed_diagonal h.ne, if_neg h.not_gt])
    · intro he h
      exact argExact_of_fixed (by rw [argFixed_antidiagonal h.ne' he, if_pos h])
    · intro he h
      exact argExact_of_fixed (by rw [argFixed_antidiagonal h.ne he, if_neg h.not_gt])
    · intro hi hq
      obtain ⟨him0, hre0⟩ : im = 0 ∧ re = 0 := by
        rw [him, hre, hi, hq]
        exact disc_zero_sample s.par.numerics (s.front c).pd
      rw [him0, hre0]
      exact argExact_of_nonneg _ le_rfl
  · intro s u t w c i q i' q' v v' hk hlt ht hv hw hv'
    rw [show exec (.pdiscExact c i q) s = _ from exec_atanOp .exact s c i q] at ht
    rw [show exec (.pdiscExact c i' q') u = _ from exec_atanOp .exact u c i' q'] at hw
    cases ht
    cases hw
    cases hv
    cases hv'
    rw [hk] at hlt ⊢
    exact (arg_monotone _ _ _ _ _ hlt).1

/-- Settles O24: by the contracts of the two arc tangents, which are 0 at the origin by definition. -/
theorem pdiscOtherVariants : Obligations.PdiscOtherVariants := by
  refine ⟨fun k => ⟨argFull k, argRestr k, fun im re => ?_, if_pos ⟨rfl, rfl⟩, if_pos ⟨rfl, rfl⟩,
    fun im re im' re' h => (arg_monotone k im re im' re' h).2, ?_⟩, fun s c i q => exec_atanOp .sign s c i q⟩
  · have hfull := (Config.argFull k).range im re
    have hrestr := (Config.argRestr k).range im re
    rw [argFull_eq, argRestr_eq]
    exact ⟨hfull.1, hfull.2, hrestr.1, hrestr.2⟩
  · rintro s c i q re im rfl rfl rfl
    exact ⟨exec_atanOp .full s c i q, exec_atanOp .restr s c i q⟩

/-! ### `DCBLOCK` (42_demodulator.md rule R197) -/

theorem exec_dcblock (s : State) (c : Chain) (x : NumT) :
    exec (.dcblock c x) s = .next ((s.setFront c { s.front c with dcb := (dcblock s.par (s.front c).dcb x).2 }).reply
      [.num (dcblock s.par (s.front c).dcb x).1]) := rfl

/-- The first output after rest, on every carrier. -/
theorem dcblock_rest (par : Par) (x : NumT) :
    dcblock par ⟨0, 0⟩ x = (numMul par.numerics par.dcbK x, ⟨x, numMul par.numerics par.dcbK x⟩) := by
  simp [dcblock]

theorem dcblock_of_dcbK_zero {par : Par} (h : par.dcbK = 0) (r : Dcb) (x : NumT) :
    dcblock par r x = (0, ⟨x, 0⟩) := by
  simp [dcblock, h]

/-- On the exact carrier a step multiplies by k what the input adds to the output before. -/
theorem dcblock_rational {par : Par} (h : par.numerics = .rational) (r : Dcb) (x : NumT) :
    dcblock par r x = (par.dcbK * (x - r.x1 + r.y1), ⟨x, par.dcbK * (x - r.x1 + r.y1)⟩) := by
  simp [dcblock, h, numMul, numSub, numAdd, mul_add]

/-- Under a constant input the outputs decay by the factor k, on the exact carrier. -/
theorem runOutputs_dcblock_constant (n : Nat) : ∀ {s : State} (c : Chain) (x : NumT), s.par.numerics = .rational →
    (runOutputs (List.replicate n (.dcblock c x)) s).1 =
      (List.range n).map fun j =>
        [Token.num (s.par.dcbK ^ (j + 1) * (x - (s.front c).dcb.x1 + (s.front c).dcb.y1))] := by
  induction n with
  | zero => intros; rfl
  | succ n ih =>
    intro s c x hk
    rw [List.replicate_succ, runOutputs, exec_dcblock, dcblock_rational hk, List.range_succ_eq_map]
    simp only [List.map_cons, List.map_map]
    rw [ih c x (by simpa using hk)]
    simp [Function.comp_def, pow_succ, mul_assoc]

/-- Settles O25: `dcblock` at rest, with k = 0, and by induction under a constant input. -/
theorem dcblockDecays : Obligations.DcblockDecays := by
  refine ⟨?_, ?_, ?_, ?_⟩
  · rintro s c x y rfl
    exact exec_dcblock s c x
  · intro s c x n hk hdcb
    rw [runOutputs_dcblock_constant n c x hk, hdcb, sub_zero, add_zero]
  · rintro s c x y rfl hdcb
    rw [exec_dcblock, hdcb, dcblock_rest]
  · intro s c x h
    rw [exec_dcblock, dcblock_of_dcbK_zero h]

/-! ### `SLICE` (42_demodulator.md rule R198) -/

/-- The decision compares with 0, which `ofInt` gives on every carrier. -/
theorem slice_eq (par : Par) (c : Chain) (d : NumT) : slice par c d = xor (decide (0 ≤ d)) (par.pol.get c) := by
  rw [slice, numOfInt_zero, numLe]

/-- Settles O26: `slice_eq`, with the polarity of each chain. -/
theorem sliceSign : Obligations.SliceSign := by
  intro s c d
  show Host.Outcome.next (s.reply [.bit (slice s.par c d)]) = _
  rw [slice_eq]
  cases c <;> rfl

/-! ### `RSSI` (42_demodulator.md rule R199) -/

/-- From `k` undecided bits on, the search ends at the integer root. -/
theorem isqrtFrom_spec (n k : Nat) : ∀ r, r * r ≤ n → n < (r + 2 ^ k) * (r + 2 ^ k) →
    isqrtFrom n k r * isqrtFrom n k r ≤ n ∧ n < (isqrtFrom n k r + 1) * (isqrtFrom n k r + 1) := by
  induction k with
  | zero => exact fun r hl hu => ⟨hl, hu⟩
  | succ k ih =>
    intro r hl hu
    rw [isqrtFrom]
    split
    · rename_i hbit
      exact ih _ hbit (by rwa [pow_succ, mul_two, ← add_assoc] at hu)
    · rename_i hbit
      exact ih _ hl (not_le.mp hbit)

/-- `isqrt` is the library's integer root. -/
theorem isqrt_eq_sqrt (n : Nat) : isqrt n = Nat.sqrt n := by
  have hbound : n < (0 + 2 ^ (n.log2 / 2 + 1)) * (0 + 2 ^ (n.log2 / 2 + 1)) := by
    rw [zero_add, ← pow_add]
    exact Nat.lt_log2_self.trans_le (Nat.pow_le_pow_right two_pos (by omega))
  exact Nat.eq_sqrt.mpr (isqrtFrom_spec n _ 0 (Nat.zero_le n) hbound)

theorem isqrt_mul_self (n : Nat) : isqrt (n * n) = n := by rw [isqrt_eq_sqrt, Nat.sqrt_eq]

/-- On the rationals the root is exact at every square of a rational. -/
theorem numSqrt_rational_mul_self {r : NumT} (h : 0 ≤ r) : numSqrt .rational (r * r) = r := by
  have hnum : isqrt (r * r).num.natAbs = r.num.natAbs := by
    rw [Rat.mul_self_num, Int.natAbs_mul, isqrt_mul_self]
  have hden : isqrt (r * r).den = r.den := by rw [Rat.mul_self_den, isqrt_mul_self]
  have hsquare : isRatSquare (r * r) = true := by
    have hpos : 0 ≤ (r * r).num := Rat.num_nonneg.mpr (mul_self_nonneg r)
    have hsqnum : (r * r).num.natAbs = r.num.natAbs * r.num.natAbs := by rw [Rat.mul_self_num, Int.natAbs_mul]
    rw [isRatSquare, hnum, hden, ← hsqnum, ← Rat.mul_self_den]
    simp [hpos]
  rw [numSqrt, if_pos hsquare, hnum, hden, Int.natAbs_of_nonneg (Rat.num_nonneg.mpr h), Rat.mkRat_self]

/-- Law N5, exactness: the perfect squares among the small integers, on every carrier. -/
theorem numSqrt_natCast_mul_self (k : Numerics) {r : Nat} (h : r * r ≤ 32767) : numSqrt k ((r : NumT) * r) = r := by
  cases k with
  | rational => exact numSqrt_rational_mul_self (Nat.cast_nonneg r)
  | other n =>
    rw [numSqrt_other]
    exact (Config.numSqrt (.other n)).root r (.inr (by nlinarith))

/-- The decimation rate is the low byte of the configuration word. -/
theorem cfgDecim_eq_mod (w : BitVec 32) : cfgDecim w = w.toNat % 256 := by simp [cfgDecim]

theorem numDiv_rational (x : NumT) {y : NumT} (h : y ≠ 0) : numDiv .rational x y = x / y := if_neg h

/-- Settles O27: the step as its rule writes it, and law N5 of the root. -/
theorem rssiSmooths : Obligations.RssiSmooths := by
  refine ⟨fun s c i q => ?_, numSqrt_monotone, fun k r => numSqrt_natCast_mul_self k⟩
  refine ⟨_, _, ?_, rfl, rfl, ?_⟩
  · show execRssi c i q s = _
    simp only [execRssi, rssiStep, cfgDecim_eq_mod]
  · intro hk r hr hsq
    have hroot : numSqrt .rational (numAdd .rational (numMul .rational i i) (numMul .rational q q)) = r := by
      show numSqrt .rational (i * i + q * q) = r
      rw [← hsq, numSqrt_rational_mul_self hr]
    rw [hk, hroot]
    exact ⟨rfl, rfl, fun hd => numDiv_rational _ (Int.cast_ne_zero.mpr (Int.natCast_ne_zero.mpr hd))⟩

/-! ### `DEMOD.STEP` (42_demodulator.md rule R200)

Between two operations of the expansion the machine is a state of `demodStep` that has answered with some tokens. -/

/-- The discriminator that `cfg.atan_sel` names is the variant that `DEMOD.STEP` runs. -/
theorem pdiscOp_eq (sel : BitVec 2) (c : Chain) (i q : NumT) : pdiscOp sel c i q = (atanOf sel).op c i q := by
  unfold pdiscOp atanOf
  split_ifs <;> rfl

/-- Run the time-2 synchronizer of a chain. -/
def runT2 (s : State) (c : Chain) (tok : RawTok) : State :=
  match c with
  | .T => (s.setChT (t2StepT s.par s.chT s.io tok).1).setIo (t2StepT s.par s.chT s.io tok).2.1
  | .S => (s.setChS (t2StepS s.par s.chS s.io tok).1).setIo (t2StepS s.par s.chS s.io tok).2.1

/-- Run the run-length synchronizer of a chain. -/
def runRl (s : State) (c : Chain) (tok : RawTok) : State :=
  match c with
  | .T => (s.setChT (rlStep s.par s.chT s.io tok).1).setIo (rlStep s.par s.chT s.io tok).2.1
  | .S => (s.setChS (rls1Step s.par s.chS s.io tok).1).setIo (rls1Step s.par s.chS s.io tok).2.1

/-- The time-2 synchronizer, where it is enabled. -/
def t2IfEnabled (s : State) (c : Chain) (tok : RawTok) : State := if cfgT2En s.cfg then runT2 s c tok else s

/-- The run-length synchronizer, where it is enabled. -/
def rlIfEnabled (s : State) (c : Chain) (tok : RawTok) : State := if cfgRlEn s.cfg then runRl s c tok else s

theorem t2IfEnabled_cfg (s : State) (c : Chain) (tok : RawTok) : (t2IfEnabled s c tok).cfg = s.cfg := by
  unfold t2IfEnabled
  split
  · cases c <;> rfl
  · rfl

/-- `DEMOD.STEP` writes the front part, then runs the two synchronizers on the one token. -/
theorem demodStep_eq (s : State) (c : Chain) (i q : NumT) :
    demodStep s c i q =
      rlIfEnabled (t2IfEnabled (s.setFront c (demodFront s.par s.cfg c (s.front c) i q).2) c
        (demodFront s.par s.cfg c (s.front c) i q).1) c (demodFront s.par s.cfg c (s.front c) i q).1 := by
  rw [rlIfEnabled, t2IfEnabled_cfg, t2IfEnabled, State.setFront_cfg]
  cases c
  · by_cases ht : cfgT2En s.cfg <;> by_cases hr : cfgRlEn s.cfg <;>
      simp only [demodStep, demodStepT, ht, hr] <;> rfl
  · by_cases ht : cfgT2En s.cfg <;> by_cases hr : cfgRlEn s.cfg <;>
      simp only [demodStep, demodStepS, ht, hr] <;> rfl

/-- An operation that leaves a machine as `t` does, where it is enabled. -/
theorem execIf_reply {s t : State} {op : Instr} {toks toks' : List Token} (b : Bool)
    (h : exec op (s.reply toks) = .next (t.reply toks')) :
    ∃ toks'', execIf b op (s.reply toks) = .next ((if b then t else s).reply toks'') := by
  cases b
  · exact ⟨toks, rfl⟩
  · exact ⟨toks', h⟩

theorem execIf_t2Step_reply (s : State) (toks : List Token) (c : Chain) (tok : RawTok) :
    ∃ toks', execIf (cfgT2En s.cfg) (.t2Step c tok) (s.reply toks) = .next ((t2IfEnabled s c tok).reply toks') := by
  cases c with
  | T => exact execIf_reply _ (congrArg Host.Outcome.next (State.reply_reply (runT2 s .T tok) toks _))
  | S => exact execIf_reply _ (congrArg Host.Outcome.next (State.reply_reply (runT2 s .S tok) toks _))

theorem execIf_rlOp_reply (s : State) (toks : List Token) (c : Chain) (tok : RawTok) :
    ∃ toks', execIf (cfgRlEn s.cfg) (rlOp c tok) (s.reply toks) = .next ((rlIfEnabled s c tok).reply toks') := by
  cases c with
  | T => exact execIf_reply _ (congrArg Host.Outcome.next (State.reply_reply (runRl s .T tok) toks _))
  | S => exact execIf_reply _ (congrArg Host.Outcome.next (State.reply_reply (runRl s .S tok) toks _))

section

variable (s : State) (c : Chain) (f : Front) (toks : List Token)

theorem exec_postlpf_reply (x : NumT) :
    exec (.postlpf c x) ((s.setFront c f).reply toks) =
      .next ((s.setFront c { f with post := (postlpf s.par c f.post x).2 }).reply
        [.num (postlpf s.par c f.post x).1]) := by
  show execPostlpf c x _ = _
  simp only [execPostlpf, State.reply_par, State.setFront_par, State.reply_front, State.setFront_front,
    State.reply_setFront_reply]

theorem exec_rssi_reply (i q : NumT) :
    exec (.rssi c i q) ((s.setFront c f).reply toks) =
      .next ((s.setFront c { f with rssi := (rssiStep s.par s.cfg f.rssi i q).2 }).reply
        [.num (rssiStep s.par s.cfg f.rssi i q).1]) := by
  show execRssi c i q _ = _
  simp only [execRssi, State.reply_par, State.setFront_par, State.reply_cfg, State.setFront_cfg, State.reply_front,
    State.setFront_front, State.reply_setFront_reply]

theorem exec_slice_reply (d : NumT) :
    exec (.slice c d) ((s.setFront c f).reply toks) = .next ((s.setFront c f).reply [.bit (slice s.par c d)]) := by
  show execSlice c d _ = _
  rw [execSlice, State.reply_reply, State.reply_par, State.setFront_par]

/-- `DCBLOCK` where it is enabled; else the value it would take passes on. -/
theorem execIf_dcblock_reply (b : Bool) (x : NumT) :
    execIf b (.dcblock c x) ((s.setFront c f).reply [.num x]) =
      .next ((s.setFront c { f with dcb := (if b then dcblock s.par f.dcb x else (x, f.dcb)).2 }).reply
        [.num (if b then dcblock s.par f.dcb x else (x, f.dcb)).1]) := by
  cases b
  · rfl
  · rw [execIf, if_pos rfl, exec_dcblock]
    simp only [State.reply_par, State.setFront_par, State.reply_front, State.setFront_front,
      State.reply_setFront_reply, if_true]

end

theorem retNum_reply_num (s : State) (x : NumT) : retNum (s.reply [.num x]) = x := rfl

theorem retBit_reply_bit (s : State) (b : Bool) : retBit (s.reply [.bit b]) = b := rfl

/-- The operations before the synchronizers compute `demodFront`: its front part, and the `RAW` token. -/
theorem expandDemod_front (s : State) (c : Chain) (i q : NumT) {f : RawTok × Front}
    (hf : demodFront s.par s.cfg c (s.front c) i q = f) :
    expandDemod c i q s =
      thenDo (execIf (cfgT2En s.cfg) (.t2Step c f.1) ((s.setFront c f.2).reply [.bit f.1.r]))
        (execIf (cfgRlEn s.cfg) (rlOp c f.1)) := by
  subst hf
  rw [expandDemod, pdiscOp_eq, exec_atanOp, thenDo_next, retNum_reply_num, exec_postlpf_reply, thenDo_next,
    retNum_reply_num, execIf_dcblock_reply, thenDo_next, retNum_reply_num, exec_rssi_reply, thenDo_next,
    retNum_reply_num, exec_slice_reply, thenDo_next, retBit_reply_bit]
  rfl

/-- The operations of rule R200 leave the machine as `demodStep` does, having answered with some tokens. -/
theorem expandDemod_eq (s : State) (c : Chain) (i q : NumT) :
    ∃ toks, expandDemod c i q s = .next ((demodStep s c i q).reply toks) := by
  obtain ⟨f, hf⟩ : ∃ f, demodFront s.par s.cfg c (s.front c) i q = f := ⟨_, rfl⟩
  obtain ⟨toks, ht2⟩ := execIf_t2Step_reply (s.setFront c f.2) [.bit f.1.r] c f.1
  obtain ⟨toks', hrl⟩ := execIf_rlOp_reply (t2IfEnabled (s.setFront c f.2) c f.1) toks c f.1
  rw [State.setFront_cfg] at ht2
  rw [t2IfEnabled_cfg, State.setFront_cfg] at hrl
  exact ⟨toks', by rw [expandDemod_front s c i q hf, ht2, thenDo_next, hrl, demodStep_eq, hf]⟩

/-- Settles O28: `expandDemod_eq`, the telegrams being those the same state holds. -/
theorem demodStepExpands : Obligations.DemodStepExpands := by
  intro s c i q
  obtain ⟨toks, h⟩ := expandDemod_eq s c i q
  refine ⟨_, h, ?_⟩
  show execDemodStep c i q s = _
  rw [execDemodStep, State.reply_io]
  rfl

end Sys2Proof.Machine
end

section
/-! PROOFS. Every step keeps the run-length estimates positive, the S1 ones in their band (43_bit_sync.md rule R231,
clause 4). Only the operations that close a run or reset a synchronizer write an estimate (`rlRun_ok`, `rls1Run_ok`,
`rlTCleared`, `rlSCleared`); every other one leaves the two synchronizers' estimates as they are. -/

namespace Sys2Proof.Machine

open Sys2Proof

/-! ### The estimates of one synchronizer -/

/-- The S1 estimates of both levels are within half and three halves of nominal. -/
def RlS.InBand (par : Par) (rl : RlS) : Prop :=
  ∀ level, par.nomBitlen.s ≤ 2 * spbOf rl level ∧ 2 * spbOf rl level ≤ 3 * par.nomBitlen.s

/-- The nominal estimate is in its own band. -/
theorem RlS.InBand.of_nominal {par : Par} {rl : RlS} (hn : 0 < par.nomBitlen.s)
    (h : ∀ level, spbOf rl level = par.nomBitlen.s) : rl.InBand par := by
  intro level
  rw [h level]
  omega

theorem rlRun_bitlen_pos {par : Par} (hn : 0 < par.nomBitlen.t) (rl : RlT) (d : DecT) (io : Io) (level : Bool)
    (run : Nat) (r : NumT) : 0 < (rlRun par rl d io level run r).1.bitlen := by
  obtain ⟨-, -, hpos, -⟩ :=
    rlRun_ok par rl d io level run r (P := fun _ => True) (fun _ _ _ _ => trivial) trivial trivial hn
  exact hpos

theorem rls1Run_inBand {par : Par} (hn : 0 < par.nomBitlen.s) {rl : RlS} (h : rl.InBand par) (d : DecS) (io : Io)
    (level : Bool) (run : Nat) (r : NumT) : (rls1Run par rl d io level run r).1.InBand par := by
  obtain ⟨-, -, hband, -⟩ :=
    rls1Run_ok par rl d io level run r (P := fun _ => True) (fun _ _ _ _ => trivial) trivial trivial hn h
  exact hband

theorem rlStep_bitlen_pos {par : Par} (hn : 0 < par.nomBitlen.t) {ch : ChainT} (h : 0 < ch.rl.bitlen) (io : Io)
    (tok : RawTok) : 0 < (rlStep par ch io tok).1.rl.bitlen := by
  unfold rlStep
  dsimp only
  split
  · exact h
  · exact rlRun_bitlen_pos hn ..

theorem rls1Step_inBand {par : Par} (hn : 0 < par.nomBitlen.s) {ch : ChainS} (h : ch.rl.InBand par) (io : Io)
    (tok : RawTok) : (rls1Step par ch io tok).1.rl.InBand par := by
  unfold rls1Step
  dsimp only
  split
  · exact h
  · exact rls1Run_inBand hn (rl := (deglitchS par ch.rl tok.r).1) h _ _ _ _ _

section
variable {s t : State}

/-! ### Writing one block -/

/-- A change that stays off `PAR` and the run-length synchronizers. -/
theorem EstimatesOk.of_rl (h : EstimatesOk s) (hpar : t.par = s.par) (hT : t.chT.rl = s.chT.rl)
    (hS : t.chS.rl = s.chS.rl) : EstimatesOk t := by
  obtain ⟨hnomT, hnomS, hbitlen, hspb⟩ := h
  exact ⟨by rwa [hpar], by rwa [hpar], by rwa [hT], by rwa [hpar, hS]⟩

theorem EstimatesOk.reply (h : EstimatesOk s) (toks : List Token) : EstimatesOk (s.reply toks) := h.of_rl rfl rfl rfl

theorem EstimatesOk.setIo (h : EstimatesOk s) (io : Io) : EstimatesOk (s.setIo io) := h.of_rl rfl rfl rfl

theorem EstimatesOk.setFront (h : EstimatesOk s) (c : Chain) (f : Front) : EstimatesOk (s.setFront c f) :=
  h.of_rl (by simp) (by simp) (by simp)

theorem EstimatesOk.setT2 (h : EstimatesOk s) (c : Chain) (r : T2Reg) : EstimatesOk (s.setT2 c r) :=
  h.of_rl (by simp) (by simp) (by simp)

theorem EstimatesOk.setChT {ch : ChainT} (h : EstimatesOk s) (hch : 0 < ch.rl.bitlen) : EstimatesOk (s.setChT ch) :=
  ⟨h.nomT, h.nomS, hch, h.spb⟩

theorem EstimatesOk.setChS {ch : ChainS} (h : EstimatesOk s) (hch : ch.rl.InBand s.par) : EstimatesOk (s.setChS ch) :=
  ⟨h.nomT, h.nomS, h.bitlen, hch⟩

theorem EstimatesOk.setFsIdx {n : Nat} (h : EstimatesOk s) : EstimatesOk { s with fsIdx := n } := h.of_rl rfl rfl rfl

/-! ### The shared operations -/

theorem EstimatesOk.finishT (h : EstimatesOk s) (a : Syn) (r : DecT × Io) : EstimatesOk (finishT s a r) :=
  h.of_rl rfl (by cases a <;> rfl) rfl

theorem EstimatesOk.finishS (h : EstimatesOk s) (a : Syn) (r : DecS × Io) : EstimatesOk (finishS s a r) :=
  h.of_rl rfl rfl (by cases a <;> rfl)

theorem EstimatesOk.resetDec (h : EstimatesOk s) (c : Chain) (a : Syn) : EstimatesOk (resetDec s c a) := by
  cases c
  · exact h.setChT (by cases a <;> exact h.bitlen)
  · exact h.setChS (by cases a <;> exact h.spb)

theorem EstimatesOk.setFirState (h : EstimatesOk s) (f : FirInst) (v : Fir) : EstimatesOk (setFirState s f v) := by
  cases f <;> exact h.setFront ..

theorem EstimatesOk.setSyncSr (h : EstimatesOk s) (c : Chain) (a : Syn) (sr : BitVec 32) :
    EstimatesOk (setSyncSr s c a sr) := by
  cases c
  · cases a <;> exact h.setChT h.bitlen
  · cases a <;> exact h.setChS h.spb

theorem EstimatesOk.routeInput (h : EstimatesOk s) (p : Iq) : EstimatesOk (routeInput s p).2 := by
  unfold Machine.routeInput
  split
  · exact h.setFsIdx
  · exact h

theorem EstimatesOk.runFeLpf (h : EstimatesOk s) (c : Chain) (p : Iq) : EstimatesOk (runFeLpf s c p).2 :=
  (h.setFront c _).of_rl rfl rfl rfl

theorem EstimatesOk.feIfEnabled (h : EstimatesOk s) (c : Chain) (p : Iq) : EstimatesOk (feIfEnabled s c p).2 := by
  unfold Machine.feIfEnabled
  split
  · exact h.runFeLpf c p
  · exact h

theorem EstimatesOk.runDecim (h : EstimatesOk s) : EstimatesOk (runDecim s).2 := h.of_rl rfl rfl rfl

/-- Time-2 recovery writes no estimate. -/
theorem EstimatesOk.runT2 (h : EstimatesOk s) (c : Chain) (tok : RawTok) : EstimatesOk (runT2 s c tok) := by
  cases c
  · exact h.of_rl rfl rfl rfl
  · exact h.of_rl rfl rfl rfl

/-- Run-length recovery keeps the estimates it adapts. -/
theorem EstimatesOk.runRl (h : EstimatesOk s) (c : Chain) (tok : RawTok) : EstimatesOk (runRl s c tok) := by
  cases c
  · exact (h.setChT (rlStep_bitlen_pos h.nomT h.bitlen ..)).setIo _
  · exact (h.setChS (rls1Step_inBand h.nomS h.spb _ _)).setIo _

theorem EstimatesOk.t2IfEnabled (h : EstimatesOk s) (c : Chain) (tok : RawTok) : EstimatesOk (t2IfEnabled s c tok) := by
  unfold Machine.t2IfEnabled
  split
  · exact h.runT2 c tok
  · exact h

theorem EstimatesOk.rlIfEnabled (h : EstimatesOk s) (c : Chain) (tok : RawTok) : EstimatesOk (rlIfEnabled s c tok) := by
  unfold Machine.rlIfEnabled
  split
  · exact h.runRl c tok
  · exact h

theorem EstimatesOk.demodStep (h : EstimatesOk s) (c : Chain) (i q : NumT) : EstimatesOk (demodStep s c i q) := by
  rw [demodStep_eq]
  exact ((h.setFront c _).t2IfEnabled c _).rlIfEnabled c _

theorem EstimatesOk.demodIfEnabled (h : EstimatesOk s) (c : Chain) (v : Option Iq) :
    EstimatesOk (demodIfEnabled s c v) := by
  cases v with
  | none => exact h
  | some p =>
    unfold Machine.demodIfEnabled
    dsimp only
    split
    · exact h.demodStep c p.1 p.2
    · exact h

theorem EstimatesOk.sampleStep (h : EstimatesOk s) (i q : Byte) : EstimatesOk (sampleStep s i q) := by
  have hfiltered : EstimatesOk (filterSample s i q).2 := ((h.routeInput _).feIfEnabled .T _).feIfEnabled .S _
  rw [sampleStep_eq]
  split
  · exact (hfiltered.runDecim.demodIfEnabled .T _).demodIfEnabled .S _
  · exact hfiltered.runDecim

theorem runSamples_estimatesOk (bytes : List Byte) : ∀ s : State, EstimatesOk s → EstimatesOk (runSamples s bytes) := by
  match bytes with
  | [] => exact fun _ h => h
  | [_] => exact fun _ h => h
  | i :: q :: rest => exact fun s h => runSamples_estimatesOk rest _ (h.sampleStep i q)

theorem EstimatesOk.runChunk (h : EstimatesOk s) : EstimatesOk (runChunk s) := by
  have hrun := runSamples_estimatesOk (s.inp.take s.par.chunkBytes) { s with inp := s.inp.drop s.par.chunkBytes }
    (h.of_rl rfl rfl rfl)
  exact hrun.of_rl rfl rfl rfl

/-- `RESET` sets the estimates to nominal. -/
theorem EstimatesOk.resetCore (h : EstimatesOk s) : EstimatesOk (resetCore s) :=
  ⟨h.nomT, h.nomS, h.nomT, RlS.InBand.of_nominal h.nomS (by intro level; cases level <;> rfl)⟩

/-! ### What an operation answers -/

/-- An answer whose next state, if it is one, has its estimates in range. -/
def AnswersEstimates (o : Host.Outcome State Fault Refusal) : Prop := ∀ t, o = .next t → EstimatesOk t

theorem AnswersEstimates.refused (e : Refusal) : AnswersEstimates (.refused e) := by
  intro t h
  cases h

theorem EstimatesOk.answer (h : EstimatesOk t) : AnswersEstimates (.next t) := by
  rintro _ ⟨⟩
  exact h

theorem EstimatesOk.answerReply (h : EstimatesOk s) (toks : List Token) : AnswersEstimates (.next (s.reply toks)) :=
  (h.reply toks).answer

theorem EstimatesOk.runHandlerT (h : EstimatesOk s) (a : Syn) (st : StT) (r : DecT × Io) :
    AnswersEstimates (runHandlerT s a st r) := by
  unfold Machine.runHandlerT
  split
  · exact (h.finishT a r).answer
  · exact .refused _

theorem EstimatesOk.runHandlerS (h : EstimatesOk s) (a : Syn) (st : StS) (r : DecS × Io) :
    AnswersEstimates (runHandlerS s a st r) := by
  unfold Machine.runHandlerS
  split
  · exact (h.finishS a r).answer
  · exact .refused _

theorem EstimatesOk.execReset (h : EstimatesOk s) : AnswersEstimates (execReset s) := by
  unfold Machine.execReset
  split
  · exact h.resetCore.answer
  · exact .refused _

/-- A configuration word, accepted or not, has no part in the estimates. -/
theorem EstimatesOk.execCfgLoad (h : EstimatesOk s) (w : BitVec 32) : AnswersEstimates (execCfgLoad w s) := by
  unfold Machine.execCfgLoad
  split
  · split
    · exact EstimatesOk.answer (h.of_rl rfl rfl rfl)
    · exact EstimatesOk.answer (h.of_rl rfl rfl rfl)
  · exact .refused _
  · exact .refused _

theorem EstimatesOk.execChunk (h : EstimatesOk s) : AnswersEstimates (execChunk s) := by
  unfold Machine.execChunk
  split
  · exact .refused _
  · split
    · exact .refused _
    · exact h.runChunk.answer

theorem EstimatesOk.execEndStream (h : EstimatesOk s) (k : Nat) : AnswersEstimates (execEndStream k s) := by
  unfold Machine.execEndStream
  split
  · exact .refused _
  · exact EstimatesOk.answer (h.of_rl rfl rfl rfl)

theorem EstimatesOk.execFirStep (h : EstimatesOk s) (f : FirInst) (x : NumT) :
    AnswersEstimates (execFirStep f x s) := by
  unfold Machine.execFirStep
  split
  · exact .refused _
  · exact (h.setFirState f _).answerReply _

theorem EstimatesOk.execT2Step (h : EstimatesOk s) (c : Chain) (tok : RawTok) :
    AnswersEstimates (execT2Step c tok s) := by
  cases c
  · exact (h.runT2 .T tok).answerReply _
  · exact (h.runT2 .S tok).answerReply _

theorem EstimatesOk.execDeglitch (h : EstimatesOk s) (c : Chain) (r : Bool) :
    AnswersEstimates (execDeglitch c r s) := by
  cases c
  · exact (h.setChT (ch := { s.chT with rl := (deglitchT s.par s.chT.rl r).1 }) h.bitlen).answerReply _
  · exact (h.setChS (ch := { s.chS with rl := (deglitchS s.par s.chS.rl r).1 }) h.spb).answerReply _

theorem EstimatesOk.execRlReset (h : EstimatesOk s) (c : Chain) : AnswersEstimates (execRlReset c s) := by
  cases c
  · exact (h.setChT h.nomT).answerReply _
  · exact (h.setChS (.of_nominal h.nomS (by intro level; cases level <;> rfl))).answerReply _

/-- Every operation keeps the estimates in range. -/
theorem EstimatesOk.exec (h : EstimatesOk s) (i : Instr) : AnswersEstimates (exec i s) := by
  cases i with
  | reset => exact h.execReset
  | cfgLoad w => exact h.execCfgLoad w
  | chunk => exact h.execChunk
  | endStream k => exact h.execEndStream k
  | tsGet => exact (h.setIo _).answerReply _
  | firStep f x => exact h.execFirStep f x
  | iirStep c x => exact (h.setT2 ..).answerReply _
  | ppfStep c ch x => exact (h.setFront ..).answerReply _
  | mavgStep c ch x => exact (h.setFront ..).answerReply _
  | dcrem i q => exact h.answerReply _
  | fsplit i q => exact h.setFsIdx.answerReply _
  | feLpf c i q => exact (h.runFeLpf c (i, q)).answerReply _
  | decim => exact h.runDecim.answerReply _
  | sampleStep i q => exact (h.sampleStep i q).answerReply _
  | pdiscExact c i q => exact (h.setFront ..).answerReply _
  | pdiscFull c i q => exact (h.setFront ..).answerReply _
  | pdiscRestr c i q => exact (h.setFront ..).answerReply _
  | pdiscSign c i q => exact (h.setFront ..).answerReply _
  | postlpf c x => exact (h.setFront ..).answerReply _
  | dcblock c x => exact (h.setFront ..).answerReply _
  | slice c d => exact h.answerReply _
  | rssi c i q => exact (h.setFront ..).answerReply _
  | demodStep c i q => exact (h.demodStep c i q).answerReply _
  | acorr c a b r => exact (h.setSyncSr c a _).answerReply _
  | t2Step c tok => exact h.execT2Step c tok
  | deglitch c r => exact h.execDeglitch c r
  | rlStep tok => exact (h.runRl .T tok).answerReply _
  | rlRun level run r => exact ((h.setChT (rlRun_bitlen_pos h.nomT ..)).setIo _).answerReply _
  | rlReset c => exact h.execRlReset c
  | rls1Step tok => exact (h.runRl .S tok).answerReply _
  | rls1Run level run r => exact ((h.setChS (rls1Run_inBand h.nomS h.spb _ _ _ _ _)).setIo _).answerReply _
  | t1c1Bit a tok => exact (h.finishT a _).answer
  | t1c1Idle a tok => exact h.runHandlerT a _ _
  | t1c1Lfield a tok => exact h.runHandlerT a _ _
  | t1c1C1trailer a tok => exact h.runHandlerT a _ _
  | t1c1C1len a tok => exact h.runHandlerT a _ _
  | t1c1DataT1 a tok => exact h.runHandlerT a _ _
  | t1c1DataC1 a tok => exact h.runHandlerT a _ _
  | t1c1Done a tok => exact h.runHandlerT a _ _
  | decReset c a => exact (h.resetDec c a).answerReply _
  | s1Bit a tok => exact (h.finishS a _).answer
  | s1Idle a tok => exact h.runHandlerS a _ _
  | s1Len a tok => exact h.runHandlerS a _ _
  | s1Data a tok => exact h.runHandlerS a _ _
  | s1Done a tok => exact h.runHandlerS a _ _
  | crc16 bytes => exact h.answerReply _
  | crcchkA t => exact h.answerReply _
  | crcchkB t => exact h.answerReply _
  | stripA t => exact h.answerReply _
  | stripB t => exact h.answerReply _
  | serial p => exact h.answerReply _
  | emit c a mode => exact (h.setIo _).answerReply _

end

/-! ### The obligation -/

/-- Settles O55: the estimates do not look at the request stream, and every operation keeps them in range. -/
theorem estimatesKept : Obligations.EstimatesKept := by
  intro s t hs hstep
  unfold step at hstep
  split at hstep
  · next i rest _ =>
    have hrest : EstimatesOk { s with ops := rest } := hs.of_rl rfl rfl rfl
    exact hrest.exec i t hstep
  · cases hstep

end Sys2Proof.Machine
end

section
/-! PROOFS. The bit synchronizers (43_bit_sync.md): the correlator's window and tolerance, the lock counter of time-2
recovery, the deglitch filter, and how a run is closed. Each operation is first stated as an equation of its own
(`exec_acorr`, `exec_t2Step_of_samples`, `rlRun_of_implausible`, …); the obligations are read off these equations. -/

namespace Sys2Proof.Machine

open Sys2Proof

/-- Two states that differ at most in the tokens returned and the phase, and agree on both. -/
theorem State.eq_of_told_eq {s t : State} (h : s.told [] .running = t.told [] .running) (hret : s.ret = t.ret)
    (hphase : s.phase = t.phase) : s = t := by
  rw [← State.told_self s, ← State.told_self t, hret, hphase, ← State.told_told s [] t.ret .running, h,
    State.told_told]

/-! ### `ACORR` (43_bit_sync.md rule R221) -/

theorem exec_acorr (s : State) (c : Chain) (a : Syn) (b : Bool) (r : NumT) :
    exec (.acorr c a b r) s = .next ((setSyncSr s c a (shiftIn (syncSr s c a) b)).reply
      [.bitTok ⟨b, accMatch s.par c (shiftIn (syncSr s c a) b), r⟩]) := rfl

theorem accMatch_eq (par : Par) (c : Chain) (sr : BitVec 32) :
    accMatch par c sr = decide ((List.range 32).countP (fun k =>
      xor (decide (k < par.accW.get c) && sr.getLsbD k) ((par.accCode.get c).getLsbD k)) ≤ par.accTol.get c) := by
  rw [accMatch, accDistance_eq]

/-- A window is read through its low bits only. -/
theorem lowBits_eq_ofNat_mod {w : Nat} (hw : w < 32) (sr : BitVec 32) :
    lowBits w sr = BitVec.ofNat 32 (sr.toNat % 2 ^ w) := by
  have hlt : 2 ^ w - 1 < 2 ^ 32 := by
    have := Nat.pow_lt_pow_right (a := 2) (by decide) hw
    omega
  apply BitVec.eq_of_toNat_eq
  rw [lowBits, BitVec.toNat_and, BitVec.toNat_ofNat, BitVec.toNat_ofNat, Nat.mod_eq_of_lt hlt,
    Nat.and_two_pow_sub_one_eq_mod]
  exact (Nat.mod_eq_of_lt ((Nat.mod_le _ _).trans_lt sr.isLt)).symm

theorem popcount_single : ∀ k : Fin 32, popcount (BitVec.ofNat 32 (2 ^ k.val)) = 1 := by decide

/-- A window that differs from the access code in one of the bits compared is at distance 1. -/
theorem accDistance_of_flip {par : Par} {c : Chain} {sr : BitVec 32} {k : Nat} (hw : par.accW.get c < 32) (hk : k < 32)
    (h : BitVec.ofNat 32 (sr.toNat % 2 ^ par.accW.get c) = par.accCode.get c ^^^ BitVec.ofNat 32 (2 ^ k)) :
    accDistance par c sr = 1 := by
  rw [accDistance, lowBits_eq_ofNat_mod hw, h, BitVec.xor_comm, ← BitVec.xor_assoc, BitVec.xor_self,
    BitVec.zero_xor]
  exact popcount_single ⟨k, hk⟩

/-- Settles O29: the window bit by bit, and the default code's distance-1 windows. -/
theorem acorrWindow : Obligations.AcorrWindow := by
  refine ⟨fun s c a b r => ⟨shiftIn (syncSr s c a) b, ?_, ?_⟩, fun par sr k hcode hwidth hk hsr => ?_⟩
  · rw [shiftIn_eq_ofNat, BitVec.toNat_ofNat]
  · rw [exec_acorr, accMatch_eq]
  · have hdist : accDistance par .T sr = 1 := by
      apply accDistance_of_flip (k := k)
      · show par.accW.t < 32
        omega
      · omega
      · show BitVec.ofNat 32 (sr.toNat % 2 ^ par.accW.t) = par.accCode.t ^^^ _
        rw [hwidth, hsr, hcode]
        exact BitVec.ofNat_xor
    rw [accMatch, hdist, decide_eq_true_iff]
    rfl

/-! ### `T2.STEP` (43_bit_sync.md rules R222 and R230) -/

/-- What a decoder operation does with the bit the operation before it returned (43_bit_sync.md rule R230). -/
def bitTaken (s : State) (c : Chain) (a : Syn) (b : BitTok) : State :=
  match c with
  | .T => finishT s a (t1c1Bit s.par a (s.chT.dec a) b s.io)
  | .S => finishS s a (s1Bit s.par a (s.chS.dec a) b s.io)

theorem exec_bitOp_reply (s : State) (c : Chain) (a : Syn) (b : BitTok) :
    exec (bitOp c a (retBitTok (s.reply [.bitTok b]))) (s.reply [.bitTok b]) =
      .next (bitTaken (s.reply [.bitTok b]) c a b) := by
  cases c <;> rfl

/-- The time-2 registers after a sample whose band-pass filter returns `x` and is left as `g`, before `ACORR`. -/
def t2After (par : Par) (c : Chain) (t : T2Reg) (x : NumT) (g : Iir) : T2Reg where
  bpf := g
  clkPrev := t2Clock par x
  lock := t2Lock (par.t2LockN.get c) (t2Clock par x) t.clkPrev t.lock
  sr := t.sr

theorem State.setT2_setT2 (s : State) (c : Chain) (r r' : T2Reg) : (s.setT2 c r).setT2 c r' = s.setT2 c r' := by
  cases c <;> rfl

theorem State.reply_setT2 (s : State) (c : Chain) (r : T2Reg) (toks : List Token) :
    (s.reply toks).setT2 c r = (s.setT2 c r).reply toks := by
  cases c <;> rfl

/-- `ACORR` on a time-2 synchronizer that has just been written. -/
theorem exec_acorr_T2 (s : State) (c : Chain) (t : T2Reg) (toks : List Token) (b : Bool) (r : NumT) :
    exec (.acorr c .T2 b r) ((s.setT2 c t).reply toks) =
      .next ((s.setT2 c { t with sr := shiftIn t.sr b }).reply
        [.bitTok ⟨b, accMatch s.par c (shiftIn t.sr b), r⟩]) := by
  have hphase : s.phase.touch.touch = s.phase.touch := Phase.touch_touch _
  rw [exec_acorr]
  cases c with
  | T => exact congrArg Host.Outcome.next (State.eq_of_told_eq rfl rfl hphase)
  | S => exact congrArg Host.Outcome.next (State.eq_of_told_eq rfl rfl hphase)

section
variable {s : State} {c : Chain} {tok : RawTok} {x : NumT} {g : Iir}

/-- A sample that takes no data bit only writes the time-2 registers. -/
theorem exec_t2Step_of_not_samples
    (hbpf : bpfStep s.par c (s.t2 c).bpf (numMul s.par.numerics tok.d tok.d) = (x, g))
    (h : t2Samples (s.par.t2LockN.get c) (t2Clock s.par x) (s.t2 c).clkPrev (s.t2 c).lock = false) :
    exec (.t2Step c tok) s = .next ((s.setT2 c (t2After s.par c (s.t2 c) x g)).reply []) := by
  have hadvance : t2Advance s.par c (s.t2 c) tok = (t2After s.par c (s.t2 c) x g, none) := by
    rw [t2Advance, hbpf]
    dsimp only
    rw [h]
    rfl
  cases c with
  | T =>
    show execT2Step .T tok s = _
    simp only [execT2Step, t2StepT, ← State.t2_T, hadvance]
    rfl
  | S =>
    show execT2Step .S tok s = _
    simp only [execT2Step, t2StepS, ← State.t2_S, hadvance]
    rfl

/-- A sample that takes the data bit runs `ACORR` on it and delivers it. -/
theorem exec_t2Step_of_samples
    (hbpf : bpfStep s.par c (s.t2 c).bpf (numMul s.par.numerics tok.d tok.d) = (x, g))
    (h : t2Samples (s.par.t2LockN.get c) (t2Clock s.par x) (s.t2 c).clkPrev (s.t2 c).lock = true)
    (toks : List Token) :
    ∃ w t, exec (.acorr c .T2 tok.r tok.rssi) ((s.setT2 c (t2After s.par c (s.t2 c) x g)).reply toks) = .next w ∧
      exec (bitOp c .T2 (retBitTok w)) w = .next t ∧ exec (.t2Step c tok) s = .next { t with ret := w.ret } := by
  have hadvance : t2Advance s.par c (s.t2 c) tok =
      ({ t2After s.par c (s.t2 c) x g with sr := (acorr s.par c (s.t2 c).sr tok.r tok.rssi).2 },
        some (acorr s.par c (s.t2 c).sr tok.r tok.rssi).1) := by
    rw [t2Advance, hbpf]
    dsimp only
    rw [h]
    rfl
  have hphase : s.phase.touch = s.phase.touch.touch := (Phase.touch_touch _).symm
  refine ⟨_, _, exec_acorr_T2 .., exec_bitOp_reply .., ?_⟩
  cases c with
  | T =>
    show execT2Step .T tok s = _
    simp only [execT2Step, t2StepT, ← State.t2_T, hadvance]
    exact congrArg Host.Outcome.next (State.eq_of_told_eq rfl rfl hphase)
  | S =>
    show execT2Step .S tok s = _
    simp only [execT2Step, t2StepS, ← State.t2_S, hadvance]
    exact congrArg Host.Outcome.next (State.eq_of_told_eq rfl rfl hphase)

end

theorem t2Clock_eq_true_iff (par : Par) (x : NumT) : t2Clock par x = true ↔ par.t2ClkTh ≤ x := by
  simp [t2Clock, numLe]

/-- The time-2 registers after a sample, from what its lock counter becomes. -/
theorem t2After_eq {par : Par} {c : Chain} {t : T2Reg} {x : NumT} {g : Iir} {n : Nat}
    (h : t2Lock (par.t2LockN.get c) (t2Clock par x) t.clkPrev t.lock = n) :
    t2After par c t x g = { bpf := g, clkPrev := decide (par.t2ClkTh ≤ x), lock := n, sr := t.sr } := by
  rw [t2After, h]
  rfl

section
variable {par : Par} {x : NumT} {n lock : Nat} {prev : Bool}

/-- A rising clock edge restarts the counter. -/
theorem t2Lock_of_rising (h : par.t2ClkTh ≤ x) : t2Lock n (t2Clock par x) false lock = 1 := by
  rw [(t2Clock_eq_true_iff par x).2 h]
  rfl

theorem t2Samples_of_not_prev (n : Nat) (clk : Bool) (lock : Nat) : t2Samples n clk false lock = false := by
  cases clk <;> rfl

/-- Below its threshold the counter counts the samples of a clock that stays high. -/
theorem t2Lock_of_counting (h : par.t2ClkTh ≤ x) (hlt : lock < n) : t2Lock n (t2Clock par x) true lock = lock + 1 := by
  simp [t2Lock, (t2Clock_eq_true_iff par x).2 h, hlt]

theorem t2Samples_of_counting (h : par.t2ClkTh ≤ x) (hlt : lock < n) :
    t2Samples n (t2Clock par x) true lock = decide (lock + 1 = n) := by
  simp [t2Samples, (t2Clock_eq_true_iff par x).2 h, hlt]

/-- The two idle cases: the clock is low, or it has stayed high and the counter is at its threshold. -/
theorem t2_idle_cases (h : x < par.t2ClkTh ∨ prev = true ∧ n ≤ lock) :
    t2Clock par x = false ∨ prev = true ∧ ¬ lock < n := by
  refine h.imp (fun hlow => ?_) (fun ⟨hprev, hle⟩ => ⟨hprev, hle.not_gt⟩)
  rw [← Bool.not_eq_true, t2Clock_eq_true_iff]
  exact not_le.2 hlow

theorem t2Samples_of_idle (h : x < par.t2ClkTh ∨ prev = true ∧ n ≤ lock) :
    t2Samples n (t2Clock par x) prev lock = false := by
  rcases t2_idle_cases h with hclk | ⟨-, hlock⟩
  · simp [t2Samples, hclk]
  · simp [t2Samples, hlock]

theorem t2Lock_of_idle (h : x < par.t2ClkTh ∨ prev = true ∧ n ≤ lock) : t2Lock n (t2Clock par x) prev lock = lock := by
  rcases t2_idle_cases h with hclk | ⟨hprev, hlock⟩
  · simp [t2Lock, hclk]
  · simp [t2Lock, hprev, hlock]

end

/-- Settles O30, by cases on the clock, its last level and the lock counter. -/
theorem t2StepLocks : Obligations.T2StepLocks := by
  intro s c tok
  obtain ⟨⟨x, g⟩, hbpf⟩ : ∃ r, bpfStep s.par c (s.t2 c).bpf (numMul s.par.numerics tok.d tok.d) = r := ⟨_, rfl⟩
  refine ⟨(s.setT2 c { s.t2 c with bpf := g }).reply [.num x], x, ?_, rfl, ?_⟩
  · show execIirStep c _ s = _
    rw [execIirStep, hbpf]
  rintro u rfl
  simp only [State.reply_t2, State.setT2_t2, State.reply_setT2, State.setT2_setT2, State.reply_reply]
  refine ⟨fun hx hprev => ?_, fun hx hprev hlt hne => ?_, fun hx hprev hlt heq => ?_, fun hidle => ?_⟩
  · have hlock := t2Lock_of_rising (n := s.par.t2LockN.get c) (lock := (s.t2 c).lock) hx
    rw [← hprev] at hlock
    rw [exec_t2Step_of_not_samples hbpf (by rw [hprev]; exact t2Samples_of_not_prev ..), t2After_eq hlock]
  · have hlock := t2Lock_of_counting hx hlt
    have hsamples := t2Samples_of_counting hx hlt
    rw [← hprev] at hlock hsamples
    rw [exec_t2Step_of_not_samples hbpf (hsamples.trans (decide_eq_false hne)), t2After_eq hlock]
  · have hlock := t2Lock_of_counting hx hlt
    have hsamples := t2Samples_of_counting hx hlt
    rw [← hprev] at hlock hsamples
    rw [← t2After_eq hlock]
    exact exec_t2Step_of_samples hbpf (hsamples.trans (decide_eq_true heq)) _
  · rw [exec_t2Step_of_not_samples hbpf (t2Samples_of_idle hidle), t2After_eq (t2Lock_of_idle hidle)]

/-! ### `DEGLITCH` (43_bit_sync.md rule R224) -/

/-- Settles O31: the window bit by bit; the level is the count of its bits against the threshold. -/
theorem deglitchCounts : Obligations.DeglitchCounts := fun s r =>
  ⟨⟨deglitchAcc s.par.deglW.t s.chT.rl.acc r, deglitchAcc_testBit _ _ _, rfl⟩,
    ⟨deglitchAcc s.par.deglW.s s.chS.rl.acc r, deglitchAcc_testBit _ _ _, rfl⟩⟩

/-! ### `RL.RESET` (43_bit_sync.md rule R227) -/

/-- Settles O36: the cleared value is written out in the statement. -/
theorem rlResetClears : Obligations.RlResetClears := fun _ => ⟨rfl, rfl⟩

/-! ### `RL.STEP` and `RLS1.STEP` (43_bit_sync.md rules R225 and R228) -/

section
variable {par : Par} {io : Io} {tok : RawTok}

theorem rlStep_of_same_level {ch : ChainT} (h : (deglitchT par ch.rl tok.r).2 = ch.rl.lvlPrev) :
    rlStep par ch io tok = ({ ch with rl := { (deglitchT par ch.rl tok.r).1 with run := ch.rl.run + 1 } }, io, []) :=
  if_pos h

theorem rls1Step_of_same_level {ch : ChainS} (h : (deglitchS par ch.rl tok.r).2 = ch.rl.lvlPrev) :
    rls1Step par ch io tok = ({ ch with rl := { (deglitchS par ch.rl tok.r).1 with run := ch.rl.run + 1 } }, io, []) :=
  if_pos h

theorem rlStep_of_level_change {ch : ChainT} (h : (deglitchT par ch.rl tok.r).2 ≠ ch.rl.lvlPrev)
    {rl : RlT} {d : DecT} {io' : Io} {bits : List BitTok}
    (hrun : rlRun par (deglitchT par ch.rl tok.r).1 ch.decRl io ch.rl.lvlPrev ch.rl.run tok.rssi = (rl, d, io', bits)) :
    rlStep par ch io tok =
      ({ ch with rl := { rl with lvlPrev := (deglitchT par ch.rl tok.r).2, run := 1 }, decRl := d }, io', bits) := by
  rw [rlStep]
  dsimp only
  rw [if_neg h, hrun]

theorem rls1Step_of_level_change {ch : ChainS} (h : (deglitchS par ch.rl tok.r).2 ≠ ch.rl.lvlPrev)
    {rl : RlS} {d : DecS} {io' : Io} {bits : List BitTok}
    (hrun : rls1Run par (deglitchS par ch.rl tok.r).1 ch.decRl io ch.rl.lvlPrev ch.rl.run tok.rssi =
      (rl, d, io', bits)) :
    rls1Step par ch io tok =
      ({ ch with rl := { rl with lvlPrev := (deglitchS par ch.rl tok.r).2, run := 1 }, decRl := d }, io', bits) := by
  rw [rls1Step]
  dsimp only
  rw [if_neg h, hrun]

end

theorem exec_rlStep (s : State) (tok : RawTok) {ch : ChainT} {io : Io} {bits : List BitTok}
    (h : rlStep s.par s.chT s.io tok = (ch, io, bits)) :
    exec (.rlStep tok) s = .next (((s.setChT ch).setIo io).reply (bits.map Token.bitTok)) := by
  show execRlStep tok s = _
  rw [execRlStep, h]

theorem exec_rls1Step (s : State) (tok : RawTok) {ch : ChainS} {io : Io} {bits : List BitTok}
    (h : rls1Step s.par s.chS s.io tok = (ch, io, bits)) :
    exec (.rls1Step tok) s = .next (((s.setChS ch).setIo io).reply (bits.map Token.bitTok)) := by
  show execRls1Step tok s = _
  rw [execRls1Step, h]

theorem exec_rlRun (s : State) (level : Bool) (run : Nat) (r : NumT) {rl : RlT} {d : DecT} {io : Io}
    {bits : List BitTok} (h : rlRun s.par s.chT.rl s.chT.decRl s.io level run r = (rl, d, io, bits)) :
    exec (.rlRun level run r) s =
      .next (((s.setChT { s.chT with rl := rl, decRl := d }).setIo io).reply (bits.map Token.bitTok)) := by
  show execRlRun level run r s = _
  rw [execRlRun, h]

theorem exec_rls1Run (s : State) (level : Bool) (run : Nat) (r : NumT) {rl : RlS} {d : DecS} {io : Io}
    {bits : List BitTok} (h : rls1Run s.par s.chS.rl s.chS.decRl s.io level run r = (rl, d, io, bits)) :
    exec (.rls1Run level run r) s =
      .next (((s.setChS { s.chS with rl := rl, decRl := d }).setIo io).reply (bits.map Token.bitTok)) := by
  show execRls1Run level run r s = _
  rw [execRls1Run, h]

/-- Settles O32, by cases on the level; the run that ends is the same whether `RL.STEP` closes it or `RL.RUN`. -/
theorem runLengthSteps : Obligations.RunLengthSteps := by
  have touched : ∀ s : State, s.phase.touch = s.phase.touch.touch := fun s => (Phase.touch_touch _).symm
  constructor
  · intro s tok
    refine ⟨(s.setChT { s.chT with rl := (deglitchT s.par s.chT.rl tok.r).1 }).reply
      [.bit (deglitchT s.par s.chT.rl tok.r).2], _, rfl, rfl, fun hsame => ?_, fun hchange => ?_⟩
    · rw [exec_rlStep s tok (rlStep_of_same_level hsame)]
      exact congrArg Host.Outcome.next (State.eq_of_told_eq rfl rfl (touched s))
    · obtain ⟨⟨rl, d, io, bits⟩, hrun⟩ : ∃ x, rlRun s.par (deglitchT s.par s.chT.rl tok.r).1 s.chT.decRl s.io
        s.chT.rl.lvlPrev s.chT.rl.run tok.rssi = x := ⟨_, rfl⟩
      refine ⟨_, exec_rlRun _ _ _ _ hrun, ?_⟩
      rw [exec_rlStep s tok (rlStep_of_level_change hchange hrun)]
      exact congrArg Host.Outcome.next (State.eq_of_told_eq rfl rfl (touched s))
  · intro s tok
    refine ⟨(s.setChS { s.chS with rl := (deglitchS s.par s.chS.rl tok.r).1 }).reply
      [.bit (deglitchS s.par s.chS.rl tok.r).2], _, rfl, rfl, fun hsame => ?_, fun hchange => ?_⟩
    · rw [exec_rls1Step s tok (rls1Step_of_same_level hsame)]
      exact congrArg Host.Outcome.next (State.eq_of_told_eq rfl rfl (touched s))
    · obtain ⟨⟨rl, d, io, bits⟩, hrun⟩ : ∃ x, rls1Run s.par (deglitchS s.par s.chS.rl tok.r).1 s.chS.decRl s.io
        s.chS.rl.lvlPrev s.chS.rl.run tok.rssi = x := ⟨_, rfl⟩
      refine ⟨_, exec_rls1Run _ _ _ _ hrun, ?_⟩
      rw [exec_rls1Step s tok (rls1Step_of_level_change hchange hrun)]
      exact congrArg Host.Outcome.next (State.eq_of_told_eq rfl rfl (touched s))

/-! ### Whether a run is plausible (43_bit_sync.md rule R226) -/

theorem runImplausible_eq_true {minRun run : Nat} {est : Int} (h : run < minRun ∨ 2 * ((run : Int) * 256) ≤ est) :
    runImplausible minRun est run = true := by
  simpa [runImplausible] using h

theorem runImplausible_eq_false {minRun run : Nat} {est : Int} (hmin : minRun ≤ run)
    (hest : est < 2 * ((run : Int) * 256)) : runImplausible minRun est run = false := by
  simp [runImplausible, hmin, hest]

/-! ### `RL.RUN` (43_bit_sync.md rule R226) -/

/-- The estimate that a plausible T1/C1 run leads to. -/
def rlEstimate (par : Par) (rl : RlT) (run : Nat) : Int :=
  piBitlen par rl.bitlen (runResidual rl.bitlen run) (rl.esum + runResidual rl.bitlen run) (runPeriods rl.bitlen run)

section
variable {par : Par} {rl : RlT} {d : DecT} {io : Io} {level : Bool} {run : Nat} {r : NumT} {q : RunOut DecT}

theorem rlRun_of_implausible (h : runImplausible par.rlMinRun.t rl.bitlen run = true) :
    rlRun par rl d io level run r = (rlTCleared par rl, decTReset, io.note (eventT .sync .RL d), []) :=
  if_pos h

/-- A plausible run whose new estimate is positive. -/
theorem rlRun_of_estimate_pos (h : runImplausible par.rlMinRun.t rl.bitlen run = false)
    (hq : runBits par .T (t1c1Bit par .RL) level r (runPeriods rl.bitlen run).toNat rl.sr d io = q)
    (hest : 0 < rlEstimate par rl run) :
    rlRun par rl d io level run r =
      ({ rl with sr := q.sr, esum := rl.esum + runResidual rl.bitlen run, bitlen := rlEstimate par rl run },
        q.dec, q.io, q.bits) := by
  rw [rlRun]
  dsimp only
  rw [h, hq]
  exact (if_neg Bool.false_ne_true).trans (if_neg (not_le.2 hest))

/-- A plausible run whose new estimate is not positive: its bits are delivered, then the synchronizer is cleared. -/
theorem rlRun_of_estimate_nonpos (h : runImplausible par.rlMinRun.t rl.bitlen run = false)
    (hq : runBits par .T (t1c1Bit par .RL) level r (runPeriods rl.bitlen run).toNat rl.sr d io = q)
    (hest : rlEstimate par rl run ≤ 0) :
    rlRun par rl d io level run r =
      (rlTCleared par rl, decTReset, q.io.note (eventT .sync .RL q.dec), q.bits) := by
  rw [rlRun]
  dsimp only
  rw [h, hq]
  exact (if_neg Bool.false_ne_true).trans (if_pos hest)

end

/-- The bits of a run of at least one period, delivered one operation after another. -/
theorem deliverBits_T_pos {s : State} {level : Bool} {r : NumT} {n : Nat} {q : RunOut DecT} (hn : n ≠ 0)
    (hq : runBits s.par .T (t1c1Bit s.par .RL) level r n s.chT.rl.sr s.chT.decRl s.io = q) :
    ∃ toks, deliverBits .T .RL r (List.replicate n level) s =
      .next { s with
        chT := { s.chT with rl := { s.chT.rl with sr := q.sr }, decRl := q.dec }
        io := q.io, phase := s.phase.touch, ret := toks } := by
  obtain ⟨toks, h⟩ := deliverBits_T level r n s
  rw [hq, if_neg hn] at h
  exact ⟨toks, h⟩

/-- Settles O33: the run is implausible, or its new estimate is positive, or it is not. -/
theorem rlRunCloses : Obligations.RlRunCloses := by
  rintro s level run r bl rfl hbl
  refine ⟨fun himplausible => ?_, ?_⟩
  · exact ⟨_, rfl, exec_rlRun _ _ _ _ (rlRun_of_implausible (runImplausible_eq_true himplausible))⟩
  · rintro hmin hest n e es rfl rfl rfl
    have hplausible := runImplausible_eq_false hmin hest
    have hperiods : 1 ≤ runPeriods s.chT.rl.bitlen run := runPeriods_pos _ _ hbl hest
    obtain ⟨q, hq⟩ : ∃ q, runBits s.par .T (t1c1Bit s.par .RL) level r (runPeriods s.chT.rl.bitlen run).toNat
      s.chT.rl.sr s.chT.decRl s.io = q := ⟨_, rfl⟩
    obtain ⟨toks, hdeliver⟩ := deliverBits_T_pos (by omega) hq
    refine ⟨hperiods, _, q.bits.map Token.bitTok, hdeliver, ?_⟩
    rintro bl' rfl
    refine ⟨fun hpos => ?_, fun hnonpos => ⟨_, rfl, ?_⟩⟩
    · exact exec_rlRun _ _ _ _ (rlRun_of_estimate_pos hplausible hq hpos)
    · rw [exec_rlRun _ _ _ _ (rlRun_of_estimate_nonpos hplausible hq hnonpos)]
      exact congrArg Host.Outcome.next (State.eq_of_told_eq rfl rfl (Phase.touch_touch _).symm)

/-! ### `RLS1.RUN` (43_bit_sync.md rule R229) -/

theorem spbOutside_eq_false {nom v : Int} (h : nom ≤ 2 * v ∧ 2 * v ≤ 3 * nom) : spbOutside nom v = false := by
  simpa [spbOutside] using h

theorem spbOutside_eq_true {nom v : Int} (h : 2 * v < nom ∨ 3 * nom < 2 * v) : spbOutside nom v = true := by
  simpa [spbOutside] using h

section
variable {par : Par} {rl : RlS} {d : DecS} {io : Io} {level : Bool} {run : Nat} {r : NumT} {q : RunOut DecS}

theorem rls1Run_of_implausible (h : runImplausible par.rlMinRun.s (spbOf rl level) run = true) :
    rls1Run par rl d io level run r = (rlSCleared par rl, decSReset, io.note (eventS .sync .RL d), []) :=
  if_pos h

/-- A plausible run whose new estimate is in the band around nominal. -/
theorem rls1Run_of_inside (h : runImplausible par.rlMinRun.s (spbOf rl level) run = false)
    (hq : runBits par .S (s1Bit par .RL) level r (runPeriods (spbOf rl level) run).toNat rl.sr d io = q)
    (hspb : spbOutside par.nomBitlen.s (spbAverage (spbOf rl level) run) = false) :
    rls1Run par rl d io level run r =
      ({ setSpb rl level (spbAverage (spbOf rl level) run) with sr := q.sr }, q.dec, q.io, q.bits) := by
  rw [rls1Run]
  dsimp only
  rw [h, hq, hspb]
  rfl

/-- A plausible run whose new estimate is outside the band: its bits are delivered, then the synchronizer is cleared. -/
theorem rls1Run_of_outside (h : runImplausible par.rlMinRun.s (spbOf rl level) run = false)
    (hq : runBits par .S (s1Bit par .RL) level r (runPeriods (spbOf rl level) run).toNat rl.sr d io = q)
    (hspb : spbOutside par.nomBitlen.s (spbAverage (spbOf rl level) run) = true) :
    rls1Run par rl d io level run r =
      (rlSCleared par rl, decSReset, q.io.note (eventS .sync .RL q.dec), q.bits) := by
  rw [rls1Run]
  dsimp only
  rw [h, hq, hspb]
  rfl

end

/-- The bits of a run of at least one period, delivered one operation after another. -/
theorem deliverBits_S_pos {s : State} {level : Bool} {r : NumT} {n : Nat} {q : RunOut DecS} (hn : n ≠ 0)
    (hq : runBits s.par .S (s1Bit s.par .RL) level r n s.chS.rl.sr s.chS.decRl s.io = q) :
    ∃ toks, deliverBits .S .RL r (List.replicate n level) s =
      .next { s with
        chS := { s.chS with rl := { s.chS.rl with sr := q.sr }, decRl := q.dec }
        io := q.io, phase := s.phase.touch, ret := toks } := by
  obtain ⟨toks, h⟩ := deliverBits_S level r n s
  rw [hq, if_neg hn] at h
  exact ⟨toks, h⟩

/-- The window and the estimates are separate registers. -/
theorem setSpb_setSr (rl : RlS) (level : Bool) (v : Int) (sr : BitVec 32) :
    setSpb { rl with sr := sr } level v = { setSpb rl level v with sr := sr } := by
  cases level <;> rfl

/-- Settles O34: the run is implausible, or its new estimate is in the band, or it is not. -/
theorem rls1RunCloses : Obligations.Rls1RunCloses := by
  rintro s level run r sp rfl hsp
  refine ⟨fun himplausible => ?_, ?_⟩
  · exact ⟨_, rfl, exec_rls1Run _ _ _ _ (rls1Run_of_implausible (runImplausible_eq_true himplausible))⟩
  · rintro hmin hest n rfl
    have hplausible := runImplausible_eq_false hmin hest
    have hperiods : 1 ≤ runPeriods (spbOf s.chS.rl level) run := runPeriods_pos _ _ hsp hest
    obtain ⟨q, hq⟩ : ∃ q, runBits s.par .S (s1Bit s.par .RL) level r (runPeriods (spbOf s.chS.rl level) run).toNat
      s.chS.rl.sr s.chS.decRl s.io = q := ⟨_, rfl⟩
    obtain ⟨toks, hdeliver⟩ := deliverBits_S_pos (by omega) hq
    refine ⟨hperiods, _, q.bits.map Token.bitTok, hdeliver, ?_⟩
    rintro v rfl
    refine ⟨fun hin => ?_, fun hout => ⟨_, rfl, ?_⟩⟩
    · rw [exec_rls1Run _ _ _ _ (rls1Run_of_inside hplausible hq (spbOutside_eq_false hin)), ← setSpb_setSr]
      rfl
    · rw [exec_rls1Run _ _ _ _ (rls1Run_of_outside hplausible hq (spbOutside_eq_true hout))]
      exact congrArg Host.Outcome.next (State.eq_of_told_eq rfl rfl (Phase.touch_touch _).symm)

/-! ### What a run emits (43_bit_sync.md rule R231) -/

/-- A plausible T1/C1 run emits its bits, whatever becomes of the estimate. -/
theorem rlRun_bits {par : Par} {rl : RlT} {run : Nat} (h : runImplausible par.rlMinRun.t rl.bitlen run = false)
    (d : DecT) (io : Io) (level : Bool) (r : NumT) :
    (rlRun par rl d io level run r).2.2.2 =
      (runBits par .T (t1c1Bit par .RL) level r (runPeriods rl.bitlen run).toNat rl.sr d io).bits := by
  rcases lt_or_ge 0 (rlEstimate par rl run) with hpos | hnonpos
  · rw [rlRun_of_estimate_pos h rfl hpos]
  · rw [rlRun_of_estimate_nonpos h rfl hnonpos]

/-- A plausible S1 run emits its bits, whatever becomes of the estimate. -/
theorem rls1Run_bits {par : Par} {rl : RlS} {level : Bool} {run : Nat}
    (h : runImplausible par.rlMinRun.s (spbOf rl level) run = false) (d : DecS) (io : Io) (r : NumT) :
    (rls1Run par rl d io level run r).2.2.2 =
      (runBits par .S (s1Bit par .RL) level r (runPeriods (spbOf rl level) run).toNat rl.sr d io).bits := by
  cases hspb : spbOutside par.nomBitlen.s (spbAverage (spbOf rl level) run)
  · rw [rls1Run_of_inside h rfl hspb]
  · rw [rls1Run_of_outside h rfl hspb]

/-- The bits of a plausible run: one for each symbol period, all of the run's level. -/
theorem runBits_of_plausible {δ : Type} (par : Par) (c : Chain) (dlv : δ → BitTok → Io → δ × Io) (level : Bool)
    (r : NumT) {est : Int} {run : Nat} (h0 : 0 < est) (hest : est < 2 * ((run : Int) * 256)) (sr : BitVec 32) (d : δ)
    (io : Io) {bits : List BitTok}
    (hbits : bits = (runBits par c dlv level r (runPeriods est run).toNat sr d io).bits) :
    (bits.length : Int) = runPeriods est run ∧ ∀ b ∈ bits, b.b = level ∧ b.rssi = r := by
  have hperiods := runPeriods_pos est run h0 hest
  obtain ⟨hlength, hlevel⟩ := runBits_bits par c dlv level r (runPeriods est run).toNat sr d io
  subst hbits
  exact ⟨by omega, hlevel⟩

/-- A run of exactly `k` bit periods leaves no residual error, so the estimate moves by the integrator alone. -/
theorem runResidual_exact {bl : Int} {run k : Nat} (h0 : 0 < bl) (hexact : (run : Int) * 256 = k * bl) :
    runResidual bl run = 0 := by
  rw [runResidual, runPeriods_exact bl run k h0 hexact, hexact, sub_self]

theorem rlEstimate_exact {par : Par} {rl : RlT} {run : Nat} (hresidual : runResidual rl.bitlen run = 0)
    (hesum : rl.esum.tdiv par.rlKi = 0) : rlEstimate par rl run = rl.bitlen := by
  simp [rlEstimate, piBitlen, hresidual, hesum]

/-- Settles O35, clause by clause: a short run, a plausible run of either form, an exact run. -/
theorem runEmissions : Obligations.RunEmissions := by
  refine ⟨fun s level run r hshort => ?_, fun s level run r h0 hmin hest => ?_, fun s level run r h0 hmin hest => ?_,
    fun s level run k r h0 hmin hk hexact hesum => ?_⟩
  · have himplausible := runImplausible_eq_true (est := s.chT.rl.bitlen) (.inl hshort)
    exact ⟨_, exec_rlRun s level run r (rlRun_of_implausible himplausible), rfl, rfl, rfl, rfl, rfl⟩
  · exact ⟨_, _, exec_rlRun s level run r rfl, rfl,
      runBits_of_plausible _ _ _ level r h0 hest _ _ _ (rlRun_bits (runImplausible_eq_false hmin hest) ..)⟩
  · exact ⟨_, _, exec_rls1Run s level run r rfl, rfl,
      runBits_of_plausible _ _ _ level r h0 hest _ _ _ (rls1Run_bits (runImplausible_eq_false hmin hest) ..)⟩
  · have hle : s.chT.rl.bitlen ≤ (run : Int) * 256 :=
      hexact ▸ le_mul_of_one_le_left h0.le (by exact_mod_cast hk)
    have hest : s.chT.rl.bitlen < 2 * ((run : Int) * 256) := by omega
    have hresidual := runResidual_exact h0 hexact
    have hestimate := rlEstimate_exact hresidual hesum
    have hrun := rlRun_of_estimate_pos (d := s.chT.decRl) (io := s.io) (level := level) (r := r)
      (runImplausible_eq_false hmin hest) rfl (hestimate ▸ h0)
    obtain ⟨hlength, -⟩ := runBits_bits s.par .T (t1c1Bit s.par .RL) level r (runPeriods s.chT.rl.bitlen run).toNat
      s.chT.rl.sr s.chT.decRl s.io
    refine ⟨_, exec_rlRun s level run r hrun, ?_, hestimate, ?_⟩
    · rw [State.reply_ret, List.length_map, hlength, runPeriods_exact _ run k h0 hexact, Int.toNat_natCast]
    · show s.chT.rl.esum + _ = _
      rw [hresidual, add_zero]

end Sys2Proof.Machine
end

section
/-! PROOFS. Every step keeps the decoders' invariants (44_frame_decoders.md rule R275). A decoder is written in four
ways: a bit is delivered to it, one of its handlers runs, it is reset, or a run of bits is delivered to it. The law of
each (`t1c1Bit_ok`, the handlers' `decTOk_…`, `decTOk_reset`, `rlRun_decTOk`, and their S1 forms) is carried to the
operations here; every other operation leaves the decoders as they are (`DecodersOk.of_dec`). -/

namespace Sys2Proof.Machine

open Sys2Proof

/-! ### The decoders of a chain -/

/-- A decoder is written, the other one of the chain stays. -/
theorem ChainT.forall_setDec {P : DecT → Prop} {ch : ChainT} {d : DecT} (a : Syn) (hch : ∀ b, P (ch.dec b)) (hd : P d) :
    ∀ b, P ((ch.setDec a d).dec b) := by
  intro b
  by_cases hb : b = a
  · rw [hb, setDec_dec]
    exact hd
  · rw [setDec_dec_of_ne _ _ _ _ hb]
    exact hch b

/-- A decoder is written, the other one of the chain stays. -/
theorem ChainS.forall_setDec {P : DecS → Prop} {ch : ChainS} {d : DecS} (a : Syn) (hch : ∀ b, P (ch.dec b)) (hd : P d) :
    ∀ b, P ((ch.setDec a d).dec b) := by
  intro b
  by_cases hb : b = a
  · rw [hb, setDec_dec]
    exact hd
  · rw [setDec_dec_of_ne _ _ _ _ hb]
    exact hch b

/-! ### The bits of a synchronizer -/

section
variable {par : Par} (hlen : ∀ l, lenA par l ≤ 290)
include hlen

/-- Closing a T1/C1 run delivers its bits or resets the decoder (43_bit_sync.md rule R226). -/
theorem rlRun_decTOk {d : DecT} (h : DecTOk par d) (rl : RlT) (io : Io) (level : Bool) (run : Nat) (r : NumT) :
    DecTOk par (rlRun par rl d io level run r).2.1 := by
  cases hplausible : runImplausible par.rlMinRun.t rl.bitlen run
  · rcases lt_or_ge 0 (rlEstimate par rl run) with hpos | hnonpos
    · rw [rlRun_of_estimate_pos hplausible rfl hpos]
      exact runBits_keeps _ _ (fun _ b io hd => t1c1Bit_ok .RL b io hd hlen) _ _ _ _ _ _ h
    · rw [rlRun_of_estimate_nonpos hplausible rfl hnonpos]
      exact decTOk_reset par
  · rw [rlRun_of_implausible hplausible]
    exact decTOk_reset par

/-- Closing an S1 run delivers its bits or resets the decoder (43_bit_sync.md rule R229). -/
theorem rls1Run_decSOk {d : DecS} (h : DecSOk par d) (rl : RlS) (io : Io) (level : Bool) (run : Nat) (r : NumT) :
    DecSOk par (rls1Run par rl d io level run r).2.1 := by
  cases hplausible : runImplausible par.rlMinRun.s (spbOf rl level) run
  · cases hspb : spbOutside par.nomBitlen.s (spbAverage (spbOf rl level) run)
    · rw [rls1Run_of_inside hplausible rfl hspb]
      exact runBits_keeps _ _ (fun _ b io hd => s1Bit_ok .RL b io hd hlen) _ _ _ _ _ _ h
    · rw [rls1Run_of_outside hplausible rfl hspb]
      exact decSOk_reset par
  · rw [rls1Run_of_implausible hplausible]
    exact decSOk_reset par

section
variable {ch : ChainT} (h : ∀ a, DecTOk par (ch.dec a))
include h

theorem rlStep_decTOk (io : Io) (tok : RawTok) : ∀ a, DecTOk par ((rlStep par ch io tok).1.dec a) := by
  unfold rlStep
  dsimp only
  split
  · exact h
  · exact fun | .T2 => h .T2 | .RL => rlRun_decTOk hlen (h .RL) _ _ _ _ _

theorem t2StepT_decTOk (io : Io) (tok : RawTok) : ∀ a, DecTOk par ((t2StepT par ch io tok).1.dec a)
  | .T2 => deliverOne_keeps (fun _ b io hd => t1c1Bit_ok .T2 b io hd hlen) _ _ io (h .T2)
  | .RL => h .RL

end

section
variable {ch : ChainS} (h : ∀ a, DecSOk par (ch.dec a))
include h

theorem rls1Step_decSOk (io : Io) (tok : RawTok) : ∀ a, DecSOk par ((rls1Step par ch io tok).1.dec a) := by
  unfold rls1Step
  dsimp only
  split
  · exact h
  · exact fun | .T2 => h .T2 | .RL => rls1Run_decSOk hlen (h .RL) _ _ _ _ _

theorem t2StepS_decSOk (io : Io) (tok : RawTok) : ∀ a, DecSOk par ((t2StepS par ch io tok).1.dec a)
  | .T2 => deliverOne_keeps (fun _ b io hd => s1Bit_ok .T2 b io hd hlen) _ _ io (h .T2)
  | .RL => h .RL

end

end

section
variable {s t : State}

/-! ### Writing one block -/

/-- A change that stays off `PAR` and the decoders. -/
theorem DecodersOk.of_dec (h : DecodersOk s) (hpar : t.par = s.par) (hT : ∀ a, t.chT.dec a = s.chT.dec a)
    (hS : ∀ a, t.chS.dec a = s.chS.dec a) : DecodersOk t where
  lengths := by rw [hpar]; exact h.lengths
  t a := by rw [hpar, hT]; exact h.t a
  s a := by rw [hpar, hS]; exact h.s a

/-- A change that stays off `PAR` and the chains. -/
theorem DecodersOk.of_ch (h : DecodersOk s) (hpar : t.par = s.par) (hT : t.chT = s.chT) (hS : t.chS = s.chS) :
    DecodersOk t :=
  h.of_dec hpar (fun _ => by rw [hT]) (fun _ => by rw [hS])

theorem DecodersOk.reply (h : DecodersOk s) (toks : List Token) : DecodersOk (s.reply toks) := h.of_ch rfl rfl rfl

theorem DecodersOk.setIo (h : DecodersOk s) (io : Io) : DecodersOk (s.setIo io) := h.of_ch rfl rfl rfl

theorem DecodersOk.setFront (h : DecodersOk s) (c : Chain) (f : Front) : DecodersOk (s.setFront c f) :=
  h.of_dec (by simp) (by simp) (by simp)

theorem DecodersOk.setT2 (h : DecodersOk s) (c : Chain) (r : T2Reg) : DecodersOk (s.setT2 c r) :=
  h.of_dec (by simp) (by simp) (by simp)

theorem DecodersOk.setChT {ch : ChainT} (h : DecodersOk s) (hch : ∀ a, DecTOk s.par (ch.dec a)) :
    DecodersOk (s.setChT ch) :=
  ⟨h.lengths, hch, h.s⟩

theorem DecodersOk.setChS {ch : ChainS} (h : DecodersOk s) (hch : ∀ a, DecSOk s.par (ch.dec a)) :
    DecodersOk (s.setChS ch) :=
  ⟨h.lengths, h.t, hch⟩

/-! ### The shared operations -/

theorem DecodersOk.resetDec (h : DecodersOk s) (c : Chain) (a : Syn) : DecodersOk (resetDec s c a) := by
  cases c
  · exact h.setChT (ChainT.forall_setDec a h.t (decTOk_reset _))
  · exact h.setChS (ChainS.forall_setDec a h.s (decSOk_reset _))

theorem DecodersOk.setFirState (h : DecodersOk s) (f : FirInst) (v : Fir) : DecodersOk (setFirState s f v) := by
  cases f <;> exact h.setFront ..

theorem DecodersOk.setSyncSr (h : DecodersOk s) (c : Chain) (a : Syn) (sr : BitVec 32) :
    DecodersOk (setSyncSr s c a sr) := by
  cases c
  · cases a <;> exact h.setChT h.t
  · cases a <;> exact h.setChS h.s

/-- Time-2 recovery delivers at most one bit. -/
theorem DecodersOk.runT2 (h : DecodersOk s) (c : Chain) (tok : RawTok) : DecodersOk (runT2 s c tok) := by
  cases c
  · exact (h.setChT (t2StepT_decTOk h.lengths h.t _ tok)).setIo _
  · exact (h.setChS (t2StepS_decSOk h.lengths h.s _ tok)).setIo _

/-- Run-length recovery delivers the bits of a run or resets the decoder. -/
theorem DecodersOk.runRl (h : DecodersOk s) (c : Chain) (tok : RawTok) : DecodersOk (runRl s c tok) := by
  cases c
  · exact (h.setChT (rlStep_decTOk h.lengths h.t _ tok)).setIo _
  · exact (h.setChS (rls1Step_decSOk h.lengths h.s _ tok)).setIo _

theorem DecodersOk.demodStep (h : DecodersOk s) (c : Chain) (i q : NumT) : DecodersOk (demodStep s c i q) := by
  have hfront : DecodersOk (s.setFront c (demodFront s.par s.cfg c (s.front c) i q).2) := h.setFront c _
  rw [demodStep_eq, rlIfEnabled, t2IfEnabled]
  split <;> split
  · exact (hfront.runT2 c _).runRl c _
  · exact hfront.runT2 c _
  · exact hfront.runRl c _
  · exact hfront

theorem DecodersOk.runFeLpf (h : DecodersOk s) (c : Chain) (p : Iq) : DecodersOk (runFeLpf s c p).2 :=
  (h.setFront c _).of_ch rfl rfl rfl

theorem DecodersOk.feIfEnabled (h : DecodersOk s) (c : Chain) (p : Iq) : DecodersOk (feIfEnabled s c p).2 := by
  unfold Machine.feIfEnabled
  split
  · exact h.runFeLpf c p
  · exact h

theorem DecodersOk.routeInput (h : DecodersOk s) (p : Iq) : DecodersOk (routeInput s p).2 := by
  unfold Machine.routeInput
  split
  · exact h.of_ch rfl rfl rfl
  · exact h

theorem DecodersOk.runDecim (h : DecodersOk s) : DecodersOk (runDecim s).2 := h.of_ch rfl rfl rfl

theorem DecodersOk.demodIfEnabled (h : DecodersOk s) (c : Chain) (v : Option Iq) :
    DecodersOk (demodIfEnabled s c v) := by
  cases v with
  | none => exact h
  | some p =>
    unfold Machine.demodIfEnabled
    dsimp only
    split
    · exact h.demodStep c p.1 p.2
    · exact h

theorem DecodersOk.sampleStep (h : DecodersOk s) (i q : Byte) : DecodersOk (sampleStep s i q) := by
  have hgate : DecodersOk (Machine.runDecim (filterSample s i q).2).2 :=
    (((h.routeInput _).feIfEnabled .T _).feIfEnabled .S _).runDecim
  rw [sampleStep_eq]
  split
  · exact (hgate.demodIfEnabled .T _).demodIfEnabled .S _
  · exact hgate

theorem runSamples_decodersOk (bytes : List Byte) : ∀ s : State, DecodersOk s → DecodersOk (runSamples s bytes) := by
  match bytes with
  | [] => exact fun _ h => h
  | [_] => exact fun _ h => h
  | i :: q :: rest => exact fun s h => runSamples_decodersOk rest _ (h.sampleStep i q)

theorem DecodersOk.runChunk (h : DecodersOk s) : DecodersOk (runChunk s) := by
  have hrun := runSamples_decodersOk (s.inp.take s.par.chunkBytes) { s with inp := s.inp.drop s.par.chunkBytes }
    (h.of_ch rfl rfl rfl)
  exact hrun.of_ch rfl rfl rfl

/-! ### What an operation answers -/

/-- An answer whose next state, if it is one, has its decoders as they are between two operations. -/
def AnswersDecoders (o : Host.Outcome State Fault Refusal) : Prop := ∀ t, o = .next t → DecodersOk t

theorem AnswersDecoders.refused (e : Refusal) : AnswersDecoders (.refused e) := by
  intro t h
  cases h

theorem DecodersOk.answer (h : DecodersOk t) : AnswersDecoders (.next t) := by
  rintro _ ⟨⟩
  exact h

theorem DecodersOk.answerReply (h : DecodersOk s) (toks : List Token) : AnswersDecoders (.next (s.reply toks)) :=
  (h.reply toks).answer

theorem DecodersOk.answerFinishT {a : Syn} {r : DecT × Io} (h : DecodersOk s) (hr : DecTOk s.par r.1) :
    AnswersDecoders (.next (finishT s a r)) :=
  ((h.setChT (ChainT.forall_setDec a h.t hr)).setIo _).answerReply _

theorem DecodersOk.answerFinishS {a : Syn} {r : DecS × Io} (h : DecodersOk s) (hr : DecSOk s.par r.1) :
    AnswersDecoders (.next (finishS s a r)) :=
  ((h.setChS (ChainS.forall_setDec a h.s hr)).setIo _).answerReply _

/-- A handler runs only in its state, so its law may assume the state. -/
theorem DecodersOk.runHandlerT {a : Syn} {st : StT} {r : DecT × Io} (h : DecodersOk s)
    (hr : (s.chT.dec a).st = st → DecTOk s.par r.1) : AnswersDecoders (runHandlerT s a st r) := by
  unfold Machine.runHandlerT
  split
  · next hst => exact h.answerFinishT (hr hst)
  · exact .refused _

/-- A handler runs only in its state, so its law may assume the state. -/
theorem DecodersOk.runHandlerS {a : Syn} {st : StS} {r : DecS × Io} (h : DecodersOk s)
    (hr : (s.chS.dec a).st = st → DecSOk s.par r.1) : AnswersDecoders (runHandlerS s a st r) := by
  unfold Machine.runHandlerS
  split
  · next hst => exact h.answerFinishS (hr hst)
  · exact .refused _

theorem DecodersOk.execReset (h : DecodersOk s) : AnswersDecoders (execReset s) := by
  unfold Machine.execReset
  split
  · refine DecodersOk.answer ⟨h.lengths, fun a => ?_, fun a => ?_⟩
    · rw [resetCore_decT]
      exact decTOk_reset _
    · rw [resetCore_decS]
      exact decSOk_reset _
  · exact .refused _

theorem DecodersOk.execCfgLoad (h : DecodersOk s) (w : BitVec 32) : AnswersDecoders (execCfgLoad w s) := by
  unfold Machine.execCfgLoad
  split
  · split
    · exact DecodersOk.answer (h.of_ch rfl rfl rfl)
    · exact DecodersOk.answer (h.of_ch rfl rfl rfl)
  · exact .refused _
  · exact .refused _

theorem DecodersOk.execChunk (h : DecodersOk s) : AnswersDecoders (execChunk s) := by
  unfold Machine.execChunk
  split
  · exact .refused _
  · split
    · exact .refused _
    · exact h.runChunk.answer

theorem DecodersOk.execEndStream (h : DecodersOk s) (k : Nat) : AnswersDecoders (execEndStream k s) := by
  unfold Machine.execEndStream
  split
  · exact .refused _
  · exact DecodersOk.answer (h.of_ch rfl rfl rfl)

theorem DecodersOk.execFirStep (h : DecodersOk s) (f : FirInst) (x : NumT) : AnswersDecoders (execFirStep f x s) := by
  unfold Machine.execFirStep
  split
  · exact .refused _
  · exact (h.setFirState f _).answerReply _

theorem DecodersOk.execT2Step (h : DecodersOk s) (c : Chain) (tok : RawTok) : AnswersDecoders (execT2Step c tok s) := by
  cases c
  · exact (h.runT2 .T tok).answerReply _
  · exact (h.runT2 .S tok).answerReply _

theorem DecodersOk.execDeglitch (h : DecodersOk s) (c : Chain) (r : Bool) : AnswersDecoders (execDeglitch c r s) := by
  cases c
  · exact DecodersOk.answer (h.of_dec rfl (fun | .T2 => rfl | .RL => rfl) fun _ => rfl)
  · exact DecodersOk.answer (h.of_dec rfl (fun _ => rfl) fun | .T2 => rfl | .RL => rfl)

/-- The decoder of a closed T1/C1 run is written beside its synchronizer. -/
theorem DecodersOk.setRlT {rl : RlT} {d : DecT} (h : DecodersOk s) (hd : DecTOk s.par d) :
    DecodersOk (s.setChT { s.chT with rl := rl, decRl := d }) :=
  h.setChT fun | .T2 => h.t .T2 | .RL => hd

/-- The decoder of a closed S1 run is written beside its synchronizer. -/
theorem DecodersOk.setRlS {rl : RlS} {d : DecS} (h : DecodersOk s) (hd : DecSOk s.par d) :
    DecodersOk (s.setChS { s.chS with rl := rl, decRl := d }) :=
  h.setChS fun | .T2 => h.s .T2 | .RL => hd

theorem DecodersOk.execRlReset (h : DecodersOk s) (c : Chain) : AnswersDecoders (execRlReset c s) := by
  cases c
  · exact (h.setRlT (decTOk_reset _)).answerReply _
  · exact (h.setRlS (decSOk_reset _)).answerReply _

/-- Every operation keeps the decoders' invariants. -/
theorem DecodersOk.exec (h : DecodersOk s) (i : Instr) : AnswersDecoders (exec i s) := by
  cases i with
  | reset => exact h.execReset
  | cfgLoad w => exact h.execCfgLoad w
  | chunk => exact h.execChunk
  | endStream k => exact h.execEndStream k
  | tsGet => exact (h.setIo _).answerReply _
  | firStep f x => exact h.execFirStep f x
  | iirStep c x => exact (h.setT2 ..).answerReply _
  | ppfStep c ch x => exact (h.setFront ..).answerReply _
  | mavgStep c ch x => exact (h.setFront ..).answerReply _
  | dcrem i q => exact h.answerReply _
  | fsplit i q => exact DecodersOk.answer (h.of_ch rfl rfl rfl)
  | feLpf c i q => exact (h.runFeLpf c (i, q)).answerReply _
  | decim => exact h.runDecim.answerReply _
  | sampleStep i q => exact (h.sampleStep i q).answerReply _
  | pdiscExact c i q => exact (h.setFront ..).answerReply _
  | pdiscFull c i q => exact (h.setFront ..).answerReply _
  | pdiscRestr c i q => exact (h.setFront ..).answerReply _
  | pdiscSign c i q => exact (h.setFront ..).answerReply _
  | postlpf c x => exact (h.setFront ..).answerReply _
  | dcblock c x => exact (h.setFront ..).answerReply _
  | slice c d => exact h.answerReply _
  | rssi c i q => exact (h.setFront ..).answerReply _
  | demodStep c i q => exact (h.demodStep c i q).answerReply _
  | acorr c a b r => exact (h.setSyncSr c a _).answerReply _
  | t2Step c tok => exact h.execT2Step c tok
  | deglitch c r => exact h.execDeglitch c r
  | rlStep tok => exact (h.runRl .T tok).answerReply _
  | rlRun level run r => exact ((h.setRlT (rlRun_decTOk h.lengths (h.t .RL) ..)).setIo _).answerReply _
  | rlReset c => exact h.execRlReset c
  | rls1Step tok => exact (h.runRl .S tok).answerReply _
  | rls1Run level run r => exact ((h.setRlS (rls1Run_decSOk h.lengths (h.s .RL) ..)).setIo _).answerReply _
  | t1c1Bit a tok => exact h.answerFinishT (t1c1Bit_ok _ _ _ (h.t a) h.lengths)
  | t1c1Idle a tok => exact h.runHandlerT fun hst => decTOk_idle _ (h.t a) hst
  | t1c1Lfield a tok => exact h.runHandlerT fun hst => decTOk_lfield _ _ _ (h.t a) hst h.lengths
  | t1c1C1trailer a tok => exact h.runHandlerT fun hst => decTOk_trailer _ _ _ (h.t a) hst
  | t1c1C1len a tok => exact h.runHandlerT fun hst => decTOk_c1len _ _ _ (h.t a) hst h.lengths
  | t1c1DataT1 a tok => exact h.runHandlerT fun hst => decTOk_dataT1 _ _ _ (h.t a) hst
  | t1c1DataC1 a tok => exact h.runHandlerT fun hst => decTOk_dataC1 _ _ _ (h.t a) hst
  | t1c1Done a tok => exact h.runHandlerT fun hst => absurd hst (h.t a).notDone
  | decReset c a => exact (h.resetDec c a).answerReply _
  | s1Bit a tok => exact h.answerFinishS (s1Bit_ok _ _ _ (h.s a) h.lengths)
  | s1Idle a tok => exact h.runHandlerS fun hst => decSOk_idle _ (h.s a) hst
  | s1Len a tok => exact h.runHandlerS fun hst => decSOk_len _ _ _ (h.s a) hst h.lengths
  | s1Data a tok => exact h.runHandlerS fun hst => decSOk_data _ _ _ (h.s a) hst
  | s1Done a tok => exact h.runHandlerS fun hst => absurd hst (h.s a).notDone
  | crc16 bytes => exact h.answerReply _
  | crcchkA t => exact h.answerReply _
  | crcchkB t => exact h.answerReply _
  | stripA t => exact h.answerReply _
  | stripB t => exact h.answerReply _
  | serial p => exact h.answerReply _
  | emit c a mode => exact (h.setIo _).answerReply _

end

/-! ### The obligation -/

/-- Settles O54: the decoders do not look at the request stream, and every operation keeps their invariants. -/
theorem decodersKept : Obligations.DecodersKept := by
  intro s t hs hstep
  unfold step at hstep
  split at hstep
  · next i rest _ =>
    have hrest : DecodersOk { s with ops := rest } := hs.of_ch rfl rfl rfl
    exact hrest.exec i t hstep
  · cases hstep

end Sys2Proof.Machine
end

section
/-! PROOFS. The handlers of the frame decoders (44_frame_decoders.md rules R260 to R274). Each handler is first stated
as one equation per case of its field (`t1c1Lfield_of_collect`, `t1c1Lfield_of_mode`, …), the word of a completed field
being named `v`; the obligations are read off these equations. -/

namespace Sys2Proof.Machine

open Sys2Proof

/-! ### Running one handler -/

theorem runHandlerT_of_st {s : State} {a : Syn} {st : StT} {r : DecT × Io} (hst : (s.chT.dec a).st = st) :
    runHandlerT s a st r = .next (finishT s a r) :=
  if_pos hst

theorem runHandlerS_of_st {s : State} {a : Syn} {st : StS} {r : DecS × Io} (hst : (s.chS.dec a).st = st) :
    runHandlerS s a st r = .next (finishS s a r) :=
  if_pos hst

/-- A handler that hands out no record. -/
theorem runHandlerT_of_out {s : State} {a : Syn} {st : StT} {r : DecT × Io} (hst : (s.chT.dec a).st = st)
    (hout : r.2.out = s.io.out) :
    runHandlerT s a st r = .next ({ s with chT := s.chT.setDec a r.1, io := r.2 }.reply []) := by
  rw [runHandlerT_of_st hst, finishT_of_out s a r hout]

/-- A handler that hands out no record. -/
theorem runHandlerS_of_out {s : State} {a : Syn} {st : StS} {r : DecS × Io} (hst : (s.chS.dec a).st = st)
    (hout : r.2.out = s.io.out) :
    runHandlerS s a st r = .next ({ s with chS := s.chS.setDec a r.1, io := r.2 }.reply []) := by
  rw [runHandlerS_of_st hst, finishS_of_out s a r hout]

/-- A counter that has reached a constant of its width. -/
theorem not_cnt_lt {c : BitVec 4} {n : Nat} (hn : n < 16) (h : n ≤ c.toNat) : ¬ c < BitVec.ofNat 4 n := by
  rw [cnt_lt c n hn]
  omega

/-- A length outside 3..`CAP` raises `EV_CAP` (60_exceptions.md rule R360). -/
theorem lengthRefused_eq_true_iff {par : Par} {n : Nat} : lengthRefused par n = true ↔ n < 3 ∨ par.cap < n := by
  simp [lengthRefused]

/-! ### `DEC.RESET` (44_frame_decoders.md rule R269) -/

/-- Settles O45. -/
theorem decResetIdles : Obligations.DecResetIdles := fun _ _ => ⟨rfl, rfl⟩

/-! ### `T1C1.IDLE` and `S1.IDLE` (44_frame_decoders.md rules R262 and R271) -/

theorem t1c1Idle_of_pre {d : DecT} {bit : BitTok} (h : bit.pre = true) :
    t1c1Idle d bit = { d with rssiPre := bit.rssi, cnt := 0, reg := 0, st := .lfield } :=
  if_pos h

theorem t1c1Idle_of_not_pre {d : DecT} {bit : BitTok} (h : ¬ bit.pre = true) : t1c1Idle d bit = d := if_neg h

theorem s1Idle_of_pre {d : DecS} {bit : BitTok} (h : bit.pre = true) :
    s1Idle d bit = { d with rssiPre := bit.rssi, cnt := 0, reg := 0, half := false, st := .len } :=
  if_pos h

theorem s1Idle_of_not_pre {d : DecS} {bit : BitTok} (h : ¬ bit.pre = true) : s1Idle d bit = d := if_neg h

/-- Settles O38: the bit is flagged, or it is not. -/
theorem idleHandlers : Obligations.IdleHandlers := by
  refine ⟨fun s a tok hst => ?_, fun s a tok hst => ?_⟩
  · have hexec : exec (.t1c1Idle a tok) s = _ := runHandlerT_of_out (r := (t1c1Idle _ tok, s.io)) hst rfl
    rw [hexec]
    split
    · next hpre => rw [t1c1Idle_of_pre hpre]
    · next hpre => rw [t1c1Idle_of_not_pre hpre, ChainT.setDec_self]
  · have hexec : exec (.s1Idle a tok) s = _ := runHandlerS_of_out (r := (s1Idle _ tok, s.io)) hst rfl
    rw [hexec]
    split
    · next hpre => rw [s1Idle_of_pre hpre]
    · next hpre => rw [s1Idle_of_not_pre hpre, ChainS.setDec_self]

/-! ### `T1C1.BIT` and `S1.BIT` (44_frame_decoders.md rules R260, R261 and R270) -/

/-- The RSSI pre-check discards the telegram in progress (60_exceptions.md rule R357). -/
theorem t1c1Bit_of_low {par : Par} {d : DecT} {bit : BitTok} (a : Syn) (io : Io)
    (h : d.st ≠ .idle ∧ bit.rssi < par.rssiTh.t) :
    t1c1Bit par a d bit io = (decTReset, io.note (eventT .rssi a d)) := by
  have hlow : rssiLow par .T bit = true := decide_eq_true h.2
  rw [t1c1Bit, hlow, decide_eq_false h.1]
  rfl

theorem t1c1Bit_of_not_low {par : Par} {d : DecT} {bit : BitTok} (a : Syn) (io : Io)
    (h : ¬ (d.st ≠ .idle ∧ bit.rssi < par.rssiTh.t)) : t1c1Bit par a d bit io = t1c1Handler par a d bit io := by
  by_cases hst : d.st = .idle
  · rw [t1c1Bit, decide_eq_true hst]
    rfl
  · exact t1c1Bit_of_strong a io fun hlow => h ⟨hst, hlow⟩

/-- The RSSI pre-check discards the telegram in progress (60_exceptions.md rule R357). -/
theorem s1Bit_of_low {par : Par} {d : DecS} {bit : BitTok} (a : Syn) (io : Io)
    (h : d.st ≠ .idle ∧ bit.rssi < par.rssiTh.s) : s1Bit par a d bit io = (decSReset, io.note (eventS .rssi a d)) := by
  have hlow : rssiLow par .S bit = true := decide_eq_true h.2
  rw [s1Bit, hlow, decide_eq_false h.1]
  rfl

theorem s1Bit_of_not_low {par : Par} {d : DecS} {bit : BitTok} (a : Syn) (io : Io)
    (h : ¬ (d.st ≠ .idle ∧ bit.rssi < par.rssiTh.s)) : s1Bit par a d bit io = s1Handler par a d bit io := by
  by_cases hst : d.st = .idle
  · rw [s1Bit, decide_eq_true hst]
    rfl
  · exact s1Bit_of_strong a io fun hlow => h ⟨hst, hlow⟩

theorem exec_t1c1Bit (s : State) (a : Syn) (tok : BitTok) :
    exec (.t1c1Bit a tok) s = .next (finishT s a (t1c1Bit s.par a (s.chT.dec a) tok s.io)) := rfl

theorem exec_s1Bit (s : State) (a : Syn) (tok : BitTok) :
    exec (.s1Bit a tok) s = .next (finishS s a (s1Bit s.par a (s.chS.dec a) tok s.io)) := rfl

/-- Settles O37: the pre-check discards, or the bit goes to the handler that the state selects. -/
theorem bitDispatch : Obligations.BitDispatch := by
  refine ⟨fun s a tok _ => ?_, fun s a tok _ => ?_⟩
  · rw [exec_t1c1Bit, exec_handlerT]
    split
    · next hlow => rw [t1c1Bit_of_low a s.io hlow, finishT_of_out _ _ _ rfl]
    · next hlow => exact ⟨_, rfl, by rw [t1c1Bit_of_not_low a s.io hlow]⟩
  · rw [exec_s1Bit, exec_handlerS]
    split
    · next hlow => rw [s1Bit_of_low a s.io hlow, finishS_of_out _ _ _ rfl]
    · next hlow => exact ⟨_, rfl, by rw [s1Bit_of_not_low a s.io hlow]⟩

/-! ### `T1C1.LFIELD` (44_frame_decoders.md rule R263) -/

section
variable {par : Par} {a : Syn} {d : DecT} {bit : BitTok} {io : Io} {v : BitVec 12}

theorem t1c1Lfield_of_collect (hv : shiftIn d.reg bit.b = v) (hcnt : d.cnt.toNat < 11) :
    t1c1Lfield par a d bit io = (collectT d v, io) := by
  subst hv
  exact if_pos ((cnt_lt _ 11 (by decide)).mpr hcnt)

/-- The twelfth bit makes a mode word of the field. -/
theorem t1c1Lfield_of_mode (hv : shiftIn d.reg bit.b = v) (hcnt : 11 ≤ d.cnt.toNat) (hmode : isC1Word par v = true) :
    t1c1Lfield par a d bit io =
      ({ endFieldT d with isC1 := true, isB := isBWord par v, st := .c1Trailer }, io) := by
  subst hv
  exact (if_neg (not_cnt_lt (n := 11) (by decide) hcnt)).trans (if_pos hmode)

/-- The twelfth bit leaves a field with an invalid codeword (60_exceptions.md rule R355). -/
theorem t1c1Lfield_of_invalid (hv : shiftIn d.reg bit.b = v) (hcnt : 11 ≤ d.cnt.toNat) (hmode : ¬ isC1Word par v = true)
    (hinv : dec3of6 par (hiCode v) = none ∨ dec3of6 par (loCode v) = none) :
    t1c1Lfield par a d bit io = (decTReset, io.note (eventT .lfield a d)) := by
  have h11 : ¬ d.cnt < 11 := not_cnt_lt (n := 11) (by decide) hcnt
  rw [t1c1Lfield, hv]
  dsimp only
  rw [if_neg h11, if_neg hmode]
  rcases hinv with hhi | hlo
  · rw [hhi]
    rfl
  · rw [hlo]
    cases dec3of6 par (hiCode v) <;> rfl

/-- The twelfth bit makes two valid codewords of the field, whose length is accepted or not. -/
theorem t1c1Lfield_of_valid {hi lo : BitVec 4} {l : Byte} {t : Nat} (hv : shiftIn d.reg bit.b = v)
    (hcnt : 11 ≤ d.cnt.toNat) (hmode : ¬ isC1Word par v = true) (hhi : dec3of6 par (hiCode v) = some hi)
    (hlo : dec3of6 par (loCode v) = some lo) (hl : hi ++ lo = l) (ht : lenA par l = t) :
    t1c1Lfield par a d bit io =
      if lengthRefused par t then (decTReset, io.note (eventT .cap a d))
      else (beginDataT (endFieldT d) l t .dataT1, io) := by
  subst hl ht
  have h11 : ¬ d.cnt < 11 := not_cnt_lt (n := 11) (by decide) hcnt
  rw [t1c1Lfield, hv]
  dsimp only
  rw [if_neg h11, if_neg hmode, hhi, hlo]
  rfl

end

theorem isC1Word_iff {par : Par} {v : BitVec 12} : isC1Word par v = true ↔ v = par.c1ModeA ∨ v = par.c1ModeB := by
  simp [isC1Word]

/-- Mode A is compared first. -/
theorem isBWord_modeA (par : Par) : isBWord par par.c1ModeA = false := by simp [isBWord]

theorem isBWord_modeB {par : Par} (h : par.c1ModeB ≠ par.c1ModeA) : isBWord par par.c1ModeB = true := by
  simp [isBWord, h]

/-- Settles O39, clause by clause: a bit short of the field, mode word A, mode word B, an invalid codeword, two valid
ones. -/
theorem lfieldHandler : Obligations.LfieldHandler := by
  rintro s a tok d v rfl hst hv
  have hword : shiftIn (s.chT.dec a).reg tok.b = v := by rw [shiftIn_eq_ofNat, hv]
  refine ⟨(t1c1Lfield s.par a (s.chT.dec a) tok s.io).1, (t1c1Lfield s.par a (s.chT.dec a) tok s.io).2,
    runHandlerT_of_out hst (t1c1Lfield_io ..).1, fun hcnt => ?_, ?_, ?_, fun hcnt hA hB hinv => ?_,
    fun hcnt hA hB hi lo l t hhi hlo hl ht => ?_⟩
  · rw [t1c1Lfield_of_collect hword hcnt]
    exact ⟨rfl, rfl⟩
  · rintro hcnt rfl
    rw [t1c1Lfield_of_mode hword hcnt (isC1Word_iff.mpr (.inl rfl)), isBWord_modeA]
    exact ⟨rfl, rfl⟩
  · rintro hcnt hA rfl
    rw [t1c1Lfield_of_mode hword hcnt (isC1Word_iff.mpr (.inr rfl)), isBWord_modeB hA]
    exact ⟨rfl, rfl⟩
  · have hmode : ¬ isC1Word s.par v = true := fun h => (isC1Word_iff.mp h).elim hA hB
    rw [← dec3of6_hiCode, ← dec3of6_loCode] at hinv
    rw [t1c1Lfield_of_invalid hword hcnt hmode hinv]
    exact ⟨rfl, rfl⟩
  · have hmode : ¬ isC1Word s.par v = true := fun h => (isC1Word_iff.mp h).elim hA hB
    rw [← dec3of6_hiCode] at hhi
    rw [← dec3of6_loCode] at hlo
    rw [← nibbles_eq] at hl
    rw [t1c1Lfield_of_valid hword hcnt hmode hhi hlo hl.symm ht.symm]
    refine ⟨fun hrefused => ?_, fun h3 hcap => ?_⟩
    · rw [if_pos (lengthRefused_eq_true_iff.mpr hrefused)]
      exact ⟨rfl, rfl⟩
    · rw [lengthRefused_eq_false_iff.mpr ⟨h3, hcap⟩]
      exact ⟨rfl, rfl⟩

/-! ### `T1C1.C1TRAILER` (44_frame_decoders.md rule R264) -/

section
variable {par : Par} {a : Syn} {d : DecT} {bit : BitTok} {io : Io} {v : BitVec 4}

theorem t1c1C1trailer_of_collect (hv : shiftIn (d.reg.setWidth 4) bit.b = v) (hcnt : d.cnt.toNat < 3) :
    t1c1C1trailer par a d bit io = (collectT d (v.setWidth 12), io) := by
  subst hv
  exact if_pos ((cnt_lt _ 3 (by decide)).mpr hcnt)

/-- The fourth bit ends the trailer, which is the constant or is not (60_exceptions.md rule R356). -/
theorem t1c1C1trailer_of_full (hv : shiftIn (d.reg.setWidth 4) bit.b = v) (hcnt : 3 ≤ d.cnt.toNat) :
    t1c1C1trailer par a d bit io =
      if v = par.c1Trailer then ({ endFieldT d with st := .c1Len }, io)
      else (decTReset, io.note (eventT .trailer a d)) := by
  subst hv
  exact if_neg (not_cnt_lt (n := 3) (by decide) hcnt)

end

/-! ### `T1C1.C1LEN` (44_frame_decoders.md rule R265) -/

section
variable {par : Par} {a : Syn} {d : DecT} {bit : BitTok} {io : Io} {v : Byte}

theorem t1c1C1len_of_collect (hv : shiftIn (d.reg.setWidth 8) bit.b = v) (hcnt : d.cnt.toNat < 7) :
    t1c1C1len par a d bit io = (collectT d (v.setWidth 12), io) := by
  subst hv
  exact if_pos ((cnt_lt _ 7 (by decide)).mpr hcnt)

/-- The eighth bit ends the length field, whose length is accepted or not. -/
theorem t1c1C1len_of_full {t : Nat} (hv : shiftIn (d.reg.setWidth 8) bit.b = v) (hcnt : 7 ≤ d.cnt.toNat)
    (ht : c1Total par d.isB v = t) :
    t1c1C1len par a d bit io =
      if lengthRefused par t then (decTReset, io.note (eventT .cap a d))
      else (beginDataT (endFieldT d) v t .dataC1, io) := by
  subst hv ht
  exact if_neg (not_cnt_lt (n := 7) (by decide) hcnt)

end

/-- Settles O40: the trailer, then the length field. -/
theorem c1HeaderHandlers : Obligations.C1HeaderHandlers := by
  refine ⟨?_, ?_⟩
  · rintro s a tok d v rfl hst hv
    have hword : shiftIn ((s.chT.dec a).reg.setWidth 4) tok.b = v := by rw [shiftIn_setWidth, hv]
    refine ⟨(t1c1C1trailer s.par a (s.chT.dec a) tok s.io).1, (t1c1C1trailer s.par a (s.chT.dec a) tok s.io).2,
      runHandlerT_of_out hst (t1c1C1trailer_io ..).1, fun hcnt => ?_, fun hcnt htrailer => ?_,
      fun hcnt htrailer => ?_⟩
    · rw [t1c1C1trailer_of_collect hword hcnt]
      exact ⟨rfl, rfl⟩
    · rw [t1c1C1trailer_of_full hword hcnt, if_pos htrailer]
      exact ⟨rfl, rfl⟩
    · rw [t1c1C1trailer_of_full hword hcnt, if_neg htrailer]
      exact ⟨rfl, rfl⟩
  · rintro s a tok d v t rfl hst hv ht
    have hword : shiftIn ((s.chT.dec a).reg.setWidth 8) tok.b = v := by rw [shiftIn_setWidth, hv]
    have htotal : c1Total s.par (s.chT.dec a).isB v = t := ht.symm
    refine ⟨(t1c1C1len s.par a (s.chT.dec a) tok s.io).1, (t1c1C1len s.par a (s.chT.dec a) tok s.io).2,
      runHandlerT_of_out hst (t1c1C1len_io ..).1, fun hcnt => ?_, fun hcnt hrefused => ?_, fun hcnt h3 hcap => ?_⟩
    · rw [t1c1C1len_of_collect hword hcnt]
      exact ⟨rfl, rfl⟩
    · rw [t1c1C1len_of_full hword hcnt htotal, if_pos (lengthRefused_eq_true_iff.mpr hrefused)]
      exact ⟨rfl, rfl⟩
    · rw [t1c1C1len_of_full hword hcnt htotal, lengthRefused_eq_false_iff.mpr ⟨h3, hcap⟩]
      exact ⟨rfl, rfl⟩

/-! ### `T1C1.DONE` and `S1.DONE` (44_frame_decoders.md rules R268 and R274) -/

/-- The records handed out between two moments, where they are known. -/
theorem newTelegrams_of_append {io io' : Io} {l : List Telegram} (h : io'.out = io.out ++ l) :
    newTelegrams io io' = l.map .telegram := by
  rw [newTelegrams, h, List.drop_left]

/-- The host's side after a completion: one record more, one timestamp more, and `EV_CRC` when the check failed
(60_exceptions.md rule R354). -/
def Io.completed (io : Io) (ok : Bool) (crcEvent : EventRec) (tel : Telegram) : Io where
  out := io.out ++ [tel]
  events := if ok then io.events else io.events ++ [crcEvent]
  tsCount := io.tsCount + 1

/-- What `T1C1.DONE` leaves: the idle decoder, and the record of the stamped one on the host's side. -/
theorem t1c1Done_eq (par : Par) (a : Syn) (d : DecT) (bit : BitTok) (io : Io) :
    t1c1Done par a d bit io = (decTReset, io.completed (doneCrcT par d) (eventT .crc a { d with st := .done })
      (telegramT a (stampT par d bit.rssi io) (doneModeT d))) := by
  unfold t1c1Done
  dsimp only [stampT]
  cases doneCrcT par d <;> rfl

/-- What `S1.DONE` leaves: the idle decoder, and the record of the stamped one on the host's side. -/
theorem s1Done_eq (par : Par) (a : Syn) (d : DecS) (bit : BitTok) (io : Io) :
    s1Done par a d bit io = (decSReset, io.completed (crcchkA par.crcPoly (memBytes d.buf d.total))
      (eventS .crc a { d with st := .done }) (telegramS a (stampS par d bit.rssi io) .S1)) := by
  unfold s1Done
  dsimp only [stampS]
  cases crcchkA par.crcPoly (memBytes d.buf d.total) <;> rfl

/-- The check that completion makes is the operation `CRCCHK.A` or `CRCCHK.B` on the stored telegram. -/
theorem exec_crcchk (s : State) (d : DecT) :
    exec (if d.isB then .crcchkB (memBytes d.buf d.total) else .crcchkA (memBytes d.buf d.total)) s =
      .next (s.reply [.bit (doneCrcT s.par d)]) := by
  rw [doneCrcT]
  split <;> rfl

theorem exec_emit_T {s : State} {a : Syn} {d : DecT} (mode : Mode) (h : s.chT.dec a = d) :
    exec (.emit .T a mode) s = .next ({ s with io := { s.io with out := s.io.out ++ [telegramT a d mode] } }.reply
      [.telegram (telegramT a d mode)]) := by
  subst h
  rfl

theorem exec_emit_S {s : State} {a : Syn} {d : DecS} (mode : Mode) (h : s.chS.dec a = d) :
    exec (.emit .S a mode) s = .next ({ s with io := { s.io with out := s.io.out ++ [telegramS a d mode] } }.reply
      [.telegram (telegramS a d mode)]) := by
  subst h
  rfl

/-- Writing back a decoder that has completed a telegram. -/
theorem finishT_completed (s : State) (a : Syn) (d : DecT) (ok : Bool) (e : EventRec) (tel : Telegram) :
    finishT s a (d, s.io.completed ok e tel) =
      { s with chT := s.chT.setDec a d, io := s.io.completed ok e tel }.reply [.telegram tel] := by
  rw [finishT, newTelegrams_of_append (l := [tel]) rfl]
  rfl

/-- Writing back a decoder that has completed a telegram. -/
theorem finishS_completed (s : State) (a : Syn) (d : DecS) (ok : Bool) (e : EventRec) (tel : Telegram) :
    finishS s a (d, s.io.completed ok e tel) =
      { s with chS := s.chS.setDec a d, io := s.io.completed ok e tel }.reply [.telegram tel] := by
  rw [finishS, newTelegrams_of_append (l := [tel]) rfl]
  rfl

/-- Settles O44: the check, the record of the stamped decoder, the completion, for either kind of decoder. -/
theorem doneHandlers : Obligations.DoneHandlers := by
  refine ⟨?_, ?_⟩
  · rintro s a tok d rfl hst
    have hdone : { s.chT.dec a with st := .done } = s.chT.dec a := by rw [← hst]
    refine ⟨_, telegramT a (stampT s.par (s.chT.dec a) tok.rssi s.io) (doneModeT (s.chT.dec a)),
      exec_crcchk s (s.chT.dec a), ?_, ?_⟩
    · rintro u rfl
      exact exec_emit_T _ ((ChainT.setDec_dec ..).trans (by rw [stampT, ← hst]; rfl))
    · have hexec : exec (.t1c1Done a tok) s = _ := runHandlerT_of_st hst
      rw [hexec, t1c1Done_eq, finishT_completed, hdone]
      rfl
  · rintro s a tok d rfl hst
    have hdone : { s.chS.dec a with st := .done } = s.chS.dec a := by rw [← hst]
    refine ⟨_, telegramS a (stampS s.par (s.chS.dec a) tok.rssi s.io) .S1, rfl, ?_, ?_⟩
    · rintro u rfl
      exact exec_emit_S _ ((ChainS.setDec_dec ..).trans (by rw [stampS, ← hst]; rfl))
    · have hexec : exec (.s1Done a tok) s = _ := runHandlerS_of_st hst
      rw [hexec, s1Done_eq, finishS_completed, hdone]
      rfl

/-! ### A payload byte (44_frame_decoders.md rules R266, R267 and R273) -/

theorem payloadT_of_more {par : Par} {a : Syn} {d : DecT} {v : Byte} {bit : BitTok} {io : Io} (hcap : d.len < par.cap)
    (hmore : d.len + 1 ≠ d.total) : payloadT par a d v bit io = (storeT d v, io) := by
  rw [payloadT, if_neg (by omega), if_neg hmore]

theorem payloadT_of_last {par : Par} {a : Syn} {d : DecT} {v : Byte} {bit : BitTok} {io : Io} (hcap : d.len < par.cap)
    (hlast : d.len + 1 = d.total) : payloadT par a d v bit io = t1c1Done par a (storeT d v) bit io := by
  rw [payloadT, if_neg (by omega), if_pos hlast]

theorem payloadS_of_more {par : Par} {a : Syn} {d : DecS} {v : Byte} {bit : BitTok} {io : Io} (hcap : d.len < par.cap)
    (hmore : d.len + 1 ≠ d.total) : payloadS par a d v bit io = (storeS d v, io) := by
  rw [payloadS, if_neg (by omega), if_neg hmore]

theorem payloadS_of_last {par : Par} {a : Syn} {d : DecS} {v : Byte} {bit : BitTok} {io : Io} (hcap : d.len < par.cap)
    (hlast : d.len + 1 = d.total) : payloadS par a d v bit io = s1Done par a (storeS d v) bit io := by
  rw [payloadS, if_neg (by omega), if_pos hlast]

/-- `T1C1.DONE` asked for after the decoder was written, no record handed out in between: it leaves what the handler
that wrote the decoder leaves when it completes the telegram itself. -/
theorem exec_t1c1Done_of_written (s : State) (a : Syn) (tok : BitTok) (d : DecT) {io : Io} (hout : io.out = s.io.out) :
    exec (.t1c1Done a tok) { s with chT := s.chT.setDec a { d with st := .done }, io := io } =
      .next (finishT s a (t1c1Done s.par a d tok io)) := by
  have hdec := ChainT.setDec_dec s.chT a { d with st := .done }
  have hexec : exec (.t1c1Done a tok) { s with chT := s.chT.setDec a { d with st := .done }, io := io } = _ :=
    runHandlerT_of_st (congrArg DecT.st hdec)
  rw [hexec]
  dsimp only
  rw [hdec, t1c1Done_st]
  simp only [finishT, newTelegrams, hout, ChainT.setDec_setDec]
  rfl

/-- `S1.DONE` asked for after the decoder was written: see `exec_t1c1Done_of_written`. -/
theorem exec_s1Done_of_written (s : State) (a : Syn) (tok : BitTok) (d : DecS) {io : Io} (hout : io.out = s.io.out) :
    exec (.s1Done a tok) { s with chS := s.chS.setDec a { d with st := .done }, io := io } =
      .next (finishS s a (s1Done s.par a d tok io)) := by
  have hdec := ChainS.setDec_dec s.chS a { d with st := .done }
  have hexec : exec (.s1Done a tok) { s with chS := s.chS.setDec a { d with st := .done }, io := io } = _ :=
    runHandlerS_of_st (congrArg DecS.st hdec)
  rw [hexec]
  dsimp only
  rw [hdec, s1Done_st]
  simp only [finishS, newTelegrams, hout, ChainS.setDec_setDec]
  rfl

/-- `EV_SYMBOL` is recorded or not; no record is handed out. -/
theorem noteIf_out (b : Bool) (io : Io) (e : EventRec) : (if b then io.note e else io).out = io.out := by
  cases b <;> rfl

/-! ### `T1C1.DATA_T1` (44_frame_decoders.md rule R266) -/

section
variable {par : Par} {a : Syn} {d : DecT} {bit : BitTok} {io : Io} {v : BitVec 12}

theorem t1c1DataT1_of_collect (hv : shiftIn d.reg bit.b = v) (hcnt : d.cnt.toNat < 11) :
    t1c1DataT1 par a d bit io = (collectT d v, io) := by
  subst hv
  exact if_pos ((cnt_lt _ 11 (by decide)).mpr hcnt)

/-- The twelfth bit makes a payload byte of the field. -/
theorem t1c1DataT1_of_full (hv : shiftIn d.reg bit.b = v) (hcnt : 11 ≤ d.cnt.toNat) :
    t1c1DataT1 par a d bit io =
      payloadT par a { endFieldT d with symErr := d.symErr || t1Invalid par v } (t1Byte par v) bit
        (if t1Invalid par v then io.note (eventT .symbol a d) else io) := by
  subst hv
  exact if_neg (not_cnt_lt (n := 11) (by decide) hcnt)

end

/-! ### `T1C1.DATA_C1` (44_frame_decoders.md rule R267) -/

section
variable {par : Par} {a : Syn} {d : DecT} {bit : BitTok} {io : Io} {v : Byte}

theorem t1c1DataC1_of_collect (hv : shiftIn (d.reg.setWidth 8) bit.b = v) (hcnt : d.cnt.toNat < 7) :
    t1c1DataC1 par a d bit io = (collectT d (v.setWidth 12), io) := by
  subst hv
  exact if_pos ((cnt_lt _ 7 (by decide)).mpr hcnt)

/-- The eighth bit makes a payload byte of the field. -/
theorem t1c1DataC1_of_full (hv : shiftIn (d.reg.setWidth 8) bit.b = v) (hcnt : 7 ≤ d.cnt.toNat) :
    t1c1DataC1 par a d bit io = payloadT par a (endFieldT d) v bit io := by
  subst hv
  exact if_neg (not_cnt_lt (n := 7) (by decide) hcnt)

end

/-- Settles O41: in either data state the bit is collected, or it ends a byte that is not the last, or the last byte. -/
theorem dataHandlersT : Obligations.DataHandlersT := by
  refine ⟨?_, ?_⟩
  · rintro s a tok d d1 v hi lo byte io1 rfl hst hcap hv rfl rfl hbyte rfl rfl
    have hword : shiftIn (s.chT.dec a).reg tok.b = v := by rw [shiftIn_eq_ofNat, hv]
    have hexec : exec (.t1c1DataT1 a tok) s = runHandlerT s a .dataT1 (t1c1DataT1 s.par a (s.chT.dec a) tok s.io) := rfl
    rw [← dec3of6_hiCode, ← dec3of6_loCode] at hbyte ⊢
    rw [← nibbles_eq] at hbyte
    subst hbyte
    rw [hexec, Bool.or_assoc]
    refine ⟨fun hcnt => ?_, fun hcnt hmore => ?_, fun hcnt hlast => ?_⟩
    · rw [t1c1DataT1_of_collect hword hcnt]
      exact runHandlerT_of_out hst rfl
    · rw [(t1c1DataT1_of_full hword hcnt).trans (payloadT_of_more hcap hmore)]
      exact runHandlerT_of_out hst (noteIf_out ..)
    · refine ⟨_, exec_t1c1Done_of_written s a tok _ (noteIf_out ..), ?_⟩
      rw [(t1c1DataT1_of_full hword hcnt).trans (payloadT_of_last hcap hlast)]
      exact runHandlerT_of_st hst
  · rintro s a tok d d1 v rfl hst hcap hv rfl
    have hword : shiftIn ((s.chT.dec a).reg.setWidth 8) tok.b = v := by rw [shiftIn_setWidth, hv]
    have hexec : exec (.t1c1DataC1 a tok) s = runHandlerT s a .dataC1 (t1c1DataC1 s.par a (s.chT.dec a) tok s.io) := rfl
    rw [hexec]
    refine ⟨fun hcnt => ?_, fun hcnt hmore => ?_, fun hcnt hlast => ?_⟩
    · rw [t1c1DataC1_of_collect hword hcnt]
      exact runHandlerT_of_out hst rfl
    · rw [(t1c1DataC1_of_full hword hcnt).trans (payloadT_of_more hcap hmore)]
      exact runHandlerT_of_out hst rfl
    · refine ⟨_, exec_t1c1Done_of_written s a tok _ (io := s.io) rfl, ?_⟩
      rw [(t1c1DataC1_of_full hword hcnt).trans (payloadT_of_last hcap hlast)]
      exact runHandlerT_of_st hst

/-! ### `S1.LEN` (44_frame_decoders.md rule R272) -/

/-- The second bit of a Manchester pair comes at an odd count. -/
theorem not_pairOpens {d : DecS} (h : d.cnt.toNat % 2 = 1) : ¬ pairOpens d = true := by
  rw [pairOpens_iff]
  omega

section
variable {par : Par} {a : Syn} {d : DecS} {bit : BitTok} {io : Io}

theorem s1Len_of_opens (h : d.cnt.toNat % 2 = 0) : s1Len par a d bit io = (openPair d bit.b, io) :=
  if_pos ((pairOpens_iff d).mpr h)

/-- An invalid pair discards the capture (60_exceptions.md rule R355). -/
theorem s1Len_of_invalid (h : d.cnt.toNat % 2 = 1) (hm : manch par d.half bit.b = none) :
    s1Len par a d bit io = (decSReset, io.note (eventS .lfield a d)) := by
  rw [s1Len, if_neg (not_pairOpens h), hm]
  rfl

theorem s1Len_of_collect {m : Bool} {v : Byte} (h : d.cnt.toNat % 2 = 1) (hm : manch par d.half bit.b = some m)
    (hv : shiftIn d.reg m = v) (hcnt : d.cnt.toNat < 15) : s1Len par a d bit io = (collectS d v, io) := by
  subst hv
  rw [s1Len, if_neg (not_pairOpens h), hm]
  exact if_pos ((cnt_lt _ 15 (by decide)).mpr hcnt)

/-- The eighth pair ends the length field, whose length is accepted or not. -/
theorem s1Len_of_full {m : Bool} {v : Byte} {t : Nat} (hcnt : d.cnt.toNat = 15) (hm : manch par d.half bit.b = some m)
    (hv : shiftIn d.reg m = v) (ht : lenA par v = t) :
    s1Len par a d bit io =
      if lengthRefused par t then (decSReset, io.note (eventS .cap a d))
      else ({ endFieldS d with L := v, total := t, buf := memWrite d.buf 0 v, len := 1, st := .data }, io) := by
  subst hv ht
  rw [s1Len, if_neg (not_pairOpens (by omega)), hm]
  exact if_neg (not_cnt_lt (n := 15) (by decide) hcnt.ge)

end

/-- Settles O42, clause by clause: the first bit of a pair, the second of an invalid one, the second of a valid one. -/
theorem s1LenHandler : Obligations.S1LenHandler := by
  rintro s a tok d rfl hst
  refine ⟨(s1Len s.par a (s.chS.dec a) tok s.io).1, (s1Len s.par a (s.chS.dec a) tok s.io).2,
    runHandlerS_of_out hst (s1Len_io ..).1, fun heven => ?_, fun hodd hinv => ?_, fun m v t hodd hm hv ht => ?_⟩
  · rw [s1Len_of_opens heven]
    exact ⟨rfl, rfl⟩
  · rw [s1Len_of_invalid hodd hinv]
    exact ⟨rfl, rfl⟩
  · rw [← shiftIn_eq_ofNat] at hv
    refine ⟨fun hcnt => ?_, fun hcnt hrefused => ?_, fun hcnt h3 hcap => ?_⟩
    · rw [s1Len_of_collect hodd hm hv.symm hcnt]
      exact ⟨rfl, rfl⟩
    · rw [s1Len_of_full hcnt hm hv.symm ht.symm, if_pos (lengthRefused_eq_true_iff.mpr hrefused)]
      exact ⟨rfl, rfl⟩
    · rw [s1Len_of_full hcnt hm hv.symm ht.symm, lengthRefused_eq_false_iff.mpr ⟨h3, hcap⟩]
      exact ⟨rfl, rfl⟩

/-! ### `S1.DATA` (44_frame_decoders.md rule R273) -/

section
variable {par : Par} {a : Syn} {d : DecS} {bit : BitTok} {io : Io} {m : Option Bool} {v : Byte}

theorem s1Data_of_opens (h : d.cnt.toNat % 2 = 0) : s1Data par a d bit io = (openPair d bit.b, io) :=
  if_pos ((pairOpens_iff d).mpr h)

/-- The second bit of a pair, valid or not, gives a bit that is collected. -/
theorem s1Data_of_collect (h : d.cnt.toNat % 2 = 1) (hcnt : d.cnt.toNat < 15) (hm : manch par d.half bit.b = m)
    (hv : shiftIn d.reg (m.getD par.substBit) = v) :
    s1Data par a d bit io =
      (collectS { d with symErr := d.symErr || m.isNone } v,
        if m.isNone then io.note (eventS .symbol a d) else io) := by
  subst hm hv
  rw [s1Data, if_neg (not_pairOpens h)]
  exact if_pos ((cnt_lt _ 15 (by decide)).mpr hcnt)

/-- The eighth pair makes a payload byte. -/
theorem s1Data_of_full (hcnt : d.cnt.toNat = 15) (hm : manch par d.half bit.b = m)
    (hv : shiftIn d.reg (m.getD par.substBit) = v) :
    s1Data par a d bit io =
      payloadS par a (endFieldS { d with symErr := d.symErr || m.isNone }) v bit
        (if m.isNone then io.note (eventS .symbol a d) else io) := by
  subst hm hv
  rw [s1Data, if_neg (not_pairOpens (by omega))]
  exact if_neg (not_cnt_lt (n := 15) (by decide) hcnt.ge)

end

/-- Settles O43: the bit opens a pair, or its pair is collected, or it ends a byte that is not the last, or the last
byte. -/
theorem s1DataHandler : Obligations.S1DataHandler := by
  rintro s a tok d d1 m v io1 rfl hst hcap hm hv rfl rfl
  rw [← shiftIn_eq_ofNat] at hv
  have hexec : exec (.s1Data a tok) s = runHandlerS s a .data (s1Data s.par a (s.chS.dec a) tok s.io) := rfl
  rw [hexec]
  refine ⟨fun heven => ?_, fun hodd hcnt => ?_, fun hcnt hmore => ?_, fun hcnt hlast => ?_⟩
  · rw [s1Data_of_opens heven]
    exact runHandlerS_of_out hst rfl
  · rw [s1Data_of_collect hodd hcnt hm.symm hv.symm]
    exact runHandlerS_of_out hst (noteIf_out ..)
  · rw [(s1Data_of_full hcnt hm.symm hv.symm).trans (payloadS_of_more hcap hmore)]
    exact runHandlerS_of_out hst (noteIf_out ..)
  · refine ⟨_, exec_s1Done_of_written s a tok (storeS (endFieldS { s.chS.dec a with symErr := _ }) v) (noteIf_out ..),
      ?_⟩
    rw [(s1Data_of_full hcnt hm.symm hv.symm).trans (payloadS_of_last hcap hlast)]
    exact runHandlerS_of_st hst

end Sys2Proof.Machine
end

section
/-! PROOFS. What one bit can do to a decoder (44_frame_decoders.md rule R275): it moves the state forward or to idle,
and it hands out a record exactly when it stores the last byte. `BitEffect` is that statement for either kind of decoder;
each handler is shown to meet it. -/

namespace Sys2Proof.Machine

open Sys2Proof

/-! ### The effect of a bit -/

/-- What one bit leaves of a decoder and of the host's side: the decoder has moved as `Moves` allows; a record is handed
out, and the decoder is idle, when the bit is the `last` of the telegram, and no record when it is not. -/
structure BitEffect {δ : Type} (idle : δ) (Moves : δ → Prop) (last : Prop) (io : Io) (p : δ × Io) : Prop where
  moves : Moves p.1
  record : ¬ last ∧ p.2.out = io.out ∨ last ∧ p.1 = idle ∧ ∃ x, p.2.out = io.out ++ [x]

section
variable {δ : Type} {idle : δ} {Moves : δ → Prop} {last : Prop} {io : Io} {p : δ × Io}

theorem BitEffect.out (h : BitEffect idle Moves last io p) : p.2.out = io.out ∨ ∃ x, p.2.out = io.out ++ [x] :=
  h.record.imp And.right fun ⟨_, _, hout⟩ => hout

theorem BitEffect.out_ne_iff (h : BitEffect idle Moves last io p) : p.2.out ≠ io.out ↔ last := by
  rcases h.record with ⟨hlast, hout⟩ | ⟨hlast, -, x, hout⟩
  · simp [hlast, hout]
  · simp [hlast, hout]

theorem BitEffect.idle_of_out_ne (h : BitEffect idle Moves last io p) (hne : p.2.out ≠ io.out) : p.1 = idle := by
  rcases h.record with ⟨-, hout⟩ | ⟨-, hidle, -⟩
  · exact absurd hout hne
  · exact hidle

end

/-! ### T1/C1 decoders -/

/-- The transitions of a T1/C1 decoder under one bit; from idle it leaves on a flagged bit only. -/
def MovesT (d : DecT) (bit : BitTok) (d' : DecT) : Prop :=
  (d'.st = .idle ∨ (d'.st = d.st ∧ d.st ≠ .idle) ∨
    (d.st, d'.st) ∈ [(StT.idle, StT.lfield), (.lfield, .c1Trailer), (.lfield, .dataT1), (.c1Trailer, .c1Len),
      (.c1Len, .dataC1)]) ∧
  (d.st = .idle → (d'.st = .lfield ↔ bit.pre = true))

/-- The bit that completes the last byte of a T1/C1 telegram. -/
def LastBitT (par : Par) (d : DecT) (bit : BitTok) : Prop :=
  ¬ bit.rssi < par.rssiTh.t ∧ d.len + 1 = d.total ∧
    (d.st = .dataT1 ∧ d.cnt.toNat = 11 ∨ d.st = .dataC1 ∧ d.cnt.toNat = 7)

/-- `BitEffect` of a T1/C1 decoder. -/
abbrev BitEffectT (par : Par) (d : DecT) (bit : BitTok) (io : Io) (p : DecT × Io) : Prop :=
  BitEffect decTReset (MovesT d bit) (LastBitT par d bit) io p

section
variable {d d' : DecT} {bit : BitTok}

theorem movesT_reset (hst : d.st ≠ .idle) : MovesT d bit decTReset := ⟨.inl rfl, fun hidle => absurd hidle hst⟩

theorem movesT_stay (hst : d.st ≠ .idle) (h : d'.st = d.st) : MovesT d bit d' :=
  ⟨.inr (.inl ⟨h, hst⟩), fun hidle => absurd hidle hst⟩

/-- A decoder in a capture takes one of the steps of the table. -/
theorem movesT_forward {st st' : StT} (hst : d.st = st) (h : d'.st = st')
    (hstep : (st, st') ∈ [(StT.lfield, StT.c1Trailer), (.lfield, .dataT1), (.c1Trailer, .c1Len), (.c1Len, .dataC1)]) :
    MovesT d bit d' := by
  subst hst h
  refine ⟨.inr (.inr (List.mem_cons_of_mem _ hstep)), fun hidle => ?_⟩
  rw [hidle] at hstep
  simp at hstep

end

section
variable {par : Par} {d : DecT} {bit : BitTok} {a : Syn} {io : Io}

/-- Only in a data state can a bit be the last. -/
theorem not_lastBitT_of_st {st : StT} (hst : d.st = st) (hdata : ¬ (st = .dataT1 ∨ st = .dataC1)) :
    ¬ LastBitT par d bit := by
  subst hst
  exact fun ⟨_, _, hlast⟩ => hdata (hlast.imp And.left And.left)

/-- An idle decoder starts a capture on a flagged bit. -/
theorem t1c1Idle_moves (hst : d.st = .idle) : MovesT d bit (t1c1Idle d bit) := by
  by_cases hpre : bit.pre = true
  · rw [t1c1Idle_of_pre hpre]
    exact ⟨.inr (.inr (by simp [hst])), fun _ => by simp [hpre]⟩
  · rw [t1c1Idle_of_not_pre hpre]
    exact ⟨.inl hst, fun _ => by simp [hst, hpre]⟩

theorem t1c1Lfield_moves (hst : d.st = .lfield) : MovesT d bit (t1c1Lfield par a d bit io).1 := by
  have hne : d.st ≠ .idle := by simp [hst]
  rcases Nat.lt_or_ge d.cnt.toNat 11 with hcnt | hcnt
  · rw [t1c1Lfield_of_collect rfl hcnt]
    exact movesT_stay hne rfl
  · by_cases hmode : isC1Word par (shiftIn d.reg bit.b) = true
    · rw [t1c1Lfield_of_mode rfl hcnt hmode]
      exact movesT_forward hst rfl (by simp)
    · cases hhi : dec3of6 par (hiCode (shiftIn d.reg bit.b)) with
      | none =>
        rw [t1c1Lfield_of_invalid rfl hcnt hmode (.inl hhi)]
        exact movesT_reset hne
      | some hi =>
        cases hlo : dec3of6 par (loCode (shiftIn d.reg bit.b)) with
        | none =>
          rw [t1c1Lfield_of_invalid rfl hcnt hmode (.inr hlo)]
          exact movesT_reset hne
        | some lo =>
          rw [t1c1Lfield_of_valid rfl hcnt hmode hhi hlo rfl rfl]
          split
          · exact movesT_reset hne
          · exact movesT_forward (st' := .dataT1) hst rfl (by simp)

theorem t1c1C1trailer_moves (hst : d.st = .c1Trailer) : MovesT d bit (t1c1C1trailer par a d bit io).1 := by
  have hne : d.st ≠ .idle := by simp [hst]
  rcases Nat.lt_or_ge d.cnt.toNat 3 with hcnt | hcnt
  · rw [t1c1C1trailer_of_collect rfl hcnt]
    exact movesT_stay hne rfl
  · rw [t1c1C1trailer_of_full rfl hcnt]
    split
    · exact movesT_forward hst rfl (by simp)
    · exact movesT_reset hne

theorem t1c1C1len_moves (hst : d.st = .c1Len) : MovesT d bit (t1c1C1len par a d bit io).1 := by
  have hne : d.st ≠ .idle := by simp [hst]
  rcases Nat.lt_or_ge d.cnt.toNat 7 with hcnt | hcnt
  · rw [t1c1C1len_of_collect rfl hcnt]
    exact movesT_stay hne rfl
  · rw [t1c1C1len_of_full rfl hcnt rfl]
    split
    · exact movesT_reset hne
    · exact movesT_forward (st' := .dataC1) hst rfl (by simp)

/-- A payload byte of the decoder `e`, which is `d` at the end of a field: a record is handed out when the byte is the
last. -/
theorem payloadT_effect {e : DecT} {v : Byte} {io' : Io} (hne : d.st ≠ .idle) (hst : e.st = d.st)
    (hcap : e.len < par.cap) (hlast : e.len + 1 = e.total ↔ LastBitT par d bit) (hout : io'.out = io.out) :
    BitEffectT par d bit io (payloadT par a e v bit io') := by
  by_cases hfull : e.len + 1 = e.total
  · obtain ⟨hidle, hrecord, -⟩ := t1c1Done_out par a (storeT e v) bit io'
    rw [payloadT_of_last hcap hfull]
    exact ⟨hidle ▸ movesT_reset hne, .inr ⟨hlast.mp hfull, hidle, _, hout ▸ hrecord⟩⟩
  · rw [payloadT_of_more hcap hfull]
    exact ⟨movesT_stay hne hst, .inl ⟨mt hlast.mpr hfull, hout⟩⟩

/-- A bit that is collected in a data state. -/
theorem collectT_effect (v : BitVec 12) (hne : d.st ≠ .idle) (hlast : ¬ LastBitT par d bit) :
    BitEffectT par d bit io (collectT d v, io) :=
  ⟨movesT_stay hne rfl, .inl ⟨hlast, rfl⟩⟩

theorem t1c1DataT1_effect (h : DecTOk par d) (hst : d.st = .dataT1) (hstrong : ¬ bit.rssi < par.rssiTh.t) :
    BitEffectT par d bit io (t1c1DataT1 par a d bit io) := by
  have hne : d.st ≠ .idle := by simp [hst]
  have hcnt : d.cnt.toNat < 12 := by simpa [hst, fieldBitsT] using h.field
  have hlast : LastBitT par d bit ↔ d.len + 1 = d.total ∧ d.cnt.toNat = 11 := by simp [LastBitT, hst, hstrong]
  obtain ⟨-, hlen, hcap, -⟩ := h.data (.inl hst)
  rcases Nat.lt_or_ge d.cnt.toNat 11 with hlt | hge
  · rw [t1c1DataT1_of_collect rfl hlt]
    exact collectT_effect _ hne fun hl => hlt.ne (hlast.mp hl).2
  · have h11 : d.cnt.toNat = 11 := by omega
    rw [t1c1DataT1_of_full rfl hge]
    exact payloadT_effect hne rfl (hlen.trans_le hcap) (by simp [hlast, h11]) (noteIf_out ..)

theorem t1c1DataC1_effect (h : DecTOk par d) (hst : d.st = .dataC1) (hstrong : ¬ bit.rssi < par.rssiTh.t) :
    BitEffectT par d bit io (t1c1DataC1 par a d bit io) := by
  have hne : d.st ≠ .idle := by simp [hst]
  have hcnt : d.cnt.toNat < 8 := by simpa [hst, fieldBitsT] using h.field
  have hlast : LastBitT par d bit ↔ d.len + 1 = d.total ∧ d.cnt.toNat = 7 := by simp [LastBitT, hst, hstrong]
  obtain ⟨-, hlen, hcap, -⟩ := h.data (.inr hst)
  rcases Nat.lt_or_ge d.cnt.toNat 7 with hlt | hge
  · rw [t1c1DataC1_of_collect rfl hlt]
    exact collectT_effect _ hne fun hl => hlt.ne (hlast.mp hl).2
  · have h7 : d.cnt.toNat = 7 := by omega
    rw [t1c1DataC1_of_full rfl hge]
    exact payloadT_effect hne rfl (hlen.trans_le hcap) (by simp [hlast, h7]) rfl

/-- The effect of one bit on a T1/C1 decoder, by cases on its state. -/
theorem t1c1Bit_effect (h : DecTOk par d) : BitEffectT par d bit io (t1c1Bit par a d bit io) := by
  by_cases hlow : d.st ≠ .idle ∧ bit.rssi < par.rssiTh.t
  · rw [t1c1Bit_of_low a io hlow]
    exact ⟨movesT_reset hlow.1, .inl ⟨fun hlast => hlast.1 hlow.2, rfl⟩⟩
  · rw [t1c1Bit_of_not_low a io hlow, t1c1Handler]
    cases hst : d.st with
    | idle => exact ⟨t1c1Idle_moves hst, .inl ⟨not_lastBitT_of_st hst (by decide), rfl⟩⟩
    | lfield => exact ⟨t1c1Lfield_moves hst, .inl ⟨not_lastBitT_of_st hst (by decide), (t1c1Lfield_io ..).1⟩⟩
    | c1Trailer => exact ⟨t1c1C1trailer_moves hst, .inl ⟨not_lastBitT_of_st hst (by decide), (t1c1C1trailer_io ..).1⟩⟩
    | c1Len => exact ⟨t1c1C1len_moves hst, .inl ⟨not_lastBitT_of_st hst (by decide), (t1c1C1len_io ..).1⟩⟩
    | dataT1 => exact t1c1DataT1_effect h hst fun hweak => hlow ⟨by simp [hst], hweak⟩
    | dataC1 => exact t1c1DataC1_effect h hst fun hweak => hlow ⟨by simp [hst], hweak⟩
    | done => exact absurd hst h.notDone

end

/-! ### S1 decoders -/

/-- The transitions of an S1 decoder under one bit; from idle it leaves on a flagged bit only. -/
def MovesS (d : DecS) (bit : BitTok) (d' : DecS) : Prop :=
  (d'.st = .idle ∨ (d'.st = d.st ∧ d.st ≠ .idle) ∨ (d.st, d'.st) ∈ [(StS.idle, StS.len), (.len, .data)]) ∧
  (d.st = .idle → (d'.st = .len ↔ bit.pre = true))

/-- The bit that completes the last byte of an S1 telegram. -/
def LastBitS (par : Par) (d : DecS) (bit : BitTok) : Prop :=
  ¬ bit.rssi < par.rssiTh.s ∧ d.len + 1 = d.total ∧ d.st = .data ∧ d.cnt.toNat = 15

/-- `BitEffect` of an S1 decoder. -/
abbrev BitEffectS (par : Par) (d : DecS) (bit : BitTok) (io : Io) (p : DecS × Io) : Prop :=
  BitEffect decSReset (MovesS d bit) (LastBitS par d bit) io p

section
variable {par : Par} {d d' : DecS} {bit : BitTok} {a : Syn} {io : Io}

theorem movesS_reset (hst : d.st ≠ .idle) : MovesS d bit decSReset := ⟨.inl rfl, fun hidle => absurd hidle hst⟩

theorem movesS_stay (hst : d.st ≠ .idle) (h : d'.st = d.st) : MovesS d bit d' :=
  ⟨.inr (.inl ⟨h, hst⟩), fun hidle => absurd hidle hst⟩

/-- An idle decoder starts a capture on a flagged bit. -/
theorem s1Idle_moves (hst : d.st = .idle) : MovesS d bit (s1Idle d bit) := by
  by_cases hpre : bit.pre = true
  · rw [s1Idle_of_pre hpre]
    exact ⟨.inr (.inr (by simp [hst])), fun _ => by simp [hpre]⟩
  · rw [s1Idle_of_not_pre hpre]
    exact ⟨.inl hst, fun _ => by simp [hst, hpre]⟩

theorem s1Len_moves (hst : d.st = .len) : MovesS d bit (s1Len par a d bit io).1 := by
  have hne : d.st ≠ .idle := by simp [hst]
  rcases Nat.mod_two_eq_zero_or_one d.cnt.toNat with heven | hodd
  · rw [s1Len_of_opens heven]
    exact movesS_stay hne rfl
  · cases hm : manch par d.half bit.b with
    | none =>
      rw [s1Len_of_invalid hodd hm]
      exact movesS_reset hne
    | some m =>
      rcases Nat.lt_or_ge d.cnt.toNat 15 with hlt | hge
      · rw [s1Len_of_collect hodd hm rfl hlt]
        exact movesS_stay hne rfl
      · have hlast := d.cnt.isLt
        rw [s1Len_of_full (by omega) hm rfl rfl]
        split
        · exact movesS_reset hne
        · exact ⟨.inr (.inr (by simp [hst])), fun hidle => absurd hidle hne⟩

/-- A payload byte of the decoder `e`, which is `d` at the end of a byte: a record is handed out when the byte is the
last. -/
theorem payloadS_effect {e : DecS} {v : Byte} {io' : Io} (hne : d.st ≠ .idle) (hst : e.st = d.st)
    (hcap : e.len < par.cap) (hlast : e.len + 1 = e.total ↔ LastBitS par d bit) (hout : io'.out = io.out) :
    BitEffectS par d bit io (payloadS par a e v bit io') := by
  by_cases hfull : e.len + 1 = e.total
  · obtain ⟨hidle, hrecord, -⟩ := s1Done_out par a (storeS e v) bit io'
    rw [payloadS_of_last hcap hfull]
    exact ⟨hidle ▸ movesS_reset hne, .inr ⟨hlast.mp hfull, hidle, _, hout ▸ hrecord⟩⟩
  · rw [payloadS_of_more hcap hfull]
    exact ⟨movesS_stay hne hst, .inl ⟨mt hlast.mpr hfull, hout⟩⟩

theorem s1Data_effect (h : DecSOk par d) (hst : d.st = .data) (hstrong : ¬ bit.rssi < par.rssiTh.s) :
    BitEffectS par d bit io (s1Data par a d bit io) := by
  have hne : d.st ≠ .idle := by simp [hst]
  have hcnt := d.cnt.isLt
  have hlast : LastBitS par d bit ↔ d.len + 1 = d.total ∧ d.cnt.toNat = 15 := by simp [LastBitS, hst, hstrong]
  obtain ⟨-, hlen, hcap, -⟩ := h.data hst
  rcases Nat.lt_or_ge d.cnt.toNat 15 with hlt | hge
  · have hnot : ¬ LastBitS par d bit := fun hl => hlt.ne (hlast.mp hl).2
    rcases Nat.mod_two_eq_zero_or_one d.cnt.toNat with heven | hodd
    · rw [s1Data_of_opens heven]
      exact ⟨movesS_stay hne rfl, .inl ⟨hnot, rfl⟩⟩
    · rw [s1Data_of_collect hodd hlt rfl rfl]
      exact ⟨movesS_stay hne rfl, .inl ⟨hnot, noteIf_out ..⟩⟩
  · have h15 : d.cnt.toNat = 15 := by omega
    rw [s1Data_of_full h15 rfl rfl]
    exact payloadS_effect hne rfl (hlen.trans_le hcap) (by simp [hlast, h15]) (noteIf_out ..)

/-- The effect of one bit on an S1 decoder, by cases on its state. -/
theorem s1Bit_effect (h : DecSOk par d) : BitEffectS par d bit io (s1Bit par a d bit io) := by
  by_cases hlow : d.st ≠ .idle ∧ bit.rssi < par.rssiTh.s
  · rw [s1Bit_of_low a io hlow]
    exact ⟨movesS_reset hlow.1, .inl ⟨fun hlast => hlast.1 hlow.2, rfl⟩⟩
  · rw [s1Bit_of_not_low a io hlow, s1Handler]
    have hheader : d.st ≠ .data → ¬ LastBitS par d bit := fun hst ⟨_, _, hdata, _⟩ => hst hdata
    cases hst : d.st with
    | idle => exact ⟨s1Idle_moves hst, .inl ⟨hheader (by simp [hst]), rfl⟩⟩
    | len => exact ⟨s1Len_moves hst, .inl ⟨hheader (by simp [hst]), (s1Len_io ..).1⟩⟩
    | data => exact s1Data_effect h hst fun hweak => hlow ⟨by simp [hst], hweak⟩
    | done => exact absurd hst h.notDone

end

/-! ### The obligation -/

/-- Settles O46: the effect of one bit, read off the machine. -/
theorem forwardTransitions : Obligations.ForwardTransitions := by
  refine ⟨?_, ?_⟩
  · rintro s t a tok d rfl hok hexec
    cases hexec
    have h : BitEffectT s.par _ tok s.io _ := t1c1Bit_effect (a := a) hok
    rw [finishT_chT, ChainT.setDec_dec, finishT_io]
    exact ⟨h.moves.1, h.moves.2, h.out, h.out_ne_iff, h.idle_of_out_ne⟩
  · rintro s t a tok d rfl hok hexec
    cases hexec
    have h : BitEffectS s.par _ tok s.io _ := s1Bit_effect (a := a) hok
    rw [finishS_chS, ChainS.setDec_dec, finishS_io]
    exact ⟨h.moves.1, h.moves.2, h.out, h.out_ne_iff, h.idle_of_out_ne⟩

end Sys2Proof.Machine
end

section
/-! PROOFS. CRC-16 (45_crc_framing.md rules R310, R317, R318): the table form is the bit-serial form, for every generator,
and one inverted bit changes the result where the generator has more than one term. The register steps are linear
(`crcShiftN_xor`), so both are statements about what a number of steps makes of one word. -/

namespace Sys2Proof.Machine

open Sys2Proof

theorem crcShiftN_one (poly a : BitVec 16) : crcShiftN poly 1 a = crcShift poly a := rfl

theorem crcShiftN_add (poly : BitVec 16) (m n : Nat) (a : BitVec 16) :
    crcShiftN poly (m + n) a = crcShiftN poly m (crcShiftN poly n a) := by
  induction m with
  | zero => rw [Nat.zero_add]; rfl
  | succ m ih => rw [Nat.succ_add, crcShiftN, ih]; rfl

/-! ### The bit-serial form -/

/-- Bits put at the top of a register, the first of them at bit 15. -/
def topWord : List Bool → BitVec 16
  | [] => 0#16
  | b :: bs => (if b then 0x8000#16 else 0#16) ^^^ (topWord bs >>> 1)

theorem getLsbD_0x8000 (i : Nat) : (0x8000#16).getLsbD i = decide (i = 15) := by
  rw [show (0x8000#16 : BitVec 16) = BitVec.twoPow 16 15 from rfl, BitVec.getLsbD_twoPow]
  simp
  omega

theorem getLsbD_topWord (bs : List Bool) (i : Nat) (hi : i < 16) : (topWord bs).getLsbD i = bs.getD (15 - i) false := by
  induction bs generalizing i with
  | nil => simp [topWord]
  | cons b bs ih =>
    rw [topWord, BitVec.getLsbD_xor, BitVec.getLsbD_ushiftRight]
    by_cases h15 : i = 15
    · subst h15
      rw [BitVec.getLsbD_of_ge (topWord bs) (1 + 15) (by omega), Bool.xor_false]
      cases b <;> rfl
    · have hsucc : 15 - i = 15 - (1 + i) + 1 := by omega
      rw [ih _ (by omega), hsucc, List.getD_cons_succ]
      cases b <;> simp [getLsbD_0x8000, h15]

theorem topWord_bitsMsb (x : Byte) : topWord (bitsMsb x) = x ++ 0#8 := by
  apply BitVec.eq_of_getLsbD_eq
  intro i hi
  rw [getLsbD_topWord _ _ hi, BitVec.getLsbD_append, bitsMsb, List.getD_eq_getElem?_getD, List.getElem?_map]
  by_cases h : i < 8
  · rw [List.getElem?_eq_none (by simp; omega)]
    simp [h]
  · rw [List.getElem?_range (by omega)]
    have hidx : 8 - 1 - (15 - i) = i - 8 := by omega
    simp [h, hidx]

/-- Bits fed one at a time, or put at the top together and shifted out: the same register. -/
theorem foldl_crcSerialBit (poly c : BitVec 16) (bs : List Bool) (h : bs.length ≤ 16) :
    bs.foldl (crcSerialBit poly) c = crcShiftN poly bs.length (c ^^^ topWord bs) := by
  induction bs generalizing c with
  | nil => simp [topWord, crcShiftN]
  | cons b bs ih =>
    rw [List.length_cons] at h
    have hlast : (topWord bs).getLsbD 0 = false := by
      rw [getLsbD_topWord _ _ (by omega), List.getD_eq_getElem?_getD, List.getElem?_eq_none (by omega)]
      rfl
    have hshift : crcShift poly (topWord bs >>> 1) = topWord bs := by
      rw [crcShift_of_msb (by simp)]
      apply BitVec.eq_of_getLsbD_eq
      intro i hi
      rcases i with _ | i
      · simpa using hlast
      · have hle : 1 + i = i + 1 := by omega
        simp [hi, hle]
    rw [List.foldl_cons, ih _ (by omega), crcSerialBit_eq, topWord, ← BitVec.xor_assoc, List.length_cons,
      crcShiftN_add, crcShiftN_one, crcShift_xor _ _ (topWord bs >>> 1), hshift]

theorem crcByte_eq_serial (poly c : BitVec 16) (x : Byte) :
    crcByte poly c x = (bitsMsb x).foldl (crcSerialBit poly) c := by
  rw [foldl_crcSerialBit _ _ _ (by rw [bitsMsb_length]; omega), topWord_bitsMsb, bitsMsb_length, crcByte_eq]

theorem crc16_eq_serial (poly : BitVec 16) (bytes : List Byte) : crc16 poly bytes = crcSerial poly bytes := by
  have hstep : crcByte poly = fun c x => (bitsMsb x).foldl (crcSerialBit poly) c := by
    funext c x
    exact crcByte_eq_serial poly c x
  rw [crc16, crcSerial, List.foldl_flatMap, hstep]

/-! ### One inverted bit

Shifting never turns a register with one bit set into 0, unless the generator is `x^16` alone. A shift moves the bit up
until it stands at or above the lowest bit of the generator; from there on it keeps the registers that are not 0 and
have no bit below that one: only an overflow could make such a register 0, and it sets that bit. -/

/-- `k` is the place of the lowest bit of the generator. -/
structure LowestBit (poly : BitVec 16) (k : Nat) : Prop where
  set : poly.getLsbD k = true
  below : ∀ i < k, poly.getLsbD i = false

theorem exists_lowestBit {poly : BitVec 16} (h : poly ≠ 0#16) : ∃ k, LowestBit poly k := by
  have hset : ∃ k, poly.getLsbD k = true := by
    by_contra hnone
    exact h (BitVec.eq_of_getLsbD_eq fun i _ => by simpa using not_exists.mp hnone i)
  exact ⟨Nat.find hset, Nat.find_spec hset, fun i hi => by simpa using Nat.find_min hset hi⟩

/-- A register that is not 0 and has no bit below `k`. -/
structure HighPart (k : Nat) (r : BitVec 16) : Prop where
  ne_zero : r ≠ 0#16
  below : ∀ i < k, r.getLsbD i = false

theorem crcShift_getLsbD_zero (poly r : BitVec 16) :
    (crcShift poly r).getLsbD 0 = (r.getLsbD 15 && poly.getLsbD 0) := by
  rw [crcShift]
  cases r.getLsbD 15 <;> simp

theorem crcShift_getLsbD_succ (poly r : BitVec 16) {i : Nat} (hi : i < 15) :
    (crcShift poly r).getLsbD (i + 1) = (r.getLsbD i ^^ (r.getLsbD 15 && poly.getLsbD (i + 1))) := by
  have hi' : i + 1 < 16 := by omega
  rw [crcShift]
  cases r.getLsbD 15 <;> simp [hi', -BitVec.getLsbD_eq_getElem]

/-- A register that is not 0 stays so: where the top bit is 1, bit `k` becomes 1. -/
theorem HighPart.crcShift_ne_zero {poly r : BitVec 16} {k : Nat} (hk : LowestBit poly k) (h : HighPart k r) :
    crcShift poly r ≠ 0#16 := fun hzero => by
  have hbit (i : Nat) : (crcShift poly r).getLsbD i = false := by rw [hzero, BitVec.getLsbD_zero]
  have hk16 : k < 16 := BitVec.lt_of_getLsbD hk.set
  cases hmsb : r.getLsbD 15 with
  | true =>
    have hcarry : (crcShift poly r).getLsbD k = true := by
      rcases k with _ | k
      · rw [crcShift_getLsbD_zero, hmsb, hk.set, Bool.and_self]
      · rw [crcShift_getLsbD_succ _ _ (by omega), hmsb, hk.set, h.below k (by omega)]
        rfl
    exact absurd hcarry (by rw [hbit k]; decide)
  | false =>
    refine h.ne_zero (BitVec.eq_of_getLsbD_eq fun i hi => ?_)
    rw [BitVec.getLsbD_zero]
    rcases Nat.lt_or_ge i 15 with hlt | hge
    · rw [← hbit (i + 1), crcShift_getLsbD_succ _ _ hlt, hmsb, Bool.false_and, Bool.xor_false]
    · obtain rfl : i = 15 := by omega
      exact hmsb

theorem HighPart.crcShift {poly r : BitVec 16} {k : Nat} (hk : LowestBit poly k) (h : HighPart k r) :
    HighPart k (crcShift poly r) := by
  refine ⟨h.crcShift_ne_zero hk, fun i hi => ?_⟩
  have hk16 : k < 16 := BitVec.lt_of_getLsbD hk.set
  rcases i with _ | i
  · rw [crcShift_getLsbD_zero, hk.below 0 hi, Bool.and_false]
  · rw [crcShift_getLsbD_succ _ _ (by omega), h.below i (by omega), hk.below _ hi, Bool.and_false, Bool.xor_false]

/-- One bit set below `k`, or a register that is not 0 with no bit below `k`: what shifting keeps. -/
def OneBitOrHigh (k : Nat) (r : BitVec 16) : Prop := (∃ m < k, r = BitVec.twoPow 16 m) ∨ HighPart k r

theorem twoPow_ne_zero {m : Nat} (hm : m < 16) : BitVec.twoPow 16 m ≠ 0#16 := fun h => by
  have hbit := congrArg (BitVec.getLsbD · m) h
  simp [hm] at hbit

theorem OneBitOrHigh.ne_zero {k : Nat} {r : BitVec 16} (hk : k < 16) (h : OneBitOrHigh k r) : r ≠ 0#16 := by
  rcases h with ⟨m, hm, rfl⟩ | h
  · exact twoPow_ne_zero (by omega)
  · exact h.ne_zero

theorem oneBitOrHigh_twoPow (k : Nat) {m : Nat} (hm : m < 16) : OneBitOrHigh k (BitVec.twoPow 16 m) := by
  by_cases h : m < k
  · exact .inl ⟨m, h, rfl⟩
  · refine .inr ⟨twoPow_ne_zero hm, fun i hi => ?_⟩
    have hne : m ≠ i := by omega
    simp [BitVec.getLsbD_twoPow, hne]

theorem crcShift_twoPow (poly : BitVec 16) {m : Nat} (hm : m < 15) :
    crcShift poly (BitVec.twoPow 16 m) = BitVec.twoPow 16 (m + 1) := by
  have hne : 15 ≠ m := by omega
  rw [crcShift_of_msb (by simp [hne]), BitVec.twoPow_eq, BitVec.twoPow_eq,
    ← BitVec.shiftLeft_add]

theorem OneBitOrHigh.crcShift {poly r : BitVec 16} {k : Nat} (hk : LowestBit poly k) (hk16 : k < 16)
    (h : OneBitOrHigh k r) : OneBitOrHigh k (crcShift poly r) := by
  rcases h with ⟨m, hm, rfl⟩ | h
  · rw [crcShift_twoPow poly (by omega)]
    exact oneBitOrHigh_twoPow k (by omega)
  · exact .inr (h.crcShift hk)

/-- One bit in the register is never shifted out altogether. -/
theorem crcShiftN_twoPow_ne_zero {poly : BitVec 16} (h : poly ≠ 0#16) (n : Nat) {m : Nat} (hm : m < 16) :
    crcShiftN poly n (BitVec.twoPow 16 m) ≠ 0#16 := by
  obtain ⟨k, hk⟩ := exists_lowestBit h
  have hk16 : k < 16 := BitVec.lt_of_getLsbD hk.set
  suffices hkeeps : OneBitOrHigh k (crcShiftN poly n (BitVec.twoPow 16 m)) from hkeeps.ne_zero hk16
  induction n with
  | zero => exact oneBitOrHigh_twoPow k hm
  | succ n ih => exact ih.crcShift hk hk16

/-- What is added to the register before the bytes leaves it shifted by their bits. -/
theorem foldl_crcByte_xor (poly a e : BitVec 16) (d : List Byte) :
    d.foldl (crcByte poly) (a ^^^ e) = d.foldl (crcByte poly) a ^^^ crcShiftN poly (8 * d.length) e := by
  induction d generalizing a e with
  | nil => rfl
  | cons x d ih =>
    have hcomm : a ^^^ e ^^^ (x ++ 0#8) = a ^^^ (x ++ 0#8) ^^^ e := by
      rw [BitVec.xor_assoc, BitVec.xor_comm e, BitVec.xor_assoc]
    rw [List.foldl_cons, List.foldl_cons, crcByte_eq, crcByte_eq, hcomm, crcShiftN_xor, ih, ← crcShiftN_add,
      List.length_cons, Nat.mul_succ]

theorem flipBit_cons_zero (x : Byte) (d : List Byte) (j : Nat) :
    flipBit (x :: d) 0 j = (x ^^^ (1#8 <<< j)) :: d := rfl

theorem flipBit_cons_succ (x : Byte) (d : List Byte) (i j : Nat) :
    flipBit (x :: d) (i + 1) j = x :: flipBit d i j := rfl

theorem one_shiftLeft_append_zero {j : Nat} (hj : j < 8) : (1#8 <<< j) ++ 0#8 = BitVec.twoPow 16 (8 + j) := by
  apply BitVec.eq_of_getLsbD_eq
  intro i hi
  rw [← BitVec.twoPow_eq, BitVec.getLsbD_append, BitVec.getLsbD_twoPow, BitVec.getLsbD_twoPow]
  by_cases h : i < 8
  · have hne : 8 + j ≠ i := by omega
    simp [h, hne]
  · simp only [h, if_false, hj, decide_true, Bool.true_and, show 8 + j < 16 by omega]
    congr 1
    simp
    omega

/-- The register after bytes of which one bit is inverted. -/
theorem foldl_crcByte_flipBit (poly a : BitVec 16) (d : List Byte) {i j : Nat} (hi : i < d.length) (hj : j < 8) :
    (flipBit d i j).foldl (crcByte poly) a =
      d.foldl (crcByte poly) a ^^^ crcShiftN poly (8 * (d.length - i)) (BitVec.twoPow 16 (8 + j)) := by
  induction d generalizing a i with
  | nil => simp at hi
  | cons x d ih =>
    rcases i with _ | i
    · have hbyte : (x ^^^ (1#8 <<< j)) ++ 0#8 = (x ++ 0#8) ^^^ BitVec.twoPow 16 (8 + j) := by
        rw [← one_shiftLeft_append_zero hj, BitVec.xor_append, BitVec.xor_zero]
      rw [flipBit_cons_zero, List.foldl_cons, List.foldl_cons, crcByte_eq, crcByte_eq, hbyte, ← BitVec.xor_assoc,
        crcShiftN_xor, foldl_crcByte_xor, ← crcShiftN_add, Nat.sub_zero, List.length_cons, Nat.mul_succ]
    · rw [List.length_cons] at hi
      rw [flipBit_cons_succ, List.foldl_cons, List.foldl_cons, ih _ (by omega), List.length_cons, Nat.add_sub_add_right]

/-- One inverted bit changes the CRC, for a generator of more than one term. -/
theorem crc16_flipBit_ne {poly : BitVec 16} (h : poly ≠ 0#16) {d : List Byte} {i j : Nat} (hi : i < d.length)
    (hj : j < 8) : crc16 poly (flipBit d i j) ≠ crc16 poly d := fun heq => by
  rw [crc16, crc16, BitVec.xor_left_inj, foldl_crcByte_flipBit _ _ _ hi hj] at heq
  exact crcShiftN_twoPow_ne_zero h _ (show 8 + j < 16 by omega)
    ((BitVec.xor_right_inj _).mp (heq.trans BitVec.xor_zero.symm))

/-! ### The obligations about `CRC16`, `SERIAL` and `EMIT` -/

/-- Settles O47: a table step is the eight bit-serial steps of its byte. -/
theorem crc16BitSerial : Obligations.Crc16BitSerial := fun s bytes => by
  rw [← crc16_eq_serial]
  rfl

theorem serialOf_toNat (p : List Byte) :
    (serialOf p).toNat = (p.getD 4 0).toNat + 256 * (p.getD 5 0).toNat + 65536 * (p.getD 6 0).toNat +
      16777216 * (p.getD 7 0).toNat := by
  simp only [serialOf, toNat_append_eq]
  omega

/-- Settles O50. -/
theorem serialLittleEndian : Obligations.SerialLittleEndian := fun _ p => ⟨serialOf p, serialOf_toNat p, rfl⟩

/-- `STRIP` by frame type. -/
theorem exec_strip (s : State) (isB : Bool) (t : List Byte) :
    exec (if isB then .stripB t else .stripA t) s = .next (s.reply [.bytes (if isB then stripB t else stripA t)]) := by
  cases isB <;> rfl

theorem exec_emit (s : State) (c : Chain) (a : Syn) (mode : Mode) :
    exec (.emit c a mode) s =
      .next ((s.setIo (s.io.emit (telegramOf s c a mode))).reply [.telegram (telegramOf s c a mode)]) := rfl

/-- Settles O51: the record of `EMIT`, its payload and serial as `STRIP` and `SERIAL` return them. -/
theorem emitRecord : Obligations.EmitRecord := by
  refine ⟨?_, ?_⟩
  · rintro s a mode d rfl
    refine ⟨_, _, exec_strip .., rfl, ?_⟩
    rintro tel rfl
    exact exec_emit s .T a mode
  · rintro s a mode d rfl
    refine ⟨_, _, rfl, rfl, ?_⟩
    rintro tel rfl
    exact exec_emit s .S a mode

end Sys2Proof.Machine
end

section
/-! PROOFS. The blocks of a telegram (45_crc_framing.md rules R312 to R316 and R319). Both checks and both strippings are
read off the words "data bytes, then CRC field" that a telegram is cut into: `blockOf` takes such a word apart, frame
type A is a walk over words of up to 12, then 18 bytes, frame type B one or two words. -/

namespace Sys2Proof.Machine

open Sys2Proof

/-! ### One word -/

/-- A word of at least two bytes as data and CRC field. -/
def blockOf (c : List Byte) : Block := ⟨c.take (c.length - 2), crcField c (c.length - 2)⟩

@[simp] theorem flipBit_length (t : List Byte) (i j : Nat) : (flipBit t i j).length = t.length := List.length_set

theorem flipBit_append_left {t : List Byte} {i : Nat} (h : i < t.length) (u : List Byte) (j : Nat) :
    flipBit (t ++ u) i j = flipBit t i j ++ u := by
  rw [flipBit, flipBit, List.set_append_left _ _ h, List.getD_append _ _ _ _ h]

theorem flipBit_append_right {t : List Byte} {i : Nat} (h : t.length ≤ i) (u : List Byte) (j : Nat) :
    flipBit (t ++ u) i j = t ++ flipBit u (i - t.length) j := by
  rw [flipBit, flipBit, List.set_append_right _ _ h, List.getD_append_right _ _ _ _ h]

theorem take_flipBit {i n : Nat} (h : i < n) (t : List Byte) (j : Nat) :
    (flipBit t i j).take n = flipBit (t.take n) i j := by
  rw [flipBit, flipBit, List.take_set, List.getD_eq_getElem?_getD, List.getD_eq_getElem?_getD,
    List.getElem?_take_of_lt h]

theorem drop_flipBit {i n : Nat} (h : n ≤ i) (t : List Byte) (j : Nat) :
    (flipBit t i j).drop n = flipBit (t.drop n) (i - n) j := by
  rw [flipBit, flipBit, List.drop_set, if_neg (by omega), List.getD_eq_getElem?_getD, List.getD_eq_getElem?_getD,
    List.getElem?_drop, Nat.add_sub_cancel' h]

/-- A word written as its parts. -/
theorem blockOf_append (d : List Byte) (hi lo : Byte) : blockOf (d ++ [hi, lo]) = ⟨d, hi ++ lo⟩ := by
  have hlen : (d ++ [hi, lo]).length - 2 = d.length := by simp
  rw [blockOf, hlen, List.take_left, crcField, List.getD_append_right _ _ _ _ (by omega),
    List.getD_append_right _ _ _ _ (by omega), Nat.sub_self, Nat.add_sub_cancel_left]
  rfl

theorem exists_eq_append_pair {c : List Byte} (h : 2 ≤ c.length) : ∃ d hi lo, c = d ++ [hi, lo] := by
  obtain ⟨hi, lo, hpair⟩ := List.length_eq_two.mp (show (c.drop (c.length - 2)).length = 2 by simp; omega)
  exact ⟨c.take (c.length - 2), hi, lo, by rw [← hpair, List.take_append_drop]⟩

theorem blockOk_iff (poly : BitVec 16) (b : Block) : blockOk poly b = true ↔ crc16 poly b.data = b.field :=
  decide_eq_true_iff

theorem withCrc_length (poly : BitVec 16) (d : List Byte) : (withCrc poly d).length = d.length + 2 :=
  List.length_append

theorem blockOf_withCrc (poly : BitVec 16) (d : List Byte) : blockOf (withCrc poly d) = ⟨d, crc16 poly d⟩ := by
  rw [withCrc, blockOf_append, BitVec.extractLsb'_append_extractLsb']

theorem blockOk_withCrc (poly : BitVec 16) (d : List Byte) : blockOk poly (blockOf (withCrc poly d)) = true := by
  rw [blockOf_withCrc, blockOk_iff]

theorem xor_one_shiftLeft_ne (x : Byte) {j : Nat} (hj : j < 8) : x ^^^ (1#8 <<< j) ≠ x := fun h => by
  have hbit := congrArg (BitVec.getLsbD · j) h
  simp [hj] at hbit

/-- A word whose CRC matches, with one bit inverted: the CRC no longer matches. -/
theorem not_blockOk_flipBit {poly : BitVec 16} (h : poly ≠ 0#16) {c : List Byte} {i j : Nat} (hlen : 2 ≤ c.length)
    (hok : blockOk poly (blockOf c) = true) (hi : i < c.length) (hj : j < 8) :
    blockOk poly (blockOf (flipBit c i j)) = false := by
  rw [Bool.eq_false_iff, Ne, blockOk_iff]
  obtain ⟨d, hi', lo, rfl⟩ := exists_eq_append_pair hlen
  rw [blockOk_iff, blockOf_append] at hok
  rcases Nat.lt_or_ge i d.length with hdata | hfield
  · rw [flipBit_append_left hdata, blockOf_append, ← hok]
    exact crc16_flipBit_ne h hdata hj
  · rw [flipBit_append_right hfield]
    simp only [List.length_append, List.length_cons, List.length_nil] at hi
    obtain hhi | hlo : i - d.length = 0 ∨ i - d.length = 1 := by omega
    · rw [hhi, flipBit_cons_zero, blockOf_append, hok]
      exact fun heq => xor_one_shiftLeft_ne _ hj ((BitVec.append_left_inj _).mp heq).symm
    · rw [hlo, flipBit_cons_succ, flipBit_cons_zero, blockOf_append, hok]
      exact fun heq => xor_one_shiftLeft_ne _ hj ((BitVec.append_right_inj _).mp heq).symm

/-! ### Frame type A -/

/-- The walk takes off one word of at most `blk` data bytes. -/
theorem blocksA_eq_blockOf_cons (fuel blk : Nat) {t : List Byte} (h : 2 ≤ t.length) :
    blocksA (fuel + 1) blk t =
      (blockOf (t.take (blk + 2)) :: (blocksA fuel 16 (t.drop (blk + 2))).1, (blocksA fuel 16 (t.drop (blk + 2))).2) := by
  have hlen : (t.take (blk + 2)).length - 2 = min blk (t.length - 2) := by rw [List.length_take]; omega
  have hblock : blockOf (t.take (blk + 2)) = ⟨t.take (min blk (t.length - 2)), crcField t (min blk (t.length - 2))⟩ := by
    rw [blockOf, hlen, List.take_take, Nat.min_eq_left (by omega), ← crcField_append_left _ (t.drop (blk + 2)) _
      (by rw [List.length_take]; omega), List.take_append_drop]
  have hrest : t.drop (min blk (t.length - 2) + 2) = t.drop (blk + 2) := by
    rcases Nat.le_total (blk + 2) t.length with hle | hge
    · rw [Nat.min_eq_left (by omega)]
    · rw [List.drop_eq_nil_of_le hge, List.drop_eq_nil_of_le (by omega)]
  rw [blocksA_cons _ _ _ h, hblock, hrest]

/-- The check over a walk. -/
def walkOk (poly : BitVec 16) (fuel blk : Nat) (t : List Byte) : Bool :=
  (blocksA fuel blk t).2 && (blocksA fuel blk t).1.all (blockOk poly)

/-- The bytes stripped over a walk. -/
def walkData (fuel blk : Nat) (t : List Byte) : List Byte := (blocksA fuel blk t).1.flatMap Block.data

theorem crcchkA_eq_walkOk (poly : BitVec 16) (t : List Byte) : crcchkA poly t = walkOk poly t.length 10 t := rfl

theorem stripA_eq_walkData (t : List Byte) : stripA t = walkData t.length 10 t := rfl

theorem walkOk_nil (poly : BitVec 16) (fuel blk : Nat) : walkOk poly fuel blk [] = true := by
  rw [walkOk, blocksA_nil]
  rfl

theorem walkData_nil (fuel blk : Nat) : walkData fuel blk [] = [] := by
  rw [walkData, blocksA_nil]
  rfl

theorem walkOk_one (poly : BitVec 16) (fuel blk : Nat) {t : List Byte} (h : t.length = 1) :
    walkOk poly (fuel + 1) blk t = false := by
  obtain ⟨x, rfl⟩ := List.length_eq_one_iff.mp h
  rw [walkOk, blocksA_one]
  rfl

theorem walkOk_cons (poly : BitVec 16) (fuel blk : Nat) {t : List Byte} (h : 2 ≤ t.length) :
    walkOk poly (fuel + 1) blk t =
      (blockOk poly (blockOf (t.take (blk + 2))) && walkOk poly fuel 16 (t.drop (blk + 2))) := by
  rw [walkOk, walkOk, blocksA_eq_blockOf_cons _ _ h, List.all_cons, Bool.and_left_comm]

theorem walkData_cons (fuel blk : Nat) {t : List Byte} (h : 2 ≤ t.length) :
    walkData (fuel + 1) blk t = (blockOf (t.take (blk + 2))).data ++ walkData fuel 16 (t.drop (blk + 2)) := by
  rw [walkData, walkData, blocksA_eq_blockOf_cons _ _ h, List.flatMap_cons]

/-- A telegram that passes, with one bit inverted: the word that holds the bit no longer passes. -/
theorem walkOk_flipBit {poly : BitVec 16} (hpoly : poly ≠ 0#16) {j : Nat} (hj : j < 8) (fuel blk : Nat)
    (t : List Byte) (i : Nat) (hfuel : t.length ≤ fuel) (hi : i < t.length) (hok : walkOk poly fuel blk t = true) :
    walkOk poly fuel blk (flipBit t i j) = false := by
  induction fuel generalizing blk t i with
  | zero => omega
  | succ fuel ih =>
    have h2 : 2 ≤ t.length := by
      by_contra hshort
      rw [walkOk_one poly fuel blk (by omega)] at hok
      cases hok
    rw [walkOk_cons _ _ _ h2, Bool.and_eq_true] at hok
    obtain ⟨hword, hrest⟩ := hok
    rw [walkOk_cons _ _ _ (by rwa [flipBit_length]), Bool.and_eq_false_iff]
    rcases Nat.lt_or_ge i (blk + 2) with hfirst | hlater
    · rw [take_flipBit hfirst]
      exact .inl (not_blockOk_flipBit hpoly (by rw [List.length_take]; omega) hword (by rw [List.length_take]; omega) hj)
    · rw [drop_flipBit hlater]
      exact .inr (ih 16 _ _ (by rw [List.length_drop]; omega) (by rw [List.length_drop]; omega) hrest)

theorem crcchkA_flipBit {poly : BitVec 16} (hpoly : poly ≠ 0#16) {t : List Byte} (hok : crcchkA poly t = true)
    {i j : Nat} (hi : i < t.length) (hj : j < 8) : crcchkA poly (flipBit t i j) = false := by
  rw [crcchkA_eq_walkOk, flipBit_length]
  exact walkOk_flipBit hpoly hj _ _ t i (Nat.le_refl _) hi hok

theorem withCrcA_nil (poly : BitVec 16) (fuel first : Nat) : withCrcA poly fuel first [] = [] := by
  cases fuel <;> rfl

theorem withCrcA_cons (poly : BitVec 16) (fuel first : Nat) {d : List Byte} (h : d ≠ []) :
    withCrcA poly (fuel + 1) first d = withCrc poly (d.take first) ++ withCrcA poly fuel 16 (d.drop first) := by
  rw [withCrcA, if_neg h, withCrc]

/-- The first word of a frame is as long as the walk takes it: a full one, or the last. -/
theorem take_drop_withCrcA (poly : BitVec 16) (fuel first : Nat) (d : List Byte) :
    (withCrc poly (d.take first) ++ withCrcA poly fuel 16 (d.drop first)).take (first + 2) =
        withCrc poly (d.take first) ∧
      (withCrc poly (d.take first) ++ withCrcA poly fuel 16 (d.drop first)).drop (first + 2) =
        withCrcA poly fuel 16 (d.drop first) := by
  have hword : (withCrc poly (d.take first)).length = min first d.length + 2 := by
    rw [withCrc_length, List.length_take]
  rcases Nat.le_total first d.length with hfull | hlast
  · exact ⟨List.take_left' (by omega), List.drop_left' (by omega)⟩
  · rw [List.drop_eq_nil_of_le hlast, withCrcA_nil, List.append_nil]
    exact ⟨List.take_of_length_le (by omega), List.drop_eq_nil_of_le (by omega)⟩

/-- The walk over a frame of `d`, with any fuel that is enough for the frame: every word passes, and the data is `d`. -/
theorem walk_withCrcA (poly : BitVec 16) (fuel g first : Nat) (d : List Byte) (hfirst : 0 < first) (hd : d.length ≤ fuel)
    (hg : (withCrcA poly fuel first d).length ≤ g) :
    walkOk poly g first (withCrcA poly fuel first d) = true ∧ walkData g first (withCrcA poly fuel first d) = d := by
  induction fuel generalizing g first d with
  | zero =>
    obtain rfl : d = [] := List.eq_nil_of_length_eq_zero (by omega)
    exact ⟨walkOk_nil .., walkData_nil ..⟩
  | succ fuel ih =>
    by_cases hnil : d = []
    · subst hnil
      rw [withCrcA_nil]
      exact ⟨walkOk_nil .., walkData_nil ..⟩
    · have hpos : 0 < d.length := List.length_pos_iff.mpr hnil
      rw [withCrcA_cons _ _ _ hnil] at hg ⊢
      have hword : (withCrc poly (d.take first)).length = min first d.length + 2 := by
        rw [withCrc_length, List.length_take]
      have hlen := List.length_append (as := withCrc poly (d.take first)) (bs := withCrcA poly fuel 16 (d.drop first))
      obtain ⟨g, rfl⟩ : ∃ n, g = n + 1 := ⟨g - 1, by omega⟩
      obtain ⟨htake, hdrop⟩ := take_drop_withCrcA poly fuel first d
      obtain ⟨hok, hdata⟩ := ih g 16 (d.drop first) (by omega) (by rw [List.length_drop]; omega) (by omega)
      rw [walkOk_cons _ _ _ (by omega), walkData_cons _ _ (by omega), htake, hdrop, hok, hdata, blockOk_withCrc,
        blockOf_withCrc]
      exact ⟨rfl, List.take_append_drop ..⟩

theorem frameA_checked (poly : BitVec 16) (d : List Byte) :
    crcchkA poly (frameA poly d) = true ∧ stripA (frameA poly d) = d :=
  walk_withCrcA poly d.length _ 10 d (by omega) (Nat.le_refl _) (Nat.le_refl _)

/-! ### Frame type B -/

theorem crcchkB_of_le (poly : BitVec 16) {t : List Byte} (h2 : 2 ≤ t.length) (h : t.length ≤ 128) :
    crcchkB poly t = blockOk poly (blockOf t) := by
  rw [crcchkB, if_neg (by omega), if_pos h]
  rfl

theorem crcchkB_of_129 (poly : BitVec 16) {t : List Byte} (h : t.length = 129) : crcchkB poly t = false := by
  rw [crcchkB, if_neg (by omega), if_neg (by omega), if_pos (by omega)]

/-- The two words of a telegram of more than 128 bytes. -/
theorem blockOf_take_128 {t : List Byte} (h : 128 ≤ t.length) : blockOf (t.take 128) = ⟨t.take 126, crcField t 126⟩ := by
  have hlen : (t.take 128).length = 128 := by rw [List.length_take]; omega
  rw [blockOf, hlen, List.take_take, ← crcField_append_left (t.take 128) (t.drop 128) _ (by omega),
    List.take_append_drop]
  rfl

theorem crcField_drop (t : List Byte) (p n : Nat) : crcField (t.drop p) n = crcField t (p + n) := by
  simp only [crcField, List.getD_eq_getElem?_getD, List.getElem?_drop, Nat.add_assoc]

theorem blockOf_drop_128 {t : List Byte} (h : 130 ≤ t.length) :
    blockOf (t.drop 128) = ⟨(t.drop 128).take (t.length - 130), crcField t (t.length - 2)⟩ := by
  have hdata : t.length - 128 - 2 = t.length - 130 := by omega
  have hfield : 128 + (t.length - 130) = t.length - 2 := by omega
  rw [blockOf, List.length_drop, crcField_drop, hdata, hfield]

theorem crcchkB_of_ge (poly : BitVec 16) {t : List Byte} (h : 130 ≤ t.length) :
    crcchkB poly t = (blockOk poly (blockOf (t.take 128)) && blockOk poly (blockOf (t.drop 128))) := by
  rw [crcchkB, if_neg (by omega), if_neg (by omega), if_neg (by omega), blockOf_take_128 (by omega),
    blockOf_drop_128 h, blockOk, blockOk]

theorem stripB_of_le {t : List Byte} (h : t.length ≤ 128) : stripB t = (blockOf t).data := by
  rw [stripB, if_pos h]
  rfl

theorem stripB_of_ge {t : List Byte} (h : 130 ≤ t.length) :
    stripB t = (blockOf (t.take 128)).data ++ (blockOf (t.drop 128)).data := by
  rw [stripB, if_neg (by omega), if_neg (by omega), blockOf_take_128 (by omega), blockOf_drop_128 h]

theorem crcchkB_flipBit {poly : BitVec 16} (hpoly : poly ≠ 0#16) {t : List Byte} (h2 : 2 ≤ t.length)
    (hok : crcchkB poly t = true) {i j : Nat} (hi : i < t.length) (hj : j < 8) :
    crcchkB poly (flipBit t i j) = false := by
  obtain hle | h129 | hge : t.length ≤ 128 ∨ t.length = 129 ∨ 130 ≤ t.length := by omega
  · rw [crcchkB_of_le _ h2 hle] at hok
    rw [crcchkB_of_le _ (by rwa [flipBit_length]) (by rwa [flipBit_length])]
    exact not_blockOk_flipBit hpoly h2 hok hi hj
  · exact crcchkB_of_129 poly (by rwa [flipBit_length])
  · rw [crcchkB_of_ge _ hge, Bool.and_eq_true] at hok
    obtain ⟨hfirst, hsecond⟩ := hok
    rw [crcchkB_of_ge _ (by rwa [flipBit_length]), Bool.and_eq_false_iff]
    rcases Nat.lt_or_ge i 128 with hlt | hlater
    · rw [take_flipBit hlt]
      exact .inl (not_blockOk_flipBit hpoly (by rw [List.length_take]; omega) hfirst (by rw [List.length_take]; omega) hj)
    · rw [drop_flipBit hlater]
      exact .inr (not_blockOk_flipBit hpoly (by rw [List.length_drop]; omega) hsecond
        (by rw [List.length_drop]; omega) hj)

theorem two_le_frameB_length (poly : BitVec 16) (d : List Byte) : 2 ≤ (frameB poly d).length := by
  rw [frameB]
  split
  · rw [withCrc_length]; omega
  · rw [List.length_append, withCrc_length]; omega

theorem frameB_checked (poly : BitVec 16) (d : List Byte) :
    crcchkB poly (frameB poly d) = true ∧ stripB (frameB poly d) = d := by
  rw [frameB]
  split
  next hone =>
    have hlen := withCrc_length poly d
    rw [crcchkB_of_le _ (by omega) (by omega), stripB_of_le (by omega), blockOk_withCrc, blockOf_withCrc]
    exact ⟨rfl, rfl⟩
  next htwo =>
    have hfirst : (withCrc poly (d.take 126)).length = 128 := by rw [withCrc_length, List.length_take]; omega
    have hlen : 130 ≤ (withCrc poly (d.take 126) ++ withCrc poly (d.drop 126)).length := by
      rw [List.length_append, hfirst, withCrc_length]; omega
    rw [crcchkB_of_ge _ hlen, stripB_of_ge hlen, List.take_left' hfirst, List.drop_left' hfirst, blockOk_withCrc,
      blockOk_withCrc, blockOf_withCrc, blockOf_withCrc]
    exact ⟨rfl, List.take_append_drop ..⟩

/-! ### The CRC round trip -/

theorem exec_crcchkA (s : State) (t : List Byte) :
    exec (.crcchkA t) s = .next (s.reply [.bit (crcchkA s.par.crcPoly t)]) := rfl

theorem exec_crcchkB (s : State) (t : List Byte) :
    exec (.crcchkB t) s = .next (s.reply [.bit (crcchkB s.par.crcPoly t)]) := rfl

theorem exec_stripA (s : State) (t : List Byte) : exec (.stripA t) s = .next (s.reply [.bytes (stripA t)]) := rfl

theorem exec_stripB (s : State) (t : List Byte) : exec (.stripB t) s = .next (s.reply [.bytes (stripB t)]) := rfl

/-- Settles O49: each word of a frame passes, and a word with one bit inverted does not. -/
theorem crcRoundTrip : Obligations.CrcRoundTrip := fun s d => by
  obtain ⟨hokA, hdataA⟩ := frameA_checked s.par.crcPoly d
  obtain ⟨hokB, hdataB⟩ := frameB_checked s.par.crcPoly d
  refine ⟨?_, ?_, ?_, ?_, fun hpoly => ⟨fun i j hi hj => ?_, fun i j hi hj => ?_⟩⟩
  · rw [exec_crcchkA, hokA]
  · rw [exec_stripA, hdataA]
  · rw [exec_crcchkB, hokB]
  · rw [exec_stripB, hdataB]
  · rw [exec_crcchkA, crcchkA_flipBit hpoly hokA hi hj]
  · rw [exec_crcchkB, crcchkB_flipBit hpoly (two_le_frameB_length ..) hokB hi hj]

end Sys2Proof.Machine
end

section
/-! PROOFS. The block partitions in closed form (45_crc_framing.md rules R313 to R316). -/

namespace Sys2Proof.Machine

open Sys2Proof

/-! ### The words of frame type A -/

/-- Where word `j` starts, in a walk whose first word has at most `blk` data bytes. -/
def wordStart (blk : Nat) : Nat → Nat
  | 0 => 0
  | j + 1 => blk + 2 + 18 * j

/-- The number of data bytes word `j` has at most. -/
def wordMax (blk : Nat) : Nat → Nat
  | 0 => blk
  | _ + 1 => 16

/-- Word `j` of a telegram. -/
def wordAt (blk : Nat) (t : List Byte) (j : Nat) : List Byte := (t.drop (wordStart blk j)).take (wordMax blk j + 2)

theorem wordStart_succ (blk j : Nat) : wordStart blk (j + 1) = blk + 2 + wordStart 16 j := by
  cases j with
  | zero => rfl
  | succ j => rw [wordStart, wordStart]; omega

theorem wordMax_succ (blk j : Nat) : wordMax blk (j + 1) = wordMax 16 j := by cases j <;> rfl

theorem wordAt_zero (blk : Nat) (t : List Byte) : wordAt blk t 0 = t.take (blk + 2) := rfl

theorem wordAt_succ (blk : Nat) (t : List Byte) (j : Nat) : wordAt blk t (j + 1) = wordAt 16 (t.drop (blk + 2)) j := by
  rw [wordAt, wordAt, wordStart_succ, wordMax_succ, List.drop_drop]

/-- A word with room for its CRC field, taken apart. -/
theorem blockOf_wordAt (blk : Nat) {t : List Byte} {j : Nat} (h : wordStart blk j + 2 ≤ t.length) :
    blockOf (wordAt blk t j) =
      ⟨(t.drop (wordStart blk j)).take (min (wordMax blk j) (t.length - wordStart blk j - 2)),
        crcField t (wordStart blk j + min (wordMax blk j) (t.length - wordStart blk j - 2))⟩ := by
  have hlen : (wordAt blk t j).length - 2 = min (wordMax blk j) (t.length - wordStart blk j - 2) := by
    rw [wordAt, List.length_take, List.length_drop]; omega
  rw [blockOf, hlen, wordAt, List.take_take, Nat.min_eq_left (by omega), ← crcField_drop,
    ← crcField_append_left _ ((t.drop (wordStart blk j)).drop (wordMax blk j + 2)) _
      (by rw [List.length_take, List.length_drop]; omega), List.take_append_drop]

/-- The check over the walk, word by word. -/
theorem walkOk_iff (poly : BitVec 16) (fuel blk : Nat) (t : List Byte) (hfuel : t.length ≤ fuel) :
    walkOk poly fuel blk t = true ↔ ∀ j, wordStart blk j < t.length →
      wordStart blk j + 2 ≤ t.length ∧ blockOk poly (blockOf (wordAt blk t j)) = true := by
  induction fuel generalizing blk t with
  | zero =>
    obtain rfl : t = [] := List.eq_nil_of_length_eq_zero (by omega)
    simp [walkOk_nil]
  | succ fuel ih =>
    obtain h0 | h1 | h2 : t.length = 0 ∨ t.length = 1 ∨ 2 ≤ t.length := by omega
    · obtain rfl : t = [] := List.eq_nil_of_length_eq_zero h0
      simp [walkOk_nil]
    · rw [walkOk_one _ _ _ h1]
      refine iff_of_false Bool.false_ne_true fun h => ?_
      obtain ⟨hroom, -⟩ := h 0 (by rw [wordStart]; omega)
      omega
    · have hrest : (t.drop (blk + 2)).length = t.length - (blk + 2) := List.length_drop
      rw [walkOk_cons _ _ _ h2, Bool.and_eq_true, ih _ _ (by omega)]
      refine (and_congr ?_ (forall_congr' fun j => ?_)).trans Nat.and_forall_add_one
      · have hpos : wordStart blk 0 < t.length := by rw [wordStart]; omega
        have hroom : wordStart blk 0 + 2 ≤ t.length := by rwa [wordStart, Nat.zero_add]
        exact ⟨fun hword _ => ⟨hroom, hword⟩, fun h => (h hpos).2⟩
      · rw [wordStart_succ, wordAt_succ, hrest, Nat.lt_sub_iff_add_lt', Nat.add_assoc (blk + 2)]
        exact imp_congr_right fun hlt => and_congr_left' (by omega)

theorem walkData_short (fuel blk : Nat) {t : List Byte} (h : t.length < 2) : walkData fuel blk t = [] := by
  obtain h0 | h1 : t.length = 0 ∨ t.length = 1 := by omega
  · rw [List.eq_nil_of_length_eq_zero h0, walkData_nil]
  · obtain ⟨x, rfl⟩ := List.length_eq_one_iff.mp h1
    cases fuel <;> rfl

/-- The stripped bytes, word by word, over any range that holds all words. -/
theorem walkData_eq (fuel blk n : Nat) (t : List Byte) (hfuel : t.length ≤ fuel) (hn : t.length ≤ n) :
    walkData fuel blk t = (List.range n).flatMap fun j =>
      if wordStart blk j + 2 ≤ t.length then (blockOf (wordAt blk t j)).data else [] := by
  induction fuel generalizing blk n t with
  | zero =>
    obtain rfl : t = [] := List.eq_nil_of_length_eq_zero (by omega)
    simp [walkData_nil]
  | succ fuel ih =>
    rcases Nat.lt_or_ge t.length 2 with hshort | h2
    · have hnone (j : Nat) : ¬ wordStart blk j + 2 ≤ t.length := by omega
      simp [hnone, walkData_short _ _ hshort]
    · obtain ⟨n, rfl⟩ : ∃ m, n = m + 1 := ⟨n - 1, by omega⟩
      have hrest : (t.drop (blk + 2)).length = t.length - (blk + 2) := List.length_drop
      have hroom : wordStart blk 0 + 2 ≤ t.length := by rwa [wordStart, Nat.zero_add]
      rw [walkData_cons _ _ h2, ih 16 n _ (by omega) (by omega), List.range_succ_eq_map, List.flatMap_cons,
        List.flatMap_map, if_pos hroom, wordAt_zero]
      congr 2
      funext j
      rw [wordStart_succ, wordAt_succ, hrest, Nat.add_assoc (blk + 2)]
      exact if_congr (by omega) rfl rfl

/-! ### The obligation -/

theorem blockOk_iff_toNat (poly : BitVec 16) (data t : List Byte) (pos : Nat) :
    blockOk poly ⟨data, crcField t pos⟩ = true ↔
      (crc16 poly data).toNat = 256 * (t.getD pos 0).toNat + (t.getD (pos + 1) 0).toNat := by
  rw [blockOk_iff, ← BitVec.toNat_inj, crcField_toNat]

/-- The words of a frame type A telegram, as the rules give them. -/
theorem wordStart_ten (j : Nat) : wordStart 10 j = if j = 0 then 0 else 12 + 18 * (j - 1) := by cases j <;> rfl

theorem wordMax_ten (j : Nat) : wordMax 10 j = if j = 0 then 10 else 16 := by cases j <;> rfl

section
variable {t : List Byte} {start dlen : Nat → Nat} (hstart : ∀ j, start j = if j = 0 then 0 else 12 + 18 * (j - 1))
  (hdlen : ∀ j, dlen j = min (if j = 0 then 10 else 16) (t.length - start j - 2))
include hstart hdlen

theorem blockOf_wordAt_ten {j : Nat} (h : start j + 2 ≤ t.length) :
    blockOf (wordAt 10 t j) = ⟨(t.drop (start j)).take (dlen j), crcField t (start j + dlen j)⟩ := by
  rw [hdlen, hstart, ← wordStart_ten, ← wordMax_ten]
  exact blockOf_wordAt 10 (by rwa [wordStart_ten, ← hstart])

/-- The check of frame type A in closed form. -/
theorem crcchkA_iff (poly : BitVec 16) :
    crcchkA poly t = true ↔ ∀ j, start j < t.length → start j + 2 ≤ t.length ∧
      (crc16 poly ((t.drop (start j)).take (dlen j))).toNat =
        256 * (t.getD (start j + dlen j) 0).toNat + (t.getD (start j + dlen j + 1) 0).toNat := by
  rw [crcchkA_eq_walkOk, walkOk_iff _ _ _ _ (Nat.le_refl _)]
  refine forall_congr' fun j => ?_
  rw [wordStart_ten, ← hstart]
  refine imp_congr_right fun _ => and_congr_right fun hroom => ?_
  rw [blockOf_wordAt_ten hstart hdlen hroom, blockOk_iff_toNat]

/-- The stripping of frame type A in closed form. -/
theorem stripA_eq : stripA t = (List.range t.length).flatMap fun j =>
    if start j + 2 ≤ t.length then (t.drop (start j)).take (dlen j) else [] := by
  rw [stripA_eq_walkData, walkData_eq _ _ _ _ (Nat.le_refl _) (Nat.le_refl _)]
  congr 1
  funext j
  rw [wordStart_ten, ← hstart]
  split
  next hroom => rw [blockOf_wordAt_ten hstart hdlen hroom]
  next => rfl

end

/-- The check of frame type B on one word. -/
theorem crcchkB_iff_of_le (poly : BitVec 16) {t : List Byte} (h2 : 2 ≤ t.length) (h : t.length ≤ 128) :
    crcchkB poly t = true ↔ (crc16 poly (t.take (t.length - 2))).toNat =
      256 * (t.getD (t.length - 2) 0).toNat + (t.getD (t.length - 1) 0).toNat := by
  have hlast : t.length - 2 + 1 = t.length - 1 := by omega
  rw [crcchkB_of_le _ h2 h, blockOf, blockOk_iff_toNat, hlast]

/-- The check of frame type B on two words. -/
theorem crcchkB_iff_of_ge (poly : BitVec 16) {t : List Byte} (h : 130 ≤ t.length) :
    crcchkB poly t = true ↔
      (crc16 poly (t.take 126)).toNat = 256 * (t.getD 126 0).toNat + (t.getD 127 0).toNat ∧
        (crc16 poly ((t.drop 128).take (t.length - 130))).toNat =
          256 * (t.getD (t.length - 2) 0).toNat + (t.getD (t.length - 1) 0).toNat := by
  have hlast : t.length - 2 + 1 = t.length - 1 := by omega
  rw [crcchkB_of_ge _ h, Bool.and_eq_true, blockOf_take_128 (by omega), blockOf_drop_128 h, blockOk_iff_toNat,
    blockOk_iff_toNat, hlast]

theorem stripB_eq (t : List Byte) :
    stripB t = if t.length ≤ 128 then t.take (t.length - 2)
      else if t.length = 129 then t.take 126
      else t.take 126 ++ (t.drop 128).take (t.length - 130) := by
  have h129 : ¬ t.length ≤ 128 → (t.length - 128 < 2 ↔ t.length = 129) := by omega
  rw [stripB]
  exact ite_congr rfl (fun _ => rfl) fun h => if_congr (h129 h) rfl rfl

/-- Settles O48: frame type A word by word, frame type B by the telegram's length. -/
theorem crcPartition : Obligations.CrcPartition := by
  refine ⟨fun s t start dlen hstart hdlen => ⟨⟨_, exec_crcchkA s t, crcchkA_iff hstart hdlen _⟩, ?_⟩,
    fun s t h2 => ⟨⟨_, exec_crcchkB s t, crcchkB_iff_of_le _ h2, crcchkB_of_129 _, crcchkB_iff_of_ge _⟩, ?_⟩⟩
  · rw [exec_stripA, stripA_eq hstart hdlen]
  · rw [exec_stripB, stripB_eq t]

end Sys2Proof.Machine
end

section
/-! PROOFS. The system operations (46_system_ops.md): the tests of `CFG.LOAD` read from the number of its word, `CHUNK` as
its samples, and `END`. `CHUNK` is insensitive to how the stream is cut because a sample looks neither at the bytes still
to come nor at the size of a chunk: `State.fed` changes both, and every part of a sample commutes with it. -/

namespace Sys2Proof.Machine

open Sys2Proof

/-! ### The fields of the configuration word as numbers (30_encoding.md rule R123) -/

theorem cfgDecim_eq_toNat (w : BitVec 32) : cfgDecim w = w.toNat % 256 := by
  simp [cfgDecim, BitVec.extractLsb'_toNat]

theorem cfgReserved_eq_zero_iff (w : BitVec 32) : cfgReserved w = 0 ↔ w.toNat / 2 ^ 18 = 0 := by
  have hlt : w.toNat / 2 ^ 18 < 2 ^ 14 := Nat.div_lt_of_lt_mul w.isLt
  rw [cfgReserved, ← BitVec.toNat_inj, BitVec.extractLsb'_toNat, Nat.shiftRight_eq_div_pow, Nat.mod_eq_of_lt hlt]
  rfl

theorem cfgAtanSel_eq_three_iff (w : BitVec 32) : cfgAtanSel w = 3 ↔ w.toNat / 2 ^ 13 % 4 = 3 := by
  rw [cfgAtanSel, ← BitVec.toNat_inj, BitVec.extractLsb'_toNat, Nat.shiftRight_eq_div_pow]
  rfl

/-! ### `CFG.LOAD` (46_system_ops.md rule R341) -/

/-- The tests of rule R341 as an accepted word passes them. -/
theorem cfgLegal_iff (par : Par) (w : BitVec 32) :
    cfgLegal par w = true ↔
      w.toNat / 2 ^ 18 = 0 ∧
      (w.toNat % 256 ≠ 0 ∧ par.chunkBytes / 2 % (w.toNat % 256) = 0) ∧
      (w.toNat.testBit 8 = true ∨ w.toNat.testBit 9 = true) ∧
      (w.toNat.testBit 10 = true ∨ w.toNat.testBit 11 = true) ∧
      (w.toNat.testBit 12 = true → w.toNat.testBit 10 = true ∧ w.toNat.testBit 11 = true) ∧
      (w.toNat / 2 ^ 13 % 4 = 3 → w.toNat.testBit 9 = false) ∧
      (par.feKind = .ppf → w.toNat % 256 = par.ppP) := by
  simp only [cfgLegal, cfgReserved_eq_zero_iff, cfgDecim_eq_toNat, cfgAtanSel_eq_three_iff, cfgRlEn, cfgT2En, cfgT1c1En,
    cfgS1En, cfgDual, ← BitVec.testBit_toNat, Bool.and_eq_true, Bool.or_eq_true, Bool.not_eq_true',
    Bool.and_eq_false_iff, decide_eq_true_eq, decide_eq_false_iff_not]
  grind

theorem execCfgLoad_of_legal {s : State} {w : BitVec 32} (hphase : s.phase = .configuring)
    (h : cfgLegal s.par w = true) : execCfgLoad w s = .next { s with cfg := w, ret := [.status true] } := by
  simp only [execCfgLoad, hphase, h, if_true]

theorem execCfgLoad_of_illegal {s : State} {w : BitVec 32} (hphase : s.phase = .configuring)
    (h : ¬ cfgLegal s.par w = true) :
    execCfgLoad w s = .next { s with io := s.io.note (eventCore .cfg), ret := [.status false] } := by
  simp only [execCfgLoad, hphase, if_neg h]

/-- Settles O8: the tests refuse exactly the words that are not legal. -/
theorem cfgLoadValidates : Obligations.CfgLoadValidates := by
  intro s w hphase
  split
  next hrefused =>
    refine execCfgLoad_of_illegal hphase fun hlegal => ?_
    have htests := (cfgLegal_iff s.par w).1 hlegal
    grind
  next hpassed =>
    refine execCfgLoad_of_legal hphase ((cfgLegal_iff s.par w).2 ?_)
    grind

/-! ### `END` (46_system_ops.md rule R343) -/

/-- Settles O11: outside the phase `ended` the operation has no other case. -/
theorem endDiscards : Obligations.EndDiscards := fun _ _ hphase => if_neg hphase

/-! ### `CHUNK` (46_system_ops.md rule R342) -/

theorem exec_chunk {s : State} (hphase : s.phase ≠ .ended) (hinp : s.par.chunkBytes ≤ s.inp.length) :
    exec .chunk s = .next (runChunk s) := by
  show execChunk s = _
  rw [execChunk, if_neg hphase, if_neg (Nat.not_lt.mpr hinp)]

/-- Settles O9: the operations leave what the samples leave, and the tokens and the phase are the chunk's own. -/
theorem chunkRunsSamples : Obligations.ChunkRunsSamples := by
  intro s hphase hinp
  obtain ⟨toks, p, hrun⟩ :=
    runOps_sampleOps (s.inp.take s.par.chunkBytes) { s with inp := s.inp.drop s.par.chunkBytes }
  exact ⟨_, hrun, exec_chunk hphase hinp⟩

/-! ### A sample reads neither the stream nor the size of a chunk -/

/-- The constants with another size of a chunk. -/
def resized (par : Par) (n : Nat) : Par := { par with chunkBytes := n }

/-- The state with another size of a chunk and other bytes to come. -/
def State.fed (s : State) (n : Nat) (bytes : List Byte) : State := { s with par := resized s.par n, inp := bytes }

/-- The bits of a run are the one place where `PAR` goes through a recursion. -/
theorem runBits_resized {δ : Type} (par : Par) (n : Nat) (c : Chain) (dlv : δ → BitTok → Io → δ × Io) (level : Bool)
    (rssi : NumT) (k : Nat) : ∀ (sr : BitVec 32) (d : δ) (io : Io),
      runBits (resized par n) c dlv level rssi k sr d io = runBits par c dlv level rssi k sr d io := by
  have hacorr : acorr (resized par n) = acorr par := rfl
  induction k with
  | zero => exact fun _ _ _ => rfl
  | succ k ih =>
    intro sr d io
    simp only [runBits, hacorr, ih]

theorem rlRun_resized (par : Par) (n : Nat) : rlRun (resized par n) = rlRun par := by
  funext rl d io level run rssi
  simp only [rlRun, runBits_resized]
  rfl

theorem rls1Run_resized (par : Par) (n : Nat) : rls1Run (resized par n) = rls1Run par := by
  funext rl d io level run rssi
  simp only [rls1Run, runBits_resized]
  rfl

theorem rlStep_resized (par : Par) (n : Nat) : rlStep (resized par n) = rlStep par := by
  funext ch io tok
  simp only [rlStep, rlRun_resized]
  rfl

theorem rls1Step_resized (par : Par) (n : Nat) : rls1Step (resized par n) = rls1Step par := by
  funext ch io tok
  simp only [rls1Step, rls1Run_resized]
  rfl

theorem demodStepT_resized (par : Par) (n : Nat) : demodStepT (resized par n) = demodStepT par := by
  funext cfg ch io i q
  simp only [demodStepT, rlStep_resized]
  rfl

theorem demodStepS_resized (par : Par) (n : Nat) : demodStepS (resized par n) = demodStepS par := by
  funext cfg ch io i q
  simp only [demodStepS, rls1Step_resized]
  rfl

theorem demodStep_fed (s : State) (n : Nat) (bs : List Byte) (c : Chain) (i q : NumT) :
    demodStep (s.fed n bs) c i q = (demodStep s c i q).fed n bs := by
  cases c with
  | T => simp only [demodStep, State.fed, demodStepT_resized]; rfl
  | S => simp only [demodStep, State.fed, demodStepS_resized]; rfl

theorem demodIfEnabled_fed (s : State) (n : Nat) (bs : List Byte) (c : Chain) (v : Option Iq) :
    demodIfEnabled (s.fed n bs) c v = (demodIfEnabled s c v).fed n bs := by
  cases v with
  | none => rfl
  | some p =>
    have hcfg : (s.fed n bs).cfg = s.cfg := rfl
    simp only [demodIfEnabled, demodStep_fed, hcfg]
    split <;> rfl

theorem routeInput_fed (s : State) (n : Nat) (bs : List Byte) (p : Iq) :
    routeInput (s.fed n bs) p = ((routeInput s p).1, (routeInput s p).2.fed n bs) := by
  by_cases hdual : cfgDual s.cfg = true
  · rw [routeInput, routeInput, if_pos hdual, if_pos (show cfgDual (s.fed n bs).cfg = true from hdual)]
    rfl
  · rw [routeInput, routeInput, if_neg hdual, if_neg (show ¬ cfgDual (s.fed n bs).cfg = true from hdual)]

theorem runFeLpf_fed (s : State) (n : Nat) (bs : List Byte) (c : Chain) (p : Iq) :
    runFeLpf (s.fed n bs) c p = ((runFeLpf s c p).1, (runFeLpf s c p).2.fed n bs) := by
  cases c <;> rfl

theorem feIfEnabled_fed (s : State) (n : Nat) (bs : List Byte) (c : Chain) (p : Iq) :
    feIfEnabled (s.fed n bs) c p = ((feIfEnabled s c p).1, (feIfEnabled s c p).2.fed n bs) := by
  have hcfg : (s.fed n bs).cfg = s.cfg := rfl
  simp only [feIfEnabled, runFeLpf_fed, hcfg]
  split <;> rfl

theorem runDecim_fed (s : State) (n : Nat) (bs : List Byte) :
    runDecim (s.fed n bs) = ((runDecim s).1, (runDecim s).2.fed n bs) := rfl

theorem filterSample_fed (s : State) (n : Nat) (bs : List Byte) (i q : Byte) :
    filterSample (s.fed n bs) i q = ((filterSample s i q).1, (filterSample s i q).2.fed n bs) := by
  have hdcrem : dcrem (s.fed n bs).par = dcrem s.par := rfl
  simp only [filterSample, runFilters, hdcrem, routeInput_fed, feIfEnabled_fed]

theorem sampleStep_fed (s : State) (n : Nat) (bs : List Byte) (i q : Byte) :
    sampleStep (s.fed n bs) i q = (sampleStep s i q).fed n bs := by
  simp only [sampleStep_eq, forwardSample, filterSample_fed, runDecim_fed, demodIfEnabled_fed]
  split <;> rfl

theorem runSamples_fed (n : Nat) (bs bytes : List Byte) :
    ∀ s : State, runSamples (s.fed n bs) bytes = (runSamples s bytes).fed n bs := by
  match bytes with
  | [] => exact fun _ => rfl
  | [_] => exact fun _ => rfl
  | i :: q :: rest =>
    intro s
    simp only [runSamples, sampleStep_fed, runSamples_fed n bs rest]

/-! ### Where the stream is cut -/

/-- What a chunk leaves: its samples run on the state, the rest of the stream, and the tokens. -/
theorem runChunk_eq (s : State) :
    runChunk s = ((runSamples s (s.inp.take s.par.chunkBytes)).fed s.par.chunkBytes (s.inp.drop s.par.chunkBytes)).told
      (newTelegrams s.io (runSamples s (s.inp.take s.par.chunkBytes)).io) .running := by
  have hcut : { s with inp := s.inp.drop s.par.chunkBytes } =
      s.fed s.par.chunkBytes (s.inp.drop s.par.chunkBytes) := rfl
  rw [runChunk, hcut, runSamples_fed]
  rfl

theorem runChunk_inp (s : State) : (runChunk s).inp = s.inp.drop s.par.chunkBytes := by
  rw [runChunk_eq]
  rfl

/-- The first `n` bytes of a stream as one chunk: what both sides of O10 come to, the returned tokens aside. -/
def State.received (s : State) (n : Nat) : State :=
  { runSamples s (s.inp.take n) with par := s.par, inp := s.inp.drop n, ret := [], phase := .running }

/-- Two chunks run the samples of twice as many bytes. -/
theorem runChunk_runChunk (s : State) (heven : s.par.chunkBytes % 2 = 0)
    (hinp : 2 * s.par.chunkBytes ≤ s.inp.length) :
    { runChunk (runChunk s) with ret := [] } = s.received (2 * s.par.chunkBytes) := by
  have hlength : (s.inp.take s.par.chunkBytes).length = 2 * (s.par.chunkBytes / 2) := by
    rw [List.length_take]
    omega
  have hdrop : (s.inp.drop s.par.chunkBytes).drop s.par.chunkBytes = s.inp.drop (2 * s.par.chunkBytes) := by
    rw [List.drop_drop, two_mul]
  have hpar : (runSamples s (s.inp.take (2 * s.par.chunkBytes))).par = s.par := (runSamples_frame _ s).par
  have hsamples : runSamples (runChunk s) ((s.inp.drop s.par.chunkBytes).take s.par.chunkBytes) =
      ((runSamples s (s.inp.take (2 * s.par.chunkBytes))).fed s.par.chunkBytes (s.inp.drop s.par.chunkBytes)).told
        (newTelegrams s.io (runSamples s (s.inp.take s.par.chunkBytes)).io) .running := by
    rw [runChunk_eq, runSamples_told, runSamples_fed, ← runSamples_append _ _ _ _ hlength, ← List.take_add, two_mul]
  rw [runChunk_eq (runChunk s), runChunk_inp, (runChunk_frame s).par, hdrop, hsamples]
  simp only [State.received, State.told, State.fed, resized, hpar]

/-- A chunk of another size runs the samples of that many bytes. -/
theorem runChunk_resized (s : State) (n : Nat) :
    { runChunk (s.fed n s.inp) with par := s.par, ret := [] } = s.received n := by
  rw [runChunk_eq, runSamples_fed]
  rfl

/-- Settles O10: cut either way, the bytes are the same samples, and a sample does not see the cut. -/
theorem chunkSplit : Obligations.ChunkSplit := by
  intro s hphase heven hinp
  have hsecond : (runChunk s).par.chunkBytes ≤ (runChunk s).inp.length := by
    rw [(runChunk_frame s).par, runChunk_inp, List.length_drop]
    omega
  refine ⟨runChunk s, runChunk (runChunk s), runChunk (s.fed (2 * s.par.chunkBytes) s.inp),
    exec_chunk hphase (by omega), exec_chunk (by simp [runChunk]) hsecond, exec_chunk hphase hinp, ?_⟩
  rw [runChunk_runChunk s heven hinp]
  exact runChunk_resized s _

end Sys2Proof.Machine
end

section
/-! PROOFS. The two directions of the encoding (30_encoding.md rules R126 and R127). Decoding an encoding is
`OperandsRoundTrip`, operation by operation. For the other direction `Reads` follows a reader over the bytes it has
taken: `Reads.andThen` extends them by one item, so that at the end they are the bytes the encoder writes. -/

namespace Sys2Proof

/-! ### Decoding an encoding -/

theorem operandsRoundTrip : ∀ i : Instr, Laws.OperandsRoundTrip.Statement i
  | .reset => Laws.OperandsRoundTrip.reset
  | .cfgLoad w => Laws.OperandsRoundTrip.cfgLoad w
  | .chunk => Laws.OperandsRoundTrip.chunk
  | .endStream k => Laws.OperandsRoundTrip.endStream k
  | .tsGet => Laws.OperandsRoundTrip.tsGet
  | .firStep f x => Laws.OperandsRoundTrip.firStep f x
  | .iirStep c x => Laws.OperandsRoundTrip.iirStep c x
  | .ppfStep c ch x => Laws.OperandsRoundTrip.ppfStep c ch x
  | .mavgStep c ch x => Laws.OperandsRoundTrip.mavgStep c ch x
  | .dcrem i q => Laws.OperandsRoundTrip.dcrem i q
  | .fsplit i q => Laws.OperandsRoundTrip.fsplit i q
  | .feLpf c i q => Laws.OperandsRoundTrip.feLpf c i q
  | .decim => Laws.OperandsRoundTrip.decim
  | .sampleStep i q => Laws.OperandsRoundTrip.sampleStep i q
  | .pdiscExact c i q => Laws.OperandsRoundTrip.pdiscExact c i q
  | .pdiscFull c i q => Laws.OperandsRoundTrip.pdiscFull c i q
  | .pdiscRestr c i q => Laws.OperandsRoundTrip.pdiscRestr c i q
  | .pdiscSign c i q => Laws.OperandsRoundTrip.pdiscSign c i q
  | .postlpf c x => Laws.OperandsRoundTrip.postlpf c x
  | .dcblock c x => Laws.OperandsRoundTrip.dcblock c x
  | .slice c d => Laws.OperandsRoundTrip.slice c d
  | .rssi c i q => Laws.OperandsRoundTrip.rssi c i q
  | .demodStep c i q => Laws.OperandsRoundTrip.demodStep c i q
  | .acorr c a b r => Laws.OperandsRoundTrip.acorr c a b r
  | .t2Step c tok => Laws.OperandsRoundTrip.t2Step c tok
  | .deglitch c r => Laws.OperandsRoundTrip.deglitch c r
  | .rlStep tok => Laws.OperandsRoundTrip.rlStep tok
  | .rlRun level run r => Laws.OperandsRoundTrip.rlRun level run r
  | .rlReset c => Laws.OperandsRoundTrip.rlReset c
  | .rls1Step tok => Laws.OperandsRoundTrip.rls1Step tok
  | .rls1Run level run r => Laws.OperandsRoundTrip.rls1Run level run r
  | .t1c1Bit a tok => Laws.OperandsRoundTrip.t1c1Bit a tok
  | .t1c1Idle a tok => Laws.OperandsRoundTrip.t1c1Idle a tok
  | .t1c1Lfield a tok => Laws.OperandsRoundTrip.t1c1Lfield a tok
  | .t1c1C1trailer a tok => Laws.OperandsRoundTrip.t1c1C1trailer a tok
  | .t1c1C1len a tok => Laws.OperandsRoundTrip.t1c1C1len a tok
  | .t1c1DataT1 a tok => Laws.OperandsRoundTrip.t1c1DataT1 a tok
  | .t1c1DataC1 a tok => Laws.OperandsRoundTrip.t1c1DataC1 a tok
  | .t1c1Done a tok => Laws.OperandsRoundTrip.t1c1Done a tok
  | .decReset c a => Laws.OperandsRoundTrip.decReset c a
  | .s1Bit a tok => Laws.OperandsRoundTrip.s1Bit a tok
  | .s1Idle a tok => Laws.OperandsRoundTrip.s1Idle a tok
  | .s1Len a tok => Laws.OperandsRoundTrip.s1Len a tok
  | .s1Data a tok => Laws.OperandsRoundTrip.s1Data a tok
  | .s1Done a tok => Laws.OperandsRoundTrip.s1Done a tok
  | .crc16 t => Laws.OperandsRoundTrip.crc16 t
  | .crcchkA t => Laws.OperandsRoundTrip.crcchkA t
  | .crcchkB t => Laws.OperandsRoundTrip.crcchkB t
  | .stripA t => Laws.OperandsRoundTrip.stripA t
  | .stripB t => Laws.OperandsRoundTrip.stripB t
  | .serial p => Laws.OperandsRoundTrip.serial p
  | .emit c a mode => Laws.OperandsRoundTrip.emit c a mode

theorem decode_cons (op : Byte) (bs : List Byte) :
    decode (op :: bs) = andThen (decodeOperands op bs) fun i rest =>
      if i.wellFormed then .ok (i, rest) else .error .operandRange := rfl

/-- Settles O3: the index selects the operation's own reader, which undoes its writer, and the range check passes. -/
theorem decodeEncode : Obligations.DecodeEncode := by
  intro i rest hwf
  rw [encode, List.cons_append, decode_cons, operandsRoundTrip i hwf rest, andThen_ok, if_pos hwf]

/-! ### Encoding what was decoded -/

/-- A reader that has taken the bytes `pre` and stands before `bs` answers `r`: where that is an item, the bytes taken
from the whole are the ones `put` writes for it. -/
def Reads {α : Type} (put : α → List Byte) (pre bs : List Byte) (r : Parse α) : Prop :=
  ∀ a rest, r = .ok (a, rest) → pre ++ bs = put a ++ rest

section
variable {α β : Type} {put : α → List Byte} {pre bs : List Byte}

theorem Reads.done {a : α} (h : pre = put a) : Reads put pre bs (.ok (a, bs)) := by
  rintro _ _ ⟨⟩
  rw [h]

theorem Reads.error (e : DecodeError) : Reads put pre bs (.error e) := nofun

/-- One item more, by a reader that undoes `put'`. -/
theorem Reads.andThen {get : List Byte → Parse β} {put' : β → List Byte} {f : β → List Byte → Parse α}
    (hget : ∀ {bs b rest}, get bs = .ok (b, rest) → bs = put' b ++ rest)
    (hf : ∀ b rest, Reads put (pre ++ put' b) rest (f b rest)) : Reads put pre bs (andThen (get bs) f) := by
  intro a rest h
  obtain ⟨b, mid, hb, ha⟩ := andThen_eq_ok h
  rw [hget hb, ← List.append_assoc, hf b mid a rest ha]

end

/-! ### The readers of whole operations -/

section
variable {op : Byte} {bs : List Byte}

theorem Reads.sample {f : Byte → Byte → Instr} (hf : ∀ i q, encode (f i q) = [op, i, q]) :
    Reads encode [op] bs (getSample f bs) :=
  have hget : ∀ {bs : List Byte} {b : Byte} {rest : List Byte}, getByte bs = .ok (b, rest) → bs = [b] ++ rest :=
    getByte_eq_ok
  .andThen (put' := fun b => [b]) hget fun i _ => .andThen (put' := fun b => [b]) hget fun q _ => .done (hf i q).symm

theorem Reads.iq {pre : List Byte} {f : NumT → NumT → Instr}
    (hf : ∀ i q, encode (f i q) = pre ++ putNum i ++ putNum q) : Reads encode pre bs (getIq f bs) :=
  .andThen getNum_eq_ok fun i _ => .andThen getNum_eq_ok fun q _ => .done (hf i q).symm

theorem Reads.chainIq {f : Chain → NumT → NumT → Instr}
    (hf : ∀ c i q, encode (f c i q) = op :: (putChain c ++ putNum i ++ putNum q)) :
    Reads encode [op] bs (getChainIq f bs) :=
  .andThen getChain_eq_ok fun c _ => .iq (hf c)

theorem Reads.chainNum {f : Chain → NumT → Instr} (hf : ∀ c x, encode (f c x) = op :: (putChain c ++ putNum x)) :
    Reads encode [op] bs (getChainNum f bs) :=
  .andThen getChain_eq_ok fun c _ => .andThen getNum_eq_ok fun x _ => .done (hf c x).symm

theorem Reads.feNum {f : Chain → Chan → NumT → Instr}
    (hf : ∀ c x v, encode (f c x v) = op :: (putChain c ++ putChan x ++ putNum v)) :
    Reads encode [op] bs (getFeNum f bs) :=
  .andThen getChain_eq_ok fun c _ => .andThen getChan_eq_ok fun x _ => .andThen getNum_eq_ok fun v _ =>
    .done (hf c x v).symm

theorem Reads.run {f : Bool → Nat → NumT → Instr}
    (hf : ∀ l n x, encode (f l n x) = op :: (putBit l ++ putNat n ++ putNum x)) :
    Reads encode [op] bs (getRun f bs) :=
  .andThen getBit_eq_ok fun l _ => .andThen getNat_eq_ok fun n _ => .andThen getNum_eq_ok fun x _ =>
    .done (hf l n x).symm

theorem Reads.decBit {f : Syn → BitTok → Instr} (hf : ∀ a t, encode (f a t) = op :: (putSyn a ++ putBitTok t)) :
    Reads encode [op] bs (getDecBit f bs) :=
  .andThen getSyn_eq_ok fun a _ => .andThen getBitTok_eq_ok fun t _ => .done (hf a t).symm

theorem Reads.seq {low : Nat} {f : List Byte → Instr} (hf : ∀ t, encode (f t) = op :: putSeq low t) :
    Reads encode [op] bs (getSeqInstr low f bs) :=
  .andThen (fun h => (getSeq_eq_ok h).1) fun t _ => .done (hf t).symm

/-- An index is known by its number. -/
theorem Reads.index {n : Nat} {r : Parse Instr} (hop : op.toNat = n) (h : Reads encode [BitVec.ofNat 8 n] bs r) :
    Reads encode [op] bs r := by
  have hop' : op = BitVec.ofNat 8 n := by rw [← hop, BitVec.ofNat_toNat, BitVec.setWidth_eq]
  rwa [hop']

end

/-- Under each index of 30_encoding.md rule R127 its operation is read; no other byte has a reader. -/
theorem decodeOperands_reads (op : Byte) (bs : List Byte) : Reads encode [op] bs (decodeOperands op bs) := by
  unfold decodeOperands
  split
  -- 0x00 to 0x04: the system operations
  next h => exact .index h (.done rfl)
  next h => exact .index h (.andThen getCfgWord_eq_ok fun _ _ => .done rfl)
  next h => exact .index h (.done rfl)
  next h => exact .index h (.andThen getNat_eq_ok fun _ _ => .done rfl)
  next h => exact .index h (.done rfl)
  -- 0x10 to 0x13: the filters
  next h => exact .index h (.andThen getFirInst_eq_ok fun _ _ => .andThen getNum_eq_ok fun _ _ => .done rfl)
  next h => exact .index h (.chainNum fun _ _ => rfl)
  next h => exact .index h (.feNum fun _ _ _ => rfl)
  next h => exact .index h (.feNum fun _ _ _ => rfl)
  -- 0x20 to 0x24: the front end
  next h => exact .index h (.sample fun _ _ => rfl)
  next h => exact .index h (.iq fun _ _ => rfl)
  next h => exact .index h (.chainIq fun _ _ _ => rfl)
  next h => exact .index h (.done rfl)
  next h => exact .index h (.sample fun _ _ => rfl)
  -- 0x30 to 0x38: the demodulator
  iterate 4 next h => exact .index h (.chainIq fun _ _ _ => rfl)
  iterate 3 next h => exact .index h (.chainNum fun _ _ => rfl)
  iterate 2 next h => exact .index h (.chainIq fun _ _ _ => rfl)
  -- 0x40 to 0x47: the synchronizers
  next h =>
    exact .index h (.andThen getChain_eq_ok fun _ _ => .andThen getSyn_eq_ok fun _ _ => .andThen getBit_eq_ok fun _ _ =>
      .andThen getNum_eq_ok fun _ _ => .done rfl)
  next h => exact .index h (.andThen getChain_eq_ok fun _ _ => .andThen getRawTok_eq_ok fun _ _ => .done rfl)
  next h => exact .index h (.andThen getChain_eq_ok fun _ _ => .andThen getBit_eq_ok fun _ _ => .done rfl)
  next h => exact .index h (.andThen getRawTok_eq_ok fun _ _ => .done rfl)
  next h => exact .index h (.run fun _ _ _ => rfl)
  next h => exact .index h (.andThen getChain_eq_ok fun _ _ => .done rfl)
  next h => exact .index h (.andThen getRawTok_eq_ok fun _ _ => .done rfl)
  next h => exact .index h (.run fun _ _ _ => rfl)
  -- 0x50 to 0x64: the decoders
  iterate 8 next h => exact .index h (.decBit fun _ _ => rfl)
  next h => exact .index h (.andThen getChain_eq_ok fun _ _ => .andThen getSyn_eq_ok fun _ _ => .done rfl)
  iterate 5 next h => exact .index h (.decBit fun _ _ => rfl)
  -- 0x70 to 0x76: the framing helpers
  iterate 6 next h => exact .index h (.seq fun _ => rfl)
  next h =>
    exact .index h (.andThen getChain_eq_ok fun _ _ => .andThen getSyn_eq_ok fun _ _ =>
      .andThen getMode_eq_ok fun _ _ => .done rfl)
  -- every other byte
  next => exact .error _

/-- Settles O4: the bytes the decoder took are those the encoder writes, and the range check passed. -/
theorem encodeDecode : Obligations.EncodeDecode := by
  intro bs i rest h
  cases bs with
  | nil => cases h
  | cons op bs =>
    obtain ⟨j, mid, hj, hchecked⟩ := andThen_eq_ok h
    split at hchecked
    next hwf =>
      cases hchecked
      exact ⟨hwf, decodeOperands_reads op bs i rest hj⟩
    next => cases hchecked

end Sys2Proof
end

section
/-! PROOFS. What the step does with the bytes it reads, the requests that are refused, `TS.GET`, `DECIM`, and the state
right after reset. -/

namespace Sys2Proof.Machine

open Sys2Proof

/-! ### The step (10_state.md rule R38) -/

theorem step_of_decode_ok {s : State} {i : Instr} {rest : List Byte} (h : decode s.ops = .ok (i, rest)) :
    step s = exec i { s with ops := rest } := by
  simp only [step, fetch, h]

theorem step_of_decode_error {s : State} {e : DecodeError} (h : decode s.ops = .error e) :
    step s = .refused (.noSuchOperation e) := by
  simp only [step, fetch, h]

/-- Settles O1: the step is a case split on what the decoder answers, and what decodes is well formed. -/
theorem stepRunsDecoded : Obligations.StepRunsDecoded := by
  refine fun s => ⟨fun i rest h => ⟨?_, step_of_decode_ok h⟩, fun e h => step_of_decode_error h⟩
  obtain ⟨hwf, -⟩ := encodeDecode s.ops i rest h
  exact hwf

/-- The bytes of a well-formed operation, alone in the stream, decode to it. -/
theorem decode_of_eq_encode {bs : List Byte} {i : Instr} (h : bs = encode i) (hwf : i.wellFormed = true) :
    decode bs = .ok (i, []) := by
  rw [h, ← List.append_nil (encode i)]
  exact decodeEncode i [] hwf

/-- Settles O2: each word is the encoding of its operation, so `decodeEncode` reads it; the last byte is no index. -/
theorem decodesWrittenWords : Obligations.DecodesWrittenWords :=
  ⟨decode_of_eq_encode (by decide) rfl, decode_of_eq_encode (by decide) rfl, decode_of_eq_encode (by decide) rfl,
    decode_of_eq_encode (by decide) rfl, decode_of_eq_encode (by decide) rfl, decode_of_eq_encode (by decide) rfl,
    decode_of_eq_encode (by decide) rfl, decode_of_eq_encode (by decide) rfl, rfl⟩

/-! ### Requests that are refused -/

theorem execCfgLoad_of_phase {s : State} (h : s.phase ≠ .configuring) (w : BitVec 32) :
    execCfgLoad w s = .refused .hostProtocol := by
  unfold execCfgLoad
  split
  next hphase => exact absurd hphase h
  next => rfl
  next => rfl

theorem runHandlerT_of_ne {s : State} {a : Syn} {st : StT} (h : (s.chT.dec a).st ≠ st) (r : DecT × Io) :
    runHandlerT s a st r = .refused .handlerNotSelected := if_neg h

theorem runHandlerS_of_ne {s : State} {a : Syn} {st : StS} (h : (s.chS.dec a).st ≠ st) (r : DecS × Io) :
    runHandlerS s a st r = .refused .handlerNotSelected := if_neg h

/-- Asked for on its own, a handler is run under the state that selects it. -/
theorem exec_handlerT_eq_runHandlerT (s : State) (a : Syn) (tok : BitTok) (st : StT) :
    ∃ r, exec (handlerT st a tok) s = runHandlerT s a st r := by
  cases st <;> exact ⟨_, rfl⟩

theorem exec_handlerS_eq_runHandlerS (s : State) (a : Syn) (tok : BitTok) (st : StS) :
    ∃ r, exec (handlerS st a tok) s = runHandlerS s a st r := by
  cases st <;> exact ⟨_, rfl⟩

theorem firState_sub_of_le {s : State} {p : Nat} (h : s.par.ppP ≤ p) (c : Chain) (x : Chan) :
    firState s (.sub c x p) = none := if_neg (Nat.not_lt.mpr h)

theorem execFirStep_of_none {s : State} {f : FirInst} (h : firState s f = none) (x : NumT) :
    execFirStep f x s = .refused .noSuchInstance := by
  simp only [execFirStep, h]

/-- Settles O7, request by request: each fails the first test of its operation that applies. -/
theorem requestsRefused : Obligations.RequestsRefused := by
  refine fun s => ⟨fun hpar => ?_, execCfgLoad_of_phase, fun hended => ⟨if_pos hended, fun _ => if_pos hended⟩,
    fun hphase hshort => ?_, fun a tok st hst => ?_, fun a tok st hst => ?_, fun c ch p x hp => ?_⟩
  · exact execReset_of_not_parOk (by simp [hpar])
  · exact (if_neg hphase).trans (if_pos hshort)
  · obtain ⟨r, hr⟩ := exec_handlerT_eq_runHandlerT s a tok st
    rw [hr, runHandlerT_of_ne hst]
  · obtain ⟨r, hr⟩ := exec_handlerS_eq_runHandlerS s a tok st
    rw [hr, runHandlerS_of_ne hst]
  · exact execFirStep_of_none (firState_sub_of_le hp c ch) x

/-! ### `TS.GET` (46_system_ops.md rule R344) -/

/-- Settles O12: the answer is the host's next timestamp, and only the count of requests is written. -/
theorem tsGetAsksHost : Obligations.TsGetAsksHost := fun _ => rfl

/-! ### `DECIM` (41_front_end.md rule R174) -/

section
variable {s : State}

theorem runDecim_of_ppf (h : s.par.feKind = .ppf) : runDecim s = (s.feValue, s) := by
  simp only [runDecim, decimGate, if_pos h]

theorem runDecim_of_last (h : s.par.feKind ≠ .ppf) (hlast : s.dcnt + 1 = cfgDecim s.cfg) :
    runDecim s = (true, { s with dcnt := 0 }) := by
  simp only [runDecim, decimGate, if_neg h, if_pos hlast]

theorem runDecim_of_not_last (h : s.par.feKind ≠ .ppf) (hlast : s.dcnt + 1 ≠ cfgDecim s.cfg) :
    runDecim s = (false, { s with dcnt := s.dcnt + 1 }) := by
  simp only [runDecim, decimGate, if_neg h, if_neg hlast]

theorem exec_decim {r : Bool × State} (h : runDecim s = r) : exec .decim s = .next (r.2.reply [.bit r.1]) := by
  rw [← h]
  rfl

end

/-- Settles O21: the gate has three cases, and the configuration's rate is the low byte of its word. -/
theorem decimCounts : Obligations.DecimCounts := by
  intro s
  rw [← cfgDecim_eq_toNat]
  exact ⟨fun h => exec_decim (runDecim_of_ppf h), fun h hlast => exec_decim (runDecim_of_last h hlast),
    fun h hlast => exec_decim (runDecim_of_not_last h hlast)⟩

/-! ### The state right after reset (10_state.md rule R49) -/

/-- The machine is built in the state that `RESET` answers. -/
theorem reset_eq_resetCore : State.reset = resetCore State.reset := rfl

theorem parOk_parInitial : parOk parInitial = true := by decide +kernel

/-- The constraints on `PAR` bound every length of the table (00_scope.md rule R6). -/
theorem lenA_le_of_parOk {par : Par} (h : parOk par = true) (l : Byte) : lenA par l ≤ 290 := by
  simp only [parOk, Bool.and_eq_true, decide_eq_true_eq, List.all_eq_true] at h
  obtain ⟨⟨-, hlength⟩, hentries⟩ := h
  have hl : l.toNat < par.lenA.length := by omega
  rw [lenA, List.getD_eq_getElem _ _ hl]
  obtain ⟨-, hle⟩ := hentries _ (List.getElem_mem hl)
  exact hle

theorem nomBitlen_pos_of_parOk {par : Par} (h : parOk par = true) : 0 < par.nomBitlen.t ∧ 0 < par.nomBitlen.s := by
  simp only [parOk, Bool.and_eq_true, decide_eq_true_eq, and_assoc] at h
  tauto

/-- `RESET` leaves every decoder idle. -/
theorem resetCore_decodersOk {s : State} (h : parOk s.par = true) : DecodersOk (resetCore s) where
  lengths := lenA_le_of_parOk h
  t a := by
    rw [resetCore_decT]
    exact decTOk_reset _
  s a := by
    rw [resetCore_decS]
    exact decSOk_reset _

/-- `RESET` sets the estimates to nominal. -/
theorem resetCore_estimatesOk {s : State} (h : parOk s.par = true) : EstimatesOk (resetCore s) := by
  obtain ⟨hT, hS⟩ := nomBitlen_pos_of_parOk h
  exact ⟨hT, hS, hT, RlS.InBand.of_nominal hS fun | false => rfl | true => rfl⟩

/-- `RESET` leaves the default rate and the gate's counter 0. -/
theorem resetCore_gateOk (s : State) : GateOk (resetCore s) :=
  (gateOk_iff _).2 ⟨.inl rfl, fun _ => rfl, .zero _ (by simp [resetCore, cfgDecim_cfgDefault])⟩

/-- Settles O52: `RESET` meets every invariant for every `PAR` inside its constraints, and `parInitial` is
inside them. -/
theorem resetMeetsInvariants : Obligations.ResetMeetsInvariants := by
  obtain ⟨hshapes, hsums⟩ := (shaped_iff _).1 (resetCore_shaped (s := State.reset) parOk_parInitial)
  unfold Obligations.ResetMeetsInvariants
  rw [reset_eq_resetCore]
  exact ⟨hshapes, hsums rfl, resetCore_decodersOk parOk_parInitial, resetCore_estimatesOk parOk_parInitial,
    resetCore_gateOk _⟩

end Sys2Proof.Machine
end
